-- ==== Sys2Proof/Word.lean ====
section
/-! DEFINITION. The word types of the machine (R20, R100, R231). -/

namespace Sys2Proof

/-- The 32-bit word: the unit of memory, of the integer registers and of the instructions (R100, R160). -/
abbrev Word := BitVec 32

/-- The 40-bit extended-precision value: exponent 39-32, sign 31, fraction 30-0 (R22, R231). -/
abbrev Ext := BitVec 40

/-- One byte of the canonical memory list. -/
abbrev Byte := BitVec 8

end Sys2Proof
end

