-- ==== Sys2Proof/Config.lean ====
section
/-! DEFINITION. What an implementation fixes and the free values: constants without a body, so that no
proof can see what they are (93_implementation_defined.md). -/

namespace Sys2Proof.Config

/-- ST bits 31-17: the identification value, read only, a constant of the chip (R50, P1). Bit 16, ANALYSIS, is 0
(R742). Log entry 2. -/
opaque stId : BitVec 15

/-- The contents of the on-chip ROM block (R106, P3). Log entry 3. -/
opaque romImage : Nat → BitVec 32

/-- Free words, drawn with the counter `State.free`: what a read the spec leaves open returns (R111, R126,
U13, V3) and what an unstated value is. Log entry 1. -/
opaque freeWord : Nat → BitVec 32

/-- Free 40-bit values, drawn as `freeWord`. Log entry 1. -/
opaque freeExt : Nat → BitVec 40

/-- Free values of the seven condition flags, drawn as `freeWord`. Log entry 1. -/
opaque freeFlags : Nat → BitVec 7

/-- Free yes-or-no choices, drawn as `freeWord`. Log entry 1. -/
opaque freeBit : Nat → Bool

/-- The choice of the last of the eight kept fraction bits of RCPF's mantissa, a function of the input
mantissa: `true` takes the next value above the exact quotient, `false` the one below (R246, P2).
Log entry 4. -/
opaque rcpUp : BitVec 32 → Bool

/-- As `rcpUp`, for RSQRF with an even exponent (R247, P2). Log entry 4. -/
opaque rsq0Up : BitVec 32 → Bool

/-- As `rcpUp`, for RSQRF with an odd exponent (R247, P2). Log entry 4. -/
opaque rsq1Up : BitVec 32 → Bool

/-- The auxiliary register after circular addressing outside its stated conditions, a function of BK, the register,
the step and whether it is subtracted (R196, U16). Log entry 22. -/
opaque circOpen : BitVec 32 → BitVec 32 → BitVec 32 → Bool → BitVec 32

end Sys2Proof.Config
end

