-- ==== Sys2Proof/Syntax.lean ====
section
/-! DEFINITION. The instructions as syntax: one constructor per row of spec/opcode_table.json, with the
operand forms of 30_encoding.md. -/

namespace Sys2Proof

/-- The CPU primary register file, in the order of the register codes' groups (R20). -/
inductive Reg where
  | r (n : Fin 12)   -- R0-R11, extended precision
  | ar (n : Fin 8)   -- AR0-AR7
  | dp | ir0 | ir1 | bk | sp | st | die | iie | iif | rs | re | rc
  deriving DecidableEq, Repr

/-- The expansion register file (R60). -/
inductive XReg where
  | ivtp | tvtp
  deriving DecidableEq, Repr

/-- What an indirect mode adds or subtracts: an unsigned displacement or an index register (R170). -/
inductive Index where
  | disp (d : BitVec 8)
  | ir0 | ir1
  deriving DecidableEq, Repr

/-- An indirect operand (R171 to R197), with the auxiliary register's number. -/
inductive Ind where
  /-- `*+ARn(x)`, `*-ARn(x)` and, with `modify`, `*++ARn(x)`, `*--ARn(x)` (R171-R174, R179-R182, R187-R190). -/
  | pre (sub modify : Bool) (x : Index) (n : Fin 8)
  /-- `*ARn++(x)`, `*ARn--(x)` and, with `circ`, the circular forms (R175-R178, R183-R186, R191-R194). -/
  | post (sub circ : Bool) (x : Index) (n : Fin 8)
  /-- `*ARn` (R195). -/
  | plain (n : Fin 8)
  /-- `*ARn++(IR0)B` (R197). -/
  | bitRev (n : Fin 8)
  deriving DecidableEq, Repr

/-- The general addressing modes of an integer or logical operand: G = 00, 01, 10, 11 (R161, R162). -/
inductive Src where
  | reg (r : Reg) | dir (a : BitVec 16) | ind (i : Ind) | imm (v : BitVec 16)
  deriving DecidableEq, Repr

/-- The general addressing modes of a floating-point operand; the register is one of R0-R11 and the
immediate is a short floating-point number (R163). -/
inductive FSrc where
  | reg (r : Fin 12) | dir (a : BitVec 16) | ind (i : Ind) | imm (v : BitVec 16)
  deriving DecidableEq, Repr

/-- Register, direct or indirect: the byte and half-word group (R303). -/
inductive RSrc where
  | reg (r : Reg) | dir (a : BitVec 16) | ind (i : Ind)
  deriving DecidableEq, Repr

/-- Extended-precision register, direct or indirect: RCPF, RSQRF, TOIEEE (R407, R413, R421). -/
inductive FRSrc where
  | reg (r : Fin 12) | dir (a : BitVec 16) | ind (i : Ind)
  deriving DecidableEq, Repr

/-- Direct or indirect: a memory operand. -/
inductive Mem where
  | dir (a : BitVec 16) | ind (i : Ind)
  deriving DecidableEq, Repr

/-- The operand of NOP: a register on which nothing is done, or an indirect mode (R510). -/
inductive NopSrc where
  | reg (r : Reg) | ind (i : Ind)
  deriving DecidableEq, Repr

/-- The type 2 indirect operand `*+ARn(disp)` with a 5-bit unsigned displacement (R165). -/
structure Disp5 where
  disp : BitVec 5
  n : Fin 8
  deriving DecidableEq, Repr

/-- The two sources of a three-operand instruction, src1 then src2 (R164, R165). -/
inductive Ops3 where
  | rr (s1 : Reg) (s2 : Reg)         -- type 1, T = 00
  | ir (s1 : Ind) (s2 : Reg)         -- type 1, T = 01
  | ri (s1 : Reg) (s2 : Ind)         -- type 1, T = 10
  | ii (s1 : Ind) (s2 : Ind)         -- type 1, T = 11
  | rk (s1 : Reg) (k : BitVec 8)     -- type 2, T = 00
  | rd (s1 : Reg) (s2 : Disp5)       -- type 2, T = 01
  | dk (s1 : Disp5) (k : BitVec 8)   -- type 2, T = 10
  | dd (s1 s2 : Disp5)               -- type 2, T = 11
  deriving DecidableEq, Repr

/-- The two sources of a floating-point three-operand instruction: no immediate (R165). -/
inductive FOps3 where
  | rr (s1 : Fin 12) (s2 : Fin 12)
  | ir (s1 : Ind) (s2 : Fin 12)
  | ri (s1 : Fin 12) (s2 : Ind)
  | ii (s1 : Ind) (s2 : Ind)
  | rd (s1 : Fin 12) (s2 : Disp5)
  | dd (s1 s2 : Disp5)
  deriving DecidableEq, Repr

/-- A conditional branch's target: a register or a 16-bit signed displacement (R490). -/
inductive BTarget where
  | reg (r : Reg) | rel (d : BitVec 16)
  deriving DecidableEq, Repr

/-- The twenty condition codes (R200). -/
inductive Cond where
  | u | lo | ls | hi | hs | eq | ne | lt | le | gt | ge
  | nv | v | nuf | uf | nlv | lv | nluf | luf | zuf
  deriving DecidableEq, Repr

/-- The instructions: one constructor per row of the opcode table. -/
inductive Instr where
  /-- ABSI: absolute value of an integer (R355). -/
  | absi (src : Src) (dst : Reg)
  /-- ADDC: add with carry (R356). -/
  | addc (src : Src) (dst : Reg)
  /-- ADDI: add integers (R358). -/
  | addi (src : Src) (dst : Reg)
  /-- AND: bitwise AND (R359). -/
  | and (src : Src) (dst : Reg)
  /-- ANDN: bitwise AND with complement (R360). -/
  | andn (src : Src) (dst : Reg)
  /-- ASH: arithmetic shift (R361). -/
  | ash (src : Src) (dst : Reg)
  /-- CMPI: compare integers (R363). -/
  | cmpi (src : Src) (dst : Reg)
  /-- LDI: load integer (R316). -/
  | ldi (src : Src) (dst : Reg)
  /-- LSH: logical shift (R367). -/
  | lsh (src : Src) (dst : Reg)
  /-- MPYI: multiply integers (R371). -/
  | mpyi (src : Src) (dst : Reg)
  /-- NEGB: negate with borrow (R401). -/
  | negb (src : Src) (dst : Reg)
  /-- NEGI: negate integer (R403). -/
  | negi (src : Src) (dst : Reg)
  /-- NOT: bitwise complement (R405). -/
  | not (src : Src) (dst : Reg)
  /-- OR: bitwise OR (R406). -/
  | or (src : Src) (dst : Reg)
  /-- SUBB: subtract with borrow (R414). -/
  | subb (src : Src) (dst : Reg)
  /-- SUBC: subtract conditionally (R415). -/
  | subc (src : Src) (dst : Reg)
  /-- SUBI: subtract integers (R417). -/
  | subi (src : Src) (dst : Reg)
  /-- SUBRB: subtract reverse with borrow (R418). -/
  | subrb (src : Src) (dst : Reg)
  /-- SUBRI: subtract reverse (R420). -/
  | subri (src : Src) (dst : Reg)
  /-- TSTB: test bit fields (R422). -/
  | tstb (src : Src) (dst : Reg)
  /-- XOR: bitwise exclusive OR (R423). -/
  | xor (src : Src) (dst : Reg)
  /-- MPYSHI: signed multiply, 32 MSBs (R372). -/
  | mpyshi (src : Src) (dst : Reg)
  /-- MPYUHI: unsigned multiply, 32 MSBs (R373). -/
  | mpyuhi (src : Src) (dst : Reg)
  /-- LDA: load address register (R310). -/
  | lda (src : Src) (dst : Reg)
  /-- FLOAT: convert integer to floating point (R365). -/
  | float (src : Src) (dst : Fin 12)
  /-- ABSF: absolute value of a float (R354). -/
  | absf (src : FSrc) (dst : Fin 12)
  /-- ADDF: add floats (R357). -/
  | addf (src : FSrc) (dst : Fin 12)
  /-- CMPF: compare floats (R362). -/
  | cmpf (src : FSrc) (dst : Fin 12)
  /-- LDE: load exponent (R311). -/
  | lde (src : FSrc) (dst : Fin 12)
  /-- LDF: load float (R313). -/
  | ldf (src : FSrc) (dst : Fin 12)
  /-- LDM: load mantissa (R318). -/
  | ldm (src : FSrc) (dst : Fin 12)
  /-- MPYF: multiply floats (R370). -/
  | mpyf (src : FSrc) (dst : Fin 12)
  /-- NEGF: negate float (R402). -/
  | negf (src : FSrc) (dst : Fin 12)
  /-- NORM: normalize (R404). -/
  | norm (src : FSrc) (dst : Fin 12)
  /-- RND: round (R408). -/
  | rnd (src : FSrc) (dst : Fin 12)
  /-- SUBF: subtract floats (R416). -/
  | subf (src : FSrc) (dst : Fin 12)
  /-- SUBRF: subtract reverse floats (R419). -/
  | subrf (src : FSrc) (dst : Fin 12)
  /-- FIX: convert float to integer (R364). -/
  | fix (src : FSrc) (dst : Reg)
  /-- TOIEEE: convert to IEEE format (R421). -/
  | toieee (src : FRSrc) (dst : Fin 12)
  /-- RCPF: reciprocal estimate (R407). -/
  | rcpf (src : FRSrc) (dst : Fin 12)
  /-- RSQRF: reciprocal square root estimate (R413). -/
  | rsqrf (src : FRSrc) (dst : Fin 12)
  /-- FRIEEE: convert from IEEE format (R366). -/
  | frieee (src : Mem) (dst : Fin 12)
  /-- LDFI: load float, interlocked (R551). -/
  | ldfi (src : Mem) (dst : Fin 12)
  /-- LDII: load integer, interlocked (R552). -/
  | ldii (src : Mem) (dst : Reg)
  /-- SIGI: signal, interlocked (R553). -/
  | sigi (src : Mem) (dst : Reg)
  /-- STF: store float (R326). -/
  | stf (src : Fin 12) (dst : Mem)
  /-- STFI: store float, interlocked (R554). -/
  | stfi (src : Fin 12) (dst : Mem)
  /-- STII: store integer, interlocked (R555). -/
  | stii (src : Reg) (dst : Mem)
  /-- STI: store integer, direct (R327). -/
  | stiDir (src : Reg) (dst : BitVec 16)
  /-- STI: store integer, indirect (R327). -/
  | stiInd (src : Reg) (dst : Ind)
  /-- STIK: store immediate, direct (R328). -/
  | stikDir (k : BitVec 5) (dst : BitVec 16)
  /-- STIK: store immediate, indirect (R328). -/
  | stikInd (k : BitVec 5) (dst : Ind)
  /-- IDLE: idle until interrupt (R509). -/
  | idle
  /-- NOP: no operation, or address update with a dummy read (R510). -/
  | nop (src : NopSrc)
  /-- IACK: interrupt acknowledge (R508). -/
  | iack (src : Mem)
  /-- POP: pop integer (R322). -/
  | pop (dst : Reg)
  /-- POPF: pop float (R323). -/
  | popf (dst : Fin 12)
  /-- PUSH: push integer (R324). -/
  | push (src : Reg)
  /-- PUSHF: push float (R325). -/
  | pushf (src : Fin 12)
  /-- ROL: rotate left (R409). -/
  | rol (dst : Reg)
  /-- ROLC: rotate left through carry (R410). -/
  | rolc (dst : Reg)
  /-- ROR: rotate right (R411). -/
  | ror (dst : Reg)
  /-- RORC: rotate right through carry (R412). -/
  | rorc (dst : Reg)
  /-- RPTS: repeat single instruction (R525). -/
  | rpts (src : Src)
  /-- LDPK: load data page pointer immediate (R321). -/
  | ldpk (k : BitVec 16)
  /-- LDHI: load 16 MSBs immediate (R315). -/
  | ldhi (k : BitVec 16) (dst : Reg)
  /-- LDFcond: load float conditionally (R314). -/
  | ldfcond (cond : Cond) (src : FSrc) (dst : Fin 12)
  /-- LDIcond: load integer conditionally (R317). -/
  | ldicond (cond : Cond) (src : Src) (dst : Reg)
  /-- LDEP: load from the expansion file (R312). -/
  | ldep (src : XReg) (dst : Reg)
  /-- LDPE: load to the expansion file (R320). -/
  | ldpe (src : Reg) (dst : XReg)
  /-- LBb: load byte signed (R304). -/
  | lb (b : Fin 4) (src : RSrc) (dst : Reg)
  /-- LBUb: load byte unsigned (R305). -/
  | lbu (b : Fin 4) (src : RSrc) (dst : Reg)
  /-- LWLct: load word left-shifted (R308). -/
  | lwl (b : Fin 4) (src : RSrc) (dst : Reg)
  /-- LWRct: load word right-shifted (R309). -/
  | lwr (b : Fin 4) (src : RSrc) (dst : Reg)
  /-- MBct: merge byte (R368). -/
  | mb (b : Fin 4) (src : RSrc) (dst : Reg)
  /-- LHw: load half-word signed (R306). -/
  | lh (h : Fin 2) (src : RSrc) (dst : Reg)
  /-- LHUw: load half-word unsigned (R307). -/
  | lhu (h : Fin 2) (src : RSrc) (dst : Reg)
  /-- MHct: merge half-word (R369). -/
  | mh (h : Fin 2) (src : RSrc) (dst : Reg)
  /-- ADDC3: add with carry, three operands (R452). -/
  | addc3 (ops : Ops3) (dst : Reg)
  /-- ADDI3: add integers, three operands (R454). -/
  | addi3 (ops : Ops3) (dst : Reg)
  /-- AND3: AND, three operands (R455). -/
  | and3 (ops : Ops3) (dst : Reg)
  /-- ANDN3: AND with complement, three operands (R456). -/
  | andn3 (ops : Ops3) (dst : Reg)
  /-- ASH3: arithmetic shift, three operands (R457). -/
  | ash3 (ops : Ops3) (dst : Reg)
  /-- LSH3: logical shift, three operands (R460). -/
  | lsh3 (ops : Ops3) (dst : Reg)
  /-- MPYI3: multiply integers, three operands (R462). -/
  | mpyi3 (ops : Ops3) (dst : Reg)
  /-- OR3: OR, three operands (R465). -/
  | or3 (ops : Ops3) (dst : Reg)
  /-- SUBB3: subtract with borrow, three operands (R466). -/
  | subb3 (ops : Ops3) (dst : Reg)
  /-- SUBI3: subtract integers, three operands (R468). -/
  | subi3 (ops : Ops3) (dst : Reg)
  /-- XOR3: exclusive OR, three operands (R470). -/
  | xor3 (ops : Ops3) (dst : Reg)
  /-- MPYSHI3: signed multiply, 32 MSBs, three operands (R463). -/
  | mpyshi3 (ops : Ops3) (dst : Reg)
  /-- MPYUHI3: unsigned multiply, 32 MSBs, three operands (R464). -/
  | mpyuhi3 (ops : Ops3) (dst : Reg)
  /-- CMPI3: compare integers, three operands (R459). -/
  | cmpi3 (ops : Ops3)
  /-- TSTB3: test bit fields, three operands (R469). -/
  | tstb3 (ops : Ops3)
  /-- ADDF3: add floats, three operands (R453). -/
  | addf3 (ops : FOps3) (dst : Fin 12)
  /-- MPYF3: multiply floats, three operands (R461). -/
  | mpyf3 (ops : FOps3) (dst : Fin 12)
  /-- SUBF3: subtract floats, three operands (R467). -/
  | subf3 (ops : FOps3) (dst : Fin 12)
  /-- CMPF3: compare floats, three operands (R458). -/
  | cmpf3 (ops : FOps3)
  /-- Bcond: branch conditionally (R493). -/
  | bcond (cond : Cond) (target : BTarget)
  /-- BcondD: branch conditionally, delayed (R496). -/
  | bcondD (cond : Cond) (target : BTarget)
  /-- BcondAT: branch delayed, annul if true (R495). -/
  | bcondAT (cond : Cond) (target : BTarget)
  /-- BcondAF: branch delayed, annul if false (R494). -/
  | bcondAF (cond : Cond) (target : BTarget)
  /-- CALLcond: call conditionally (R502). -/
  | callcond (cond : Cond) (target : BTarget)
  /-- LAJcond: link and jump conditionally (R506). -/
  | lajcond (cond : Cond) (target : BTarget)
  /-- DBcond: decrement and branch (R503). -/
  | dbcond (n : Fin 8) (cond : Cond) (target : BTarget)
  /-- DBcondD: decrement and branch, delayed (R504). -/
  | dbcondD (n : Fin 8) (cond : Cond) (target : BTarget)
  /-- BR: branch (R499). -/
  | br (disp : BitVec 24)
  /-- BRD: branch delayed (R500). -/
  | brd (disp : BitVec 24)
  /-- CALL: call (R501). -/
  | call (disp : BitVec 24)
  /-- LAJ: link and jump (R505). -/
  | laj (disp : BitVec 24)
  /-- RPTB: repeat block (R523). -/
  | rptbRel (disp : BitVec 24)
  /-- RPTBD: repeat block delayed (R524). -/
  | rptbdRel (disp : BitVec 24)
  /-- RPTB: repeat block, end address in a register (R523). -/
  | rptbReg (src : Reg)
  /-- RPTBD: repeat block delayed, end address in a register (R524). -/
  | rptbdReg (src : Reg)
  /-- SWI: software (emulator) interrupt (R526). -/
  | swi
  /-- TRAPcond: trap conditionally (R527). -/
  | trapcond (cond : Cond) (n : BitVec 9)
  /-- LATcond: link and trap conditionally (R507). -/
  | latcond (cond : Cond) (n : BitVec 9)
  /-- RETIcond: return from interrupt or trap (R520). -/
  | reticond (cond : Cond)
  /-- RETIcondD: return from interrupt or trap, delayed (R521). -/
  | reticondD (cond : Cond)
  /-- RETScond: return from subroutine (R522). -/
  | retscond (cond : Cond)
  /-- STF||STF: two float stores (R581). -/
  | stfStf (src2 src1 : Fin 8) (dst1 dst2 : Ind)
  /-- STI||STI: two integer stores (R582). -/
  | stiSti (src2 src1 : Fin 8) (dst1 dst2 : Ind)
  /-- LDF||LDF: two float loads (R570). -/
  | ldfLdf (dst2 dst1 : Fin 8) (src2 src1 : Ind)
  /-- LDI||LDI: two integer loads (R572). -/
  | ldiLdi (dst2 dst1 : Fin 8) (src2 src1 : Ind)
  /-- ABSF||STF: operation with store (R561). -/
  | absfStf (dst1 src3 : Fin 8) (dst2 src2 : Ind)
  /-- ABSI||STI: operation with store (R562). -/
  | absiSti (dst1 src3 : Fin 8) (dst2 src2 : Ind)
  /-- FIX||STI: operation with store (R567). -/
  | fixSti (dst1 src3 : Fin 8) (dst2 src2 : Ind)
  /-- FLOAT||STF: operation with store (R568). -/
  | floatStf (dst1 src3 : Fin 8) (dst2 src2 : Ind)
  /-- LDF||STF: operation with store (R571). -/
  | ldfStf (dst1 src3 : Fin 8) (dst2 src2 : Ind)
  /-- LDI||STI: operation with store (R573). -/
  | ldiSti (dst1 src3 : Fin 8) (dst2 src2 : Ind)
  /-- NEGF||STF: operation with store (R577). -/
  | negfStf (dst1 src3 : Fin 8) (dst2 src2 : Ind)
  /-- NEGI||STI: operation with store (R578). -/
  | negiSti (dst1 src3 : Fin 8) (dst2 src2 : Ind)
  /-- NOT||STI: operation with store (R579). -/
  | notSti (dst1 src3 : Fin 8) (dst2 src2 : Ind)
  /-- TOIEEE||STF: operation with store (R585). -/
  | toieeeStf (dst1 src3 : Fin 8) (dst2 src2 : Ind)
  /-- FRIEEE||STF: operation with store (R569). -/
  | frieeeStf (dst1 src3 : Fin 8) (dst2 src2 : Ind)
  /-- ADDF3||STF: operation with store (R563). -/
  | addf3Stf (dst1 src1 src3 : Fin 8) (dst2 src2 : Ind)
  /-- ADDI3||STI: operation with store (R564). -/
  | addi3Sti (dst1 src1 src3 : Fin 8) (dst2 src2 : Ind)
  /-- AND3||STI: operation with store (R565). -/
  | and3Sti (dst1 src1 src3 : Fin 8) (dst2 src2 : Ind)
  /-- ASH3||STI: operation with store (R566). -/
  | ash3Sti (dst1 src1 src3 : Fin 8) (dst2 src2 : Ind)
  /-- LSH3||STI: operation with store (R574). -/
  | lsh3Sti (dst1 src1 src3 : Fin 8) (dst2 src2 : Ind)
  /-- MPYF3||STF: operation with store (R575). -/
  | mpyf3Stf (dst1 src1 src3 : Fin 8) (dst2 src2 : Ind)
  /-- MPYI3||STI: operation with store (R576). -/
  | mpyi3Sti (dst1 src1 src3 : Fin 8) (dst2 src2 : Ind)
  /-- OR3||STI: operation with store (R580). -/
  | or3Sti (dst1 src1 src3 : Fin 8) (dst2 src2 : Ind)
  /-- SUBF3||STF: operation with store (R583). -/
  | subf3Stf (dst1 src1 src3 : Fin 8) (dst2 src2 : Ind)
  /-- SUBI3||STI: operation with store (R584). -/
  | subi3Sti (dst1 src1 src3 : Fin 8) (dst2 src2 : Ind)
  /-- XOR3||STI: operation with store (R586). -/
  | xor3Sti (dst1 src1 src3 : Fin 8) (dst2 src2 : Ind)
  /-- MPYF3||ADDF3: multiply with ALU operation (R591). -/
  | mpyf3Addf3 (p : Fin 4) (d1 d2 : Fin 2) (src1 src2 : Fin 8) (src3 src4 : Ind)
  /-- MPYF3||SUBF3: multiply with ALU operation (R592). -/
  | mpyf3Subf3 (p : Fin 4) (d1 d2 : Fin 2) (src1 src2 : Fin 8) (src3 src4 : Ind)
  /-- MPYI3||ADDI3: multiply with ALU operation (R593). -/
  | mpyi3Addi3 (p : Fin 4) (d1 d2 : Fin 2) (src1 src2 : Fin 8) (src3 src4 : Ind)
  /-- MPYI3||SUBI3: multiply with ALU operation (R594). -/
  | mpyi3Subi3 (p : Fin 4) (d1 d2 : Fin 2) (src1 src2 : Fin 8) (src3 src4 : Ind)
  deriving DecidableEq, Repr

end Sys2Proof
end

