-- ==== Sys2Proof/WellFormed.lean ====
section
/-! DEFINITION. Well-formed instructions: the operand checks that the types do not make (R165, R199, R310). -/

namespace Sys2Proof

/-- The 8-bit indirect field has no displacement: 1 is implied (R164, R199). -/
def Index.implied : Index → Bool
  | .disp d => d == 1
  | .ir0 => true
  | .ir1 => true

/-- An indirect operand that fits the 8-bit field (R199). -/
def Ind.wf8 : Ind → Bool
  | .pre _ _ x _ => x.implied
  | .post _ _ x _ => x.implied
  | .plain _ => true
  | .bitRev _ => true

/-- The three-operand sources (R164). -/
def Ops3.wf : Ops3 → Bool
  | .rr _ _ => true
  | .ir a _ => a.wf8
  | .ri _ b => b.wf8
  | .ii a b => a.wf8 && b.wf8
  | .rk _ _ => true
  | .rd _ _ => true
  | .dk _ _ => true
  | .dd _ _ => true

/-- The floating-point three-operand sources (R164). -/
def FOps3.wf : FOps3 → Bool
  | .rr _ _ => true
  | .ir a _ => a.wf8
  | .ri _ b => b.wf8
  | .ii a b => a.wf8 && b.wf8
  | .rd _ _ => true
  | .dd _ _ => true

/-- The thirteen address registers, the only destinations of LDA (R310). -/
def Reg.isAddress : Reg → Bool
  | .ar _ => true
  | .ir0 => true
  | .ir1 => true
  | .dp => true
  | .bk => true
  | .sp => true
  | .r _ => false
  | .st => false
  | .die => false
  | .iie => false
  | .iif => false
  | .rs => false
  | .re => false
  | .rc => false

/-- The checks of an instruction's operands. -/
def Instr.wf : Instr → Bool
  | .absi _ _ => true
  | .addc _ _ => true
  | .addi _ _ => true
  | .and _ _ => true
  | .andn _ _ => true
  | .ash _ _ => true
  | .cmpi _ _ => true
  | .ldi _ _ => true
  | .lsh _ _ => true
  | .mpyi _ _ => true
  | .negb _ _ => true
  | .negi _ _ => true
  | .not _ _ => true
  | .or _ _ => true
  | .subb _ _ => true
  | .subc _ _ => true
  | .subi _ _ => true
  | .subrb _ _ => true
  | .subri _ _ => true
  | .tstb _ _ => true
  | .xor _ _ => true
  | .mpyshi _ _ => true
  | .mpyuhi _ _ => true
  | .lda _ dst => dst.isAddress
  | .float _ _ => true
  | .absf _ _ => true
  | .addf _ _ => true
  | .cmpf _ _ => true
  | .lde _ _ => true
  | .ldf _ _ => true
  | .ldm _ _ => true
  | .mpyf _ _ => true
  | .negf _ _ => true
  | .norm _ _ => true
  | .rnd _ _ => true
  | .subf _ _ => true
  | .subrf _ _ => true
  | .fix _ _ => true
  | .toieee _ _ => true
  | .rcpf _ _ => true
  | .rsqrf _ _ => true
  | .frieee _ _ => true
  | .ldfi _ _ => true
  | .ldii _ _ => true
  | .sigi _ _ => true
  | .stf _ _ => true
  | .stfi _ _ => true
  | .stii _ _ => true
  | .stiDir _ _ => true
  | .stiInd _ _ => true
  | .stikDir _ _ => true
  | .stikInd _ _ => true
  | .idle => true
  | .nop _ => true
  | .iack _ => true
  | .pop _ => true
  | .popf _ => true
  | .push _ => true
  | .pushf _ => true
  | .rol _ => true
  | .rolc _ => true
  | .ror _ => true
  | .rorc _ => true
  | .rpts _ => true
  | .ldpk _ => true
  | .ldhi _ _ => true
  | .ldfcond _ _ _ => true
  | .ldicond _ _ _ => true
  | .ldep _ _ => true
  | .ldpe _ _ => true
  | .lb _ _ _ => true
  | .lbu _ _ _ => true
  | .lwl _ _ _ => true
  | .lwr _ _ _ => true
  | .mb _ _ _ => true
  | .lh _ _ _ => true
  | .lhu _ _ _ => true
  | .mh _ _ _ => true
  | .addc3 ops _ => ops.wf
  | .addi3 ops _ => ops.wf
  | .and3 ops _ => ops.wf
  | .andn3 ops _ => ops.wf
  | .ash3 ops _ => ops.wf
  | .lsh3 ops _ => ops.wf
  | .mpyi3 ops _ => ops.wf
  | .or3 ops _ => ops.wf
  | .subb3 ops _ => ops.wf
  | .subi3 ops _ => ops.wf
  | .xor3 ops _ => ops.wf
  | .mpyshi3 ops _ => ops.wf
  | .mpyuhi3 ops _ => ops.wf
  | .cmpi3 ops => ops.wf
  | .tstb3 ops => ops.wf
  | .addf3 ops _ => ops.wf
  | .mpyf3 ops _ => ops.wf
  | .subf3 ops _ => ops.wf
  | .cmpf3 ops => ops.wf
  | .bcond _ _ => true
  | .bcondD _ _ => true
  | .bcondAT _ _ => true
  | .bcondAF _ _ => true
  | .callcond _ _ => true
  | .lajcond _ _ => true
  | .dbcond _ _ _ => true
  | .dbcondD _ _ _ => true
  | .br _ => true
  | .brd _ => true
  | .call _ => true
  | .laj _ => true
  | .rptbRel _ => true
  | .rptbdRel _ => true
  | .rptbReg _ => true
  | .rptbdReg _ => true
  | .swi => true
  | .trapcond _ _ => true
  | .latcond _ _ => true
  | .reticond _ => true
  | .reticondD _ => true
  | .retscond _ => true
  | .stfStf _ _ dst1 dst2 => dst1.wf8 && dst2.wf8
  | .stiSti _ _ dst1 dst2 => dst1.wf8 && dst2.wf8
  | .ldfLdf _ _ src2 src1 => src2.wf8 && src1.wf8
  | .ldiLdi _ _ src2 src1 => src2.wf8 && src1.wf8
  | .absfStf _ _ dst2 src2 => dst2.wf8 && src2.wf8
  | .absiSti _ _ dst2 src2 => dst2.wf8 && src2.wf8
  | .fixSti _ _ dst2 src2 => dst2.wf8 && src2.wf8
  | .floatStf _ _ dst2 src2 => dst2.wf8 && src2.wf8
  | .ldfStf _ _ dst2 src2 => dst2.wf8 && src2.wf8
  | .ldiSti _ _ dst2 src2 => dst2.wf8 && src2.wf8
  | .negfStf _ _ dst2 src2 => dst2.wf8 && src2.wf8
  | .negiSti _ _ dst2 src2 => dst2.wf8 && src2.wf8
  | .notSti _ _ dst2 src2 => dst2.wf8 && src2.wf8
  | .toieeeStf _ _ dst2 src2 => dst2.wf8 && src2.wf8
  | .frieeeStf _ _ dst2 src2 => dst2.wf8 && src2.wf8
  | .addf3Stf _ _ _ dst2 src2 => dst2.wf8 && src2.wf8
  | .addi3Sti _ _ _ dst2 src2 => dst2.wf8 && src2.wf8
  | .and3Sti _ _ _ dst2 src2 => dst2.wf8 && src2.wf8
  | .ash3Sti _ _ _ dst2 src2 => dst2.wf8 && src2.wf8
  | .lsh3Sti _ _ _ dst2 src2 => dst2.wf8 && src2.wf8
  | .mpyf3Stf _ _ _ dst2 src2 => dst2.wf8 && src2.wf8
  | .mpyi3Sti _ _ _ dst2 src2 => dst2.wf8 && src2.wf8
  | .or3Sti _ _ _ dst2 src2 => dst2.wf8 && src2.wf8
  | .subf3Stf _ _ _ dst2 src2 => dst2.wf8 && src2.wf8
  | .subi3Sti _ _ _ dst2 src2 => dst2.wf8 && src2.wf8
  | .xor3Sti _ _ _ dst2 src2 => dst2.wf8 && src2.wf8
  | .mpyf3Addf3 _ _ _ _ _ src3 src4 => src3.wf8 && src4.wf8
  | .mpyf3Subf3 _ _ _ _ _ src3 src4 => src3.wf8 && src4.wf8
  | .mpyi3Addi3 _ _ _ _ _ src3 src4 => src3.wf8 && src4.wf8
  | .mpyi3Subi3 _ _ _ _ _ src3 src4 => src3.wf8 && src4.wf8

end Sys2Proof
end

