-- ==== Sys2Proof/Decode.lean ====
section
/-! DEFINITION. The decoder, total on every word, and after it the encoder (30_encoding.md). Bits that the model
reads in no field are ignored: by the spec's own decision D9 in the register source of R161 and D16 in an unused
destination, by R170, R195 and R197 the displacement bits of a mode without displacement; elsewhere this is a DESIGN
CHOICE (log entry 48), marked where it is made. -/

namespace Sys2Proof

/-- Why a word is not an instruction (R160, U6). -/
inductive DecodeError where
  | noRow          -- the word matches no row of the opcode table
  | badMode        -- the G or T field is not a mode of this instruction (R163, R303, R510, R551)
  | badIndirect    -- mod 11010 to 11111 (R198)
  | badCond        -- condition codes 01011 and 10101 to 11111 (R200)
  | badRegister    -- a register the instruction may not name (R21, R310)
  | badExpansion   -- an expansion-register code other than 0 and 1 (R312, R320)
  deriving DecidableEq, Repr

/-- `len` bits of the word from bit `lo` up. -/
abbrev fld (w : Word) (lo len : Nat) : BitVec len := w.extractLsb' lo len

/-! ### Fields -/

/-- The register of a 5-bit register code (R20). -/
def regOf (c : BitVec 5) : Reg :=
  match c.toNat with
  | 0 => .r 0 | 1 => .r 1 | 2 => .r 2 | 3 => .r 3 | 4 => .r 4 | 5 => .r 5 | 6 => .r 6 | 7 => .r 7
  | 8 => .ar 0 | 9 => .ar 1 | 10 => .ar 2 | 11 => .ar 3 | 12 => .ar 4 | 13 => .ar 5 | 14 => .ar 6 | 15 => .ar 7
  | 16 => .dp | 17 => .ir0 | 18 => .ir1 | 19 => .bk | 20 => .sp | 21 => .st | 22 => .die | 23 => .iie
  | 24 => .iif | 25 => .rs | 26 => .re | 27 => .rc
  | 28 => .r 8 | 29 => .r 9 | 30 => .r 10 | _ => .r 11

/-- The code of an extended-precision register (R20). -/
def extCode (n : Fin 12) : BitVec 5 :=
  if n.val < 8 then BitVec.ofNat 5 n.val else BitVec.ofNat 5 (n.val + 20)

/-- The register code of a register (R20). -/
def Reg.code : Reg → BitVec 5
  | .r n => extCode n
  | .ar n => BitVec.ofNat 5 (n.val + 8)
  | .dp => 16#5 | .ir0 => 17#5 | .ir1 => 18#5 | .bk => 19#5 | .sp => 20#5 | .st => 21#5 | .die => 22#5
  | .iie => 23#5 | .iif => 24#5 | .rs => 25#5 | .re => 26#5 | .rc => 27#5

/-- The extended-precision register of a code; the other codes are not legal here (R21, U6). -/
def extOf (c : BitVec 5) : Except DecodeError (Fin 12) :=
  match regOf c with
  | .r n => .ok n
  | _ => .error .badRegister

/-- The expansion register of a code (R60). -/
def xregOf (c : BitVec 5) : Except DecodeError XReg :=
  match c.toNat with
  | 0 => .ok .ivtp
  | 1 => .ok .tvtp
  | _ => .error .badExpansion

/-- The code of an expansion register (R60). -/
def XReg.code : XReg → BitVec 5
  | .ivtp => 0#5
  | .tvtp => 1#5

/-- The condition of a code (R200). -/
def condOf (c : BitVec 5) : Except DecodeError Cond :=
  match c.toNat with
  | 0 => .ok .u | 1 => .ok .lo | 2 => .ok .ls | 3 => .ok .hi | 4 => .ok .hs | 5 => .ok .eq | 6 => .ok .ne
  | 7 => .ok .lt | 8 => .ok .le | 9 => .ok .gt | 10 => .ok .ge | 12 => .ok .nv | 13 => .ok .v | 14 => .ok .nuf
  | 15 => .ok .uf | 16 => .ok .nlv | 17 => .ok .lv | 18 => .ok .nluf | 19 => .ok .luf | 20 => .ok .zuf
  | _ => .error .badCond

/-- The code of a condition (R200). -/
def Cond.code : Cond → BitVec 5
  | .u => 0#5 | .lo => 1#5 | .ls => 2#5 | .hi => 3#5 | .hs => 4#5 | .eq => 5#5 | .ne => 6#5
  | .lt => 7#5 | .le => 8#5 | .gt => 9#5 | .ge => 10#5 | .nv => 12#5 | .v => 13#5 | .nuf => 14#5
  | .uf => 15#5 | .nlv => 16#5 | .lv => 17#5 | .nluf => 18#5 | .luf => 19#5 | .zuf => 20#5

/-- The index source of a `mod` field's upper two bits (R170). -/
def indexOf (hi : BitVec 2) (d : BitVec 8) : Option Index :=
  match hi.toFin with
  | 0 => some (.disp d)
  | 1 => some .ir0
  | 2 => some .ir1
  | 3 => none

/-- The indirect mode of a `mod` field (R171 to R198). -/
def indOf (m : BitVec 5) (n : BitVec 3) (d : BitVec 8) : Except DecodeError Ind :=
  match indexOf (m.extractLsb' 3 2) d with
  | some x =>
    if m.getLsbD 2 then .ok (.post (m.getLsbD 0) (m.getLsbD 1) x n.toFin)
    else .ok (.pre (m.getLsbD 0) (m.getLsbD 1) x n.toFin)
  | none =>
    match (m.extractLsb' 0 3).toFin with
    | 0 => .ok (.plain n.toFin)
    | 1 => .ok (.bitRev n.toFin)
    | _ => .error .badIndirect

/-- The upper two bits of `mod` for an index source (R170). -/
def Index.hi : Index → BitVec 2
  | .disp _ => 0#2
  | .ir0 => 1#2
  | .ir1 => 2#2

/-- The displacement field of an index source; 0 where the mode has none. -/
def Index.field : Index → BitVec 8
  | .disp d => d
  | .ir0 => 0#8
  | .ir1 => 0#8

/-- The `mod` field of an indirect mode (R171 to R197). -/
def Ind.mod : Ind → BitVec 5
  | .pre s m x _ => x.hi ++ 0#1 ++ BitVec.ofBool m ++ BitVec.ofBool s
  | .post s c x _ => x.hi ++ 1#1 ++ BitVec.ofBool c ++ BitVec.ofBool s
  | .plain _ => 24#5
  | .bitRev _ => 25#5

/-- The auxiliary register of an indirect mode. -/
def Ind.num : Ind → Fin 8
  | .pre _ _ _ n => n
  | .post _ _ _ n => n
  | .plain n => n
  | .bitRev n => n

/-- The displacement field of an indirect mode. -/
def Ind.disp : Ind → BitVec 8
  | .pre _ _ x _ => x.field
  | .post _ _ x _ => x.field
  | .plain _ => 0#8
  | .bitRev _ => 0#8

/-- The 16-bit indirect field of the general format (R170). The displacement bits of a mode without displacement are
not used (R170, R195, R197). -/
def ind16 (f : BitVec 16) : Except DecodeError Ind := indOf (f.extractLsb' 11 5) (f.extractLsb' 8 3) (f.extractLsb' 0 8)

/-- The 8-bit indirect field: the displacement 1 is implied (R199). -/
def ind8 (f : BitVec 8) : Except DecodeError Ind := indOf (f.extractLsb' 3 5) (f.extractLsb' 0 3) 1#8

/-- The bits of an auxiliary-register number. -/
def arBits (n : Fin 8) : BitVec 3 := BitVec.ofFin n

/-- Encoding of `ind16`. -/
def Ind.field16 (i : Ind) : BitVec 16 := i.mod ++ arBits i.num ++ i.disp

/-- Encoding of `ind8`. -/
def Ind.field8 (i : Ind) : BitVec 8 := i.mod ++ arBits i.num

/-- The type 2 indirect field (R165). -/
def disp5 (f : BitVec 8) : Disp5 := ⟨f.extractLsb' 3 5, (f.extractLsb' 0 3).toFin⟩

/-- Encoding of `disp5`. -/
def Disp5.field (d : Disp5) : BitVec 8 := d.disp ++ arBits d.n

/-! ### Operands of the general format (R161) -/

/-- The integer source of a general-format word (R162). Bits 15-5 of a register source, printed as zeros, are ignored
(the spec's own decision D9, log entry 48). -/
def srcOf (w : Word) : Except DecodeError Src :=
  match (fld w 21 2).toFin with
  | 0 => .ok (.reg (regOf (fld w 0 5)))
  | 1 => .ok (.dir (fld w 0 16))
  | 2 => (ind16 (fld w 0 16)).map .ind
  | 3 => .ok (.imm (fld w 0 16))

/-- The floating-point source of a general-format word (R163). Bits 15-5 of a register source are ignored (the spec's
own decision D9, log entry 48). -/
def fsrcOf (w : Word) : Except DecodeError FSrc :=
  match (fld w 21 2).toFin with
  | 0 => (extOf (fld w 0 5)).map .reg
  | 1 => .ok (.dir (fld w 0 16))
  | 2 => (ind16 (fld w 0 16)).map .ind
  | 3 => .ok (.imm (fld w 0 16))

/-- Register, direct or indirect (R303). DESIGN CHOICE, log entry 48: bits 15-5 of a register source, of which R303
says nothing, are ignored. -/
def rsrcOf (w : Word) : Except DecodeError RSrc :=
  match (fld w 21 2).toFin with
  | 0 => .ok (.reg (regOf (fld w 0 5)))
  | 1 => .ok (.dir (fld w 0 16))
  | 2 => (ind16 (fld w 0 16)).map .ind
  | 3 => .error .badMode

/-- Extended-precision register, direct or indirect (R407, R413, R421). Bits 15-5 of a register source are ignored
(the spec's own decision D9, log entry 48). -/
def frsrcOf (w : Word) : Except DecodeError FRSrc :=
  match (fld w 21 2).toFin with
  | 0 => (extOf (fld w 0 5)).map .reg
  | 1 => .ok (.dir (fld w 0 16))
  | 2 => (ind16 (fld w 0 16)).map .ind
  | 3 => .error .badMode

/-- Direct or indirect (R326, R366, R508, R551). DESIGN CHOICE, log entry 48: bits 20-16 of IACK, stated as 0 (R508),
are ignored. -/
def memOf (w : Word) : Except DecodeError Mem :=
  match (fld w 21 2).toFin with
  | 1 => .ok (.dir (fld w 0 16))
  | 2 => (ind16 (fld w 0 16)).map .ind
  | _ => .error .badMode

/-- Register or indirect (R510). Bits 15-5 of a register source are ignored (the spec's own decision D9); DESIGN CHOICE,
log entry 48: so are bits 20-16 of NOP, stated as 0. -/
def nopOf (w : Word) : Except DecodeError NopSrc :=
  match (fld w 21 2).toFin with
  | 0 => .ok (.reg (regOf (fld w 0 5)))
  | 2 => (ind16 (fld w 0 16)).map .ind
  | _ => .error .badMode

/-- The destination register, bits 20-16. -/
abbrev dstOf (w : Word) : Reg := regOf (fld w 16 5)

/-- The extended-precision destination register, bits 20-16. -/
abbrev fdstOf (w : Word) : Except DecodeError (Fin 12) := extOf (fld w 16 5)

/-- Pair two field decoders. -/
def both {α β γ : Type} (a : Except DecodeError α) (b : Except DecodeError β) (k : α → β → γ) :
    Except DecodeError γ :=
  match a, b with
  | .ok x, .ok y => .ok (k x y)
  | .error e, _ => .error e
  | .ok _, .error e => .error e

/-- A row that also fixes some bits: the word matches it only where they hold. -/
def guarded {α : Type} (c : Bool) (e : DecodeError) (r : Except DecodeError α) : Except DecodeError α :=
  if c then r else .error e

/-! ### The formats -/

/-- The general format, `iw[31:29] = 000` (R161), by its operation code. -/
def decodeGeneral (w : Word) : Except DecodeError Instr :=
  match (fld w 23 6).toNat with
  | 0 => both (fsrcOf w) (fdstOf w) .absf
  | 1 => (srcOf w).map fun s => .absi s (dstOf w)
  | 2 => (srcOf w).map fun s => .addc s (dstOf w)
  | 3 => both (fsrcOf w) (fdstOf w) .addf
  | 4 => (srcOf w).map fun s => .addi s (dstOf w)
  | 5 => (srcOf w).map fun s => .and s (dstOf w)
  | 6 => (srcOf w).map fun s => .andn s (dstOf w)
  | 7 => (srcOf w).map fun s => .ash s (dstOf w)
  | 8 => both (fsrcOf w) (fdstOf w) .cmpf
  | 9 => (srcOf w).map fun s => .cmpi s (dstOf w)
  | 10 => (fsrcOf w).map fun s => .fix s (dstOf w)
  | 11 => both (srcOf w) (fdstOf w) .float
  | 12 => guarded (fld w 0 23 == 0) .noRow (.ok .idle)
  | 13 => both (fsrcOf w) (fdstOf w) .lde
  | 14 => both (fsrcOf w) (fdstOf w) .ldf
  | 15 => both (memOf w) (fdstOf w) .ldfi
  | 16 => (srcOf w).map fun s => .ldi s (dstOf w)
  | 17 => (memOf w).map fun m => .ldii m (dstOf w)
  | 18 => both (fsrcOf w) (fdstOf w) .ldm
  | 19 => (srcOf w).map fun s => .lsh s (dstOf w)
  | 20 => both (fsrcOf w) (fdstOf w) .mpyf
  | 21 => (srcOf w).map fun s => .mpyi s (dstOf w)
  | 22 => (srcOf w).map fun s => .negb s (dstOf w)
  | 23 => both (fsrcOf w) (fdstOf w) .negf
  | 24 => (srcOf w).map fun s => .negi s (dstOf w)
  | 25 => (nopOf w).map .nop
  | 26 => both (fsrcOf w) (fdstOf w) .norm
  | 27 => (srcOf w).map fun s => .not s (dstOf w)
  | 28 => guarded (fld w 21 2 == 1 && fld w 0 16 == 0) .noRow (.ok (.pop (dstOf w)))
  | 29 => guarded (fld w 21 2 == 1 && fld w 0 16 == 0) .noRow ((fdstOf w).map .popf)
  | 30 => guarded (fld w 21 2 == 1 && fld w 0 16 == 0) .noRow (.ok (.push (dstOf w)))
  | 31 => guarded (fld w 21 2 == 1 && fld w 0 16 == 0) .noRow ((fdstOf w).map .pushf)
  | 32 => (srcOf w).map fun s => .or s (dstOf w)
  | 34 => both (fsrcOf w) (fdstOf w) .rnd
  | 35 => guarded (fld w 21 2 == 3 && fld w 0 16 == 1) .noRow (.ok (.rol (dstOf w)))
  | 36 => guarded (fld w 21 2 == 3 && fld w 0 16 == 1) .noRow (.ok (.rolc (dstOf w)))
  | 37 => guarded (fld w 21 2 == 3 && fld w 0 16 == 0xFFFF) .noRow (.ok (.ror (dstOf w)))
  | 38 => guarded (fld w 21 2 == 3 && fld w 0 16 == 0xFFFF) .noRow (.ok (.rorc (dstOf w)))
  | 39 => guarded (fld w 16 5 == 27) .noRow ((srcOf w).map .rpts)
  | 40 => both (fdstOf w) (memOf w) .stf
  | 41 => both (fdstOf w) (memOf w) .stfi
  | 42 => 
    match (fld w 21 2).toFin with
    | 0 => .ok (.stikDir (fld w 16 5) (fld w 0 16))
    | 1 => .ok (.stiDir (dstOf w) (fld w 0 16))
    | 2 => (ind16 (fld w 0 16)).map fun i => .stiInd (dstOf w) i
    | 3 => (ind16 (fld w 0 16)).map fun i => .stikInd (fld w 16 5) i
  | 43 => (memOf w).map fun m => .stii (dstOf w) m
  | 44 => (memOf w).map fun m => .sigi m (dstOf w)
  | 45 => (srcOf w).map fun s => .subb s (dstOf w)
  | 46 => (srcOf w).map fun s => .subc s (dstOf w)
  | 47 => both (fsrcOf w) (fdstOf w) .subf
  | 48 => (srcOf w).map fun s => .subi s (dstOf w)
  | 49 => (srcOf w).map fun s => .subrb s (dstOf w)
  | 50 => both (fsrcOf w) (fdstOf w) .subrf
  | 51 => (srcOf w).map fun s => .subri s (dstOf w)
  | 52 => (srcOf w).map fun s => .tstb s (dstOf w)
  | 53 => (srcOf w).map fun s => .xor s (dstOf w)
  | 54 => (memOf w).map .iack
  | 55 => both (frsrcOf w) (fdstOf w) .toieee
  | 56 => both (memOf w) (fdstOf w) .frieee
  | 57 => both (frsrcOf w) (fdstOf w) .rcpf
  | 58 => both (frsrcOf w) (fdstOf w) .rsqrf
  | 59 => (srcOf w).map fun s => .mpyshi s (dstOf w)
  | 60 => (srcOf w).map fun s => .mpyuhi s (dstOf w)
  | 61 => guarded (dstOf w).isAddress .badRegister ((srcOf w).map fun s => .lda s (dstOf w))
  | 62 => guarded (fld w 21 2 == 3 && fld w 16 5 == 16) .noRow (.ok (.ldpk (fld w 0 16)))
  | 63 => guarded (fld w 21 2 == 3) .noRow (.ok (.ldhi (fld w 0 16) (dstOf w)))
  | _ => .error .noRow

/-- The type 1 three-operand sources (R164, R450). DESIGN CHOICE, log entry 48: in a register field bits 15-13 (src1)
and 7-5 (src2), printed as 000, are ignored, so a word in which they are not 0 decodes as if they were; D9 decides this
for the register source of R161 alone. -/
def ops1 (w : Word) : Except DecodeError Ops3 :=
  match (fld w 21 2).toFin with
  | 0 => .ok (.rr (regOf (fld w 8 5)) (regOf (fld w 0 5)))
  | 1 => (ind8 (fld w 8 8)).map fun i => .ir i (regOf (fld w 0 5))
  | 2 => (ind8 (fld w 0 8)).map fun i => .ri (regOf (fld w 8 5)) i
  | 3 => both (ind8 (fld w 8 8)) (ind8 (fld w 0 8)) .ii

/-- The type 2 three-operand sources (R165, R450). DESIGN CHOICE, log entry 48: bits 15-13 of a register field, printed
as 000, are ignored, as in `ops1`. -/
def ops2 (w : Word) : Except DecodeError Ops3 :=
  match (fld w 21 2).toFin with
  | 0 => .ok (.rk (regOf (fld w 8 5)) (fld w 0 8))
  | 1 => .ok (.rd (regOf (fld w 8 5)) (disp5 (fld w 0 8)))
  | 2 => .ok (.dk (disp5 (fld w 8 8)) (fld w 0 8))
  | 3 => .ok (.dd (disp5 (fld w 8 8)) (disp5 (fld w 0 8)))

/-- The type 1 floating-point sources (R164, R166, R450). DESIGN CHOICE, log entry 48: bits 15-13 and 7-5 of a register
field, printed as 000, are ignored, as in `ops1`. -/
def fops1 (w : Word) : Except DecodeError FOps3 :=
  match (fld w 21 2).toFin with
  | 0 => both (extOf (fld w 8 5)) (extOf (fld w 0 5)) .rr
  | 1 => both (ind8 (fld w 8 8)) (extOf (fld w 0 5)) .ir
  | 2 => both (extOf (fld w 8 5)) (ind8 (fld w 0 8)) .ri
  | 3 => both (ind8 (fld w 8 8)) (ind8 (fld w 0 8)) .ii

/-- The type 2 floating-point sources: T = 01 and T = 11 only (R165, R450). DESIGN CHOICE, log entry 48: bits 15-13 of a
register field, printed as 000, are ignored, as in `ops1`. -/
def fops2 (w : Word) : Except DecodeError FOps3 :=
  match (fld w 21 2).toFin with
  | 1 => (extOf (fld w 8 5)).map fun r => .rd r (disp5 (fld w 0 8))
  | 3 => .ok (.dd (disp5 (fld w 8 8)) (disp5 (fld w 0 8)))
  | _ => .error .badMode

/-- The three-operand formats, with the decoders of their type's sources (R164, R165, R450). The dst field of CMPF3,
CMPI3 and TSTB3 is ignored (the spec's own decision D16, log entry 48). -/
def decodeThree (w : Word) (ops : Except DecodeError Ops3) (fops : Except DecodeError FOps3) :
    Except DecodeError Instr :=
  match (fld w 23 5).toNat with
  | 0 => ops.map fun o => .addc3 o (dstOf w)
  | 1 => both fops (fdstOf w) .addf3
  | 2 => ops.map fun o => .addi3 o (dstOf w)
  | 3 => ops.map fun o => .and3 o (dstOf w)
  | 4 => ops.map fun o => .andn3 o (dstOf w)
  | 5 => ops.map fun o => .ash3 o (dstOf w)
  | 6 => fops.map .cmpf3
  | 7 => ops.map .cmpi3
  | 8 => ops.map fun o => .lsh3 o (dstOf w)
  | 9 => both fops (fdstOf w) .mpyf3
  | 10 => ops.map fun o => .mpyi3 o (dstOf w)
  | 11 => ops.map fun o => .or3 o (dstOf w)
  | 12 => ops.map fun o => .subb3 o (dstOf w)
  | 13 => both fops (fdstOf w) .subf3
  | 14 => ops.map fun o => .subi3 o (dstOf w)
  | 15 => ops.map .tstb3
  | 16 => ops.map fun o => .xor3 o (dstOf w)
  | 17 => ops.map fun o => .mpyshi3 o (dstOf w)
  | 18 => ops.map fun o => .mpyuhi3 o (dstOf w)
  | _ => .error .noRow

/-- The 24-bit long-immediate format (R168), by bits 27-24. Bits 23-0 of SWI, which the opcode table calls unused, are
ignored (DESIGN CHOICE, log entry 48; R526 prints the word 66000000h). -/
def decodeLong (w : Word) : Except DecodeError Instr :=
  match (fld w 24 4).toNat with
  | 0 => .ok (.br (fld w 0 24))
  | 1 => .ok (.brd (fld w 0 24))
  | 2 => .ok (.call (fld w 0 24))
  | 3 => .ok (.laj (fld w 0 24))
  | 4 => .ok (.rptbRel (fld w 0 24))
  | 5 => .ok (.rptbdRel (fld w 0 24))
  | 6 => .ok .swi
  | _ => .error .noRow

/-- The target field of a conditional branch, with the B bit 25 (R490). DESIGN CHOICE, log entry 48: bits 15-5 of a
register target, of which R490 says nothing, are ignored. -/
def targetOf (w : Word) : BTarget :=
  if w.getLsbD 25 then .rel (fld w 0 16) else .reg (regOf (fld w 0 5))

/-- The condition field, bits 20-16. -/
abbrev bcondOf (w : Word) : Except DecodeError Cond := condOf (fld w 16 5)

/-- The conditional branches (R169, R490), by bit 26 and bits 24-21. -/
def decodeBranch (w : Word) : Except DecodeError Instr :=
  if w.getLsbD 26 then
    if w.getLsbD 21 then (bcondOf w).map fun c => .dbcondD (fld w 22 3).toFin c (targetOf w)
    else (bcondOf w).map fun c => .dbcond (fld w 22 3).toFin c (targetOf w)
  else
    match (fld w 21 4).toNat with
    | 0 => (bcondOf w).map fun c => .bcond c (targetOf w)
    | 1 => (bcondOf w).map fun c => .bcondD c (targetOf w)
    | 3 => (bcondOf w).map fun c => .bcondAT c (targetOf w)
    | 5 => (bcondOf w).map fun c => .bcondAF c (targetOf w)
    | _ => .error .noRow

/-- The `0111` format: calls, traps, returns and the expansion file (R169), by bits 27-26 and 27-21. -/
def decodeControl (w : Word) : Except DecodeError Instr :=
  if fld w 26 2 == 0 then
    match (fld w 21 4).toNat with
    | 0 => (bcondOf w).map fun c => .callcond c (targetOf w)
    | 1 => (bcondOf w).map fun c => .lajcond c (targetOf w)
    | _ => .error .noRow
  else
    match (fld w 21 7).toNat with
    | 32 => guarded (fld w 9 7 == 0) .noRow ((bcondOf w).map fun c => .trapcond c (fld w 0 9))
    | 36 => guarded (fld w 9 7 == 0) .noRow ((bcondOf w).map fun c => .latcond c (fld w 0 9))
    | 48 => guarded (fld w 5 11 == 0) .noRow ((xregOf (fld w 0 5)).map fun x => .ldep x (dstOf w))
    | 52 => guarded (fld w 5 11 == 0) .noRow ((xregOf (fld w 16 5)).map fun x => .ldpe (regOf (fld w 0 5)) x)
    | 64 => guarded (fld w 0 16 == 0) .noRow ((bcondOf w).map .reticond)
    | 65 => guarded (fld w 0 16 == 0) .noRow ((bcondOf w).map .reticondD)
    | 68 => guarded (fld w 0 16 == 0) .noRow ((bcondOf w).map .retscond)
    | 72 => guarded (fld w 5 16 == 0) .noRow (.ok (.rptbReg (regOf (fld w 0 5))))
    | 76 => guarded (fld w 5 16 == 0) .noRow (.ok (.rptbdReg (regOf (fld w 0 5))))
    | _ => .error .noRow

/-- The multiply pairs, `iw[31:28] = 1000` (R167, R590), by bits 27-26. -/
def decodeMultiply (w : Word) : Except DecodeError Instr :=
  let k := fun (mk : Fin 4 → Fin 2 → Fin 2 → Fin 8 → Fin 8 → Ind → Ind → Instr) =>
    both (ind8 (fld w 8 8)) (ind8 (fld w 0 8))
      (mk (fld w 24 2).toFin (fld w 23 1).toFin (fld w 22 1).toFin (fld w 19 3).toFin (fld w 16 3).toFin)
  match (fld w 26 2).toFin with
  | 0 => k .mpyf3Addf3
  | 1 => k .mpyf3Subf3
  | 2 => k .mpyi3Addi3
  | 3 => k .mpyi3Subi3

/-- The byte and half-word group, `iw[31:28] = 1011` (R303), by bits 27-25 and bit 24. -/
def decodeByte (w : Word) : Except DecodeError Instr :=
  let byte := fun (mk : Fin 4 → RSrc → Reg → Instr) => (rsrcOf w).map fun s => mk (fld w 23 2).toFin s (dstOf w)
  let half := fun (mk : Fin 2 → RSrc → Reg → Instr) => (rsrcOf w).map fun s => mk (fld w 23 1).toFin s (dstOf w)
  match (fld w 24 4).toNat with
  | 0 => byte .lb
  | 1 => byte .lb
  | 2 => byte .lbu
  | 3 => byte .lbu
  | 4 => byte .lwl
  | 5 => byte .lwl
  | 6 => byte .lwr
  | 7 => byte .lwr
  | 8 => byte .mb
  | 9 => byte .mb
  | 10 => half .lh
  | 11 => half .lhu
  | 12 => half .mh
  | _ => .error .noRow

/-- A pair with a single register source: bits 21-19 are 0 (R167). -/
def pair1 (w : Word) (mk : Fin 8 → Fin 8 → Ind → Ind → Instr) : Except DecodeError Instr :=
  guarded (fld w 19 3 == 0) .noRow
    (both (ind8 (fld w 8 8)) (ind8 (fld w 0 8)) (mk (fld w 22 3).toFin (fld w 16 3).toFin))

/-- A pair with two register sources (R167). -/
def pair2 (w : Word) (mk : Fin 8 → Fin 8 → Fin 8 → Ind → Ind → Instr) : Except DecodeError Instr :=
  both (ind8 (fld w 8 8)) (ind8 (fld w 0 8)) (mk (fld w 22 3).toFin (fld w 19 3).toFin (fld w 16 3).toFin)

/-- The parallel pairs with a store and the paired loads and stores, `iw[31:30] = 11` (R167), by bits 29-25. -/
def decodeParallel (w : Word) : Except DecodeError Instr :=
  match (fld w 25 5).toNat with
  | 0 => pair1 w .stfStf
  | 1 => pair1 w .stiSti
  | 2 => pair1 w .ldfLdf
  | 3 => pair1 w .ldiLdi
  | 4 => pair1 w .absfStf
  | 5 => pair1 w .absiSti
  | 6 => pair2 w .addf3Stf
  | 7 => pair2 w .addi3Sti
  | 8 => pair2 w .and3Sti
  | 9 => pair2 w .ash3Sti
  | 10 => pair1 w .fixSti
  | 11 => pair1 w .floatStf
  | 12 => pair1 w .ldfStf
  | 13 => pair1 w .ldiSti
  | 14 => pair2 w .lsh3Sti
  | 15 => pair2 w .mpyf3Stf
  | 16 => pair2 w .mpyi3Sti
  | 17 => pair1 w .negfStf
  | 18 => pair1 w .negiSti
  | 19 => pair1 w .notSti
  | 20 => pair2 w .or3Sti
  | 21 => pair2 w .subf3Stf
  | 22 => pair2 w .subi3Sti
  | 23 => pair2 w .xor3Sti
  | 24 => pair1 w .toieeeStf
  | 25 => pair1 w .frieeeStf
  | _ => .error .noRow

/-- The decoder (R160): the top four bits select the format. -/
def decode (w : Word) : Except DecodeError Instr :=
  match (fld w 28 4).toNat with
  | 0 => decodeGeneral w
  | 1 => decodeGeneral w
  | 2 => decodeThree w (ops1 w) (fops1 w)
  | 3 => decodeThree w (ops2 w) (fops2 w)
  | 4 => both (condOf (fld w 23 5)) (both (fsrcOf w) (fdstOf w) Prod.mk) fun c p => .ldfcond c p.1 p.2
  | 5 => both (condOf (fld w 23 5)) (srcOf w) fun c s => .ldicond c s (dstOf w)
  | 6 => if w.getLsbD 27 then decodeBranch w else decodeLong w
  | 7 => decodeControl w
  | 8 => decodeMultiply w
  | 11 => decodeByte w
  | 9 => .error .noRow
  | 10 => .error .noRow
  | 12 => decodeParallel w
  | 13 => decodeParallel w
  | 14 => decodeParallel w
  | _ => decodeParallel w

/-! ### The encoder -/

/-- The G field and bits 15-0 of a general source. -/
def Src.enc : Src → BitVec 2 × BitVec 16
  | .reg r => (0#2, 0#11 ++ r.code)
  | .dir a => (1#2, a)
  | .ind i => (2#2, i.field16)
  | .imm v => (3#2, v)

/-- As `Src.enc`. -/
def FSrc.enc : FSrc → BitVec 2 × BitVec 16
  | .reg r => (0#2, 0#11 ++ extCode r)
  | .dir a => (1#2, a)
  | .ind i => (2#2, i.field16)
  | .imm v => (3#2, v)

/-- As `Src.enc`. -/
def RSrc.enc : RSrc → BitVec 2 × BitVec 16
  | .reg r => (0#2, 0#11 ++ r.code)
  | .dir a => (1#2, a)
  | .ind i => (2#2, i.field16)

/-- As `Src.enc`. -/
def FRSrc.enc : FRSrc → BitVec 2 × BitVec 16
  | .reg r => (0#2, 0#11 ++ extCode r)
  | .dir a => (1#2, a)
  | .ind i => (2#2, i.field16)

/-- As `Src.enc`. -/
def Mem.enc : Mem → BitVec 2 × BitVec 16
  | .dir a => (1#2, a)
  | .ind i => (2#2, i.field16)

/-- As `Src.enc`. -/
def NopSrc.enc : NopSrc → BitVec 2 × BitVec 16
  | .reg r => (0#2, 0#11 ++ r.code)
  | .ind i => (2#2, i.field16)

/-- Bits 31-23, then G, then bits 20-16, then bits 15-0 (R161). -/
def wordG (hi : BitVec 9) (g : BitVec 2 × BitVec 16) (d : BitVec 5) : Word := hi ++ g.1 ++ d ++ g.2

/-- The type bit 28, the T field and the source fields of the three-operand formats (R164, R165). -/
def Ops3.enc : Ops3 → BitVec 1 × BitVec 2 × BitVec 8 × BitVec 8
  | .rr a b => (0#1, 0#2, 0#3 ++ a.code, 0#3 ++ b.code)
  | .ir a b => (0#1, 1#2, a.field8, 0#3 ++ b.code)
  | .ri a b => (0#1, 2#2, 0#3 ++ a.code, b.field8)
  | .ii a b => (0#1, 3#2, a.field8, b.field8)
  | .rk a k => (1#1, 0#2, 0#3 ++ a.code, k)
  | .rd a b => (1#1, 1#2, 0#3 ++ a.code, b.field)
  | .dk a k => (1#1, 2#2, a.field, k)
  | .dd a b => (1#1, 3#2, a.field, b.field)

/-- As `Ops3.enc`. -/
def FOps3.enc : FOps3 → BitVec 1 × BitVec 2 × BitVec 8 × BitVec 8
  | .rr a b => (0#1, 0#2, 0#3 ++ extCode a, 0#3 ++ extCode b)
  | .ir a b => (0#1, 1#2, a.field8, 0#3 ++ extCode b)
  | .ri a b => (0#1, 2#2, 0#3 ++ extCode a, b.field8)
  | .ii a b => (0#1, 3#2, a.field8, b.field8)
  | .rd a b => (1#1, 1#2, 0#3 ++ extCode a, b.field)
  | .dd a b => (1#1, 3#2, a.field, b.field)

/-- The three-operand word (R450). -/
def wordT (op : BitVec 5) (o : BitVec 1 × BitVec 2 × BitVec 8 × BitVec 8) (d : BitVec 5) : Word :=
  1#3 ++ o.1 ++ op ++ o.2.1 ++ d ++ o.2.2.1 ++ o.2.2.2

/-- The B bit and the target field (R490). -/
def BTarget.enc : BTarget → BitVec 1 × BitVec 16
  | .reg r => (0#1, 0#11 ++ r.code)
  | .rel d => (1#1, d)

/-- The conditional-branch word: bits 31-26, B, bits 24-21, cond, target (R490). -/
def wordB (hi : BitVec 6) (t : BTarget) (mid : BitVec 4) (c : Cond) : Word :=
  hi ++ t.enc.1 ++ mid ++ c.code ++ t.enc.2

/-- The second parallel layout (R167). -/
def wordP (op : BitVec 5) (a b c : BitVec 3) (x y : Ind) : Word :=
  3#2 ++ op ++ a ++ b ++ c ++ x.field8 ++ y.field8

/-- The first parallel layout (R167). -/
def wordM (op : BitVec 2) (p : Fin 4) (d1 d2 : Fin 2) (a b : Fin 8) (x y : Ind) : Word :=
  8#4 ++ op ++ BitVec.ofFin (w := 2) p ++ BitVec.ofFin (w := 1) d1 ++ BitVec.ofFin (w := 1) d2 ++ arBits a ++ arBits b ++
    x.field8 ++ y.field8

/-- The word of an instruction; of a well-formed one it decodes back to it. -/
def encode : Instr → Word
  | .absi s d => wordG 1#9 s.enc d.code
  | .addc s d => wordG 2#9 s.enc d.code
  | .addi s d => wordG 4#9 s.enc d.code
  | .and s d => wordG 5#9 s.enc d.code
  | .andn s d => wordG 6#9 s.enc d.code
  | .ash s d => wordG 7#9 s.enc d.code
  | .cmpi s d => wordG 9#9 s.enc d.code
  | .ldi s d => wordG 16#9 s.enc d.code
  | .lsh s d => wordG 19#9 s.enc d.code
  | .mpyi s d => wordG 21#9 s.enc d.code
  | .negb s d => wordG 22#9 s.enc d.code
  | .negi s d => wordG 24#9 s.enc d.code
  | .not s d => wordG 27#9 s.enc d.code
  | .or s d => wordG 32#9 s.enc d.code
  | .subb s d => wordG 45#9 s.enc d.code
  | .subc s d => wordG 46#9 s.enc d.code
  | .subi s d => wordG 48#9 s.enc d.code
  | .subrb s d => wordG 49#9 s.enc d.code
  | .subri s d => wordG 51#9 s.enc d.code
  | .tstb s d => wordG 52#9 s.enc d.code
  | .xor s d => wordG 53#9 s.enc d.code
  | .mpyshi s d => wordG 59#9 s.enc d.code
  | .mpyuhi s d => wordG 60#9 s.enc d.code
  | .lda s d => wordG 61#9 s.enc d.code
  | .float s d => wordG 11#9 s.enc (extCode d)
  | .absf s d => wordG 0#9 s.enc (extCode d)
  | .addf s d => wordG 3#9 s.enc (extCode d)
  | .cmpf s d => wordG 8#9 s.enc (extCode d)
  | .lde s d => wordG 13#9 s.enc (extCode d)
  | .ldf s d => wordG 14#9 s.enc (extCode d)
  | .ldm s d => wordG 18#9 s.enc (extCode d)
  | .mpyf s d => wordG 20#9 s.enc (extCode d)
  | .negf s d => wordG 23#9 s.enc (extCode d)
  | .norm s d => wordG 26#9 s.enc (extCode d)
  | .rnd s d => wordG 34#9 s.enc (extCode d)
  | .subf s d => wordG 47#9 s.enc (extCode d)
  | .subrf s d => wordG 50#9 s.enc (extCode d)
  | .fix s d => wordG 10#9 s.enc d.code
  | .toieee s d => wordG 55#9 s.enc (extCode d)
  | .rcpf s d => wordG 57#9 s.enc (extCode d)
  | .rsqrf s d => wordG 58#9 s.enc (extCode d)
  | .frieee s d => wordG 56#9 s.enc (extCode d)
  | .ldfi s d => wordG 15#9 s.enc (extCode d)
  | .ldii s d => wordG 17#9 s.enc d.code
  | .sigi s d => wordG 44#9 s.enc d.code
  | .stf s d => wordG 40#9 d.enc (extCode s)
  | .stfi s d => wordG 41#9 d.enc (extCode s)
  | .stii s d => wordG 43#9 d.enc s.code
  | .stiDir s a => wordG 42#9 (1#2, a) s.code
  | .stiInd s i => wordG 42#9 (2#2, i.field16) s.code
  | .stikDir k a => wordG 42#9 (0#2, a) k
  | .stikInd k i => wordG 42#9 (3#2, i.field16) k
  | .idle => 0x06000000#32
  | .nop s => wordG 25#9 s.enc 0#5
  | .iack s => wordG 54#9 s.enc 0#5
  | .pop r => wordG 28#9 (1#2, 0#16) r.code
  | .popf r => wordG 29#9 (1#2, 0#16) (extCode r)
  | .push r => wordG 30#9 (1#2, 0#16) r.code
  | .pushf r => wordG 31#9 (1#2, 0#16) (extCode r)
  | .rol r => wordG 35#9 (3#2, 1#16) r.code
  | .rolc r => wordG 36#9 (3#2, 1#16) r.code
  | .ror r => wordG 37#9 (3#2, 0xFFFF#16) r.code
  | .rorc r => wordG 38#9 (3#2, 0xFFFF#16) r.code
  | .rpts s => wordG 39#9 s.enc 27#5
  | .ldpk k => wordG 62#9 (3#2, k) 16#5
  | .ldhi k d => wordG 63#9 (3#2, k) d.code
  | .ldfcond c s d => wordG (4#4 ++ c.code) s.enc (extCode d)
  | .ldicond c s d => wordG (5#4 ++ c.code) s.enc d.code
  | .ldep x d => wordG 236#9 (0#2, 0#11 ++ x.code) d.code
  | .ldpe s x => wordG 237#9 (0#2, 0#11 ++ s.code) x.code
  | .lb b s d => wordG (88#7 ++ BitVec.ofFin (w := 2) b) s.enc d.code
  | .lbu b s d => wordG (89#7 ++ BitVec.ofFin (w := 2) b) s.enc d.code
  | .lwl b s d => wordG (90#7 ++ BitVec.ofFin (w := 2) b) s.enc d.code
  | .lwr b s d => wordG (91#7 ++ BitVec.ofFin (w := 2) b) s.enc d.code
  | .mb b s d => wordG (92#7 ++ BitVec.ofFin (w := 2) b) s.enc d.code
  | .lh h s d => wordG (186#8 ++ BitVec.ofFin (w := 1) h) s.enc d.code
  | .lhu h s d => wordG (187#8 ++ BitVec.ofFin (w := 1) h) s.enc d.code
  | .mh h s d => wordG (188#8 ++ BitVec.ofFin (w := 1) h) s.enc d.code
  | .addc3 o d => wordT 0#5 o.enc d.code
  | .addi3 o d => wordT 2#5 o.enc d.code
  | .and3 o d => wordT 3#5 o.enc d.code
  | .andn3 o d => wordT 4#5 o.enc d.code
  | .ash3 o d => wordT 5#5 o.enc d.code
  | .lsh3 o d => wordT 8#5 o.enc d.code
  | .mpyi3 o d => wordT 10#5 o.enc d.code
  | .or3 o d => wordT 11#5 o.enc d.code
  | .subb3 o d => wordT 12#5 o.enc d.code
  | .subi3 o d => wordT 14#5 o.enc d.code
  | .xor3 o d => wordT 16#5 o.enc d.code
  | .mpyshi3 o d => wordT 17#5 o.enc d.code
  | .mpyuhi3 o d => wordT 18#5 o.enc d.code
  | .cmpi3 o => wordT 7#5 o.enc 0#5
  | .tstb3 o => wordT 15#5 o.enc 0#5
  | .addf3 o d => wordT 1#5 o.enc (extCode d)
  | .mpyf3 o d => wordT 9#5 o.enc (extCode d)
  | .subf3 o d => wordT 13#5 o.enc (extCode d)
  | .cmpf3 o => wordT 6#5 o.enc 0#5
  | .bcond c t => wordB 26#6 t 0#4 c
  | .bcondD c t => wordB 26#6 t 1#4 c
  | .bcondAT c t => wordB 26#6 t 3#4 c
  | .bcondAF c t => wordB 26#6 t 5#4 c
  | .callcond c t => wordB 28#6 t 0#4 c
  | .lajcond c t => wordB 28#6 t 1#4 c
  | .dbcond n c t => wordB 27#6 t (arBits n ++ 0#1) c
  | .dbcondD n c t => wordB 27#6 t (arBits n ++ 1#1) c
  | .br k => 96#8 ++ k
  | .brd k => 97#8 ++ k
  | .call k => 98#8 ++ k
  | .laj k => 99#8 ++ k
  | .rptbRel k => 100#8 ++ k
  | .rptbdRel k => 101#8 ++ k
  | .rptbReg r => 63438848#27 ++ r.code
  | .rptbdReg r => 63700992#27 ++ r.code
  | .swi => 0x66000000#32
  | .trapcond c n => 928#11 ++ c.code ++ 0#7 ++ n
  | .latcond c n => 932#11 ++ c.code ++ 0#7 ++ n
  | .reticond c => 960#11 ++ c.code ++ 0#16
  | .reticondD c => 961#11 ++ c.code ++ 0#16
  | .retscond c => 964#11 ++ c.code ++ 0#16
  | .stfStf a c x y => wordP 0#5 (arBits a) 0#3 (arBits c) x y
  | .stiSti a c x y => wordP 1#5 (arBits a) 0#3 (arBits c) x y
  | .ldfLdf a c x y => wordP 2#5 (arBits a) 0#3 (arBits c) x y
  | .ldiLdi a c x y => wordP 3#5 (arBits a) 0#3 (arBits c) x y
  | .absfStf a c x y => wordP 4#5 (arBits a) 0#3 (arBits c) x y
  | .absiSti a c x y => wordP 5#5 (arBits a) 0#3 (arBits c) x y
  | .fixSti a c x y => wordP 10#5 (arBits a) 0#3 (arBits c) x y
  | .floatStf a c x y => wordP 11#5 (arBits a) 0#3 (arBits c) x y
  | .ldfStf a c x y => wordP 12#5 (arBits a) 0#3 (arBits c) x y
  | .ldiSti a c x y => wordP 13#5 (arBits a) 0#3 (arBits c) x y
  | .negfStf a c x y => wordP 17#5 (arBits a) 0#3 (arBits c) x y
  | .negiSti a c x y => wordP 18#5 (arBits a) 0#3 (arBits c) x y
  | .notSti a c x y => wordP 19#5 (arBits a) 0#3 (arBits c) x y
  | .toieeeStf a c x y => wordP 24#5 (arBits a) 0#3 (arBits c) x y
  | .frieeeStf a c x y => wordP 25#5 (arBits a) 0#3 (arBits c) x y
  | .addf3Stf a b c x y => wordP 6#5 (arBits a) (arBits b) (arBits c) x y
  | .addi3Sti a b c x y => wordP 7#5 (arBits a) (arBits b) (arBits c) x y
  | .and3Sti a b c x y => wordP 8#5 (arBits a) (arBits b) (arBits c) x y
  | .ash3Sti a b c x y => wordP 9#5 (arBits a) (arBits b) (arBits c) x y
  | .lsh3Sti a b c x y => wordP 14#5 (arBits a) (arBits b) (arBits c) x y
  | .mpyf3Stf a b c x y => wordP 15#5 (arBits a) (arBits b) (arBits c) x y
  | .mpyi3Sti a b c x y => wordP 16#5 (arBits a) (arBits b) (arBits c) x y
  | .or3Sti a b c x y => wordP 20#5 (arBits a) (arBits b) (arBits c) x y
  | .subf3Stf a b c x y => wordP 21#5 (arBits a) (arBits b) (arBits c) x y
  | .subi3Sti a b c x y => wordP 22#5 (arBits a) (arBits b) (arBits c) x y
  | .xor3Sti a b c x y => wordP 23#5 (arBits a) (arBits b) (arBits c) x y
  | .mpyf3Addf3 p d1 d2 a b x y => wordM 0#2 p d1 d2 a b x y
  | .mpyf3Subf3 p d1 d2 a b x y => wordM 1#2 p d1 d2 a b x y
  | .mpyi3Addi3 p d1 d2 a b x y => wordM 2#2 p d1 d2 a b x y
  | .mpyi3Subi3 p d1 d2 a b x y => wordM 3#2 p d1 d2 a b x y

/-- What the decoder reads from the word whose bits are `w`; every instruction is one 32-bit word (R160). -/
def decodeTableWord (_nbits w : Nat) : Option Instr :=
  match decode (BitVec.ofNat 32 w) with
  | .ok i => some i
  | .error _ => none

end Sys2Proof
end

