-- ==== Sys2Proof/Machine/State.lean ====
section
/-! DEFINITION. The state of the machine as plain data (10_state.md, 20_memory.md, 61_peripherals.md), the
reasons a step can stop, and the state after reset (R850). -/

namespace Sys2Proof.Machine

/-- The faults of the machine: it has none, no access and no instruction traps (R16, R700). -/
inductive Fault where
  deriving DecidableEq, Repr

/-- Where the model gives no meaning: the refusals that the spec itself prescribes (R16). -/
inductive Refusal where
  /-- An arm of `exec` without a meaning. Safe. -/
  | notModelled (mnemonic : String)
  /-- The fetched word is no instruction (R160, R700, U6). Raised by `runWord`. Safe. -/
  | illegalEncoding (e : DecodeError)
  /-- An operand that no legal encoding has (R310, U6). Raised by `execLda`. Safe. -/
  | illegalOperand
  /-- SWI: the emulator interrupt is not described (R526, U8). Raised by `execSwi`. Safe. -/
  | emulatorInterrupt
  /-- Two parallel loads into one register (R570, R572, U7). Raised by `execLdfLdf`, `execLdiLdi`. Safe. -/
  | sameDestination
  /-- An instruction that may not stand in a delay slot (R497 b, U3). Raised by `placement`. Safe. -/
  | delaySlot
  /-- An instruction that may not stand at the end of a repeat block, or be repeated by RPTS (R534, U3).
  Raised by `placement`. Safe. -/
  | repeatBlockEnd
  /-- A write of ST in a slot of a taken LATcond (R507, U3). Raised by `placement`. Safe. -/
  | latSlotStatus
  /-- The block end reached within four instructions of a load of RE or of RM without a flush (R862, U3).
  Raised by `retire`. Safe. -/
  | repeatNotFlushed
  /-- A reserved code written to a DMA channel control register (R791, R792, U17). Raised by `dmaWriteCtl`. Safe. -/
  | dmaControlCode
  /-- An autoinitialization that changes bits 8 to 11 of the control register (R807, U18). Raised by
  `autoinitStep`. Safe. -/
  | autoinitControl
  /-- A data or DMA access, or a fetch, at a reserved address (R103, U11). Raised by `memRead`, `memWrite` and
  `instrFetch`. Safe: the machine stops where the spec says nothing. -/
  | reservedAddress (a : Word)
  /-- An instruction fetch from the peripheral space (R103, R109, U11). Raised by `instrFetch`. Safe. -/
  | peripheralFetch (a : Word)
  /-- The boot loader's life test and its RESERVED exit: ROM code that is not given (R857, P3). Raised by
  `bootStep`. Safe. -/
  | bootRomCode
  /-- The boot loader invoked with a first block of size zero (R857, U19). Raised by `bootStep`. Safe. -/
  | bootEmptyBlock
  deriving DecidableEq, Repr

/-- What the three instructions after a delayed instruction belong to (R497). -/
inductive SlotKind where
  | branch   -- a delayed branch, taken or not
  | latTaken -- a taken LATcond, whose slots may not write ST (R507)
  | rptbd    -- RPTBD, whose slots are not part of the block (R524)
  deriving DecidableEq, Repr

/-- A pending delayed branch (R30, R497, R498). -/
structure Delay where
  /-- Where the branch goes after the third slot; none where the program goes on in sequence. -/
  target : Option Word
  /-- How many of the three slots remain. -/
  left : Nat
  /-- The slots' execute-phase effects are annulled (R498). -/
  annul : Bool
  kind : SlotKind
  deriving DecidableEq, Repr

/-- One segment of the instruction cache (R130). -/
structure Segment where
  /-- The 27-bit segment start address. -/
  ssa : BitVec 27
  /-- The present flags, bit w for word w. -/
  p : BitVec 32
  words : Vector Word 32
  deriving DecidableEq, Repr

/-- The instruction cache (R130). -/
structure Cache where
  segs : Vector Segment 4
  /-- The LRU stack, most recently used first. -/
  lru : List (Fin 4)
  deriving DecidableEq, Repr

/-- The enable inputs of one external interface; `true` is a high level, which disables (R126). -/
structure BusPins where
  ce0 : Bool
  ce1 : Bool
  de : Bool
  ae : Bool
  deriving DecidableEq, Repr

/-- The pins of R70; `true` is a high level. -/
structure Pins where
  nmi : Bool
  /-- The levels that the environment drives on the IIOF pins. -/
  iiof : Vector Bool 4
  /-- The levels that the environment drives on the TCLK pins. -/
  tclk : Vector Bool 2
  iack : Bool
  lock : Bool
  llock : Bool
  /-- STAT(3-0) and LSTAT(3-0): the code of the last access of the interface in this step, all ones if there is
  none (R125). -/
  stat : BitVec 4
  lstat : BitVec 4
  globalBus : BusPins
  localBus : BusPins
  deriving DecidableEq, Repr

/-- One timer (R770, R771). -/
structure Timer where
  /-- The stored R/W bits of the global control register: bits 0-2 and 6-10 (R776). -/
  ctl : Word
  counter : Word
  period : Word
  tstat : Bool
  /-- The internal divide-by-two (R771, HLD_). -/
  half : Bool
  deriving DecidableEq, Repr

/-- One communication port (R781). -/
structure Port where
  inq : List Word
  outq : List Word
  ich : Bool
  och : Bool
  token : Bool
  deriving DecidableEq, Repr

/-- An autoinitialization in progress (R806). -/
structure Autoinit where
  /-- How many registers of the row have been loaded. -/
  count : Nat
  /-- The address of the next word. -/
  ptr : Word
  /-- The control word that has been loaded and waits for the end of the row (R807). -/
  ctl : Word
  deriving DecidableEq, Repr

/-- One DMA channel (R790). -/
structure Dma where
  ctl : Word
  src : Word
  sidx : Word
  cnt : Word
  dst : Word
  didx : Word
  lnk : Word
  acnt : Word
  alnk : Word
  /-- The word that has been read and not yet written: phase `holding`. -/
  tmp : Option Word
  /-- As `tmp`, of the auxiliary channel in split mode (R805). -/
  atmp : Option Word
  /-- The local synchronisation latches (R801). -/
  rl : Bool
  wl : Bool
  auto : Option Autoinit
  aauto : Option Autoinit
  deriving DecidableEq, Repr

/-- Which agent's word waits in the peripheral-bus latch (R786). -/
inductive BusAgent where
  | cpu
  | primary (c : Fin 6)
  | auxiliary (c : Fin 6)
  /-- The agent's access was cancelled by a reset of its channel (R802). -/
  | gone
  deriving DecidableEq, Repr

/-- A word that an agent writes to the output port register of a port (R786). -/
structure Latch where
  port : Fin 6
  word : Word
  agent : BusAgent
  deriving DecidableEq, Repr

/-- The peripheral-bus input latch (R786). -/
structure BusLatch where
  /-- The word that waits for a place in the output FIFO. -/
  waiting : Option Latch
  /-- The words that have gone into their FIFO and whose agents have not yet completed their access. -/
  sent : List Latch
  deriving DecidableEq, Repr

/-- Where the boot loader reads its data stream from (R857). -/
inductive BootSource where
  | memory (width : Nat) (next : Word)
  | port (x : Fin 6)
  deriving DecidableEq, Repr

/-- What the boot loader does next (R857). -/
inductive BootPhase where
  | start
  | poll
  | width (a : Word)
  | gmicr (src : BootSource)
  | lmicr (src : BootSource)
  | size (src : BootSource) (entry : Option Word) (last : Word)
  | dest (src : BootSource) (entry : Option Word) (size : Word)
  | block (src : BootSource) (entry : Word) (left : Word) (next : Word)
  | ivtp (src : BootSource) (entry : Word) (last : Word)
  | tvtp (src : BootSource) (entry : Word) (last : Word)
  | iack (src : BootSource) (entry : Word) (last : Word)
  deriving DecidableEq, Repr

/-- A hardware event between two instructions (R6, R14). -/
inductive Event where
  | reset                                         -- RESET_ low, then high (R850)
  | nmiPin (level : Bool)
  | iiofPin (x : Fin 4) (level : Bool)
  | tclkPin (t : Fin 2) (level : Bool)
  | h1 (t : Fin 2)                                -- one H1 cycle passes for timer t (R773 to R775)
  | deliver (x : Fin 6) (w : Word)                -- the link actions of R787
  | accept (x : Fin 6)
  | takeToken (x : Fin 6)
  | giveToken (x : Fin 6)
  | extWrite (a w : Word)                         -- another master writes external memory (R107)
  | busPins (global : Bool) (pins : BusPins)      -- the enable inputs change (R126)
  | dma (c : Fin 6)                               -- channel c, or its primary half, makes its next step
  | dmaAux (c : Fin 6)                            -- the auxiliary half of channel c makes its next step
  deriving DecidableEq, Repr

/-- One instruction boundary: its events in order, and whether the CPU postpones an eligible interrupt (R709, D29). -/
structure Boundary where
  events : List Event
  defer : Bool
  deriving DecidableEq, Repr

/-- The state of the machine. -/
structure State where
  /-- R0-R11 (R22). -/
  r : Vector Ext 12
  /-- AR0-AR7 (R23). -/
  ar : Vector Word 8
  /-- DP: its 16 stored bits (R25). -/
  dp : BitVec 16
  ir0 : Word
  ir1 : Word
  bk : Word
  sp : Word
  /-- ST bits 15-0; bit 12 is always 0, bits 31-17 are the constant `Config.stId` and bit 16 is 0 (R40, R49, R50,
  R742). -/
  st : BitVec 16
  die : Word
  iie : Word
  /-- IIF as stored; the FLAG bit of an input pin, or of a level-triggered one, follows the pin (R56, R57). -/
  iif : Word
  rs : Word
  re : Word
  rc : Word
  pc : Word
  ivtp : Word
  tvtp : Word
  /-- The S bit (R530). -/
  sFlag : Bool
  delay : Option Delay
  idle : Bool
  /-- The instruction register: the word being executed, or the one RPTS repeats (R530). -/
  ir : Word
  /-- The next instruction comes from the instruction register, not from memory (R532, R786). -/
  held : Bool
  /-- The CPU is stuck at an instruction whose access is not ready (R786). -/
  stalled : Bool
  /-- How many sequential instructions the unflushed pipeline may still have fetched under the old repeat
  registers (R862). -/
  unflushed : Nat
  cache : Cache
  /-- The on-chip RAM and the external memory, in canonical form: byte lane `l` of word `a` at `4 * a + l`. -/
  mem : List Host.Cell
  romen : Bool
  resetloc : BitVec 2
  pins : Pins
  /-- The stored bits 29-4 of the memory interface control registers (R121). -/
  gmicr : Word
  lmicr : Word
  timers : Vector Timer 2
  ports : Vector Port 6
  dma : Vector Dma 6
  latch : BusLatch
  /-- The boot loader, while it runs (R856). -/
  boot : Option BootPhase
  /-- The model's own: what happens at the coming boundaries (R6, R10 "schedules"). -/
  script : List Boundary
  /-- The model's own: how many free values have been drawn. -/
  free : Nat
  deriving DecidableEq, Repr

/-- The port after reset; ports 0 to 2 hold the token (R789). -/
def Port.reset (token : Bool) : Port := { inq := [], outq := [], ich := false, och := false, token := token }

/-- The timer after reset (R770). -/
def Timer.reset : Timer := { ctl := 0, counter := 0, period := 0, tstat := false, half := false }

/-- The DMA channel after reset (R811); the registers the spec leaves undefined are 0 (log entry 5). -/
def Dma.reset : Dma :=
  { ctl := 0, src := 0, sidx := 0, cnt := 0, dst := 0, didx := 0, lnk := 0, acnt := 0, alnk := 0,
    tmp := none, atmp := none, rl := false, wl := false, auto := none, aauto := none }

/-- The cache after reset: no word present, LRU stack 0, 1, 2, 3 (R131); the SSA registers and the words are 0
(log entry 5). -/
def Cache.reset : Cache :=
  { segs := Vector.replicate 4 { ssa := 0, p := 0, words := Vector.replicate 32 0 }, lru := [0, 1, 2, 3] }

/-- The pins after reset (R853); every input is high but the bus enables, which are low (log entry 6). -/
def Pins.reset : Pins :=
  { nmi := true, iiof := Vector.replicate 4 true, tclk := Vector.replicate 2 true, iack := true, lock := true,
    llock := true, stat := 15, lstat := 15,
    globalBus := { ce0 := false, ce1 := false, de := false, ae := false },
    localBus := { ce0 := false, ce1 := false, de := false, ae := false } }

/-- The machine right after reset with ROMEN = 0 and RESETLOC = 00 (R850, R851): the vector is the word at
address 0 of a memory that lists nothing, so the pc is 0. The registers that the spec gives no value are 0
(log entry 5). -/
def State.reset : State :=
  { r := Vector.replicate 12 0, ar := Vector.replicate 8 0, dp := 0, ir0 := 0, ir1 := 0, bk := 0, sp := 0,
    st := 0, die := 0, iie := 0, iif := 0, rs := 0, re := 0, rc := 0, pc := 0, ivtp := 0, tvtp := 0,
    sFlag := false, delay := none, idle := false, ir := 0, held := false, stalled := false, unflushed := 0,
    cache := Cache.reset, mem := [], romen := false, resetloc := 0, pins := Pins.reset,
    gmicr := 0x3E39FFF0, lmicr := 0x3E39FFF0,
    timers := Vector.replicate 2 Timer.reset,
    ports := #v[Port.reset true, Port.reset true, Port.reset true, Port.reset false, Port.reset false, Port.reset false],
    dma := Vector.replicate 6 Dma.reset, latch := { waiting := none, sent := [] }, boot := none, script := [], free := 0 }

end Sys2Proof.Machine
end

