-- ==== Sys2Proof/Machine/Memory.lean ====
section
/-! DEFINITION. Memory as bytes, the memory map, and the accesses behind the two external interfaces
(20_memory.md R100 to R127). -/

namespace Sys2Proof.Machine

/-- The result of an operation: a value and the state after it; an access that is not ready (R786), with the
word that goes into the peripheral-bus latch, if one does; or a refusal. -/
inductive Res (α : Type) where
  | ok (a : α) (s : State)
  | stall (l : Option Latch)
  | stop (x : Refusal)
  deriving DecidableEq, Repr

/-- One operation after another. -/
def Res.bind {α β : Type} (x : Res α) (f : α → State → Res β) : Res β :=
  match x with
  | .ok a s => f a s
  | .stall l => .stall l
  | .stop x => .stop x

/-- An operation that refuses. -/
def refuse {α : Type} (r : Refusal) : Res α := .stop r

/-! ## Free values (log entry 1) -/

/-- A free word (R111, R126). -/
def drawWord (s : State) : Word × State := (Config.freeWord s.free, { s with free := s.free + 1 })

/-- A free 40-bit value. -/
def drawExt (s : State) : Ext × State := (Config.freeExt s.free, { s with free := s.free + 1 })

/-- A free choice. -/
def drawBit (s : State) : Bool × State := (Config.freeBit s.free, { s with free := s.free + 1 })

/-! ## Bytes and words -/

/-- The canonical memory: a list of byte addresses and bytes. -/
abbrev Memory := List Host.Cell

/-- The byte at `k`; an unlisted byte reads as 0 (V2, log entry 7). -/
def Memory.byte : Memory → Nat → Byte
  | [], _ => 0
  | (a, b) :: t, k => if a = k then b else Memory.byte t k

/-- Store a byte; storing 0 removes the entry. -/
def Memory.set : Memory → Nat → Byte → Memory
  | [], k, b => if b = 0 then [] else [(k, b)]
  | (a, c) :: t, k, b =>
    if k < a then (if b = 0 then (a, c) :: t else (k, b) :: (a, c) :: t)
    else if k = a then (if b = 0 then t else (k, b) :: t)
    else (a, c) :: Memory.set t k b

/-- The word at address `a`: byte lane `l` of it is the byte at `4 * a + l` (R100). -/
def Memory.word (m : Memory) (a : Word) : Word :=
  m.byte (4 * a.toNat + 3) ++ m.byte (4 * a.toNat + 2) ++ m.byte (4 * a.toNat + 1) ++ m.byte (4 * a.toNat)

/-- Store a word. -/
def Memory.setWord (m : Memory) (a : Word) (v : Word) : Memory :=
  (((m.set (4 * a.toNat) (v.extractLsb' 0 8)).set (4 * a.toNat + 1) (v.extractLsb' 8 8)).set
    (4 * a.toNat + 2) (v.extractLsb' 16 8)).set (4 * a.toNat + 3) (v.extractLsb' 24 8)

/-- Every listed address is above `lo` and rises, no listed byte is 0. -/
def Memory.above : Nat → Memory → Bool
  | _, [] => true
  | lo, (a, b) :: t => decide (lo ≤ a) && decide (a < 2 ^ 34) && decide (b ≠ 0) && Memory.above (a + 1) t

/-- The canonical form: addresses strictly rising and inside the address space, no listed byte 0. -/
def Memory.wf (m : Memory) : Bool := Memory.above 0 m

/-! ## The memory map -/

/-- The last column of the memory map (R101). -/
inductive Region where
  | rom | ram0 | ram1 | periph | localBus | globalBus | reserved
  deriving DecidableEq, Repr

/-- The region of an address under the ROMEN pin (R101, R102). -/
def region (romen : Bool) (a : Word) : Region :=
  let n := a.toNat
  if n < 0x1000 then (if romen then .rom else .localBus)
  else if n < 0x100000 then (if romen then .reserved else .localBus)
  else if n < 0x100100 then .periph
  else if n < 0x2FF800 then .reserved
  else if n < 0x2FFC00 then .ram0
  else if n < 0x300000 then .ram1
  else if n < 0x80000000 then .localBus
  else .globalBus

/-- The external bus of an address: `some true` the global one, `some false` the local one (R104). -/
def bus (romen : Bool) (a : Word) : Option Bool :=
  match region romen a with
  | .globalBus => some true
  | .localBus => some false
  | .rom => none
  | .ram0 => none
  | .ram1 => none
  | .periph => none
  | .reserved => none

/-! ## The external interfaces -/

/-- What an access to an external interface is for (R125). -/
inductive Access where
  | program | data | dma | sigi
  deriving DecidableEq, Repr

/-- The three low bits of the status code of a read (R125). -/
def Access.readCode : Access → BitVec 3
  | .program => 0
  | .data => 1
  | .dma => 2
  | .sigi => 3

/-- The three low bits of the status code of a write (R125). -/
def Access.writeCode : Access → BitVec 3
  | .program => 5
  | .data => 5
  | .dma => 6
  | .sigi => 5

/-- The strobe that serves an external access, `true` for STRB1 (R122); with a reserved STRB ACTIVE code either
strobe serves it (U14). -/
def strobe (isGlobal : Bool) (a : Word) (s : State) : Bool × State :=
  let n := ((if isGlobal then s.gmicr else s.lmicr).extractLsb' 24 5).toNat
  if 15 ≤ n ∧ n ≤ 30 then (decide (2 ^ (n + 1) ≤ a.toNat % 2 ^ 31), s) else drawBit s

/-- Drive the status pins of an interface (R125). -/
def setStat (isGlobal : Bool) (code : BitVec 4) (s : State) : State :=
  if isGlobal then { s with pins := { s.pins with stat := code } }
  else { s with pins := { s.pins with lstat := code } }

/-- No signal of the access is in high impedance (R126). -/
def busOn (isGlobal strobe1 : Bool) (s : State) : Bool :=
  let p := if isGlobal then s.pins.globalBus else s.pins.localBus
  !p.de && !p.ae && !(if strobe1 then p.ce1 else p.ce0)

/-- A read over an external interface (R107, R125); any value from a disabled one (R126, V3). -/
def extRead (k : Access) (isGlobal : Bool) (a : Word) (s : State) : Word × State :=
  let b := (strobe isGlobal a s).1
  let s := setStat isGlobal (BitVec.ofBool b ++ k.readCode) (strobe isGlobal a s).2
  if busOn isGlobal b s then (Memory.word s.mem a, s) else drawWord s

/-- A write over an external interface (R107, R125); it is lost on a disabled one (R126, V3). -/
def extWrite (k : Access) (isGlobal : Bool) (a v : Word) (s : State) : State :=
  let b := (strobe isGlobal a s).1
  let s := setStat isGlobal (BitVec.ofBool b ++ k.writeCode) (strobe isGlobal a s).2
  if busOn isGlobal b s then { s with mem := Memory.setWord s.mem a v } else s

end Sys2Proof.Machine
end

