-- ==== Sys2Proof/Machine/Registers.lean ====
section
/-! DEFINITION. The accessors of the registers: the primary file, ST, IIF and the expansion file
(10_state.md R20 to R62). -/

namespace Sys2Proof.Machine

/-- A word with one bit set to a value. -/
def setBit (w : Word) (i : Nat) (b : Bool) : Word :=
  if b then w ||| (1#32 <<< i) else w &&& ~~~(1#32 <<< i)

/-! ## ST -/

/-- One stored bit of ST (R40). -/
def State.stBit (s : State) (i : Nat) : Bool := s.st.getLsbD i

/-- ST with one stored bit set to a value. -/
def State.setSt (s : State) (i : Nat) (b : Bool) : State :=
  { s with st := if b then s.st ||| (1#16 <<< i) else s.st &&& ~~~(1#16 <<< i) }

/-- Every P flag is 0 (R137). -/
def Cache.clear (c : Cache) : Cache := { c with segs := c.segs.map fun g => { g with p := 0 } }

/-- A load of ST (R49): bit 12 clears the cache and stays 0, bits 31-16 are read only. A load that sets RM
starts the interval of R862. -/
def State.wrSt (s : State) (v : Word) : State :=
  { s with
    st := v.extractLsb' 0 16 &&& 0xEFFF#16
    cache := if v.getLsbD 12 then s.cache.clear else s.cache
    unflushed := if v.getLsbD 8 && !s.stBit 8 then 5 else s.unflushed }

/-! ## IIF -/

/-- FUNC of a pin: it is an interrupt pin (R55). -/
def iifFunc (v : Word) (x : Fin 4) : Bool := v.getLsbD (4 * x.val)

/-- TYPE of a pin (R55). -/
def iifType (v : Word) (x : Fin 4) : Bool := v.getLsbD (4 * x.val + 1)

/-- FLAG of a pin as a read shows it (R56): the level of an input pin, the complement of the level of a
level-triggered interrupt pin, else the stored bit. -/
def State.iifFlag (s : State) (x : Fin 4) : Bool :=
  if iifFunc s.iif x then
    (if iifType s.iif x then !s.pins.iiof[x] else s.iif.getLsbD (4 * x.val + 2))
  else
    (if iifType s.iif x then s.iif.getLsbD (4 * x.val + 2) else s.pins.iiof[x])

/-- A read of IIF (R57). -/
def State.rdIif (s : State) : Word :=
  setBit (setBit (setBit (setBit s.iif 2 (s.iifFlag 0)) 6 (s.iifFlag 1)) 10 (s.iifFlag 2)) 14 (s.iifFlag 3)

/-- The FLAG bit of a pin is not written when the new FUNC and TYPE make it an input pin (R58, D3). -/
def keepInput (old v : Word) (x : Fin 4) (w : Word) : Word :=
  if !iifFunc v x && !iifType v x then setBit w (4 * x.val + 2) (old.getLsbD (4 * x.val + 2)) else w

/-- A write of IIF (R58): the NMI bit and the reserved bits are not written. -/
def State.wrIif (s : State) (v : Word) : State :=
  { s with iif := keepInput s.iif v 0 (keepInput s.iif v 1 (keepInput s.iif v 2 (keepInput s.iif v 3
      ((v &&& 0xFF00FFFF#32) ||| (s.iif &&& 0x10000#32))))) }

/-- Set or clear one stored bit of IIF: the hardware's own sets and clears (R706, R707). -/
def State.setIif (s : State) (i : Nat) (b : Bool) : State := { s with iif := setBit s.iif i b }

/-! ## The primary file -/

/-- RdI: the 32-bit value of a register (R21). -/
def State.rdI (s : State) : Reg → Word
  | .r n => s.r[n].extractLsb' 0 32
  | .ar n => s.ar[n]
  | .dp => s.dp.setWidth 32
  | .ir0 => s.ir0
  | .ir1 => s.ir1
  | .bk => s.bk
  | .sp => s.sp
  | .st => Config.stId ++ 0#1 ++ s.st
  | .die => s.die
  | .iie => s.iie
  | .iif => s.rdIif
  | .rs => s.rs
  | .re => s.re
  | .rc => s.rc

/-- RdF: the 40 bits of an extended-precision register (R21). -/
def State.rdF (s : State) (n : Fin 12) : Ext := s.r[n]

/-- WrF (R21). -/
def State.wrF (s : State) (n : Fin 12) (v : Ext) : State := { s with r := s.r.set n v }

/-- A write of an auxiliary register (R23). -/
def State.wrAr (s : State) (n : Fin 8) (v : Word) : State := { s with ar := s.ar.set n v }

/-- A write of RE other than by a repeat instruction: a change starts the interval of R862. -/
def State.wrRe (s : State) (v : Word) : State :=
  { s with re := v, unflushed := if v = s.re then s.unflushed else 5 }

/-- WrI: write the 32-bit value of a register (R21); bits 39-32 of R0-R11 stay. -/
def State.wrI (s : State) (d : Reg) (v : Word) : State :=
  match d with
  | .r n => s.wrF n (s.r[n].extractLsb' 32 8 ++ v)
  | .ar n => s.wrAr n v
  | .dp => { s with dp := v.extractLsb' 0 16 }
  | .ir0 => { s with ir0 := v }
  | .ir1 => { s with ir1 := v }
  | .bk => { s with bk := v }
  | .sp => { s with sp := v }
  | .st => s.wrSt v
  | .die => { s with die := v }
  | .iie => { s with iie := v }
  | .iif => s.wrIif v
  | .rs => { s with rs := v }
  | .re => s.wrRe v
  | .rc => { s with rc := v }

/-! ## The expansion file -/

/-- A read of an expansion register (R60). -/
def State.rdX (s : State) : XReg → Word
  | .ivtp => s.ivtp
  | .tvtp => s.tvtp

/-- A write of an expansion register: the nine low bits are forced to 0 (R61, R62). -/
def State.wrX (s : State) (x : XReg) (v : Word) : State :=
  match x with
  | .ivtp => { s with ivtp := v &&& 0xFFFFFE00#32 }
  | .tvtp => { s with tvtp := v &&& 0xFFFFFE00#32 }

/-! ## Annulled slots -/

/-- The instruction stands in an annulled slot (R498). -/
def State.annulled (s : State) : Bool :=
  match s.delay with
  | some d => d.annul
  | none => false

/-- An effect of the execute phase, which an annulled slot cancels (R498, R863). -/
def State.exe (s : State) (f : State → State) : State := if s.annulled then s else f s

end Sys2Proof.Machine
end

