-- ==== Sys2Proof/Machine/Peripherals.lean ====
section
/-! DEFINITION. The registers of the peripheral space and the agents behind them: memory interface control,
timers, communication ports and the DMA channels' registers (20_memory.md R110, R121; 61_peripherals.md). -/

namespace Sys2Proof.Machine

/-! ## Memory interface control (R121) -/

/-- The enable pins as bits 3-0 (R121). -/
def BusPins.bits (p : BusPins) : BitVec 4 :=
  BitVec.ofBool p.ae ++ BitVec.ofBool p.de ++ BitVec.ofBool p.ce1 ++ BitVec.ofBool p.ce0

/-- A read of GMICR or LMICR (R121). -/
def micrValue (stored : Word) (p : BusPins) : Word := (stored &&& 0x3FFFFFF0#32) ||| p.bits.setWidth 32

/-- What a write of GMICR or LMICR stores (R121). -/
def micrStore (v : Word) : Word := v &&& 0x3FFFFFF0#32

/-! ## Timers (R770 to R776) -/

/-- FUNC (R771). -/
def Timer.func (m : Timer) : Bool := m.ctl.getLsbD 0
/-- I/O_ (R771). -/
def Timer.io (m : Timer) : Bool := m.ctl.getLsbD 1
/-- DATOUT (R771). -/
def Timer.datout (m : Timer) : Bool := m.ctl.getLsbD 2
/-- GO (R771). -/
def Timer.go (m : Timer) : Bool := m.ctl.getLsbD 6
/-- HLD_ (R771); 0 holds. -/
def Timer.hld (m : Timer) : Bool := m.ctl.getLsbD 7
/-- C/P_ (R771). -/
def Timer.cp (m : Timer) : Bool := m.ctl.getLsbD 8
/-- CLKSRC (R771). -/
def Timer.clksrc (m : Timer) : Bool := m.ctl.getLsbD 9
/-- INV (R771). -/
def Timer.inv (m : Timer) : Bool := m.ctl.getLsbD 10

/-- Replace the state of a timer. -/
def State.setTimer (s : State) (t : Fin 2) (m : Timer) : State := { s with timers := s.timers.set t m }

/-- The TINT bit of a timer in IIF (R775). -/
def tintBit (t : Fin 2) : Nat := if t = 0 then 24 else 31

/-- The timer stands at the boundary case: counter and period are zero (R774). -/
def Timer.atZero (m : Timer) : Bool := m.counter == 0 && m.period == 0

/-- An event of the pulse generator: TSTAT is set or toggles, and its rise sets TINT (R775). -/
def timerEvent (t : Fin 2) (s : State) : State :=
  let m := s.timers[t]
  let b := if m.cp then !m.tstat else true
  let s := s.setTimer t { m with tstat := b }
  if b && !m.tstat then s.setIif (tintBit t) true else s

/-- One tick of the timer clock (R774). In clock mode with counter and period zero TSTAT follows H1 instead, and
the clock is ignored. -/
def timerTick (t : Fin 2) (s : State) : State :=
  let m := s.timers[t]
  if !m.hld then s
  else if m.go then s.setTimer t { m with counter := 0, ctl := setBit m.ctl 6 false }
  else if m.atZero then (if m.cp then s else timerEvent t s)
  else if m.counter + 1 = m.period then timerEvent t (s.setTimer t { m with counter := 0 })
  else s.setTimer t { m with counter := m.counter + 1 }

/-- The end of a pulse, one H1 cycle after its event (R775); the pulse at counter = period = 0 stays (R774). DESIGN
CHOICE, log entry 40: with GO = 1 it ends too, at the H1 cycles before the tick that takes GO, and a TSTAT of 1 that
clock mode has left ends as a pulse does, at the next H1 cycle after the write of C/P_. -/
def endPulse (t : Fin 2) (s : State) : State :=
  let m := s.timers[t]
  if !m.cp && !(m.atZero && !m.go) then s.setTimer t { m with tstat := false } else s

/-- The 50 percent output at counter = period = 0 in clock mode: a cycle of two H1 cycles (R774). DESIGN CHOICE, log
entry 40: with GO = 1 it stands still until the tick that takes GO. -/
def fastClock (t : Fin 2) (s : State) : State :=
  let m := s.timers[t]
  if m.cp && m.atZero && !m.go then timerEvent t s else s

/-- One H1 cycle of a timer: the divide-by-two ticks on its rise if CLKSRC = 1 (R771, R773); nothing moves while
HLD_ = 0. -/
def timerH1 (t : Fin 2) (s : State) : State :=
  if !s.timers[t].hld then s
  else
    let s := fastClock t (endPulse t s)
    let m := s.timers[t]
    let s := s.setTimer t { m with half := !m.half }
    if !m.half && m.clksrc then timerTick t s else s

/-- DATIN: the present level of the pin or of DATOUT (R773, R776). -/
def timerDatin (t : Fin 2) (s : State) : Bool :=
  let m := s.timers[t]
  if m.func then (if m.clksrc then xor m.tstat m.inv else s.pins.tclk[t])
  else (if m.io then m.datout else s.pins.tclk[t])

/-- A read of the global control register (R776). -/
def timerCtlRead (t : Fin 2) (s : State) : Word :=
  setBit (setBit s.timers[t].ctl 3 (timerDatin t s)) 11 s.timers[t].tstat

/-- A write of the global control register (R776); a rise of DATOUT that drives the timer is a tick (R773). The FUNC,
I/O_ and CLKSRC of the word written decide whether DATOUT drives the timer; a change of INV or of the clock source is
no edge of its own (DESIGN CHOICE, log entry 40). -/
def timerCtlWrite (t : Fin 2) (v : Word) (s : State) : State :=
  let old := s.timers[t]
  let m := { old with ctl := v &&& 0x7C7#32 }
  let s := s.setTimer t m
  if !m.func && m.io && !m.clksrc && m.datout && !old.datout then timerTick t s else s

/-- The environment drives a level on TCLK; with an external clock the counted edge is a tick (R773). -/
def tclkEvent (t : Fin 2) (level : Bool) (s : State) : State :=
  let old := s.pins.tclk[t]
  let m := s.timers[t]
  let s := { s with pins := { s.pins with tclk := s.pins.tclk.set t level } }
  let edge := if m.inv then old && !level else !old && level
  if !m.clksrc && (m.func || !m.io) && edge then timerTick t s else s

/-! ## Communication ports (R780 to R789) -/

/-- Replace the state of a port. -/
def State.setPort (s : State) (x : Fin 6) (p : Port) : State := { s with ports := s.ports.set x p }

/-- The level field of a queue (R781). -/
def fifoLevel (n : Nat) : BitVec 4 := if 8 ≤ n then 15 else BitVec.ofNat 4 n

/-- The defined fields of CPCR (R782). -/
def Port.cpcr (p : Port) : Word :=
  0#19 ++ fifoLevel p.inq.length ++ fifoLevel p.outq.length ++ BitVec.ofBool p.och ++ BitVec.ofBool p.ich
    ++ BitVec.ofBool (!p.token) ++ 0#2

/-- A read of CPCR: the reserved bits are any value (R782, V4). -/
def cpcrRead (x : Fin 6) (s : State) : Word × State :=
  (s.ports[x].cpcr ||| ((drawWord s).1 &&& 0xFFFFE003#32), (drawWord s).2)

/-- A write of CPCR stores ICH and OCH (R782, D31). -/
def cpcrWrite (x : Fin 6) (v : Word) (s : State) : State :=
  s.setPort x { s.ports[x] with ich := v.getLsbD 3, och := v.getLsbD 4 }

/-- A read of the input port register takes the oldest word, or waits (R783). -/
def portRead (x : Fin 6) (s : State) : Res Word :=
  match s.ports[x].inq with
  | [] => .stall none
  | w :: t => .ok w (s.setPort x { s.ports[x] with inq := t })

/-- A write of the output port register (R784, R786): into the FIFO; on a full FIFO the word goes into the latch,
which is empty here (`busHeld`), and the agent waits until it has been sent. -/
def portWrite (ag : BusAgent) (x : Fin 6) (w : Word) (s : State) : Res Unit :=
  let p := s.ports[x]
  if p.outq.length < 8 then .ok () (s.setPort x { p with outq := p.outq ++ [w] })
  else .stall (some { port := x, word := w, agent := ag })

/-- The input port register of a port (R780). -/
def portInAddr (x : Fin 6) : Word := 0x100041#32 + BitVec.ofNat 32 (16 * x.val)
/-- The output port register of a port (R780). -/
def portOutAddr (x : Fin 6) : Word := 0x100042#32 + BitVec.ofNat 32 (16 * x.val)

/-- The word of an agent's write to an address, in the latch or sent from it. -/
def Latch.isFor (ag : BusAgent) (a : Word) (l : Latch) : Bool := l.agent == ag && portOutAddr l.port == a

/-- The write of an agent to an address has been carried out from the latch (R786). -/
def BusLatch.sentFor (b : BusLatch) (ag : BusAgent) (a : Word) : Bool := b.sent.any (Latch.isFor ag a)

/-- The latch after an agent has completed a write that was carried out from it. -/
def BusLatch.collect (b : BusLatch) (ag : BusAgent) (a : Word) : BusLatch :=
  { b with sent := b.sent.eraseP (Latch.isFor ag a) }

/-- The latch after an access that was not ready, with the word that goes into it, if one does (R786). -/
def BusLatch.take (b : BusLatch) (l : Option Latch) : BusLatch :=
  match l with
  | some x => { b with waiting := some x }
  | none => b

/-- The latch without an agent's accesses: its waiting word still goes into the FIFO, but no access of the agent
waits for it (R786, R802). -/
def BusLatch.release (b : BusLatch) (ag : BusAgent) : BusLatch :=
  { waiting := b.waiting.map fun l => if l.agent = ag then { l with agent := .gone } else l
    sent := b.sent.filter fun l => l.agent != ag }

/-- A write of the agent has gone into the latch and is not yet complete (R786). -/
def BusLatch.has (b : BusLatch) (ag : BusAgent) : Bool :=
  b.waiting.any (fun l => l.agent == ag) || b.sent.any (fun l => l.agent == ag)

/-- The latch after its word has gone into the FIFO. -/
def BusLatch.drained (b : BusLatch) (l : Latch) : BusLatch :=
  { waiting := none, sent := if l.agent = .gone then b.sent else b.sent ++ [l] }

/-- The latched word goes into the FIFO as soon as a place is free (R786). -/
def drainLatch (s : State) : State :=
  match s.latch.waiting with
  | none => s
  | some l =>
    let p := s.ports[l.port]
    if p.outq.length < 8 then
      { s.setPort l.port { p with outq := p.outq ++ [l.word] } with latch := s.latch.drained l }
    else s

/-- A word that waits in the latch holds every other access of the peripheral bus (R786). -/
def busHeld (s : State) : Bool := s.latch.waiting.isSome

/-- deliver(w) (R787). -/
def portDeliver (x : Fin 6) (w : Word) (s : State) : State :=
  let p := s.ports[x]
  if !p.token && !p.ich && decide (p.inq.length < 8) then s.setPort x { p with inq := p.inq ++ [w] } else s

/-- accept (R787). -/
def portAccept (x : Fin 6) (s : State) : State :=
  let p := s.ports[x]
  match p.outq with
  | [] => s
  | _ :: t => if p.token && !p.och then drainLatch (s.setPort x { p with outq := t }) else s

/-- take token (R787); a port whose input FIFO is full does not acknowledge the request (R788). DESIGN CHOICE, log entry
59: the guards of the pseudocode of R787 are the only ones, so the far end may take the token back before this port has
sent a word, though the prose of R787 says that a port that receives the token always transmits one. -/
def portTakeToken (x : Fin 6) (s : State) : State :=
  let p := s.ports[x]
  if p.token && !p.ich && decide (p.inq.length < 8) then s.setPort x { p with token := false } else s

/-- give token (R787). -/
def portGiveToken (x : Fin 6) (s : State) : State :=
  let p := s.ports[x]
  if !p.token && !p.outq.isEmpty && !p.och then s.setPort x { p with token := true } else s

/-- ICRDY (R785). -/
def Port.icrdy (p : Port) : Bool := !p.inq.isEmpty
/-- ICFULL (R785). -/
def Port.icfull (p : Port) : Bool := decide (8 ≤ p.inq.length)
/-- OCRDY (R785). -/
def Port.ocrdy (p : Port) : Bool := decide (p.outq.length ≤ 7)
/-- OCEMPTY (R785). -/
def Port.ocempty (p : Port) : Bool := p.outq.isEmpty

/-! ## The registers of the DMA channels (R790, R791, R802) -/

/-- Replace the state of a DMA channel. -/
def State.setDma (s : State) (c : Fin 6) (d : Dma) : State := { s with dma := s.dma.set c d }

/-- START (R802). -/
def Dma.start (d : Dma) : BitVec 2 := d.ctl.extractLsb' 22 2
/-- AUX START (R802). -/
def Dma.auxStart (d : Dma) : BitVec 2 := d.ctl.extractLsb' 24 2
/-- TRANSFER MODE (R804). -/
def Dma.mode (d : Dma) : BitVec 2 := d.ctl.extractLsb' 2 2
/-- AUX TRANSFER MODE (R804). -/
def Dma.auxMode (d : Dma) : BitVec 2 := d.ctl.extractLsb' 4 2
/-- SPLIT MODE (R805). -/
def Dma.split (d : Dma) : Bool := d.ctl.getLsbD 14
/-- COM PORT (R791); the codes 110 and 111 are never stored (U17). -/
def Dma.comPort (d : Dma) : Fin 6 := Fin.ofNat 6 (d.ctl.extractLsb' 15 3).toNat

/-- The code of STATUS or AUX STATUS (R802) by the START field of its half. -/
def dmaStatus (start : BitVec 2) (holding : Bool) : BitVec 2 :=
  if start = 3 then 3 else if holding then 1 else 0

/-- A read of CTL: the stored fields and the status (R791, R802). DESIGN CHOICE, log entry 58: AUX STATUS follows AUX
START in unified mode as in split mode, so it reads 11 where AUX START holds 11. -/
def Dma.ctlValue (d : Dma) : Word :=
  d.ctl ||| ((0#2 ++ dmaStatus d.auxStart d.atmp.isSome ++ dmaStatus d.start d.tmp.isSome).setWidth 32 <<< 26)

/-- START = 00 and AUX START = 00 reset the channel or its half (R802). -/
def Dma.applyStart (d : Dma) : Dma :=
  let d := if d.start = 0 then
      { d with tmp := none, rl := false, auto := none, wl := if d.split then d.wl else false } else d
  if d.auxStart = 0 then { d with atmp := none, aauto := none, wl := if d.split then false else d.wl } else d

/-- The latch after a channel was reset: its access is cancelled, but the word in the latch still goes into the
FIFO (R786, R802). -/
def cancelLatch (c : Fin 6) (d : Dma) (b : BusLatch) : BusLatch :=
  let b := if d.tmp.isNone then b.release (.primary c) else b
  if d.atmp.isNone then b.release (.auxiliary c) else b

/-- A reserved code of CTL (R791, R792, U17). -/
def ctlReserved (c : Fin 6) (v : Word) : Bool :=
  v.extractLsb' 0 2 == 2#2 || decide (6 ≤ (v.extractLsb' 15 3).toNat) || v.getLsbD 31 || (v.getLsbD 30 && c != 0)

/-- A write of CTL: every R/W field, then the start codes act (R791, R802); a reserved code is refused (U17). -/
def dmaWriteCtl (c : Fin 6) (v : Word) (s : State) : Res Unit :=
  if ctlReserved c v then refuse .dmaControlCode
  else
    let d := s.dma[c]
    let d := Dma.applyStart { d with ctl := (v &&& 0x43CFFFFF#32) ||| (d.ctl &&& 0x300000#32) }
    .ok () { s.setDma c d with latch := cancelLatch c d s.latch }

/-- A read of a DMA register by its offset; reading CTL clears the two TCINT flags (R790, R791). -/
def dmaRead (c : Fin 6) (off : Nat) (s : State) : Word × State :=
  let d := s.dma[c]
  match off with
  | 0 => (d.ctlValue, s.setDma c { d with ctl := d.ctl &&& 0xFFCFFFFF#32 })
  | 1 => (d.src, s)
  | 2 => (d.sidx, s)
  | 3 => (d.cnt, s)
  | 4 => (d.dst, s)
  | 5 => (d.didx, s)
  | 6 => (d.lnk, s)
  | 7 => (d.acnt, s)
  | 8 => (d.alnk, s)
  | _ => drawWord s

/-- A write of a DMA register by its offset (R790); a reserved word takes no write (R111, U13). -/
def dmaWrite (c : Fin 6) (off : Nat) (v : Word) (s : State) : Res Unit :=
  let d := s.dma[c]
  match off with
  | 0 => dmaWriteCtl c v s
  | 1 => .ok () (s.setDma c { d with src := v })
  | 2 => .ok () (s.setDma c { d with sidx := v })
  | 3 => .ok () (s.setDma c { d with cnt := v })
  | 4 => .ok () (s.setDma c { d with dst := v })
  | 5 => .ok () (s.setDma c { d with didx := v })
  | 6 => .ok () (s.setDma c { d with lnk := v })
  | 7 => .ok () (s.setDma c { d with acnt := v })
  | 8 => .ok () (s.setDma c { d with alnk := v })
  | _ => .ok () s

/-! ## The peripheral space (R110, R111) -/

/-- An operation on the state that is always ready. -/
def Res.ofPair (x : Word × State) : Res Word := .ok x.1 x.2

/-- A timer's read by its offset (R770). -/
def timerRead (t : Fin 2) (off : Nat) (s : State) : Res Word :=
  if off = 0 then .ok (timerCtlRead t s) s
  else if off = 4 then .ok s.timers[t].counter s
  else if off = 8 then .ok s.timers[t].period s
  else .ofPair (drawWord s)

/-- A timer's write by its offset (R770, R776). -/
def timerWrite (t : Fin 2) (off : Nat) (v : Word) (s : State) : State :=
  if off = 0 then timerCtlWrite t v s
  else if off = 4 then s.setTimer t { s.timers[t] with counter := v }
  else if off = 8 then s.setTimer t { s.timers[t] with period := v }
  else s

/-- The memory interface block's read by its offset (R120, R121). -/
def micrRead (off : Nat) (s : State) : Res Word :=
  if off = 0 then .ok (micrValue s.gmicr s.pins.globalBus) s
  else if off = 4 then .ok (micrValue s.lmicr s.pins.localBus) s
  else .ofPair (drawWord s)

/-- The memory interface block's write by its offset (R120, R121). -/
def micrWrite (off : Nat) (v : Word) (s : State) : State :=
  if off = 0 then { s with gmicr := micrStore v }
  else if off = 4 then { s with lmicr := micrStore v }
  else s

/-- A port's read by its offset; the output port register reads as any value (R780, R784, V4). -/
def portBlockRead (x : Fin 6) (off : Nat) (s : State) : Res Word :=
  if off = 0 then .ofPair (cpcrRead x s)
  else if off = 1 then portRead x s
  else .ofPair (drawWord s)

/-- A port's write by its offset; a write of the input port register changes nothing (R780, R783). -/
def portBlockWrite (ag : BusAgent) (x : Fin 6) (off : Nat) (v : Word) (s : State) : Res Unit :=
  if off = 0 then .ok () (cpcrWrite x v s)
  else if off = 2 then portWrite ag x v s
  else .ok () s

/-- PeriphRead (R110): the block by bits 7-4, the register by bits 3-0. -/
def periphRead (a : Word) (s : State) : Res Word :=
  let off := (a.extractLsb' 0 4).toNat
  if busHeld s then .stall none
  else match (a.extractLsb' 4 4).toNat with
    | 0 => micrRead off s
    | 1 => .ofPair (drawWord s)
    | 2 => timerRead 0 off s
    | 3 => timerRead 1 off s
    | 4 => portBlockRead 0 off s
    | 5 => portBlockRead 1 off s
    | 6 => portBlockRead 2 off s
    | 7 => portBlockRead 3 off s
    | 8 => portBlockRead 4 off s
    | 9 => portBlockRead 5 off s
    | 10 => .ofPair (dmaRead 0 off s)
    | 11 => .ofPair (dmaRead 1 off s)
    | 12 => .ofPair (dmaRead 2 off s)
    | 13 => .ofPair (dmaRead 3 off s)
    | 14 => .ofPair (dmaRead 4 off s)
    | _ => .ofPair (dmaRead 5 off s)

/-- PeriphWrite (R110). A write that the latch has carried out is complete (R786). -/
def periphWrite (ag : BusAgent) (a v : Word) (s : State) : Res Unit :=
  let off := (a.extractLsb' 0 4).toNat
  if s.latch.sentFor ag a then .ok () { s with latch := s.latch.collect ag a }
  else if busHeld s then .stall none
  else match (a.extractLsb' 4 4).toNat with
    | 0 => .ok () (micrWrite off v s)
    | 1 => .ok () s
    | 2 => .ok () (timerWrite 0 off v s)
    | 3 => .ok () (timerWrite 1 off v s)
    | 4 => portBlockWrite ag 0 off v s
    | 5 => portBlockWrite ag 1 off v s
    | 6 => portBlockWrite ag 2 off v s
    | 7 => portBlockWrite ag 3 off v s
    | 8 => portBlockWrite ag 4 off v s
    | 9 => portBlockWrite ag 5 off v s
    | 10 => dmaWrite 0 off v s
    | 11 => dmaWrite 1 off v s
    | 12 => dmaWrite 2 off v s
    | 13 => dmaWrite 3 off v s
    | 14 => dmaWrite 4 off v s
    | _ => dmaWrite 5 off v s

end Sys2Proof.Machine
end

