-- ==== Sys2Proof/Machine/Bus.lean ====
section
/-! DEFINITION. MemRead, MemWrite, InstrFetch and the instruction cache (20_memory.md R103, R106 to R109,
R130 to R139), and the stack (10_state.md R27). -/

namespace Sys2Proof.Machine

/-! ## Data accesses -/

/-- MemRead (R108). -/
def memRead (k : Access) (a : Word) (s : State) : Res Word :=
  match region s.romen a with
  | .ram0 => .ok (Memory.word s.mem a) s
  | .ram1 => .ok (Memory.word s.mem a) s
  | .rom => .ok (Config.romImage a.toNat) s
  | .periph => periphRead a s
  | .localBus => .ofPair (extRead k false a s)
  | .globalBus => .ofPair (extRead k true a s)
  | .reserved => refuse (.reservedAddress a)

/-- MemWrite (R108); a write of the ROM has no effect (R106, D4). -/
def memWrite (k : Access) (ag : BusAgent) (a v : Word) (s : State) : Res Unit :=
  match region s.romen a with
  | .ram0 => .ok () { s with mem := Memory.setWord s.mem a v }
  | .ram1 => .ok () { s with mem := Memory.setWord s.mem a v }
  | .rom => .ok () s
  | .periph => periphWrite ag a v s
  | .localBus => .ok () (extWrite k false a v s)
  | .globalBus => .ok () (extWrite k true a v s)
  | .reserved => refuse (.reservedAddress a)

/-- A data read of the CPU. -/
def dataRead (a : Word) (s : State) : Res Word := memRead .data a s

/-- A data write of the CPU. -/
def dataWrite (a v : Word) (s : State) : Res Unit := memWrite .data .cpu a v s

/-- The IACK_ pin, driven where the read is external (R508, R760). -/
def State.driveIack (s : State) (a : Word) (level : Bool) : State :=
  if (bus s.romen a).isSome then { s with pins := { s.pins with iack := level } } else s

/-- A read with the IACK_ pin low (R508, R857). -/
def iackRead (a : Word) (s : State) : Res Unit :=
  (dataRead a (s.driveIack a false)).bind fun _ u => .ok () (u.driveIack a true)

/-! ## The instruction cache -/

/-- The chosen segment of an address: of those whose SSA matches, the one nearest the top of the LRU stack
(R132). -/
def Cache.lookup (c : Cache) (a : Word) : Option (Fin 4) :=
  c.lru.find? fun g => c.segs[g].ssa == a.extractLsb' 5 27

/-- touch: to the top of the LRU stack (R132). -/
def Cache.touch (c : Cache) (g : Fin 4) : Cache := { c with lru := g :: c.lru.filter fun x => x != g }

/-- The word index of an address (R130). -/
def wordIndex (a : Word) : Fin 32 := (a.extractLsb' 0 5).toFin

/-- A word and its P flag written into a segment (R134). -/
def Segment.fill (g : Segment) (w : Fin 32) (x : Word) : Segment :=
  { g with words := g.words.set w x, p := g.p ||| (1#32 <<< w.val) }

/-- Replace a segment. -/
def Cache.setSeg (c : Cache) (g : Fin 4) (x : Segment) : Cache := { c with segs := c.segs.set g x }

/-- The least recently used segment: the bottom of the stack (R130). -/
def Cache.bottom (c : Cache) : Fin 4 := c.lru.getLastD 0

/-- CacheFetch (R134). -/
def cacheFetch (isGlobal : Bool) (a : Word) (s : State) : Res Word :=
  let w := wordIndex a
  if !s.stBit 11 then .ofPair (extRead .program isGlobal a s)
  else match s.cache.lookup a with
    | some g =>
      if s.cache.segs[g].p.getLsbD w.val then
        .ok s.cache.segs[g].words[w] (if s.stBit 10 then s else { s with cache := s.cache.touch g })
      else
        let x := (extRead .program isGlobal a s).1
        let s := (extRead .program isGlobal a s).2
        .ok x (if s.stBit 10 then s
          else { s with cache := (s.cache.setSeg g (s.cache.segs[g].fill w x)).touch g })
    | none =>
      let x := (extRead .program isGlobal a s).1
      let s := (extRead .program isGlobal a s).2
      let g := s.cache.bottom
      let fresh : Segment := { s.cache.segs[g] with ssa := a.extractLsb' 5 27, p := 0 }
      .ok x (if s.stBit 10 then s else { s with cache := (s.cache.setSeg g (fresh.fill w x)).touch g })

/-- InstrFetch (R109). -/
def instrFetch (a : Word) (s : State) : Res Word :=
  match region s.romen a with
  | .ram0 => .ok (Memory.word s.mem a) s
  | .ram1 => .ok (Memory.word s.mem a) s
  | .rom => .ok (Config.romImage a.toNat) s
  | .localBus => cacheFetch false a s
  | .globalBus => cacheFetch true a s
  | .periph => refuse (.peripheralFetch a)
  | .reserved => refuse (.reservedAddress a)

/-! ## The stack -/

/-- push (R27): preincrement, then the store. -/
def push (v : Word) (s : State) : Res Unit := dataWrite (s.sp + 1) v { s with sp := s.sp + 1 }

/-- pop (R27): the read, then postdecrement. -/
def pop (s : State) : Res Word := (dataRead s.sp s).bind fun v s => .ok v { s with sp := s.sp - 1 }

end Sys2Proof.Machine
end

