-- ==== Sys2Proof/Machine/Flags.lean ====
section
/-! DEFINITION. The condition flags: their computation, their gate and the conditions (R41, R46 to R48, R200). -/

namespace Sys2Proof.Machine

/-- The flag results of an instruction; `c = none` leaves C as it is (R41). -/
structure FlagRes where
  n : Bool
  z : Bool
  v : Bool
  uf : Bool
  c : Option Bool
  deriving DecidableEq, Repr

/-- Bits 6-0 of ST from the seven flags (R40). -/
def packFlags (luf lv uf n z v c : Bool) : BitVec 7 :=
  BitVec.ofBool luf ++ BitVec.ofBool lv ++ BitVec.ofBool uf ++ BitVec.ofBool n ++ BitVec.ofBool z
    ++ BitVec.ofBool v ++ BitVec.ofBool c

/-- Replace bits 6-0 of ST. -/
def State.withFlags (s : State) (f : BitVec 7) : State := { s with st := s.st.extractLsb' 7 9 ++ f }

/-- Write the flags: LV and LUF latch V and UF (R41). -/
def State.setFlags (s : State) (f : FlagRes) : State :=
  s.withFlags (packFlags (s.stBit 6 || f.uf) (s.stBit 5 || f.v) f.uf f.n f.z f.v (f.c.getD (s.stBit 0)))

/-- FlagsOn: an instruction with this destination writes the flags (R47). -/
def State.flagsOn (s : State) (d : Reg) : Bool :=
  match d with
  | .r _ => true
  | .st => false
  | .ar _ => s.stBit 15
  | .dp => s.stBit 15
  | .ir0 => s.stBit 15
  | .ir1 => s.stBit 15
  | .bk => s.stBit 15
  | .sp => s.stBit 15
  | .die => s.stBit 15
  | .iie => s.stBit 15
  | .iif => s.stBit 15
  | .rs => s.stBit 15
  | .re => s.stBit 15
  | .rc => s.stBit 15

/-- An integer result: the register and, where the gate is open, the flags (R47). -/
def State.putI (s : State) (d : Reg) (v : Word) (f : FlagRes) : State :=
  if s.flagsOn d then (s.wrI d v).setFlags f else s.wrI d v

/-- A floating-point result: R0-R11 always set the flags (R47). -/
def State.putF (s : State) (d : Fin 12) (v : Ext) (f : FlagRes) : State := (s.wrF d v).setFlags f

/-- The condition of a conditional instruction, on the flags before it (R200). -/
def State.cond (s : State) (c : Cond) : Bool :=
  let cf := s.stBit 0
  let v := s.stBit 1
  let z := s.stBit 2
  let n := s.stBit 3
  let uf := s.stBit 4
  let lv := s.stBit 5
  let luf := s.stBit 6
  match c with
  | .u => true
  | .lo => cf
  | .ls => cf || z
  | .hi => !cf && !z
  | .hs => !cf
  | .eq => z
  | .ne => !z
  | .lt => n
  | .le => n || z
  | .gt => !n && !z
  | .ge => !n
  | .nv => !v
  | .v => v
  | .nuf => !uf
  | .uf => uf
  | .nlv => !lv
  | .lv => lv
  | .nluf => !luf
  | .luf => luf
  | .zuf => z || uf

/-- The flags of a logical result: V and UF 0, C as it is (R41). -/
def logicFlags (v : Word) : FlagRes := { n := v.msb, z := v == 0, v := false, uf := false, c := none }

/-- The flags of an integer value that is moved: V and UF 0, C as it is. -/
def moveFlags (v : Word) : FlagRes := logicFlags v

end Sys2Proof.Machine
end

