-- ==== Sys2Proof/Machine/Numeric.lean ====
section
/-! DEFINITION. The number formats and the floating-point arithmetic, computed on exact integers and packed once
(40_numerics.md R230 to R250). -/

namespace Sys2Proof.Machine

/-- The result of a floating-point operation: value, overflow, underflow. -/
structure FRes where
  r : Ext
  ovf : Bool
  unf : Bool
  deriving DecidableEq, Repr

/-- The canonical zero (R232). -/
def fZero : Ext := 0x8000000000#40
/-- The most positive value (R248). -/
def fMax : Ext := 0x7F7FFFFFFF#40
/-- The most negative value (R248). -/
def fMin : Ext := 0x7F80000000#40

/-- A result without overflow or underflow. -/
def FRes.exact (r : Ext) : FRes := { r := r, ovf := false, unf := false }

/-- The exponent as a signed number (R232). -/
def expo (a : Ext) : Int := (a.extractLsb' 32 8).toInt

/-- The value is zero: the exponent is -128 (R232). -/
def fIsZero (a : Ext) : Bool := a.extractLsb' 32 8 == 0x80#8

/-- Mant: the mantissa with the implied bit, in units of 2^-31 (R232). -/
def mant (a : Ext) : Int :=
  if a.getLsbD 31 then Int.ofNat (a.toNat % 2 ^ 31) - 2 ^ 32 else 2 ^ 31 + Int.ofNat (a.toNat % 2 ^ 31)

/-- The mantissa field of a mantissa value in units of 2^-31 (R238). -/
def manField (m : Int) : Word := BitVec.ofInt 32 (m + 2 ^ 31)

/-- A value from its exponent and mantissa field. -/
def mkExt (e : Int) (man : Word) : Ext := BitVec.ofInt 8 e ++ man

/-- ShortToExt (R234, D25). -/
def shortToExt (h : BitVec 16) : Ext :=
  if h.extractLsb' 12 4 == 8#4 then fZero
  else (h.extractLsb' 12 4).signExtend 8 ++ (h.extractLsb' 0 12 ++ 0#20)

/-- SingleToExt (R235). -/
def singleToExt (w : Word) : Ext := w ++ 0#8

/-- ExtToSingle (R235). -/
def extToSingle (x : Ext) : Word := x.extractLsb' 8 32

/-- The number of bits of a natural number. -/
def bitLength (n : Nat) : Nat := if n = 0 then 0 else Nat.log2 n + 1

/-- `floor (s * 2 ^ k)`. -/
def shiftInt (s k : Int) : Int := if 0 ≤ k then s * 2 ^ k.toNat else s / 2 ^ (-k).toNat

/-- Pack: normalise `s * 2 ^ (e - 31)`, dropping the bits that do not fit (R238, R248); 0 gives zero. -/
def pack (s e : Int) : FRes :=
  if s = 0 then .exact fZero
  else
    let nsb := if 0 < s then bitLength s.toNat else bitLength (-s - 1).toNat
    let sh : Int := 32 - nsb
    let x := e - sh
    if 127 < x then { r := if 0 < s then fMax else fMin, ovf := true, unf := false }
    else if x < -127 then { r := fZero, ovf := false, unf := true }
    else .exact (mkExt x (manField (shiftInt s sh)))

/-- FMul (R240). -/
def fMul (a b : Ext) : FRes :=
  if fIsZero a || fIsZero b then .exact fZero else pack (mant a * mant b) (expo a + expo b - 31)

/-- The mantissa of an addend: a zero contributes nothing (R241). -/
def addend (a : Ext) : Int := if fIsZero a then 0 else mant a

/-- FAdd (R241): align by truncating shifts, then add. -/
def fAdd (a b : Ext) : FRes :=
  let e := max (expo a) (expo b)
  pack (shiftInt (addend a) (expo a - e) + shiftInt (addend b) (expo b - e)) e

/-- FSub (R241): align by truncating shifts, then subtract. -/
def fSub (a b : Ext) : FRes :=
  let e := max (expo a) (expo b)
  pack (shiftInt (addend a) (expo a - e) - shiftInt (addend b) (expo b - e)) e

/-- FNeg (R250). -/
def fNeg (a : Ext) : FRes := fSub fZero a

/-- FAbs (R250). -/
def fAbs (a : Ext) : FRes := if a.getLsbD 31 then fNeg a else .exact a

/-- FNorm (R242). -/
def fNorm (a : Ext) : FRes :=
  let m := (a.extractLsb' 0 32).toInt
  if fIsZero a then { r := fZero, ovf := false, unf := m ≠ 0 }
  else pack m (expo a)

/-- FRnd (R243, D28). -/
def fRnd (a : Ext) : FRes :=
  if fIsZero a then .exact fZero
  else
    let t := pack (mant a + 0x80) (expo a)
    if t.ovf || t.unf then t else { t with r := t.r.extractLsb' 8 32 ++ 0#8 }

/-- FFix (R244): the integer and the overflow. -/
def fFix (a : Ext) : Word × Bool :=
  if fIsZero a then (0, false)
  else if 31 ≤ expo a then (if a.getLsbD 31 then 0x80000000#32 else 0x7FFFFFFF#32, true)
  else (BitVec.ofInt 32 (shiftInt (mant a) (expo a - 31)), false)

/-- FFloat (R245). -/
def fFloat (i : Word) : Ext := (pack i.toInt 31).r

/-- FromIEEE (R236): the value and the overflow. -/
def fromIEEE (w : Word) : Ext × Bool :=
  let s := w.getLsbD 31
  let e := (w.extractLsb' 23 8).toNat
  let f := w.extractLsb' 0 23
  if e = 255 then (0x7F#8 ++ BitVec.ofBool s ++ (if s then 0#23 else 0x7FFFFF#23) ++ 0#8, true)
  else if e = 0 then (fZero, false)
  else if !s then (BitVec.ofInt 8 (e - 127) ++ 0#1 ++ f ++ 0#8, false)
  else if f ≠ 0 then (BitVec.ofInt 8 (e - 127) ++ 1#1 ++ (-f) ++ 0#8, false)
  else (BitVec.ofInt 8 (e - 128) ++ 1#1 ++ 0#23 ++ 0#8, false)

/-- ToIEEE (R237): the word and the overflow. -/
def toIEEE (a : Ext) : Word × Bool :=
  let s := a.getLsbD 31
  let e := expo a
  let f := a.extractLsb' 8 23
  if e ≤ -127 then (0, false)
  else if !s then (0#1 ++ BitVec.ofInt 8 (e + 127) ++ f, false)
  else if f ≠ 0 then (1#1 ++ BitVec.ofInt 8 (e + 127) ++ (-f), false)
  else if e ≤ 126 then (1#1 ++ BitVec.ofInt 8 (e + 128) ++ 0#23, false)
  else (1#1 ++ 0xFF#8 ++ 0#23, true)

/-! ## The estimates (R246, R247, P2, log entry 4) -/

/-- The integer square root, by `k` binary digits. -/
def isqrtFrom : Nat → Nat → Nat → Nat
  | 0, _, r => r
  | k + 1, n, r => isqrtFrom k n (if (r + 2 ^ k) * (r + 2 ^ k) ≤ n then r + 2 ^ k else r)

/-- The ten most significant bits of the mantissa are 01.00000000 or 10.00000000 (R246). -/
def eightZeros (man : Word) : Bool := man.extractLsb' 23 8 == 0#8

/-- One of the two eight-bit neighbours of a value: the one below, or the next above if the value is not
itself one. -/
def neighbour (below : Int) (isExact up : Bool) : Int := if !isExact && up then below + 1 else below

/-- RcpMan: eight fraction bits of 2/v (R246). -/
def rcpMan (man : Word) : Word :=
  if eightZeros man then (if man.getLsbD 31 then 0xFF800000#32 else 0x7F800000#32)
  else
    let m := mant (0#8 ++ man)
    let q :=
      if 0 < m then neighbour (2 ^ 40 / m) (2 ^ 40 % m == 0) (Config.rcpUp man)
      else min (-257) (neighbour (-(2 ^ 40) / (-m)) (2 ^ 40 % (-m) == 0) (Config.rcpUp man))
    manField (q * 2 ^ 23)

/-- Rcpf (R246): the estimate and the overflow. -/
def fRcp (a : Ext) : Ext × Bool :=
  if fIsZero a then (fMax, true)
  else if expo a = 127 then (fZero, false)
  else (mkExt (-expo a - 1) (rcpMan (a.extractLsb' 0 32)), false)

/-- RsqMan0: eight fraction bits of 2/sqrt(v), for an even exponent (R247). -/
def rsqMan0 (man : Word) : Word :=
  if eightZeros man then 0x7F800000#32
  else
    let m := (mant (0#8 ++ man)).toNat
    let q := isqrtFrom 10 (2 ^ 49 / m) 0
    manField (min 511 (neighbour q (q * q * m == 2 ^ 49) (Config.rsq0Up man)) * 2 ^ 23)

/-- RsqMan1: eight fraction bits of sqrt(2)/sqrt(v), for an odd exponent (R247). -/
def rsqMan1 (man : Word) : Word :=
  let m := (mant (0#8 ++ man)).toNat
  let q := isqrtFrom 10 (2 ^ 48 / m) 0
  manField (neighbour q (q * q * m == 2 ^ 48) (Config.rsq1Up man) * 2 ^ 23)

/-- Rsqrf of an operand that is not negative (R247): the estimate and the overflow. -/
def fRsq (a : Ext) : Ext × Bool :=
  if fIsZero a then (fMax, true)
  else
    (mkExt (-(expo a + 1) / 2)
      (if expo a % 2 = 0 then rsqMan0 (a.extractLsb' 0 32) else rsqMan1 (a.extractLsb' 0 32)), false)

/-! ## The flags of floating-point results -/

/-- FlagN (R249). -/
def fN (r : Ext) : Bool := r.getLsbD 31

/-- The flags of a floating-point result (R41, R249); C stays. -/
def floatFlags (x : FRes) : FlagRes := { n := fN x.r, z := fIsZero x.r, v := x.ovf, uf := x.unf, c := none }

end Sys2Proof.Machine
end

