-- ==== Sys2Proof/Machine/Operands.lean ====
section
/-! DEFINITION. Every operand form: address generation and the values of the sources (30_encoding.md R161 to R203). -/

namespace Sys2Proof.Machine

/-! ## Indirect addressing -/

/-- The displacement or index of a mode (R170). -/
def State.index (s : State) : Index → Word
  | .disp d => d.setWidth 32
  | .ir0 => s.ir0
  | .ir1 => s.ir1

/-- The width of the index part of circular addressing: one more than the place of the first 1 of BK (R196). -/
def circBits (bk : Word) : Nat := Nat.log2 (bk.toNat % 2 ^ 16) + 1

/-- The index part of an auxiliary register (R196). -/
def circIndex (bk a : Word) : Nat := a.toNat % 2 ^ circBits bk

/-- The stated conditions of circular addressing (R196, U16). -/
def circDefined (bk a x : Word) : Bool :=
  decide (bk.toNat % 2 ^ 16 ≠ 0) && decide (bk.toNat < 2 ^ 16) && decide (x.toNat ≤ bk.toNat)
    && decide (circIndex bk a < bk.toNat)

/-- The next index of circular addressing (R196). -/
def circNext (bk i x : Nat) (sub : Bool) : Nat :=
  if sub then (if x ≤ i then i - x else i + bk - x)
  else (if i + x < bk then i + x else i + x - bk)

/-- circ(A, +x) and circ(A, -x) (R196); any value outside the stated conditions (U16, log entry 22). -/
def circ (bk a x : Word) (sub : Bool) : Word :=
  if circDefined bk a x then
    BitVec.ofNat 32 (a.toNat - circIndex bk a + circNext bk.toNat (circIndex bk a) x.toNat sub)
  else Config.circOpen bk a x sub

/-- The reverse-carry sum of bit-reversed addressing (R197). -/
def bitRevAdd (a x : Word) : Word := (a.reverse + x.reverse).reverse

/-- The auxiliary register of an indirect operand. -/
def indAr : Ind → Fin 8
  | .pre _ _ _ n => n
  | .post _ _ _ n => n
  | .plain n => n
  | .bitRev n => n

/-- The linear sum or difference of a mode (R171 to R176). -/
def linear (a x : Word) (sub : Bool) : Word := if sub then a - x else a + x

/-- The operand address of an indirect mode (R171 to R197). -/
def indAddr (i : Ind) (s : State) : Word :=
  match i with
  | .pre sub _ x n => linear s.ar[n] (s.index x) sub
  | .post _ _ _ n => s.ar[n]
  | .plain n => s.ar[n]
  | .bitRev n => s.ar[n]

/-- The new value of the auxiliary register, where the mode modifies it (R171 to R197). -/
def indNew (i : Ind) (s : State) : Option Word :=
  match i with
  | .pre sub modify x n => if modify then some (linear s.ar[n] (s.index x) sub) else none
  | .post sub circular x n =>
    some (if circular then circ s.bk s.ar[n] (s.index x) sub else linear s.ar[n] (s.index x) sub)
  | .plain _ => none
  | .bitRev n => some (bitRevAdd s.ar[n] s.ir0)

/-- Apply the update that a mode computed on the state before the instruction. -/
def indUpdate (i : Ind) (before : State) (s : State) : State :=
  match indNew i before with
  | some v => s.wrAr (indAr i) v
  | none => s

/-- One indirect operand: its address, and the update of its auxiliary register (R170). Neither is annulled
(R498). -/
def indEval (i : Ind) (s : State) : Res Word :=
  .ok (indAddr i s) (indUpdate i s s)

/-- The updates of two indirect operands. Where both name one register, it is left as the field in bits 15-8, `hi`,
leaves it, and the update of the field in bits 7-0, `lo`, is lost (R166, R167, decision D10, log entry 21). -/
def indUpdate2 (hi lo : Ind) (s : State) : State :=
  indUpdate hi s (if indAr hi = indAr lo then s else indUpdate lo s s)

/-- Two indirect operands: both addresses from the values before the instruction, and their updates (R166, R167). -/
def indEval2 (hi lo : Ind) (s : State) : Res (Word × Word) :=
  .ok (indAddr hi s, indAddr lo s) (indUpdate2 hi lo s)

/-- A direct address (R201). -/
def dirAddr (a : BitVec 16) (s : State) : Word := s.dp ++ a

/-- The address of a type 2 indirect operand (R165). -/
def disp5Addr (d : Disp5) (s : State) : Word := s.ar[d.n] + d.disp.setWidth 32

/-- The address of a memory operand, with its register update. -/
def memEval (m : Mem) (s : State) : Res Word :=
  match m with
  | .dir a => .ok (dirAddr a s) s
  | .ind i => indEval i s

/-! ## Sources of the general format -/

/-- A word read at an indirect operand. -/
def indRead (i : Ind) (s : State) : Res Word := (indEval i s).bind fun a s => dataRead a s

/-- SrcI: the integer source, a 16-bit immediate sign-extended (R162). -/
def srcI (src : Src) (s : State) : Res Word :=
  match src with
  | .reg r => .ok (s.rdI r) s
  | .dir a => dataRead (dirAddr a s) s
  | .ind i => indRead i s
  | .imm v => .ok (v.signExtend 32) s

/-- SrcU: the source of a logical instruction, a 16-bit immediate zero-extended (R162). -/
def srcU (src : Src) (s : State) : Res Word :=
  match src with
  | .reg r => .ok (s.rdI r) s
  | .dir a => dataRead (dirAddr a s) s
  | .ind i => indRead i s
  | .imm v => .ok (v.setWidth 32) s

/-- A memory word as a floating-point value. -/
def asFloat (x : Res Word) : Res Ext := x.bind fun w s => .ok (singleToExt w) s

/-- SrcF: the floating-point source (R163). -/
def srcF (src : FSrc) (s : State) : Res Ext :=
  match src with
  | .reg n => .ok (s.rdF n) s
  | .dir a => asFloat (dataRead (dirAddr a s) s)
  | .ind i => asFloat (indRead i s)
  | .imm h => .ok (shortToExt h) s

/-- The source of the byte and half-word group (R303). -/
def srcR (src : RSrc) (s : State) : Res Word :=
  match src with
  | .reg r => .ok (s.rdI r) s
  | .dir a => dataRead (dirAddr a s) s
  | .ind i => indRead i s

/-- The source of RCPF, RSQRF and TOIEEE (R407, R413, R421). -/
def srcFR (src : FRSrc) (s : State) : Res Ext :=
  match src with
  | .reg n => .ok (s.rdF n) s
  | .dir a => asFloat (dataRead (dirAddr a s) s)
  | .ind i => asFloat (indRead i s)

/-- A memory source. -/
def srcMem (m : Mem) (s : State) : Res Word := (memEval m s).bind fun a s => dataRead a s

/-! ## Sources of the three-operand formats -/

/-- Two words read in order at the addresses of two indirect operands, `hi` first (R112). -/
def indRead2 (hi lo : Ind) (s : State) : Res (Word × Word) :=
  (indEval2 hi lo s).bind fun p s =>
    (dataRead p.1 s).bind fun x s => (dataRead p.2 s).bind fun y s => .ok (x, y) s

/-- Two words read in order at two addresses. -/
def read2 (a b : Word) (s : State) : Res (Word × Word) :=
  (dataRead a s).bind fun x s => (dataRead b s).bind fun y s => .ok (x, y) s

/-- Src1T and Src2T (R166); the 8-bit immediate is sign-extended (D13). -/
def src3 (ops : Ops3) (s : State) : Res (Word × Word) :=
  match ops with
  | .rr a b => .ok (s.rdI a, s.rdI b) s
  | .ir i b => (indRead i s).bind fun x t => .ok (x, s.rdI b) t
  | .ri a j => (indRead j s).bind fun y t => .ok (s.rdI a, y) t
  | .ii i j => indRead2 i j s
  | .rk a k => .ok (s.rdI a, k.signExtend 32) s
  | .rd a d => (dataRead (disp5Addr d s) s).bind fun y t => .ok (s.rdI a, y) t
  | .dk d k => (dataRead (disp5Addr d s) s).bind fun x t => .ok (x, k.signExtend 32) t
  | .dd d e => read2 (disp5Addr d s) (disp5Addr e s) s

/-- Two memory words as floating-point values. -/
def asFloat2 (x : Res (Word × Word)) : Res (Ext × Ext) :=
  x.bind fun p s => .ok (singleToExt p.1, singleToExt p.2) s

/-- Src1T_F and Src2T_F (R166). -/
def src3F (ops : FOps3) (s : State) : Res (Ext × Ext) :=
  match ops with
  | .rr a b => .ok (s.rdF a, s.rdF b) s
  | .ir i b => (indRead i s).bind fun x t => .ok (singleToExt x, s.rdF b) t
  | .ri a j => (indRead j s).bind fun y t => .ok (s.rdF a, singleToExt y) t
  | .ii i j => asFloat2 (indRead2 i j s)
  | .rd a d => (dataRead (disp5Addr d s) s).bind fun y t => .ok (s.rdF a, singleToExt y) t
  | .dd d e => asFloat2 (read2 (disp5Addr d s) (disp5Addr e s) s)

/-! ## Stores -/

/-- A store: annulled in an annulled slot (R498, R863). -/
def store (a v : Word) (s : State) : Res Unit := if s.annulled then .ok () s else dataWrite a v s

/-- Both stores of a pair at one address: two stores of any value (U10, log entry 49). -/
def storeOpen (a : Word) (s : State) : Res Unit :=
  let w := drawWord s
  let v := drawWord w.2
  (store a w.1 v.2).bind fun _ u => store a v.1 u

end Sys2Proof.Machine
end

