-- ==== Sys2Proof/Machine/Ops.lean ====
section
/-! DEFINITION. The shared operations of the meanings: how an instruction ends, jumps and delayed branches,
taking an exception and returning from one, and what follows an instruction (45_program_control.md R497, R530 to
R534; 60_exceptions.md R720, R730 to R732). -/

namespace Sys2Proof.Machine

/-! ## How an instruction ends -/

/-- The CPU waits at its instruction (R786): nothing of it has happened but what went into the latch; the word
stays in the instruction register. -/
def State.waiting (s : State) (l : Option Latch) : State :=
  { s with stalled := true, held := true, latch := s.latch.take l }

/-- The instruction is complete. -/
def State.settled (s : State) : State := { s with stalled := false, held := false }

/-- The outcome of an instruction that began in `s`. -/
def finish (s : State) (r : Res Unit) : Host.Outcome State Fault Refusal :=
  match r with
  | .ok _ t => .next t.settled
  | .stall l => .next (s.waiting l)
  | .stop x => .refused x

/-- An instruction that goes on at the next address. -/
def sequential (s : State) (r : Res Unit) : Host.Outcome State Fault Refusal :=
  finish s (r.bind fun _ t => .ok () { t with pc := s.pc + 1 })

/-- An instruction whose execute phase is `f` on the value of its source. -/
def execute {α : Type} (s : State) (src : Res α) (f : α → State → State) : Host.Outcome State Fault Refusal :=
  sequential s (src.bind fun v t => .ok () (t.exe (f v)))

/-! ## Jumps -/

/-- A taken branch: the pipeline is flushed (R862). -/
def State.jump (s : State) (target : Word) : State := { s with pc := target, unflushed := 0 }

/-- A delayed instruction: the next three instructions are its slots (R497). -/
def State.delayed (s : State) (target : Option Word) (annul : Bool) (kind : SlotKind) : State :=
  { s with delay := some { target := target, left := 3, annul := annul, kind := kind } }

/-- A branch target: the register, or `base` and the displacement (R490). -/
def branchTarget (t : BTarget) (base : Word) (s : State) : Word :=
  match t with
  | .reg r => s.rdI r
  | .rel d => base + d.signExtend 32

/-- The link register of LAJ, LAJcond and LATcond: the integer part of R11 (R505). -/
def State.link (s : State) (v : Word) : State := s.wrI (.r 11) v

/-! ## Exceptions: interrupts and traps -/

/-- What an exception does to ST: PGIE ← GIE, PCF ← CF, GIE ← 0, CF ← 1 (R720, R730). -/
def State.saveStatus (s : State) : State :=
  (((s.setSt 14 (s.stBit 13)).setSt 9 (s.stBit 10)).setSt 13 false).setSt 10 true

/-- What a return from an exception does to ST: GIE ← PGIE, CF ← PCF (R520, R732). -/
def State.restoreStatus (s : State) : State := (s.setSt 13 (s.stBit 14)).setSt 10 (s.stBit 9)

/-- Taking an exception (R527, R730): the status, the return address on the stack, and the pc from the vector. -/
def enterException (ret vector : Word) (s : State) : Res Unit :=
  (push ret s.saveStatus).bind fun _ s => (dataRead vector s).bind fun v s => .ok () (s.jump v)

/-- The part of a return from an exception that is done at once: the popped pc is the result (R520, R521). -/
def leaveException (s : State) : Res Word := (pop s).bind fun v s => .ok v s.restoreStatus

/-! ## What follows an instruction -/

/-- A repeated instruction was executed once more (R532, D24); it ends when the count is negative. If the
instruction cleared RM, the repetition ends at once (R531). -/
def endSingle (s : State) : State :=
  if !s.stBit 8 then { s with sFlag := false }
  else if (s.rc - 1).msb then { (s.setSt 8 false) with rc := s.rc - 1, sFlag := false, pc := s.re + 1 }
  else { s with rc := s.rc - 1, pc := s.pc - 1, held := true }

/-- The instruction at the end of a block is complete (R531): `turn` is false in the slots of a taken delayed
branch, whose own target counts. -/
def endBlock (turn : Bool) (s : State) : State :=
  if (s.rc - 1).msb then { (s.setSt 8 false) with rc := s.rc - 1, sFlag := false }
  else { s with rc := s.rc - 1, pc := if turn then s.rs else s.pc }

/-- The instruction stands in the slots of RPTBD (R524). -/
def State.inRptbdSlot (s : State) : Bool :=
  match s.delay with
  | some d => d.kind == .rptbd
  | none => false

/-- The instruction stands in the slots of a taken delayed branch. -/
def State.inTakenSlot (s : State) : Bool :=
  match s.delay with
  | some d => d.target.isSome
  | none => false

/-- One slot of a delayed instruction is done; after the third the program goes on at its target (R497). -/
def endSlot (before : State) (s : State) : State :=
  match before.delay with
  | none => s
  | some d =>
    if d.left ≤ 1 then
      (match d.target with
        | some t => { s.jump t with delay := none }
        | none => { s with delay := none })
    else { s with delay := some { d with left := d.left - 1 } }

/-- The block ends at this instruction by the repeat registers after it (R531). -/
def State.atBlockEnd (before s : State) : Bool := s.stBit 8 && !s.sFlag && s.re == before.pc

/-- What follows a completed instruction that began in `before` and left `s`: the repeat modes (R531, R532), the
slots (R497), and the interval of R862, in which a block end is refused. -/
def retire (before s : State) : Host.Outcome State Fault Refusal :=
  if s.stalled then .next s
  else if before.stBit 8 && before.sFlag then .next { endSingle s with unflushed := s.unflushed - 1 }
  else if State.atBlockEnd before s && decide (0 < s.unflushed) then .refused .repeatNotFlushed
  else
    let t := if State.atBlockEnd before s && before.stBit 8 && before.re == before.pc && !before.inRptbdSlot
      then endBlock (!before.inTakenSlot) s else s
    .next (endSlot before { t with unflushed := s.unflushed - 1 })

/-- What follows an instruction, whatever its outcome. -/
def retireOutcome (before : State) (x : Host.Outcome State Fault Refusal) : Host.Outcome State Fault Refusal :=
  match x with
  | .next s => retire before s
  | .fault f => .fault f
  | .refused r => .refused r

end Sys2Proof.Machine
end

