-- ==== Sys2Proof/Machine/Placement.lean ====
section
/-! DEFINITION. Where an instruction may stand: delay slots and the ends of repeat blocks (45_program_control.md
R497, R507, R534; U3). -/

namespace Sys2Proof.Machine

/-- What an instruction is to the placement rules. -/
inductive FlowClass where
  | plain    -- may stand anywhere
  | standard -- changes the program flow, or IDLE (R497 b, R534 rule 1)
  | delayed  -- a delayed instruction (R497, R534 rule 2)
  deriving DecidableEq, Repr

/-- The class of an instruction (R497 b, R534). -/
def flowClass : Instr → FlowClass
  | .absi _ _ => .plain
  | .addc _ _ => .plain
  | .addi _ _ => .plain
  | .and _ _ => .plain
  | .andn _ _ => .plain
  | .ash _ _ => .plain
  | .cmpi _ _ => .plain
  | .ldi _ _ => .plain
  | .lsh _ _ => .plain
  | .mpyi _ _ => .plain
  | .negb _ _ => .plain
  | .negi _ _ => .plain
  | .not _ _ => .plain
  | .or _ _ => .plain
  | .subb _ _ => .plain
  | .subc _ _ => .plain
  | .subi _ _ => .plain
  | .subrb _ _ => .plain
  | .subri _ _ => .plain
  | .tstb _ _ => .plain
  | .xor _ _ => .plain
  | .mpyshi _ _ => .plain
  | .mpyuhi _ _ => .plain
  | .lda _ _ => .plain
  | .float _ _ => .plain
  | .absf _ _ => .plain
  | .addf _ _ => .plain
  | .cmpf _ _ => .plain
  | .lde _ _ => .plain
  | .ldf _ _ => .plain
  | .ldm _ _ => .plain
  | .mpyf _ _ => .plain
  | .negf _ _ => .plain
  | .norm _ _ => .plain
  | .rnd _ _ => .plain
  | .subf _ _ => .plain
  | .subrf _ _ => .plain
  | .fix _ _ => .plain
  | .toieee _ _ => .plain
  | .rcpf _ _ => .plain
  | .rsqrf _ _ => .plain
  | .frieee _ _ => .plain
  | .ldfi _ _ => .plain
  | .ldii _ _ => .plain
  | .sigi _ _ => .plain
  | .stf _ _ => .plain
  | .stfi _ _ => .plain
  | .stii _ _ => .plain
  | .stiDir _ _ => .plain
  | .stiInd _ _ => .plain
  | .stikDir _ _ => .plain
  | .stikInd _ _ => .plain
  | .idle => .standard
  | .nop _ => .plain
  | .iack _ => .plain
  | .pop _ => .plain
  | .popf _ => .plain
  | .push _ => .plain
  | .pushf _ => .plain
  | .rol _ => .plain
  | .rolc _ => .plain
  | .ror _ => .plain
  | .rorc _ => .plain
  | .rpts _ => .standard
  | .ldpk _ => .plain
  | .ldhi _ _ => .plain
  | .ldfcond _ _ _ => .plain
  | .ldicond _ _ _ => .plain
  | .ldep _ _ => .plain
  | .ldpe _ _ => .plain
  | .lb _ _ _ => .plain
  | .lbu _ _ _ => .plain
  | .lwl _ _ _ => .plain
  | .lwr _ _ _ => .plain
  | .mb _ _ _ => .plain
  | .lh _ _ _ => .plain
  | .lhu _ _ _ => .plain
  | .mh _ _ _ => .plain
  | .addc3 _ _ => .plain
  | .addi3 _ _ => .plain
  | .and3 _ _ => .plain
  | .andn3 _ _ => .plain
  | .ash3 _ _ => .plain
  | .lsh3 _ _ => .plain
  | .mpyi3 _ _ => .plain
  | .or3 _ _ => .plain
  | .subb3 _ _ => .plain
  | .subi3 _ _ => .plain
  | .xor3 _ _ => .plain
  | .mpyshi3 _ _ => .plain
  | .mpyuhi3 _ _ => .plain
  | .cmpi3 _ => .plain
  | .tstb3 _ => .plain
  | .addf3 _ _ => .plain
  | .mpyf3 _ _ => .plain
  | .subf3 _ _ => .plain
  | .cmpf3 _ => .plain
  | .bcond _ _ => .standard
  | .bcondD _ _ => .delayed
  | .bcondAT _ _ => .delayed
  | .bcondAF _ _ => .delayed
  | .callcond _ _ => .standard
  | .lajcond _ _ => .delayed
  | .dbcond _ _ _ => .standard
  | .dbcondD _ _ _ => .delayed
  | .br _ => .standard
  | .brd _ => .delayed
  | .call _ => .standard
  | .laj _ => .delayed
  | .rptbRel _ => .standard
  | .rptbdRel _ => .delayed
  | .rptbReg _ => .standard
  | .rptbdReg _ => .delayed
  | .swi => .plain
  | .trapcond _ _ => .standard
  | .latcond _ _ => .delayed
  | .reticond _ => .standard
  | .reticondD _ => .delayed
  | .retscond _ => .standard
  | .stfStf _ _ _ _ => .plain
  | .stiSti _ _ _ _ => .plain
  | .ldfLdf _ _ _ _ => .plain
  | .ldiLdi _ _ _ _ => .plain
  | .absfStf _ _ _ _ => .plain
  | .absiSti _ _ _ _ => .plain
  | .fixSti _ _ _ _ => .plain
  | .floatStf _ _ _ _ => .plain
  | .ldfStf _ _ _ _ => .plain
  | .ldiSti _ _ _ _ => .plain
  | .negfStf _ _ _ _ => .plain
  | .negiSti _ _ _ _ => .plain
  | .notSti _ _ _ _ => .plain
  | .toieeeStf _ _ _ _ => .plain
  | .frieeeStf _ _ _ _ => .plain
  | .addf3Stf _ _ _ _ _ => .plain
  | .addi3Sti _ _ _ _ _ => .plain
  | .and3Sti _ _ _ _ _ => .plain
  | .ash3Sti _ _ _ _ _ => .plain
  | .lsh3Sti _ _ _ _ _ => .plain
  | .mpyf3Stf _ _ _ _ _ => .plain
  | .mpyi3Sti _ _ _ _ _ => .plain
  | .or3Sti _ _ _ _ _ => .plain
  | .subf3Stf _ _ _ _ _ => .plain
  | .subi3Sti _ _ _ _ _ => .plain
  | .xor3Sti _ _ _ _ _ => .plain
  | .mpyf3Addf3 _ _ _ _ _ _ _ => .plain
  | .mpyf3Subf3 _ _ _ _ _ _ _ => .plain
  | .mpyi3Addi3 _ _ _ _ _ _ _ => .plain
  | .mpyi3Subi3 _ _ _ _ _ _ _ => .plain

/-- The integer register that an instruction writes as its destination. -/
def intDst : Instr → Option Reg
  | .absi _ d => some d
  | .addc _ d => some d
  | .addi _ d => some d
  | .and _ d => some d
  | .andn _ d => some d
  | .ash _ d => some d
  | .cmpi _ _ => none
  | .ldi _ d => some d
  | .lsh _ d => some d
  | .mpyi _ d => some d
  | .negb _ d => some d
  | .negi _ d => some d
  | .not _ d => some d
  | .or _ d => some d
  | .subb _ d => some d
  | .subc _ d => some d
  | .subi _ d => some d
  | .subrb _ d => some d
  | .subri _ d => some d
  | .tstb _ _ => none
  | .xor _ d => some d
  | .mpyshi _ d => some d
  | .mpyuhi _ d => some d
  | .lda _ d => some d
  | .float _ _ => none
  | .absf _ _ => none
  | .addf _ _ => none
  | .cmpf _ _ => none
  | .lde _ _ => none
  | .ldf _ _ => none
  | .ldm _ _ => none
  | .mpyf _ _ => none
  | .negf _ _ => none
  | .norm _ _ => none
  | .rnd _ _ => none
  | .subf _ _ => none
  | .subrf _ _ => none
  | .fix _ d => some d
  | .toieee _ _ => none
  | .rcpf _ _ => none
  | .rsqrf _ _ => none
  | .frieee _ _ => none
  | .ldfi _ _ => none
  | .ldii _ d => some d
  | .sigi _ d => some d
  | .stf _ _ => none
  | .stfi _ _ => none
  | .stii _ _ => none
  | .stiDir _ _ => none
  | .stiInd _ _ => none
  | .stikDir _ _ => none
  | .stikInd _ _ => none
  | .idle => none
  | .nop _ => none
  | .iack _ => none
  | .pop d => some d
  | .popf _ => none
  | .push _ => none
  | .pushf _ => none
  | .rol d => some d
  | .rolc d => some d
  | .ror d => some d
  | .rorc d => some d
  | .rpts _ => none
  | .ldpk _ => none
  | .ldhi _ d => some d
  | .ldfcond _ _ _ => none
  | .ldicond _ _ d => some d
  | .ldep _ d => some d
  | .ldpe _ _ => none
  | .lb _ _ d => some d
  | .lbu _ _ d => some d
  | .lwl _ _ d => some d
  | .lwr _ _ d => some d
  | .mb _ _ d => some d
  | .lh _ _ d => some d
  | .lhu _ _ d => some d
  | .mh _ _ d => some d
  | .addc3 _ d => some d
  | .addi3 _ d => some d
  | .and3 _ d => some d
  | .andn3 _ d => some d
  | .ash3 _ d => some d
  | .lsh3 _ d => some d
  | .mpyi3 _ d => some d
  | .or3 _ d => some d
  | .subb3 _ d => some d
  | .subi3 _ d => some d
  | .xor3 _ d => some d
  | .mpyshi3 _ d => some d
  | .mpyuhi3 _ d => some d
  | .cmpi3 _ => none
  | .tstb3 _ => none
  | .addf3 _ _ => none
  | .mpyf3 _ _ => none
  | .subf3 _ _ => none
  | .cmpf3 _ => none
  | .bcond _ _ => none
  | .bcondD _ _ => none
  | .bcondAT _ _ => none
  | .bcondAF _ _ => none
  | .callcond _ _ => none
  | .lajcond _ _ => none
  | .dbcond _ _ _ => none
  | .dbcondD _ _ _ => none
  | .br _ => none
  | .brd _ => none
  | .call _ => none
  | .laj _ => none
  | .rptbRel _ => none
  | .rptbdRel _ => none
  | .rptbReg _ => none
  | .rptbdReg _ => none
  | .swi => none
  | .trapcond _ _ => none
  | .latcond _ _ => none
  | .reticond _ => none
  | .reticondD _ => none
  | .retscond _ => none
  | .stfStf _ _ _ _ => none
  | .stiSti _ _ _ _ => none
  | .ldfLdf _ _ _ _ => none
  | .ldiLdi _ _ _ _ => none
  | .absfStf _ _ _ _ => none
  | .absiSti _ _ _ _ => none
  | .fixSti _ _ _ _ => none
  | .floatStf _ _ _ _ => none
  | .ldfStf _ _ _ _ => none
  | .ldiSti _ _ _ _ => none
  | .negfStf _ _ _ _ => none
  | .negiSti _ _ _ _ => none
  | .notSti _ _ _ _ => none
  | .toieeeStf _ _ _ _ => none
  | .frieeeStf _ _ _ _ => none
  | .addf3Stf _ _ _ _ _ => none
  | .addi3Sti _ _ _ _ _ => none
  | .and3Sti _ _ _ _ _ => none
  | .ash3Sti _ _ _ _ _ => none
  | .lsh3Sti _ _ _ _ _ => none
  | .mpyf3Stf _ _ _ _ _ => none
  | .mpyi3Sti _ _ _ _ _ => none
  | .or3Sti _ _ _ _ _ => none
  | .subf3Stf _ _ _ _ _ => none
  | .subi3Sti _ _ _ _ _ => none
  | .xor3Sti _ _ _ _ _ => none
  | .mpyf3Addf3 _ _ _ _ _ _ _ => none
  | .mpyf3Subf3 _ _ _ _ _ _ _ => none
  | .mpyi3Addi3 _ _ _ _ _ _ _ => none
  | .mpyi3Subi3 _ _ _ _ _ _ _ => none

/-- The instruction stands in a slot of a taken LATcond (R507). -/
def State.inLatSlot (s : State) : Bool :=
  match s.delay with
  | some d => d.kind == .latTaken
  | none => false

/-- The instruction is the last of a repeat block (R534 rule 1). -/
def State.lastOfBlock (s : State) : Bool := s.stBit 8 && !s.sFlag && s.pc == s.re

/-- The instruction is one of the last four of a repeat block (R534 rule 2). -/
def State.nearBlockEnd (s : State) : Bool :=
  s.stBit 8 && !s.sFlag && decide ((s.re - s.pc).toNat ≤ 3) && decide (s.rs.toNat ≤ s.pc.toNat)

/-- The refusal of an instruction that may not stand where it stands (U3). -/
def placement (i : Instr) (s : State) : Option Refusal :=
  if s.delay.isSome && flowClass i != .plain then some .delaySlot
  else if s.stBit 8 && s.sFlag && flowClass i != .plain then some .repeatBlockEnd
  else if s.lastOfBlock && flowClass i != .plain then some .repeatBlockEnd
  else if s.nearBlockEnd && flowClass i == .delayed then some .repeatBlockEnd
  else if s.inLatSlot && intDst i == some .st then some .latSlotStatus
  else none

end Sys2Proof.Machine
end

