-- ==== Sys2Proof/Machine/LoadStore.lean ====
section
/-! DEFINITION. The load and store instructions (41_load_store.md R303 to R328). -/

namespace Sys2Proof.Machine

/-! ## Fields of a word -/

/-- Byte `b` of a word (R303). -/
def byteOf (w : Word) (b : Fin 4) : Byte := w.extractLsb' (8 * b.val) 8

/-- Half-word `h` of a word (R303). -/
def halfOf (w : Word) (h : Fin 2) : BitVec 16 := w.extractLsb' (16 * h.val) 16

/-- The merge of LWLct: `w` shifted left by `ct` bytes over the low bytes of `d` (R308). -/
def mergeLeft (ct : Fin 4) (w d : Word) : Word :=
  (w <<< (8 * ct.val)) ||| (d &&& ~~~(0xFFFFFFFF#32 <<< (8 * ct.val)))

/-- The merge of LWRct: `w` shifted right by `ct` bytes under the high bytes of `d` (R309). -/
def mergeRight (ct : Fin 4) (w d : Word) : Word :=
  (d &&& ~~~(0xFFFFFFFF#32 >>> (8 * ct.val))) ||| (w >>> (8 * ct.val))

/-- An integer load with gated flags (R301): V and UF 0, C as it is. -/
def loadI (s : State) (src : Res Word) (dst : Reg) (f : Word → Word) : Host.Outcome State Fault Refusal :=
  execute s src fun v t => t.putI dst (f v) (moveFlags (f v))

/-- A floating-point load (R313): V and UF 0, C as it is. -/
def loadF (s : State) (src : Res Ext) (dst : Fin 12) : Host.Outcome State Fault Refusal :=
  execute s src fun v t => t.putF dst v (floatFlags (.exact v))

/-! ## Integer and floating-point loads -/

/-- LDI (R316). -/
def execLdi (src : Src) (dst : Reg) (s : State) : Host.Outcome State Fault Refusal :=
  loadI s (srcI src s) dst id

/-- LDIcond (R317): no flag changes; the operand is read whatever the condition. -/
def execLdicond (cond : Cond) (src : Src) (dst : Reg) (s : State) : Host.Outcome State Fault Refusal :=
  execute s (srcI src s) fun v t => if s.cond cond then t.wrI dst v else t

/-- LDA (R310): its write is not annulled (R498); a destination that is no address register is refused (U6). -/
def execLda (src : Src) (dst : Reg) (s : State) : Host.Outcome State Fault Refusal :=
  if dst.isAddress then sequential s ((srcI src s).bind fun v t => .ok () (t.wrI dst v))
  else .refused .illegalOperand

/-- LDF (R313). -/
def execLdf (src : FSrc) (dst : Fin 12) (s : State) : Host.Outcome State Fault Refusal :=
  loadF s (srcF src s) dst

/-- LDFcond (R314): no flag changes; the operand is read whatever the condition. -/
def execLdfcond (cond : Cond) (src : FSrc) (dst : Fin 12) (s : State) : Host.Outcome State Fault Refusal :=
  execute s (srcF src s) fun v t => if s.cond cond then t.wrF dst v else t

/-- LDE (R311): the exponent alone; no flag changes. -/
def execLde (src : FSrc) (dst : Fin 12) (s : State) : Host.Outcome State Fault Refusal :=
  execute s (srcF src s) fun v t => t.wrF dst (v.extractLsb' 32 8 ++ (t.rdF dst).extractLsb' 0 32)

/-- The mantissa that LDM loads: from memory the whole word (R318). -/
def srcMan (src : FSrc) (s : State) : Res Word :=
  match src with
  | .reg n => .ok ((s.rdF n).extractLsb' 0 32) s
  | .dir a => dataRead (dirAddr a s) s
  | .ind i => indRead i s
  | .imm h => .ok (h.extractLsb' 0 12 ++ 0#20) s

/-- LDM (R318): the mantissa alone; no flag changes. -/
def execLdm (src : FSrc) (dst : Fin 12) (s : State) : Host.Outcome State Fault Refusal :=
  execute s (srcMan src s) fun v t => t.wrF dst ((t.rdF dst).extractLsb' 32 8 ++ v)

/-- LDHI (R315): the low half is 0; no flag changes. -/
def execLdhi (k : BitVec 16) (dst : Reg) (s : State) : Host.Outcome State Fault Refusal :=
  execute s (.ok (k ++ 0#16) s) fun v t => t.wrI dst v

/-- LDPK (R321): its write is not annulled (R498). -/
def execLdpk (k : BitVec 16) (s : State) : Host.Outcome State Fault Refusal :=
  sequential s (.ok () (s.wrI .dp (k.setWidth 32)))

/-- LDEP (R312). -/
def execLdep (src : XReg) (dst : Reg) (s : State) : Host.Outcome State Fault Refusal :=
  execute s (.ok (s.rdX src) s) fun v t => t.wrI dst v

/-- LDPE (R320). -/
def execLdpe (src : Reg) (dst : XReg) (s : State) : Host.Outcome State Fault Refusal :=
  execute s (.ok (s.rdI src) s) fun v t => t.wrX dst v

/-! ## Bytes and half-words -/

/-- LBb (R304). -/
def execLb (b : Fin 4) (src : RSrc) (dst : Reg) (s : State) : Host.Outcome State Fault Refusal :=
  loadI s (srcR src s) dst fun w => (byteOf w b).signExtend 32

/-- LBUb (R305). -/
def execLbu (b : Fin 4) (src : RSrc) (dst : Reg) (s : State) : Host.Outcome State Fault Refusal :=
  loadI s (srcR src s) dst fun w => (byteOf w b).setWidth 32

/-- LHw (R306). -/
def execLh (h : Fin 2) (src : RSrc) (dst : Reg) (s : State) : Host.Outcome State Fault Refusal :=
  loadI s (srcR src s) dst fun w => (halfOf w h).signExtend 32

/-- LHUw (R307). -/
def execLhu (h : Fin 2) (src : RSrc) (dst : Reg) (s : State) : Host.Outcome State Fault Refusal :=
  loadI s (srcR src s) dst fun w => (halfOf w h).setWidth 32

/-- LWLct (R308). -/
def execLwl (b : Fin 4) (src : RSrc) (dst : Reg) (s : State) : Host.Outcome State Fault Refusal :=
  loadI s (srcR src s) dst fun w => mergeLeft b w (s.rdI dst)

/-- LWRct (R309). -/
def execLwr (b : Fin 4) (src : RSrc) (dst : Reg) (s : State) : Host.Outcome State Fault Refusal :=
  loadI s (srcR src s) dst fun w => mergeRight b w (s.rdI dst)

/-! ## The stack -/

/-- A push of the instructions PUSH and PUSHF: in an annulled slot the store is cancelled, the change of SP is
not (R498). -/
def pushValue (v : Word) (s : State) : Res Unit := store (s.sp + 1) v { s with sp := s.sp + 1 }

/-- POP (R322): the destination is written after SP. -/
def execPop (dst : Reg) (s : State) : Host.Outcome State Fault Refusal :=
  loadI s (pop s) dst id

/-- POPF (R323). -/
def execPopf (dst : Fin 12) (s : State) : Host.Outcome State Fault Refusal :=
  loadF s (asFloat (pop s)) dst

/-- PUSH (R324): the register is read before SP changes (D17). -/
def execPush (src : Reg) (s : State) : Host.Outcome State Fault Refusal :=
  sequential s (pushValue (s.rdI src) s)

/-- PUSHF (R325). -/
def execPushf (src : Fin 12) (s : State) : Host.Outcome State Fault Refusal :=
  sequential s (pushValue (extToSingle (s.rdF src)) s)

/-! ## Stores -/

/-- A store to a memory operand: the value is read before the address register changes (D17). -/
def storeTo (s : State) (dst : Mem) (v : Word) : Host.Outcome State Fault Refusal :=
  sequential s ((memEval dst s).bind fun a t => store a v t)

/-- STF (R326). -/
def execStf (src : Fin 12) (dst : Mem) (s : State) : Host.Outcome State Fault Refusal :=
  storeTo s dst (extToSingle (s.rdF src))

/-- STI, direct (R327). -/
def execStiDir (src : Reg) (dst : BitVec 16) (s : State) : Host.Outcome State Fault Refusal :=
  storeTo s (.dir dst) (s.rdI src)

/-- STI, indirect (R327). -/
def execStiInd (src : Reg) (dst : Ind) (s : State) : Host.Outcome State Fault Refusal :=
  storeTo s (.ind dst) (s.rdI src)

/-- STIK, direct (R328). -/
def execStikDir (k : BitVec 5) (dst : BitVec 16) (s : State) : Host.Outcome State Fault Refusal :=
  storeTo s (.dir dst) (k.signExtend 32)

/-- STIK, indirect (R328). -/
def execStikInd (k : BitVec 5) (dst : Ind) (s : State) : Host.Outcome State Fault Refusal :=
  storeTo s (.ind dst) (k.signExtend 32)

end Sys2Proof.Machine
end

