-- ==== Sys2Proof/Machine/Interlocked.lean ====
section
/-! DEFINITION. The interlocked instructions and the two bus-lock pins (46_interlocked.md R550 to R555). -/

namespace Sys2Proof.Machine

/-- The lock pin of the bus of an address is driven to a level; an on-chip address drives none (R550). -/
def State.driveLock (s : State) (a : Word) (level : Bool) : State :=
  match bus s.romen a with
  | some true => { s with pins := { s.pins with lock := level } }
  | some false => { s with pins := { s.pins with llock := level } }
  | none => s

/-- LockLow (R550). -/
def State.lockLow (s : State) (a : Word) : State := s.driveLock a false

/-- LockHigh (R550). -/
def State.lockHigh (s : State) (a : Word) : State := s.driveLock a true

/-- The operand of LDFI and LDII: the lock pin goes low before the read and stays low (R551, R552). In an annulled
slot, which keeps the read (R498, R863), the pin is driven too, as it is by SIGI (DESIGN CHOICE, log entry 25). -/
def lockedRead (m : Mem) (s : State) : Res Word := (memEval m s).bind fun a t => dataRead a (t.lockLow a)

/-- The operand of SIGI: the lock pin is low for the read alone (R553); the access has a status code of its own
(R125). -/
def signalRead (m : Mem) (s : State) : Res Word :=
  (memEval m s).bind fun a t => (memRead .sigi a (t.lockLow a)).bind fun v u => .ok v (u.lockHigh a)

/-- A store that releases the lock (R554, R555); an annulled slot cancels both. -/
def unlockStore (s : State) (dst : Mem) (v : Word) : Host.Outcome State Fault Refusal :=
  sequential s ((memEval dst s).bind fun a t => (store a v t).bind fun _ u => .ok () (u.exe fun u => u.lockHigh a))

/-- LDFI (R551). -/
def execLdfi (src : Mem) (dst : Fin 12) (s : State) : Host.Outcome State Fault Refusal :=
  loadF s (asFloat (lockedRead src s)) dst

/-- LDII (R552). -/
def execLdii (src : Mem) (dst : Reg) (s : State) : Host.Outcome State Fault Refusal :=
  loadI s (lockedRead src s) dst id

/-- SIGI (R553). -/
def execSigi (src : Mem) (dst : Reg) (s : State) : Host.Outcome State Fault Refusal :=
  loadI s (signalRead src s) dst id

/-- STFI (R554). -/
def execStfi (src : Fin 12) (dst : Mem) (s : State) : Host.Outcome State Fault Refusal :=
  unlockStore s dst (extToSingle (s.rdF src))

/-- STII (R555). -/
def execStii (src : Reg) (dst : Mem) (s : State) : Host.Outcome State Fault Refusal :=
  unlockStore s dst (s.rdI src)

end Sys2Proof.Machine
end

