-- ==== Sys2Proof/Machine/Alu.lean ====
section
/-! DEFINITION. The integer and logical operations with their flags, and the flags of the comparisons and
conversions (10_state.md R41, R42, R48; 42_two_operand_a.md R353 to R373; 43_two_operand_b.md R400 to R423). -/

namespace Sys2Proof.Machine

/-- A 32-bit result with its flags. -/
structure IRes where
  v : Word
  f : FlagRes
  deriving DecidableEq, Repr

/-- The exact result does not fit a signed 32-bit word (R353). -/
def overflows (r : Int) : Bool := decide (r < -(2 ^ 31)) || decide (2 ^ 31 - 1 < r)

/-- SatI (R353): wrap, or saturate with OVM = 1. -/
def satI (ovm : Bool) (r : Int) : Word :=
  if ovm && overflows r then (if 0 < r then 0x7FFFFFFF#32 else 0x80000000#32) else BitVec.ofInt 32 r

/-- The result of a signed operation from its exact value (R353); N and Z describe the value written (D12). -/
def intRes (ovm : Bool) (r : Int) (c : Option Bool) : IRes :=
  { v := satI ovm r
    f := { n := (satI ovm r).msb, z := satI ovm r == 0, v := overflows r, uf := false, c := c } }

/-- `x + y + c` (R356, R358). -/
def aluAdd (ovm : Bool) (x y : Word) (c : Bool) : IRes :=
  intRes ovm (x.toInt + y.toInt + c.toNat) (some (decide (2 ^ 32 ≤ x.toNat + y.toNat + c.toNat)))

/-- `x - y - b` (R400, R414, R417). -/
def aluSub (ovm : Bool) (x y : Word) (b : Bool) : IRes :=
  intRes ovm (x.toInt - y.toInt - b.toNat) (some (decide (x.toNat < y.toNat + b.toNat)))

/-- The flags of a comparison `x - y`: N and Z are those of the exact difference (R48, R363). -/
def cmpFlags (x y : Word) : FlagRes :=
  { n := decide (x.toInt < y.toInt), z := x == y, v := overflows (x.toInt - y.toInt), uf := false,
    c := some (decide (x.toNat < y.toNat)) }

/-- A logical result (R41). -/
def logicRes (v : Word) : IRes := { v := v, f := logicFlags v }

/-- The absolute value (R355): N is 0, C stays. -/
def aluAbs (ovm : Bool) (a : Word) : IRes :=
  let r := satI ovm (Int.ofNat a.toInt.natAbs)
  { v := r, f := { n := false, z := r == 0, v := overflows (Int.ofNat a.toInt.natAbs), uf := false, c := none } }

/-- The shift count: the seven low bits as a signed number (R361, R367). -/
def shiftCount (c : Word) : Int := (c.extractLsb' 0 7).toInt

/-- A shifted or rotated result: its value, overflow and the bit that goes into C (R361, R367, R409). -/
def shiftRes (r : Word) (v c : Bool) : IRes :=
  { v := r, f := { n := r.msb, z := r == 0, v := v, uf := false, c := some c } }

/-- ASH (R361, D14). -/
def aluAsh (d count : Word) : IRes :=
  let k := shiftCount count
  if 0 < k then
    let full := d.toInt * 2 ^ k.toNat
    shiftRes (BitVec.ofInt 32 full) (overflows full) (decide (k ≤ 32) && d.getLsbD (32 - k.toNat))
  else if k < 0 then
    let n := (-k).toNat
    shiftRes (BitVec.ofInt 32 (d.toInt / 2 ^ n)) false (if n ≤ 32 then d.getLsbD (n - 1) else d.msb)
  else shiftRes d false false

/-- LSH (R367). -/
def aluLsh (d count : Word) : IRes :=
  let k := shiftCount count
  if 0 < k then
    shiftRes (d <<< k.toNat) false (if k ≤ 32 then d.getLsbD (32 - k.toNat) else d.getLsbD 0)
  else if k < 0 then
    let n := (-k).toNat
    shiftRes (d >>> n) false (decide (n ≤ 32) && d.getLsbD (n - 1))
  else shiftRes d false false

/-- A rotate: its output and the bit rotated out (R409 to R412). -/
def rotRes (v : Word) (out : Bool) : IRes := shiftRes v false out

/-- The signed product (R371); C stays. -/
def aluMpy (ovm : Bool) (x y : Word) : IRes := intRes ovm (x.toInt * y.toInt) none

/-- The 32 high bits of the signed product (R372): Z looks at all 64 bits. -/
def aluMpySh (x y : Word) : IRes :=
  let p := BitVec.ofInt 64 (x.toInt * y.toInt)
  { v := p.extractLsb' 32 32, f := { n := p.msb, z := p == 0, v := false, uf := false, c := none } }

/-- The 32 high bits of the unsigned product (R373): N is 0, Z looks at all 64 bits. -/
def aluMpyUh (x y : Word) : IRes :=
  let p := BitVec.ofNat 64 (x.toNat * y.toNat)
  { v := p.extractLsb' 32 32, f := { n := false, z := p == 0, v := false, uf := false, c := none } }

/-- One step of a division (R415). -/
def subcStep (d a : Word) : Word := if a.toNat ≤ d.toNat then ((d - a) <<< 1) ||| 1#32 else d <<< 1

/-- FIX (R364): the integer with its flags; C stays. -/
def fixRes (a : Ext) : IRes :=
  let r := (fFix a).1
  { v := r, f := { n := r.msb, z := r == 0, v := (fFix a).2, uf := false, c := none } }

/-! ## Floating point -/

/-- A 40-bit result with its flags. -/
structure EFRes where
  r : Ext
  f : FlagRes
  deriving DecidableEq, Repr

/-- An arithmetic result (R249). -/
def arithF (x : FRes) : EFRes := { r := x.r, f := floatFlags x }

/-- ABSF (R354): N is 0. -/
def absF (a : Ext) : EFRes := { r := (fAbs a).r, f := { floatFlags (fAbs a) with n := false, uf := false } }

/-- The flags of a comparison `x - y`: N and Z are those of the exact difference, whose sign is that of the aligned
sum (R48, R362). -/
def cmpfFlags (x y : Ext) : FlagRes :=
  let e := max (expo x) (expo y)
  let d := shiftInt (addend x) (expo x - e) - shiftInt (addend y) (expo y - e)
  { n := decide (d < 0), z := decide (d = 0), v := (fSub x y).ovf, uf := (fSub x y).unf, c := none }

/-- NORM (R404): Z is 0 in the one case of exponent -128 with a mantissa that is not 0. -/
def normF (a : Ext) : EFRes :=
  let x := fNorm a
  { r := x.r
    f := { floatFlags x with z := fIsZero x.r && !(fIsZero a && a.extractLsb' 0 32 != 0#32), v := false } }

/-- FLOAT (R365). -/
def floatF (i : Word) : EFRes := arithF (.exact (fFloat i))

/-- FRIEEE (R366). -/
def frieeeF (w : Word) : EFRes := arithF { r := (fromIEEE w).1, ovf := (fromIEEE w).2, unf := false }

/-- TOIEEE (R421): the word in bits 39-8, bits 7-0 zero (D20); N and Z describe the word. -/
def toieeeF (a : Ext) : EFRes :=
  let w := (toIEEE a).1
  { r := w ++ 0#8, f := { n := w.msb, z := w == 0, v := (toIEEE a).2, uf := false, c := none } }

/-- RCPF (R407): for a zero N is the sign bit of the input. -/
def rcpF (a : Ext) : EFRes :=
  let r := (fRcp a).1
  { r := r
    f := { n := if fIsZero a then fN a else fN r, z := fIsZero r, v := (fRcp a).2, uf := false, c := none } }

/-- RSQRF of an operand that is not negative (R413): N and Z are 0. -/
def rsqF (a : Ext) : EFRes :=
  { r := (fRsq a).1, f := { n := false, z := false, v := (fRsq a).2, uf := false, c := none } }

end Sys2Proof.Machine
end

