-- ==== Sys2Proof/Machine/TwoOperand.lean ====
section
/-! DEFINITION. The two-operand instructions (42_two_operand_a.md R350 to R373; 43_two_operand_b.md R400 to
R423). -/

namespace Sys2Proof.Machine

/-- OVM (R42). -/
def State.ovm (s : State) : Bool := s.stBit 7

/-- C (R40). -/
def State.cFlag (s : State) : Bool := s.stBit 0

/-- An integer operation on a source, with gated flags (R351). -/
def opI (s : State) (src : Res Word) (dst : Reg) (f : Word → IRes) : Host.Outcome State Fault Refusal :=
  execute s src fun a t => t.putI dst (f a).v (f a).f

/-- A floating-point operation on a source (R351). -/
def opF (s : State) (src : Res Ext) (dst : Fin 12) (f : Ext → EFRes) : Host.Outcome State Fault Refusal :=
  execute s src fun a t => t.putF dst (f a).r (f a).f

/-- A comparison or test: it writes the flags whatever its destination is (R47). -/
def opCmp {α : Type} (s : State) (src : Res α) (f : α → FlagRes) : Host.Outcome State Fault Refusal :=
  execute s src fun a t => t.setFlags (f a)

/-! ## Integer -/

/-- ABSI (R355). -/
def execAbsi (src : Src) (dst : Reg) (s : State) : Host.Outcome State Fault Refusal :=
  opI s (srcI src s) dst fun a => aluAbs s.ovm a

/-- ADDC (R356). -/
def execAddc (src : Src) (dst : Reg) (s : State) : Host.Outcome State Fault Refusal :=
  opI s (srcI src s) dst fun a => aluAdd s.ovm (s.rdI dst) a s.cFlag

/-- ADDI (R358). -/
def execAddi (src : Src) (dst : Reg) (s : State) : Host.Outcome State Fault Refusal :=
  opI s (srcI src s) dst fun a => aluAdd s.ovm (s.rdI dst) a false

/-- AND (R359). -/
def execAnd (src : Src) (dst : Reg) (s : State) : Host.Outcome State Fault Refusal :=
  opI s (srcU src s) dst fun a => logicRes (s.rdI dst &&& a)

/-- ANDN (R360). -/
def execAndn (src : Src) (dst : Reg) (s : State) : Host.Outcome State Fault Refusal :=
  opI s (srcU src s) dst fun a => logicRes (s.rdI dst &&& ~~~a)

/-- ASH (R361). -/
def execAsh (src : Src) (dst : Reg) (s : State) : Host.Outcome State Fault Refusal :=
  opI s (srcI src s) dst fun a => aluAsh (s.rdI dst) a

/-- CMPI (R363). -/
def execCmpi (src : Src) (dst : Reg) (s : State) : Host.Outcome State Fault Refusal :=
  opCmp s (srcI src s) fun a => cmpFlags (s.rdI dst) a

/-- LSH (R367). -/
def execLsh (src : Src) (dst : Reg) (s : State) : Host.Outcome State Fault Refusal :=
  opI s (srcI src s) dst fun a => aluLsh (s.rdI dst) a

/-- MPYI (R371). -/
def execMpyi (src : Src) (dst : Reg) (s : State) : Host.Outcome State Fault Refusal :=
  opI s (srcI src s) dst fun a => aluMpy s.ovm (s.rdI dst) a

/-- MPYSHI (R372). -/
def execMpyshi (src : Src) (dst : Reg) (s : State) : Host.Outcome State Fault Refusal :=
  opI s (srcI src s) dst fun a => aluMpySh (s.rdI dst) a

/-- MPYUHI (R373): its immediate is sign-extended (D13). -/
def execMpyuhi (src : Src) (dst : Reg) (s : State) : Host.Outcome State Fault Refusal :=
  opI s (srcI src s) dst fun a => aluMpyUh (s.rdI dst) a

/-- NEGB (R401). -/
def execNegb (src : Src) (dst : Reg) (s : State) : Host.Outcome State Fault Refusal :=
  opI s (srcI src s) dst fun a => aluSub s.ovm 0 a s.cFlag

/-- NEGI (R403). -/
def execNegi (src : Src) (dst : Reg) (s : State) : Host.Outcome State Fault Refusal :=
  opI s (srcI src s) dst fun a => aluSub s.ovm 0 a false

/-- NOT (R405). -/
def execNot (src : Src) (dst : Reg) (s : State) : Host.Outcome State Fault Refusal :=
  opI s (srcU src s) dst fun a => logicRes (~~~a)

/-- OR (R406). -/
def execOr (src : Src) (dst : Reg) (s : State) : Host.Outcome State Fault Refusal :=
  opI s (srcU src s) dst fun a => logicRes (s.rdI dst ||| a)

/-- ROL (R409). -/
def execRol (dst : Reg) (s : State) : Host.Outcome State Fault Refusal :=
  opI s (.ok (s.rdI dst) s) dst fun d => rotRes (d.extractLsb' 0 31 ++ BitVec.ofBool d.msb) d.msb

/-- ROLC (R410): the old C is shifted in. -/
def execRolc (dst : Reg) (s : State) : Host.Outcome State Fault Refusal :=
  opI s (.ok (s.rdI dst) s) dst fun d => rotRes (d.extractLsb' 0 31 ++ BitVec.ofBool s.cFlag) d.msb

/-- ROR (R411). -/
def execRor (dst : Reg) (s : State) : Host.Outcome State Fault Refusal :=
  opI s (.ok (s.rdI dst) s) dst fun d => rotRes (BitVec.ofBool (d.getLsbD 0) ++ d.extractLsb' 1 31) (d.getLsbD 0)

/-- RORC (R412): the old C is shifted in. -/
def execRorc (dst : Reg) (s : State) : Host.Outcome State Fault Refusal :=
  opI s (.ok (s.rdI dst) s) dst fun d => rotRes (BitVec.ofBool s.cFlag ++ d.extractLsb' 1 31) (d.getLsbD 0)

/-- SUBB (R414). -/
def execSubb (src : Src) (dst : Reg) (s : State) : Host.Outcome State Fault Refusal :=
  opI s (srcI src s) dst fun a => aluSub s.ovm (s.rdI dst) a s.cFlag

/-- SUBC (R415): no flag changes; the immediate is zero-extended (D19). -/
def execSubc (src : Src) (dst : Reg) (s : State) : Host.Outcome State Fault Refusal :=
  execute s (srcU src s) fun a t => t.wrI dst (subcStep (s.rdI dst) a)

/-- SUBI (R417). -/
def execSubi (src : Src) (dst : Reg) (s : State) : Host.Outcome State Fault Refusal :=
  opI s (srcI src s) dst fun a => aluSub s.ovm (s.rdI dst) a false

/-- SUBRB (R418). -/
def execSubrb (src : Src) (dst : Reg) (s : State) : Host.Outcome State Fault Refusal :=
  opI s (srcI src s) dst fun a => aluSub s.ovm a (s.rdI dst) s.cFlag

/-- SUBRI (R420). -/
def execSubri (src : Src) (dst : Reg) (s : State) : Host.Outcome State Fault Refusal :=
  opI s (srcI src s) dst fun a => aluSub s.ovm a (s.rdI dst) false

/-- TSTB (R422). -/
def execTstb (src : Src) (dst : Reg) (s : State) : Host.Outcome State Fault Refusal :=
  opCmp s (srcU src s) fun a => logicFlags (s.rdI dst &&& a)

/-- XOR (R423). -/
def execXor (src : Src) (dst : Reg) (s : State) : Host.Outcome State Fault Refusal :=
  opI s (srcU src s) dst fun a => logicRes (s.rdI dst ^^^ a)

/-- The low byte of a word merged into byte `ct` of another (R368). -/
def mergeByte (ct : Fin 4) (w d : Word) : Word :=
  (d &&& ~~~(0xFF#32 <<< (8 * ct.val))) ||| ((w &&& 0xFF#32) <<< (8 * ct.val))

/-- The low half-word of a word merged into half-word `ct` of another (R369). -/
def mergeHalf (ct : Fin 2) (w d : Word) : Word :=
  (d &&& ~~~(0xFFFF#32 <<< (16 * ct.val))) ||| ((w &&& 0xFFFF#32) <<< (16 * ct.val))

/-- MBct (R368). -/
def execMb (b : Fin 4) (src : RSrc) (dst : Reg) (s : State) : Host.Outcome State Fault Refusal :=
  loadI s (srcR src s) dst fun w => mergeByte b w (s.rdI dst)

/-- MHct (R369). -/
def execMh (h : Fin 2) (src : RSrc) (dst : Reg) (s : State) : Host.Outcome State Fault Refusal :=
  loadI s (srcR src s) dst fun w => mergeHalf h w (s.rdI dst)

/-! ## Floating point -/

/-- ABSF (R354). -/
def execAbsf (src : FSrc) (dst : Fin 12) (s : State) : Host.Outcome State Fault Refusal :=
  opF s (srcF src s) dst absF

/-- ADDF (R357). -/
def execAddf (src : FSrc) (dst : Fin 12) (s : State) : Host.Outcome State Fault Refusal :=
  opF s (srcF src s) dst fun a => arithF (fAdd (s.rdF dst) a)

/-- CMPF (R362). -/
def execCmpf (src : FSrc) (dst : Fin 12) (s : State) : Host.Outcome State Fault Refusal :=
  opCmp s (srcF src s) fun a => cmpfFlags (s.rdF dst) a

/-- FIX (R364). -/
def execFix (src : FSrc) (dst : Reg) (s : State) : Host.Outcome State Fault Refusal :=
  execute s (srcF src s) fun a t => t.putI dst (fixRes a).v (fixRes a).f

/-- FLOAT (R365). -/
def execFloat (src : Src) (dst : Fin 12) (s : State) : Host.Outcome State Fault Refusal :=
  execute s (srcI src s) fun a t => t.putF dst (floatF a).r (floatF a).f

/-- FRIEEE (R366). -/
def execFrieee (src : Mem) (dst : Fin 12) (s : State) : Host.Outcome State Fault Refusal :=
  execute s (srcMem src s) fun w t => t.putF dst (frieeeF w).r (frieeeF w).f

/-- MPYF (R370). -/
def execMpyf (src : FSrc) (dst : Fin 12) (s : State) : Host.Outcome State Fault Refusal :=
  opF s (srcF src s) dst fun a => arithF (fMul (s.rdF dst) a)

/-- NEGF (R402). -/
def execNegf (src : FSrc) (dst : Fin 12) (s : State) : Host.Outcome State Fault Refusal :=
  opF s (srcF src s) dst fun a => arithF (fNeg a)

/-- NORM (R404). -/
def execNorm (src : FSrc) (dst : Fin 12) (s : State) : Host.Outcome State Fault Refusal :=
  opF s (srcF src s) dst normF

/-- RCPF (R407). -/
def execRcpf (src : FRSrc) (dst : Fin 12) (s : State) : Host.Outcome State Fault Refusal :=
  opF s (srcFR src s) dst rcpF

/-- RND (R408). -/
def execRnd (src : FSrc) (dst : Fin 12) (s : State) : Host.Outcome State Fault Refusal :=
  opF s (srcF src s) dst fun a => arithF (fRnd a)

/-- RSQRF writes a free value and free flags for a negative operand (R413, U9, log entry 28). -/
def State.putFree (s : State) (dst : Fin 12) : State :=
  { (s.wrF dst (Config.freeExt s.free)).withFlags (Config.freeFlags s.free) with free := s.free + 1 }

/-- RSQRF (R413). -/
def execRsqrf (src : FRSrc) (dst : Fin 12) (s : State) : Host.Outcome State Fault Refusal :=
  execute s (srcFR src s) fun a t =>
    if fN a && !fIsZero a then t.putFree dst else t.putF dst (rsqF a).r (rsqF a).f

/-- SUBF (R416). -/
def execSubf (src : FSrc) (dst : Fin 12) (s : State) : Host.Outcome State Fault Refusal :=
  opF s (srcF src s) dst fun a => arithF (fSub (s.rdF dst) a)

/-- SUBRF (R419). -/
def execSubrf (src : FSrc) (dst : Fin 12) (s : State) : Host.Outcome State Fault Refusal :=
  opF s (srcF src s) dst fun a => arithF (fSub a (s.rdF dst))

/-- TOIEEE (R421). -/
def execToieee (src : FRSrc) (dst : Fin 12) (s : State) : Host.Outcome State Fault Refusal :=
  opF s (srcFR src s) dst toieeeF

end Sys2Proof.Machine
end

