-- ==== Sys2Proof/Machine/ThreeOperand.lean ====
section
/-! DEFINITION. The three-operand instructions (44_three_operand.md R450 to R470). In each, `p` is the pair of the
values of src1 and src2. -/

namespace Sys2Proof.Machine

/-- An integer operation on two sources, with gated flags (R451). -/
def opI3 (s : State) (ops : Ops3) (dst : Reg) (f : Word × Word → IRes) : Host.Outcome State Fault Refusal :=
  execute s (src3 ops s) fun p t => t.putI dst (f p).v (f p).f

/-- A floating-point operation on two sources (R451). -/
def opF3 (s : State) (ops : FOps3) (dst : Fin 12) (f : Ext × Ext → EFRes) : Host.Outcome State Fault Refusal :=
  execute s (src3F ops s) fun p t => t.putF dst (f p).r (f p).f

/-- ADDC3 (R452). -/
def execAddc3 (ops : Ops3) (dst : Reg) (s : State) : Host.Outcome State Fault Refusal :=
  opI3 s ops dst fun p => aluAdd s.ovm p.1 p.2 s.cFlag

/-- ADDI3 (R454). -/
def execAddi3 (ops : Ops3) (dst : Reg) (s : State) : Host.Outcome State Fault Refusal :=
  opI3 s ops dst fun p => aluAdd s.ovm p.1 p.2 false

/-- AND3 (R455). -/
def execAnd3 (ops : Ops3) (dst : Reg) (s : State) : Host.Outcome State Fault Refusal :=
  opI3 s ops dst fun p => logicRes (p.1 &&& p.2)

/-- ANDN3: src2 is complemented (R456). -/
def execAndn3 (ops : Ops3) (dst : Reg) (s : State) : Host.Outcome State Fault Refusal :=
  opI3 s ops dst fun p => logicRes (p.1 &&& ~~~p.2)

/-- ASH3: src1 shifted by src2 (R457). -/
def execAsh3 (ops : Ops3) (dst : Reg) (s : State) : Host.Outcome State Fault Refusal :=
  opI3 s ops dst fun p => aluAsh p.1 p.2

/-- LSH3: src1 shifted by src2 (R460). -/
def execLsh3 (ops : Ops3) (dst : Reg) (s : State) : Host.Outcome State Fault Refusal :=
  opI3 s ops dst fun p => aluLsh p.1 p.2

/-- MPYI3 (R462). -/
def execMpyi3 (ops : Ops3) (dst : Reg) (s : State) : Host.Outcome State Fault Refusal :=
  opI3 s ops dst fun p => aluMpy s.ovm p.1 p.2

/-- MPYSHI3 (R463). -/
def execMpyshi3 (ops : Ops3) (dst : Reg) (s : State) : Host.Outcome State Fault Refusal :=
  opI3 s ops dst fun p => aluMpySh p.1 p.2

/-- MPYUHI3 (R464). -/
def execMpyuhi3 (ops : Ops3) (dst : Reg) (s : State) : Host.Outcome State Fault Refusal :=
  opI3 s ops dst fun p => aluMpyUh p.1 p.2

/-- OR3 (R465). -/
def execOr3 (ops : Ops3) (dst : Reg) (s : State) : Host.Outcome State Fault Refusal :=
  opI3 s ops dst fun p => logicRes (p.1 ||| p.2)

/-- SUBB3: src1 - src2 - C (R466). -/
def execSubb3 (ops : Ops3) (dst : Reg) (s : State) : Host.Outcome State Fault Refusal :=
  opI3 s ops dst fun p => aluSub s.ovm p.1 p.2 s.cFlag

/-- SUBI3: src1 - src2 (R468). -/
def execSubi3 (ops : Ops3) (dst : Reg) (s : State) : Host.Outcome State Fault Refusal :=
  opI3 s ops dst fun p => aluSub s.ovm p.1 p.2 false

/-- XOR3 (R470). -/
def execXor3 (ops : Ops3) (dst : Reg) (s : State) : Host.Outcome State Fault Refusal :=
  opI3 s ops dst fun p => logicRes (p.1 ^^^ p.2)

/-- CMPI3: src1 - src2 (R459). -/
def execCmpi3 (ops : Ops3) (s : State) : Host.Outcome State Fault Refusal :=
  opCmp s (src3 ops s) fun p => cmpFlags p.1 p.2

/-- TSTB3 (R469). -/
def execTstb3 (ops : Ops3) (s : State) : Host.Outcome State Fault Refusal :=
  opCmp s (src3 ops s) fun p => logicFlags (p.1 &&& p.2)

/-- ADDF3 (R453). -/
def execAddf3 (ops : FOps3) (dst : Fin 12) (s : State) : Host.Outcome State Fault Refusal :=
  opF3 s ops dst fun p => arithF (fAdd p.1 p.2)

/-- MPYF3 (R461). -/
def execMpyf3 (ops : FOps3) (dst : Fin 12) (s : State) : Host.Outcome State Fault Refusal :=
  opF3 s ops dst fun p => arithF (fMul p.1 p.2)

/-- SUBF3: src1 - src2 (R467). -/
def execSubf3 (ops : FOps3) (dst : Fin 12) (s : State) : Host.Outcome State Fault Refusal :=
  opF3 s ops dst fun p => arithF (fSub p.1 p.2)

/-- CMPF3: src1 - src2 (R458). -/
def execCmpf3 (ops : FOps3) (s : State) : Host.Outcome State Fault Refusal :=
  opCmp s (src3F ops s) fun p => cmpfFlags p.1 p.2

end Sys2Proof.Machine
end

