-- ==== Sys2Proof/Machine/Parallel.lean ====
section
/-! DEFINITION. The parallel instructions (47_parallel.md R560 to R594). The registers of both halves are read
before either half writes (R560). -/

namespace Sys2Proof.Machine

/-! ## Shared forms -/

/-- A 3-bit register field names one of R0 to R7 (R560). -/
def low (n : Fin 8) : Fin 12 := Fin.castLE (by decide) n

/-- The integer value of one of R0 to R7. -/
def State.rdLow (s : State) (n : Fin 8) : Word := s.rdI (.r (low n))

/-- The floating-point value of one of R0 to R7. -/
def State.rdLowF (s : State) (n : Fin 8) : Ext := s.rdF (low n)

/-- An operation with a store: `src2` is read, `v` is stored at `dst2`, and `f` writes the operation's result from
the word read (R560, R561). -/
def withStore (s : State) (dst2 src2 : Ind) (v : Word) (f : Word → State → State) :
    Host.Outcome State Fault Refusal :=
  sequential s ((indEval2 dst2 src2 s).bind fun p t => (dataRead p.2 t).bind fun w u =>
    (store p.1 v u).bind fun _ x => .ok () (x.exe (f w)))

/-- An integer operation with an integer store. -/
def opSti (s : State) (dst1 src3 : Fin 8) (dst2 src2 : Ind) (f : Word → IRes) : Host.Outcome State Fault Refusal :=
  withStore s dst2 src2 (s.rdLow src3) fun w t => t.putI (.r (low dst1)) (f w).v (f w).f

/-- A floating-point operation with a floating-point store. -/
def opStf (s : State) (dst1 src3 : Fin 8) (dst2 src2 : Ind) (f : Word → EFRes) : Host.Outcome State Fault Refusal :=
  withStore s dst2 src2 (extToSingle (s.rdLowF src3)) fun w t => t.putF (low dst1) (f w).r (f w).f

/-- Two loads, the first line's first (R570); one destination for both is refused (U7). -/
def loadBoth (s : State) (dst2 dst1 : Fin 8) (src2 src1 : Ind) (f : Word → Word → State → State) :
    Host.Outcome State Fault Refusal :=
  if dst1 = dst2 then .refused .sameDestination
  else sequential s ((indEval2 src2 src1 s).bind fun p t => (dataRead p.2 t).bind fun x u =>
    (dataRead p.1 u).bind fun y w => .ok () (w.exe (f x y)))

/-- Two stores, `dst1` first (R112, R868; R581 lists them the other way round, log entry 55). -/
def storeBoth (s : State) (dst1 dst2 : Ind) (v1 v2 : Word) : Host.Outcome State Fault Refusal :=
  sequential s ((indEval2 dst1 dst2 s).bind fun p t =>
    if p.1 = p.2 then storeOpen p.1 t else (store p.1 v1 t).bind fun _ u => store p.2 v2 u)

/-- The operands of a multiply pair by its P field: the two factors, then the two of the sum (R590). -/
def pairOps {α : Type} (p : Fin 4) (r1 r2 m3 m4 : α) : (α × α) × (α × α) :=
  match p with
  | 0 => ((m3, m4), (r1, r2))
  | 1 => ((m3, r1), (m4, r2))
  | 2 => ((r1, r2), (m3, m4))
  | 3 => ((m3, r1), (r2, m4))

/-- The destination of the product: R0 or R1 (R590). -/
def productReg (d1 : Fin 2) : Fin 12 := Fin.castLE (by decide) d1

/-- The destination of the sum: R2 or R3 (R590). -/
def sumReg (d2 : Fin 2) : Fin 12 := if d2 = 0 then 2 else 3

/-- The flags of a multiply pair: N and Z are 0, overflow and underflow those of either half (R590). -/
def pairFlags (v uf : Bool) : FlagRes := { n := false, z := false, v := v, uf := uf, c := none }

/-- A floating-point multiply pair from its product and its sum (R591). -/
def pairF (s : State) (p : Fin 4) (d1 d2 : Fin 2) (src1 src2 : Fin 8) (src3 src4 : Ind) (g : Ext → Ext → FRes) :
    Host.Outcome State Fault Refusal :=
  execute s (asFloat2 (indRead2 src3 src4 s)) fun m t =>
    let o := pairOps p (s.rdLowF src1) (s.rdLowF src2) m.1 m.2
    let x := fMul o.1.1 o.1.2
    let y := g o.2.1 o.2.2
    ((t.wrF (productReg d1) x.r).wrF (sumReg d2) y.r).setFlags (pairFlags (x.ovf || y.ovf) (x.unf || y.unf))

/-- An integer multiply pair from its product and its sum (R593). -/
def pairI (s : State) (p : Fin 4) (d1 d2 : Fin 2) (src1 src2 : Fin 8) (src3 src4 : Ind) (g : Word → Word → IRes) :
    Host.Outcome State Fault Refusal :=
  execute s (indRead2 src3 src4 s) fun m t =>
    let o := pairOps p (s.rdLow src1) (s.rdLow src2) m.1 m.2
    let x := aluMpy s.ovm o.1.1 o.1.2
    let y := g o.2.1 o.2.2
    ((t.wrI (.r (productReg d1)) x.v).wrI (.r (sumReg d2)) y.v).setFlags (pairFlags (x.f.v || y.f.v) false)

/-! ## Two stores and two loads -/

/-- STF||STF (R581). -/
def execStfStf (src2 src1 : Fin 8) (dst1 dst2 : Ind) (s : State) : Host.Outcome State Fault Refusal :=
  storeBoth s dst1 dst2 (extToSingle (s.rdLowF src1)) (extToSingle (s.rdLowF src2))

/-- STI||STI (R582). -/
def execStiSti (src2 src1 : Fin 8) (dst1 dst2 : Ind) (s : State) : Host.Outcome State Fault Refusal :=
  storeBoth s dst1 dst2 (s.rdLow src1) (s.rdLow src2)

/-- LDF||LDF (R570): no flag changes. -/
def execLdfLdf (dst2 dst1 : Fin 8) (src2 src1 : Ind) (s : State) : Host.Outcome State Fault Refusal :=
  loadBoth s dst2 dst1 src2 src1 fun x y t => (t.wrF (low dst1) (singleToExt x)).wrF (low dst2) (singleToExt y)

/-- LDI||LDI (R572): no flag changes. -/
def execLdiLdi (dst2 dst1 : Fin 8) (src2 src1 : Ind) (s : State) : Host.Outcome State Fault Refusal :=
  loadBoth s dst2 dst1 src2 src1 fun x y t => (t.wrI (.r (low dst1)) x).wrI (.r (low dst2)) y

/-! ## Operations of one source with a store -/

/-- LDF||STF (R571): no flag changes. -/
def execLdfStf (dst1 src3 : Fin 8) (dst2 src2 : Ind) (s : State) : Host.Outcome State Fault Refusal :=
  withStore s dst2 src2 (extToSingle (s.rdLowF src3)) fun w t => t.wrF (low dst1) (singleToExt w)

/-- LDI||STI (R573): no flag changes. -/
def execLdiSti (dst1 src3 : Fin 8) (dst2 src2 : Ind) (s : State) : Host.Outcome State Fault Refusal :=
  withStore s dst2 src2 (s.rdLow src3) fun w t => t.wrI (.r (low dst1)) w

/-- ABSF||STF (R561). -/
def execAbsfStf (dst1 src3 : Fin 8) (dst2 src2 : Ind) (s : State) : Host.Outcome State Fault Refusal :=
  opStf s dst1 src3 dst2 src2 fun w => absF (singleToExt w)

/-- ABSI||STI (R562). -/
def execAbsiSti (dst1 src3 : Fin 8) (dst2 src2 : Ind) (s : State) : Host.Outcome State Fault Refusal :=
  opSti s dst1 src3 dst2 src2 fun w => aluAbs s.ovm w

/-- FIX||STI (R567). -/
def execFixSti (dst1 src3 : Fin 8) (dst2 src2 : Ind) (s : State) : Host.Outcome State Fault Refusal :=
  opSti s dst1 src3 dst2 src2 fun w => fixRes (singleToExt w)

/-- FLOAT||STF (R568). -/
def execFloatStf (dst1 src3 : Fin 8) (dst2 src2 : Ind) (s : State) : Host.Outcome State Fault Refusal :=
  opStf s dst1 src3 dst2 src2 fun w => floatF w

/-- NEGF||STF (R577). -/
def execNegfStf (dst1 src3 : Fin 8) (dst2 src2 : Ind) (s : State) : Host.Outcome State Fault Refusal :=
  opStf s dst1 src3 dst2 src2 fun w => arithF (fNeg (singleToExt w))

/-- NEGI||STI (R578). -/
def execNegiSti (dst1 src3 : Fin 8) (dst2 src2 : Ind) (s : State) : Host.Outcome State Fault Refusal :=
  opSti s dst1 src3 dst2 src2 fun w => aluSub s.ovm 0 w false

/-- NOT||STI (R579). -/
def execNotSti (dst1 src3 : Fin 8) (dst2 src2 : Ind) (s : State) : Host.Outcome State Fault Refusal :=
  opSti s dst1 src3 dst2 src2 fun w => logicRes (~~~w)

/-- TOIEEE||STF (R585). -/
def execToieeeStf (dst1 src3 : Fin 8) (dst2 src2 : Ind) (s : State) : Host.Outcome State Fault Refusal :=
  opStf s dst1 src3 dst2 src2 fun w => toieeeF (singleToExt w)

/-- FRIEEE||STF (R569). -/
def execFrieeeStf (dst1 src3 : Fin 8) (dst2 src2 : Ind) (s : State) : Host.Outcome State Fault Refusal :=
  opStf s dst1 src3 dst2 src2 fun w => frieeeF w

/-! ## Operations of two sources with a store -/

/-- ADDF3||STF (R563). -/
def execAddf3Stf (dst1 src1 src3 : Fin 8) (dst2 src2 : Ind) (s : State) : Host.Outcome State Fault Refusal :=
  opStf s dst1 src3 dst2 src2 fun w => arithF (fAdd (s.rdLowF src1) (singleToExt w))

/-- ADDI3||STI (R564). -/
def execAddi3Sti (dst1 src1 src3 : Fin 8) (dst2 src2 : Ind) (s : State) : Host.Outcome State Fault Refusal :=
  opSti s dst1 src3 dst2 src2 fun w => aluAdd s.ovm (s.rdLow src1) w false

/-- AND3||STI (R565). -/
def execAnd3Sti (dst1 src1 src3 : Fin 8) (dst2 src2 : Ind) (s : State) : Host.Outcome State Fault Refusal :=
  opSti s dst1 src3 dst2 src2 fun w => logicRes (s.rdLow src1 &&& w)

/-- ASH3||STI: the word read is shifted by src1 (R566). -/
def execAsh3Sti (dst1 src1 src3 : Fin 8) (dst2 src2 : Ind) (s : State) : Host.Outcome State Fault Refusal :=
  opSti s dst1 src3 dst2 src2 fun w => aluAsh w (s.rdLow src1)

/-- LSH3||STI: the word read is shifted by src1 (R574). -/
def execLsh3Sti (dst1 src1 src3 : Fin 8) (dst2 src2 : Ind) (s : State) : Host.Outcome State Fault Refusal :=
  opSti s dst1 src3 dst2 src2 fun w => aluLsh w (s.rdLow src1)

/-- MPYF3||STF (R575). -/
def execMpyf3Stf (dst1 src1 src3 : Fin 8) (dst2 src2 : Ind) (s : State) : Host.Outcome State Fault Refusal :=
  opStf s dst1 src3 dst2 src2 fun w => arithF (fMul (s.rdLowF src1) (singleToExt w))

/-- MPYI3||STI (R576). -/
def execMpyi3Sti (dst1 src1 src3 : Fin 8) (dst2 src2 : Ind) (s : State) : Host.Outcome State Fault Refusal :=
  opSti s dst1 src3 dst2 src2 fun w => aluMpy s.ovm (s.rdLow src1) w

/-- OR3||STI (R580). -/
def execOr3Sti (dst1 src1 src3 : Fin 8) (dst2 src2 : Ind) (s : State) : Host.Outcome State Fault Refusal :=
  opSti s dst1 src3 dst2 src2 fun w => logicRes (s.rdLow src1 ||| w)

/-- SUBF3||STF: memory minus register (R583). -/
def execSubf3Stf (dst1 src1 src3 : Fin 8) (dst2 src2 : Ind) (s : State) : Host.Outcome State Fault Refusal :=
  opStf s dst1 src3 dst2 src2 fun w => arithF (fSub (singleToExt w) (s.rdLowF src1))

/-- SUBI3||STI: memory minus register (R584). -/
def execSubi3Sti (dst1 src1 src3 : Fin 8) (dst2 src2 : Ind) (s : State) : Host.Outcome State Fault Refusal :=
  opSti s dst1 src3 dst2 src2 fun w => aluSub s.ovm w (s.rdLow src1) false

/-- XOR3||STI (R586). -/
def execXor3Sti (dst1 src1 src3 : Fin 8) (dst2 src2 : Ind) (s : State) : Host.Outcome State Fault Refusal :=
  opSti s dst1 src3 dst2 src2 fun w => logicRes (s.rdLow src1 ^^^ w)

/-! ## Multiply pairs -/

/-- MPYF3||ADDF3 (R591). -/
def execMpyf3Addf3 (p : Fin 4) (d1 d2 : Fin 2) (src1 src2 : Fin 8) (src3 src4 : Ind) (s : State) :
    Host.Outcome State Fault Refusal :=
  pairF s p d1 d2 src1 src2 src3 src4 fAdd

/-- MPYF3||SUBF3 (R592). -/
def execMpyf3Subf3 (p : Fin 4) (d1 d2 : Fin 2) (src1 src2 : Fin 8) (src3 src4 : Ind) (s : State) :
    Host.Outcome State Fault Refusal :=
  pairF s p d1 d2 src1 src2 src3 src4 fSub

/-- MPYI3||ADDI3 (R593). -/
def execMpyi3Addi3 (p : Fin 4) (d1 d2 : Fin 2) (src1 src2 : Fin 8) (src3 src4 : Ind) (s : State) :
    Host.Outcome State Fault Refusal :=
  pairI s p d1 d2 src1 src2 src3 src4 fun u v => aluAdd s.ovm u v false

/-- MPYI3||SUBI3 (R594). -/
def execMpyi3Subi3 (p : Fin 4) (d1 d2 : Fin 2) (src1 src2 : Fin 8) (src3 src4 : Ind) (s : State) :
    Host.Outcome State Fault Refusal :=
  pairI s p d1 d2 src1 src2 src3 src4 fun u v => aluSub s.ovm u v false

end Sys2Proof.Machine
end

