-- ==== Sys2Proof/Machine/ProgramControl.lean ====
section
/-! DEFINITION. The program-control instructions (45_program_control.md R490 to R527). -/

namespace Sys2Proof.Machine

/-! ## Shared forms -/

/-- A jump as the whole effect of an instruction. -/
def jumpTo (s : State) (target : Word) : Host.Outcome State Fault Refusal := finish s (.ok () (s.jump target))

/-- The instruction goes on at the next address and does nothing else. -/
def fallThrough (s : State) : Host.Outcome State Fault Refusal := sequential s (.ok () s)

/-- A standard conditional branch (R493). -/
def branchIf (s : State) (c : Bool) (target : Word) : Host.Outcome State Fault Refusal :=
  if c then jumpTo s target else fallThrough s

/-- A delayed branch, taken or not (R496, R497). -/
def delayedIf (s : State) (c : Bool) (target : Word) (annul : Bool) : Host.Outcome State Fault Refusal :=
  sequential s (.ok () (s.delayed (if c then some target else none) annul .branch))

/-- A call: the next pc on the stack, then the jump (R501). -/
def callTo (s : State) (target : Word) : Host.Outcome State Fault Refusal :=
  finish s ((push (s.pc + 1) s).bind fun _ t => .ok () (t.jump target))

/-- A delayed instruction that was not taken: its next three instructions are ordinary ones, but no interrupt is
taken before they are done (R497 c, R712). -/
def notTaken (s : State) : Host.Outcome State Fault Refusal :=
  sequential s (.ok () (s.delayed none false .branch))

/-- The decremented auxiliary register of DBcond (R503). -/
def dbCount (s : State) (n : Fin 8) : Word := s.ar[n] - 1

/-- DBcond branches: the condition on the flags before it, and a count that is not negative (R503). -/
def dbTaken (s : State) (n : Fin 8) (cond : Cond) : Bool := s.cond cond && !(dbCount s n).msb

/-- The repeat registers of RPTB and RPTBD: RM ← 1, S ← 0 (R523, R524). -/
def State.startBlock (s : State) (start endAt : Word) : State :=
  { s.setSt 8 true with rs := start, re := endAt, sFlag := false }

/-- The repeat registers of RPTS (R525). -/
def State.startSingle (s : State) (at_ count : Word) : State :=
  { s.setSt 8 true with rs := at_, re := at_, rc := count, sFlag := true }

/-! ## Branches -/

/-- Bcond (R493). -/
def execBcond (cond : Cond) (target : BTarget) (s : State) : Host.Outcome State Fault Refusal :=
  branchIf s (s.cond cond) (branchTarget target (s.pc + 1) s)

/-- BcondD (R496). -/
def execBcondD (cond : Cond) (target : BTarget) (s : State) : Host.Outcome State Fault Refusal :=
  delayedIf s (s.cond cond) (branchTarget target (s.pc + 3) s) false

/-- BcondAT: the slots of a taken branch are annulled (R495). -/
def execBcondAT (cond : Cond) (target : BTarget) (s : State) : Host.Outcome State Fault Refusal :=
  delayedIf s (s.cond cond) (branchTarget target (s.pc + 3) s) (s.cond cond)

/-- BcondAF: the slots of a branch that is not taken are annulled (R494). -/
def execBcondAF (cond : Cond) (target : BTarget) (s : State) : Host.Outcome State Fault Refusal :=
  delayedIf s (s.cond cond) (branchTarget target (s.pc + 3) s) (!s.cond cond)

/-- BR (R499). -/
def execBr (disp : BitVec 24) (s : State) : Host.Outcome State Fault Refusal :=
  jumpTo s (s.pc + 1 + disp.signExtend 32)

/-- BRD (R500). -/
def execBrd (disp : BitVec 24) (s : State) : Host.Outcome State Fault Refusal :=
  delayedIf s true (s.pc + 3 + disp.signExtend 32) false

/-- DBcond (R503): the target is read before the auxiliary register changes (D17). -/
def execDbcond (n : Fin 8) (cond : Cond) (target : BTarget) (s : State) : Host.Outcome State Fault Refusal :=
  finish s (.ok () (if dbTaken s n cond then
      (s.wrAr n (dbCount s n)).jump (branchTarget target (s.pc + 1) s)
    else { s.wrAr n (dbCount s n) with pc := s.pc + 1 }))

/-- DBcondD (R504). -/
def execDbcondD (n : Fin 8) (cond : Cond) (target : BTarget) (s : State) : Host.Outcome State Fault Refusal :=
  sequential s (.ok () ((s.wrAr n (dbCount s n)).delayed
    (if dbTaken s n cond then some (branchTarget target (s.pc + 3) s) else none) false .branch))

/-! ## Calls, links and traps -/

/-- CALL (R501). -/
def execCall (disp : BitVec 24) (s : State) : Host.Outcome State Fault Refusal :=
  callTo s (s.pc + 1 + disp.signExtend 32)

/-- CALLcond (R502). -/
def execCallcond (cond : Cond) (target : BTarget) (s : State) : Host.Outcome State Fault Refusal :=
  if s.cond cond then callTo s (branchTarget target (s.pc + 1) s) else fallThrough s

/-- LAJ (R505). -/
def execLaj (disp : BitVec 24) (s : State) : Host.Outcome State Fault Refusal :=
  sequential s (.ok () ((s.link (s.pc + 4)).delayed (some (s.pc + 3 + disp.signExtend 32)) false .branch))

/-- LAJcond (R506): the target is read before the link is written (D17). -/
def execLajcond (cond : Cond) (target : BTarget) (s : State) : Host.Outcome State Fault Refusal :=
  if s.cond cond then
    sequential s (.ok () ((s.link (s.pc + 4)).delayed (some (branchTarget target (s.pc + 3) s)) false .branch))
  else notTaken s

/-- TRAPcond (R527): its meaning takes the exception of vector TVTP + N. -/
def execTrapcond (cond : Cond) (n : BitVec 9) (s : State) : Host.Outcome State Fault Refusal :=
  if s.cond cond then finish s (enterException (s.pc + 1) (s.tvtp + n.setWidth 32) s) else fallThrough s

/-- LATcond (R507): the status and the link, and the pc from the vector after three slots. -/
def execLatcond (cond : Cond) (n : BitVec 9) (s : State) : Host.Outcome State Fault Refusal :=
  if s.cond cond then
    sequential s ((dataRead (s.tvtp + n.setWidth 32) (s.saveStatus.link (s.pc + 4))).bind fun v t =>
      .ok () (t.delayed (some v) false .latTaken))
  else notTaken s

/-! ## Returns -/

/-- RETIcond (R520). -/
def execReticond (cond : Cond) (s : State) : Host.Outcome State Fault Refusal :=
  if s.cond cond then finish s ((leaveException s).bind fun v t => .ok () (t.jump v)) else fallThrough s

/-- RETIcondD (R521): the pop and the status at once, the jump after three slots (D23). -/
def execReticondD (cond : Cond) (s : State) : Host.Outcome State Fault Refusal :=
  if s.cond cond then sequential s ((leaveException s).bind fun v t => .ok () (t.delayed (some v) false .branch))
  else notTaken s

/-- RETScond (R522). -/
def execRetscond (cond : Cond) (s : State) : Host.Outcome State Fault Refusal :=
  if s.cond cond then finish s ((pop s).bind fun v t => .ok () (t.jump v)) else fallThrough s

/-! ## Repeats -/

/-- RPTB with a displacement (R523): it flushes the pipeline (R862). -/
def execRptbRel (disp : BitVec 24) (s : State) : Host.Outcome State Fault Refusal :=
  finish s (.ok () ((s.startBlock (s.pc + 1) (s.pc + 1 + disp.signExtend 32)).jump (s.pc + 1)))

/-- RPTB with a register (R523). -/
def execRptbReg (src : Reg) (s : State) : Host.Outcome State Fault Refusal :=
  finish s (.ok () ((s.startBlock (s.pc + 1) (s.rdI src)).jump (s.pc + 1)))

/-- RPTBD with a displacement (R524). -/
def execRptbdRel (disp : BitVec 24) (s : State) : Host.Outcome State Fault Refusal :=
  sequential s (.ok () ((s.startBlock (s.pc + 4) (s.pc + 3 + disp.signExtend 32)).delayed none false .rptbd))

/-- RPTBD with a register (R524). -/
def execRptbdReg (src : Reg) (s : State) : Host.Outcome State Fault Refusal :=
  sequential s (.ok () ((s.startBlock (s.pc + 4) (s.rdI src)).delayed none false .rptbd))

/-- RPTS (R525): an immediate count is zero-extended (D21). -/
def execRpts (src : Src) (s : State) : Host.Outcome State Fault Refusal :=
  finish s ((srcU src s).bind fun v t => .ok () ((t.startSingle (s.pc + 1) v).jump (s.pc + 1)))

/-! ## Others -/

/-- SWI (R526): the emulator interrupt is not described (U8). -/
def execSwi (_ : State) : Host.Outcome State Fault Refusal := .refused .emulatorInterrupt

/-- IDLE (R509): GIE ← 1 (D22), and no instruction until an interrupt. -/
def execIdle (s : State) : Host.Outcome State Fault Refusal :=
  sequential s (.ok () { s.setSt 13 true with idle := true, unflushed := 0 })

/-- NOP (R510): with an indirect operand, its update and a dummy read. -/
def execNop (src : NopSrc) (s : State) : Host.Outcome State Fault Refusal :=
  match src with
  | .reg _ => fallThrough s
  | .ind i => sequential s ((indRead i s).bind fun _ t => .ok () t)

/-- IACK (R508): a dummy read with the pin low. -/
def execIack (src : Mem) (s : State) : Host.Outcome State Fault Refusal :=
  sequential s ((memEval src s).bind fun a t => iackRead a t)

end Sys2Proof.Machine
end

