-- ==== Sys2Proof/Machine/Dispatch.lean ====
section
/-! DEFINITION. The meaning of every instruction: one arm per constructor. -/

namespace Sys2Proof.Machine

def exec (i : Instr) (s : State) : Host.Outcome State Fault Refusal :=
  match i with
  | .absi src dst => Sys2Proof.Machine.execAbsi src dst s
  | .addc src dst => Sys2Proof.Machine.execAddc src dst s
  | .addi src dst => Sys2Proof.Machine.execAddi src dst s
  | .and src dst => Sys2Proof.Machine.execAnd src dst s
  | .andn src dst => Sys2Proof.Machine.execAndn src dst s
  | .ash src dst => Sys2Proof.Machine.execAsh src dst s
  | .cmpi src dst => Sys2Proof.Machine.execCmpi src dst s
  | .ldi src dst => Sys2Proof.Machine.execLdi src dst s
  | .lsh src dst => Sys2Proof.Machine.execLsh src dst s
  | .mpyi src dst => Sys2Proof.Machine.execMpyi src dst s
  | .negb src dst => Sys2Proof.Machine.execNegb src dst s
  | .negi src dst => Sys2Proof.Machine.execNegi src dst s
  | .not src dst => Sys2Proof.Machine.execNot src dst s
  | .or src dst => Sys2Proof.Machine.execOr src dst s
  | .subb src dst => Sys2Proof.Machine.execSubb src dst s
  | .subc src dst => Sys2Proof.Machine.execSubc src dst s
  | .subi src dst => Sys2Proof.Machine.execSubi src dst s
  | .subrb src dst => Sys2Proof.Machine.execSubrb src dst s
  | .subri src dst => Sys2Proof.Machine.execSubri src dst s
  | .tstb src dst => Sys2Proof.Machine.execTstb src dst s
  | .xor src dst => Sys2Proof.Machine.execXor src dst s
  | .mpyshi src dst => Sys2Proof.Machine.execMpyshi src dst s
  | .mpyuhi src dst => Sys2Proof.Machine.execMpyuhi src dst s
  | .lda src dst => Sys2Proof.Machine.execLda src dst s
  | .float src dst => Sys2Proof.Machine.execFloat src dst s
  | .absf src dst => Sys2Proof.Machine.execAbsf src dst s
  | .addf src dst => Sys2Proof.Machine.execAddf src dst s
  | .cmpf src dst => Sys2Proof.Machine.execCmpf src dst s
  | .lde src dst => Sys2Proof.Machine.execLde src dst s
  | .ldf src dst => Sys2Proof.Machine.execLdf src dst s
  | .ldm src dst => Sys2Proof.Machine.execLdm src dst s
  | .mpyf src dst => Sys2Proof.Machine.execMpyf src dst s
  | .negf src dst => Sys2Proof.Machine.execNegf src dst s
  | .norm src dst => Sys2Proof.Machine.execNorm src dst s
  | .rnd src dst => Sys2Proof.Machine.execRnd src dst s
  | .subf src dst => Sys2Proof.Machine.execSubf src dst s
  | .subrf src dst => Sys2Proof.Machine.execSubrf src dst s
  | .fix src dst => Sys2Proof.Machine.execFix src dst s
  | .toieee src dst => Sys2Proof.Machine.execToieee src dst s
  | .rcpf src dst => Sys2Proof.Machine.execRcpf src dst s
  | .rsqrf src dst => Sys2Proof.Machine.execRsqrf src dst s
  | .frieee src dst => Sys2Proof.Machine.execFrieee src dst s
  | .ldfi src dst => Sys2Proof.Machine.execLdfi src dst s
  | .ldii src dst => Sys2Proof.Machine.execLdii src dst s
  | .sigi src dst => Sys2Proof.Machine.execSigi src dst s
  | .stf src dst => Sys2Proof.Machine.execStf src dst s
  | .stfi src dst => Sys2Proof.Machine.execStfi src dst s
  | .stii src dst => Sys2Proof.Machine.execStii src dst s
  | .stiDir src dst => Sys2Proof.Machine.execStiDir src dst s
  | .stiInd src dst => Sys2Proof.Machine.execStiInd src dst s
  | .stikDir k dst => Sys2Proof.Machine.execStikDir k dst s
  | .stikInd k dst => Sys2Proof.Machine.execStikInd k dst s
  | .idle => Sys2Proof.Machine.execIdle s
  | .nop src => Sys2Proof.Machine.execNop src s
  | .iack src => Sys2Proof.Machine.execIack src s
  | .pop dst => Sys2Proof.Machine.execPop dst s
  | .popf dst => Sys2Proof.Machine.execPopf dst s
  | .push src => Sys2Proof.Machine.execPush src s
  | .pushf src => Sys2Proof.Machine.execPushf src s
  | .rol dst => Sys2Proof.Machine.execRol dst s
  | .rolc dst => Sys2Proof.Machine.execRolc dst s
  | .ror dst => Sys2Proof.Machine.execRor dst s
  | .rorc dst => Sys2Proof.Machine.execRorc dst s
  | .rpts src => Sys2Proof.Machine.execRpts src s
  | .ldpk k => Sys2Proof.Machine.execLdpk k s
  | .ldhi k dst => Sys2Proof.Machine.execLdhi k dst s
  | .ldfcond cond src dst => Sys2Proof.Machine.execLdfcond cond src dst s
  | .ldicond cond src dst => Sys2Proof.Machine.execLdicond cond src dst s
  | .ldep src dst => Sys2Proof.Machine.execLdep src dst s
  | .ldpe src dst => Sys2Proof.Machine.execLdpe src dst s
  | .lb b src dst => Sys2Proof.Machine.execLb b src dst s
  | .lbu b src dst => Sys2Proof.Machine.execLbu b src dst s
  | .lwl b src dst => Sys2Proof.Machine.execLwl b src dst s
  | .lwr b src dst => Sys2Proof.Machine.execLwr b src dst s
  | .mb b src dst => Sys2Proof.Machine.execMb b src dst s
  | .lh h src dst => Sys2Proof.Machine.execLh h src dst s
  | .lhu h src dst => Sys2Proof.Machine.execLhu h src dst s
  | .mh h src dst => Sys2Proof.Machine.execMh h src dst s
  | .addc3 ops dst => Sys2Proof.Machine.execAddc3 ops dst s
  | .addi3 ops dst => Sys2Proof.Machine.execAddi3 ops dst s
  | .and3 ops dst => Sys2Proof.Machine.execAnd3 ops dst s
  | .andn3 ops dst => Sys2Proof.Machine.execAndn3 ops dst s
  | .ash3 ops dst => Sys2Proof.Machine.execAsh3 ops dst s
  | .lsh3 ops dst => Sys2Proof.Machine.execLsh3 ops dst s
  | .mpyi3 ops dst => Sys2Proof.Machine.execMpyi3 ops dst s
  | .or3 ops dst => Sys2Proof.Machine.execOr3 ops dst s
  | .subb3 ops dst => Sys2Proof.Machine.execSubb3 ops dst s
  | .subi3 ops dst => Sys2Proof.Machine.execSubi3 ops dst s
  | .xor3 ops dst => Sys2Proof.Machine.execXor3 ops dst s
  | .mpyshi3 ops dst => Sys2Proof.Machine.execMpyshi3 ops dst s
  | .mpyuhi3 ops dst => Sys2Proof.Machine.execMpyuhi3 ops dst s
  | .cmpi3 ops => Sys2Proof.Machine.execCmpi3 ops s
  | .tstb3 ops => Sys2Proof.Machine.execTstb3 ops s
  | .addf3 ops dst => Sys2Proof.Machine.execAddf3 ops dst s
  | .mpyf3 ops dst => Sys2Proof.Machine.execMpyf3 ops dst s
  | .subf3 ops dst => Sys2Proof.Machine.execSubf3 ops dst s
  | .cmpf3 ops => Sys2Proof.Machine.execCmpf3 ops s
  | .bcond cond target => Sys2Proof.Machine.execBcond cond target s
  | .bcondD cond target => Sys2Proof.Machine.execBcondD cond target s
  | .bcondAT cond target => Sys2Proof.Machine.execBcondAT cond target s
  | .bcondAF cond target => Sys2Proof.Machine.execBcondAF cond target s
  | .callcond cond target => Sys2Proof.Machine.execCallcond cond target s
  | .lajcond cond target => Sys2Proof.Machine.execLajcond cond target s
  | .dbcond n cond target => Sys2Proof.Machine.execDbcond n cond target s
  | .dbcondD n cond target => Sys2Proof.Machine.execDbcondD n cond target s
  | .br disp => Sys2Proof.Machine.execBr disp s
  | .brd disp => Sys2Proof.Machine.execBrd disp s
  | .call disp => Sys2Proof.Machine.execCall disp s
  | .laj disp => Sys2Proof.Machine.execLaj disp s
  | .rptbRel disp => Sys2Proof.Machine.execRptbRel disp s
  | .rptbdRel disp => Sys2Proof.Machine.execRptbdRel disp s
  | .rptbReg src => Sys2Proof.Machine.execRptbReg src s
  | .rptbdReg src => Sys2Proof.Machine.execRptbdReg src s
  | .swi => Sys2Proof.Machine.execSwi s
  | .trapcond cond n => Sys2Proof.Machine.execTrapcond cond n s
  | .latcond cond n => Sys2Proof.Machine.execLatcond cond n s
  | .reticond cond => Sys2Proof.Machine.execReticond cond s
  | .reticondD cond => Sys2Proof.Machine.execReticondD cond s
  | .retscond cond => Sys2Proof.Machine.execRetscond cond s
  | .stfStf src2 src1 dst1 dst2 => Sys2Proof.Machine.execStfStf src2 src1 dst1 dst2 s
  | .stiSti src2 src1 dst1 dst2 => Sys2Proof.Machine.execStiSti src2 src1 dst1 dst2 s
  | .ldfLdf dst2 dst1 src2 src1 => Sys2Proof.Machine.execLdfLdf dst2 dst1 src2 src1 s
  | .ldiLdi dst2 dst1 src2 src1 => Sys2Proof.Machine.execLdiLdi dst2 dst1 src2 src1 s
  | .absfStf dst1 src3 dst2 src2 => Sys2Proof.Machine.execAbsfStf dst1 src3 dst2 src2 s
  | .absiSti dst1 src3 dst2 src2 => Sys2Proof.Machine.execAbsiSti dst1 src3 dst2 src2 s
  | .fixSti dst1 src3 dst2 src2 => Sys2Proof.Machine.execFixSti dst1 src3 dst2 src2 s
  | .floatStf dst1 src3 dst2 src2 => Sys2Proof.Machine.execFloatStf dst1 src3 dst2 src2 s
  | .ldfStf dst1 src3 dst2 src2 => Sys2Proof.Machine.execLdfStf dst1 src3 dst2 src2 s
  | .ldiSti dst1 src3 dst2 src2 => Sys2Proof.Machine.execLdiSti dst1 src3 dst2 src2 s
  | .negfStf dst1 src3 dst2 src2 => Sys2Proof.Machine.execNegfStf dst1 src3 dst2 src2 s
  | .negiSti dst1 src3 dst2 src2 => Sys2Proof.Machine.execNegiSti dst1 src3 dst2 src2 s
  | .notSti dst1 src3 dst2 src2 => Sys2Proof.Machine.execNotSti dst1 src3 dst2 src2 s
  | .toieeeStf dst1 src3 dst2 src2 => Sys2Proof.Machine.execToieeeStf dst1 src3 dst2 src2 s
  | .frieeeStf dst1 src3 dst2 src2 => Sys2Proof.Machine.execFrieeeStf dst1 src3 dst2 src2 s
  | .addf3Stf dst1 src1 src3 dst2 src2 => Sys2Proof.Machine.execAddf3Stf dst1 src1 src3 dst2 src2 s
  | .addi3Sti dst1 src1 src3 dst2 src2 => Sys2Proof.Machine.execAddi3Sti dst1 src1 src3 dst2 src2 s
  | .and3Sti dst1 src1 src3 dst2 src2 => Sys2Proof.Machine.execAnd3Sti dst1 src1 src3 dst2 src2 s
  | .ash3Sti dst1 src1 src3 dst2 src2 => Sys2Proof.Machine.execAsh3Sti dst1 src1 src3 dst2 src2 s
  | .lsh3Sti dst1 src1 src3 dst2 src2 => Sys2Proof.Machine.execLsh3Sti dst1 src1 src3 dst2 src2 s
  | .mpyf3Stf dst1 src1 src3 dst2 src2 => Sys2Proof.Machine.execMpyf3Stf dst1 src1 src3 dst2 src2 s
  | .mpyi3Sti dst1 src1 src3 dst2 src2 => Sys2Proof.Machine.execMpyi3Sti dst1 src1 src3 dst2 src2 s
  | .or3Sti dst1 src1 src3 dst2 src2 => Sys2Proof.Machine.execOr3Sti dst1 src1 src3 dst2 src2 s
  | .subf3Stf dst1 src1 src3 dst2 src2 => Sys2Proof.Machine.execSubf3Stf dst1 src1 src3 dst2 src2 s
  | .subi3Sti dst1 src1 src3 dst2 src2 => Sys2Proof.Machine.execSubi3Sti dst1 src1 src3 dst2 src2 s
  | .xor3Sti dst1 src1 src3 dst2 src2 => Sys2Proof.Machine.execXor3Sti dst1 src1 src3 dst2 src2 s
  | .mpyf3Addf3 p d1 d2 src1 src2 src3 src4 => Sys2Proof.Machine.execMpyf3Addf3 p d1 d2 src1 src2 src3 src4 s
  | .mpyf3Subf3 p d1 d2 src1 src2 src3 src4 => Sys2Proof.Machine.execMpyf3Subf3 p d1 d2 src1 src2 src3 src4 s
  | .mpyi3Addi3 p d1 d2 src1 src2 src3 src4 => Sys2Proof.Machine.execMpyi3Addi3 p d1 d2 src1 src2 src3 src4 s
  | .mpyi3Subi3 p d1 d2 src1 src2 src3 src4 => Sys2Proof.Machine.execMpyi3Subi3 p d1 d2 src1 src2 src3 src4 s

end Sys2Proof.Machine
end

