-- ==== Sys2Proof/Machine/Boot.lean ====
section
/-! DEFINITION. Reset, and the boot loader by its contract (70_reset_and_hazards.md R850 to R859, D36). -/

namespace Sys2Proof.Machine

/-! ## Reset -/

/-- The address of the reset vector (R851). -/
def resetVector (loc : BitVec 2) : Word :=
  match loc.toFin with
  | 0 => 0#32
  | 1 => 0x7FFFFFFF#32
  | 2 => 0x80000000#32
  | 3 => 0xFFFFFFFF#32

/-- A channel after a reset while the machine runs: the registers that reset leaves undefined are any value
(R811, V1). -/
def Dma.warm (base : Nat) (c : Nat) : Dma :=
  { Dma.reset with
    src := Config.freeWord (base + 8 * c)
    sidx := Config.freeWord (base + 8 * c + 1)
    dst := Config.freeWord (base + 8 * c + 2)
    didx := Config.freeWord (base + 8 * c + 3)
    lnk := Config.freeWord (base + 8 * c + 4)
    alnk := Config.freeWord (base + 8 * c + 5) }

/-- The first `n` words from `a` are any value. -/
def anyWords (a : Word) (base : Nat) : Nat → Memory → Memory
  | 0, m => m
  | n + 1, m => Memory.setWord (anyWords a base n m) (a + BitVec.ofNat 32 n) (Config.freeWord (base + n))

/-- What RESET_ writes (R850, R853), before the vector is read. The registers that it does not write, the on-chip
RAM and the SSA registers are any value (R852, V1, V2); the input pins and the external memory are the
environment's. -/
def resetState (s : State) : State :=
  let b := s.free
  let w := fun i => Config.freeWord (b + 64 + i)
  { State.reset with
    r := Vector.ofFn fun i => Config.freeExt (b + i.val)
    ar := Vector.ofFn fun i => w i.val
    dp := (w 8).extractLsb' 0 16
    ir0 := w 9
    ir1 := w 10
    bk := w 11
    sp := w 12
    rs := w 13
    re := w 14
    rc := w 15
    cache := { Cache.reset with segs := Vector.ofFn fun g =>
      { s.cache.segs[g] with p := 0, ssa := (w (16 + g.val)).extractLsb' 0 27 } }
    mem := anyWords 0x2FF800#32 (b + 256) 2048 s.mem
    dma := Vector.ofFn fun c => Dma.warm (b + 128) c.val
    romen := s.romen
    resetloc := s.resetloc
    pins := { Pins.reset with
      nmi := s.pins.nmi
      iiof := s.pins.iiof
      tclk := s.pins.tclk
      globalBus := s.pins.globalBus
      localBus := s.pins.localBus }
    script := s.script
    free := b + 256 + 2048 }

/-- The reset event (R850, R851); with ROMEN = 1 and RESETLOC = 00 the boot loader starts (R856). -/
def resetEvent (s : State) : Res Unit :=
  let s := resetState s
  (dataRead (resetVector s.resetloc) s).bind fun v s =>
    .ok () { s with pc := v, boot := if s.romen && s.resetloc == 0 then some .start else none }

/-! ## The boot loader (R857) -/

/-- Where the IIOF pins say that the program is (R857): `none` for the communication ports, or where no
pattern matches; the reserved pattern leaves the loader. -/
def bootSelect (s : State) : Option (Option Word) :=
  if !s.pins.iiof[0] then none
  else match s.pins.iiof[3], s.pins.iiof[2], s.pins.iiof[1] with
    | true, true, false => some (some 0x00300000#32)
    | true, false, true => some (some 0x40000000#32)
    | true, false, false => some (some 0x60000000#32)
    | false, true, true => some (some 0x80000000#32)
    | false, true, false => some (some 0xA0000000#32)
    | false, false, true => some (some 0xC0000000#32)
    | false, false, false => some none
    | true, true, true => none

/-- IIOF0 low and the other three high: the life test (R857). -/
def bootLifeTest (s : State) : Bool :=
  !s.pins.iiof[0] && s.pins.iiof[1] && s.pins.iiof[2] && s.pins.iiof[3]

/-- Continue in a phase. -/
def bootGo (p : BootPhase) (s : State) : Res Unit := .ok () { s with boot := some p }

/-- The first port with a word waiting (R857). -/
def bootPort (s : State) : Option (Fin 6) :=
  ([0, 1, 2, 3, 4, 5] : List (Fin 6)).find? fun x => s.ports[x].icrdy

/-- One word of the stream and the source after it (R857, Packing); a port without a word makes the loader wait. -/
def bootWord (src : BootSource) (s : State) : Res (Word × BootSource) :=
  match src with
  | .port x =>
    if s.ports[x].icrdy then
      (dataRead (0x100041#32 + BitVec.ofNat 32 (16 * x.val)) s).bind fun v s => .ok (v, src) s
    else .stall none
  | .memory w a =>
    if w = 32 then (dataRead a s).bind fun v s => .ok (v, .memory w (a + 1)) s
    else if w = 16 then
      (dataRead a s).bind fun v0 s => (dataRead (a + 1) s).bind fun v1 s =>
        .ok (v1.extractLsb' 0 16 ++ v0.extractLsb' 0 16, .memory w (a + 2)) s
    else
      (dataRead a s).bind fun v0 s => (dataRead (a + 1) s).bind fun v1 s =>
        (dataRead (a + 2) s).bind fun v2 s => (dataRead (a + 3) s).bind fun v3 s =>
          .ok (v3.extractLsb' 0 8 ++ v2.extractLsb' 0 8 ++ v1.extractLsb' 0 8 ++ v0.extractLsb' 0 8,
            .memory w (a + 4)) s

/-- What the test of a port's input level leaves (R858, COM_LOAD): CPCR shifted right by 9 in R1, the last bit shifted
out in C. -/
def bootTest (src : BootSource) (s : State) : State :=
  match src with
  | .port x =>
    let v := (cpcrRead x s).1
    ((cpcrRead x s).2.wrI (.r 1) (v >>> 9)).setSt 0 (v.getLsbD 8)
  | .memory _ _ => s.setSt 0 false

/-- The end state of the loader (R857), with the flags and RC that the listing leaves (R858): N, Z, V and UF of the
last LDI R0,R0 with R0 = 1. What the listing does not give, the addresses of its own code in R10, RS, RE and on the
stack, is any value. -/
def bootEnd (src : BootSource) (a entry last : Word) (s : State) : State :=
  let b := s.free
  let w := fun i => Config.freeWord (b + i)
  let s := match src with
    | .memory _ next => s.wrI (.ar 1) next
    | .port x => (s.wrI (.ar 1) (5 - BitVec.ofNat 32 x.val)).wrI (.ar 3) (0x100040#32 + BitVec.ofNat 32 (16 * x.val))
  let s := ((((s.wrI (.ar 0) last).wrI (.ar 2) a).wrI (.r 0) 1).wrI (.r 9) entry).wrI (.r 10) (w 0)
  let s := { s with
    rc := 0xFFFFFFFF#32, rs := w 1, re := w 2, sp := 0x2FFFF0#32
    mem := Memory.setWord s.mem 0x2FFFF1#32 (w 3), free := b + 4, boot := none }
  ((((s.setSt 1 false).setSt 2 false).setSt 3 false).setSt 4 false).jump entry

/-- One step of the boot loader (R857). The width word stays in R1, shifted by its two tests; a size of 80000000h sets
LV in the comparison of RC with -1 (R858). -/
def bootStep (p : BootPhase) (s : State) : Res Unit :=
  match p with
  | .start => if bootLifeTest s then refuse .bootRomCode else bootGo .poll { s with sp := 0x2FFFF0#32 }
  | .poll =>
    match bootSelect s with
    | some (some a) => bootGo (.width a) s
    | some none => refuse .bootRomCode
    | none =>
      match bootPort s with
      | some x => bootGo (.gmicr (.port x)) s
      | none => .ok () s
  | .width a =>
    (dataRead a s).bind fun v s =>
      if v.getLsbD 5 then bootGo (.gmicr (.memory 32 (a + 1))) (s.wrI (.r 1) (v <<< 26))
      else if v.getLsbD 4 then bootGo (.gmicr (.memory 16 (a + 2))) (s.wrI (.r 1) (v <<< 27))
      else bootGo (.gmicr (.memory 8 (a + 4))) (s.wrI (.r 1) (v <<< 27))
  | .gmicr src =>
    (bootWord src s).bind fun v s => (dataWrite 0x100000#32 v.1 s).bind fun _ s => bootGo (.lmicr v.2) s
  | .lmicr src =>
    (bootWord src s).bind fun v s => (dataWrite 0x100004#32 v.1 s).bind fun _ s => bootGo (.size v.2 none 0) s
  | .size src entry last =>
    (bootWord src s).bind fun v s =>
      if v.1 = 0 then
        match entry with
        | some e => bootGo (.ivtp v.2 e last) s
        | none => refuse .bootEmptyBlock
      else bootGo (.dest v.2 entry v.1) (if v.1 = 0x80000000#32 then s.setSt 5 true else s)
  | .dest src entry size =>
    (bootWord src s).bind fun v s => bootGo (.block v.2 (entry.getD v.1) size v.1) s
  | .block src entry left next =>
    (bootWord src s).bind fun v s => (dataWrite next v.1 s).bind fun _ s =>
      if left = 1 then bootGo (.size v.2 (some entry) (next + 1)) s
      else bootGo (.block v.2 entry (left - 1) (next + 1)) s
  | .ivtp src entry last => (bootWord src s).bind fun v s => bootGo (.tvtp v.2 entry last) (s.wrX .ivtp v.1)
  | .tvtp src entry last => (bootWord src s).bind fun v s => bootGo (.iack v.2 entry last) (s.wrX .tvtp v.1)
  | .iack src entry last =>
    (bootWord src (bootTest src s)).bind fun v s =>
      (iackRead v.1 s).bind fun _ s => .ok () (bootEnd v.2 v.1 entry last s)

end Sys2Proof.Machine
end

