-- ==== Sys2Proof/Machine/Dma.lean ====
section
/-! DEFINITION. The DMA coprocessor: its synchronisation, transfers, block ends and autoinitialization
(61_peripherals.md R793 to R808). -/

namespace Sys2Proof.Machine

/-! ## Synchronisation (R51 to R53, R800, R801) -/

/-- A signal that a field of DIE selects (R52, R53). -/
inductive Signal where
  | none
  | icrdy (x : Fin 6)
  | ocrdy (x : Fin 6)
  | iiof (x : Fin 4)
  | tim (t : Fin 2)
  deriving DecidableEq, Repr

/-- The signal is that of an input FIFO (R785). -/
def Signal.isIcrdy : Signal → Bool
  | .icrdy _ => true
  | .none => false
  | .ocrdy _ => false
  | .iiof _ => false
  | .tim _ => false

/-- The signal is that of an output FIFO (R785). -/
def Signal.isOcrdy : Signal → Bool
  | .ocrdy _ => true
  | .none => false
  | .icrdy _ => false
  | .iiof _ => false
  | .tim _ => false

/-- The two-bit fields of channels 0 and 1 (R52). -/
def signal2 (v : BitVec 2) (ready : Signal) (pin : Fin 4) : Signal :=
  match v.toFin with
  | 0 => .none
  | 1 => ready
  | 2 => .iiof pin
  | 3 => .tim 0

/-- The three-bit fields of channels 2 to 5 (R53). -/
def signal3 (v : BitVec 3) (ready : Signal) : Signal :=
  match v.toFin with
  | 0 => .none
  | 1 => ready
  | 2 => .iiof 0
  | 3 => .iiof 1
  | 4 => .iiof 2
  | 5 => .iiof 3
  | 6 => .tim 0
  | 7 => .tim 1

/-- The signal of DMAc READ (R51). -/
def readSignal (die : Word) (c : Fin 6) : Signal :=
  if c = 0 then signal2 (die.extractLsb' 0 2) (.icrdy 0) 0
  else if c = 1 then signal2 (die.extractLsb' 4 2) (.icrdy 1) 2
  else signal3 (die.extractLsb' (8 + 6 * (c.val - 2)) 3) (.icrdy c)

/-- The signal of DMAc WRITE (R51). -/
def writeSignal (die : Word) (c : Fin 6) : Signal :=
  if c = 0 then signal2 (die.extractLsb' 2 2) (.ocrdy 0) 1
  else if c = 1 then signal2 (die.extractLsb' 6 2) (.ocrdy 1) 3
  else signal3 (die.extractLsb' (11 + 6 * (c.val - 2)) 3) (.ocrdy c)

/-- The signal is 1; a pin counts only as an interrupt pin (R800). -/
def State.signalOn (s : State) (g : Signal) : Bool :=
  match g with
  | .none => false
  | .icrdy x => s.ports[x].icrdy
  | .ocrdy x => s.ports[x].ocrdy
  | .iiof x => iifFunc s.iif x && s.iifFlag x
  | .tim t => s.iif.getLsbD (tintBit t)

/-- The IIF bit of a latched signal, which its consumer clears (R801). -/
def State.signalLatch (s : State) (g : Signal) : Option Nat :=
  match g with
  | .none => none
  | .icrdy _ => none
  | .ocrdy _ => none
  | .iiof x => if iifType s.iif x then none else some (4 * x.val + 2)
  | .tim t => some (tintBit t)

/-- SYNC MODE bit 6: the read is synchronised (R800). -/
def Dma.syncRead (d : Dma) : Bool := d.ctl.getLsbD 6
/-- SYNC MODE bit 7: the write, or the auxiliary half, is synchronised (R800, R805). -/
def Dma.syncWrite (d : Dma) : Bool := d.ctl.getLsbD 7
/-- Autoinitialization reads wait for the READ signal (R808). -/
def Dma.autoSyncRead (d : Dma) : Bool := d.syncRead && d.ctl.getLsbD 10
/-- Autoinitialization reads wait for the WRITE signal (R808). -/
def Dma.autoSyncWrite (d : Dma) : Bool := d.syncWrite && d.ctl.getLsbD 11

/-- How many registers an autoinitialization loads (R806). -/
def Dma.rowLength (d : Dma) : Nat := if d.split then 5 else 7

/-- A channel between transfers in a mode that autoinitializes, with a counter of 0, autoinitializes first (R804,
D33); a row that is complete (`count` at its length) is followed by a read step (R806). -/
def autoPending (len : Nat) (mode : BitVec 2) (cnt : Word) (between : Bool) (auto : Option Autoinit) : Bool :=
  match auto with
  | some a => decide (a.count < len)
  | none => between && decide (2 ≤ mode.toNat) && cnt == 0

/-- The next step of the channel, or of its primary half, belongs to an autoinitialization. -/
def Dma.inAuto (d : Dma) : Bool := autoPending d.rowLength d.mode d.cnt d.tmp.isNone d.auto

/-- The next step of the auxiliary half belongs to an autoinitialization. -/
def Dma.inAuxAuto (d : Dma) : Bool := autoPending 5 d.auxMode d.acnt d.atmp.isNone d.aauto

/-- The channel, or its primary half, has a step to make (R802). DESIGN CHOICE, log entry 61: START 01 makes none, also
where an access has begun and waits at a FIFO, which the quotation of R802 completes. -/
def Dma.active (d : Dma) : Bool := d.start == 3 || (d.start == 2 && d.tmp.isSome)

/-- The auxiliary half has a step to make (R802), by the same choice (log entry 61). -/
def Dma.auxActive (d : Dma) : Bool := d.split && (d.auxStart == 3 || (d.auxStart == 2 && d.atmp.isSome))

/-- The channel waits for its READ signal (R801, R805). -/
def Dma.waitsRead (d : Dma) : Bool := d.active && !d.rl && d.syncRead && d.tmp.isNone

/-- The channel waits for its WRITE signal (R801); between transfers it does so for a synchronised autoinitialization
too (R808), and the auxiliary half for its read (R805, D34). -/
def Dma.waitsWrite (d : Dma) : Bool :=
  if d.split then d.auxActive && !d.wl && d.syncWrite && d.atmp.isNone
  else d.active && !d.wl && d.syncWrite && (d.syncRead || d.tmp.isSome || (d.inAuto && d.autoSyncWrite))

/-- Clear a latched flag, if there is one. -/
def State.clearFlag (s : State) (b : Option Nat) : State :=
  match b with
  | some i => s.setIif i false
  | none => s

/-- One channel latches the signals that it waits for as they stand in `now` (R801). The latch stays until
the step that it guards. -/
def latchChannel (now : State) (s : State) (c : Fin 6) : State :=
  let d := now.dma[c]
  let r := readSignal now.die c
  let w := writeSignal now.die c
  let gotR := d.waitsRead && now.signalOn r
  let gotW := d.waitsWrite && now.signalOn w
  let s := s.setDma c { s.dma[c] with rl := d.rl || gotR, wl := d.wl || gotW }
  let s := if gotR then s.clearFlag (now.signalLatch r) else s
  if gotW then s.clearFlag (now.signalLatch w) else s

/-- Every waiting channel latches its signals and the consumed flags are cleared: steps 3 and 4 of R735. -/
def latchDma (s : State) : State := [0, 1, 2, 3, 4, 5].foldl (latchChannel s) s

/-! ## Transfers -/

/-- The low 24 bits in reverse order. -/
def rev24 (a : Word) : BitVec 24 := (a.extractLsb' 0 24).reverse

/-- Step(A, I, rev) (R794, D32). -/
def dmaNext (a i : Word) (rev : Bool) : Word :=
  if rev then a.extractLsb' 24 8 ++ (rev24 a + rev24 i).reverse else a + i

/-- The channel changes its own START field (R803, R804). -/
def Dma.halt (d : Dma) : Dma := { d with ctl := setBit (setBit d.ctl 23 true) 22 false }

/-- The channel changes its own AUX START field. -/
def Dma.auxHalt (d : Dma) : Dma := { d with ctl := setBit (setBit d.ctl 25 true) 24 false }

/-- The DMA interrupt of a channel (R803). -/
def dmaInt (c : Fin 6) (on : Bool) (s : State) : State := if on then s.setIif (25 + c.val) true else s

/-- The end of a block of the channel or its primary half (R803, R804). -/
def blockEnd (c : Fin 6) (s : State) : State :=
  let d := s.dma[c]
  let d1 : Dma := { d with ctl := setBit d.ctl 20 true }
  dmaInt c (d.ctl.getLsbD 18) (s.setDma c (if d.ctl.getLsbD 2 then d1.halt else d1))

/-- The end of a block of the auxiliary half (R803, R804). -/
def auxBlockEnd (c : Fin 6) (s : State) : State :=
  let d := s.dma[c]
  let d1 : Dma := { d with ctl := setBit d.ctl 21 true }
  dmaInt c (d.ctl.getLsbD 19) (s.setDma c (if d.ctl.getLsbD 4 then d1.auxHalt else d1))

/-- The read step of the channel or its primary half (R793, R805). -/
def dmaReadStep (c : Fin 6) (s : State) : Res Unit :=
  (memRead .dma s.dma[c].src s).bind fun v s =>
    let d := s.dma[c]
    .ok () (s.setDma c { d with
      tmp := some v, src := dmaNext d.src d.sidx (d.ctl.getLsbD 12), auto := none,
      rl := if d.syncRead then false else d.rl })

/-- The transfer counter after a write step (R793). -/
def countDown (c : Fin 6) (s : State) : State :=
  let d := s.dma[c]
  let s := s.setDma c { d with cnt := d.cnt - 1 }
  if d.cnt = 1 then blockEnd c s else s

/-- The write of a DMA channel: one that the latch has carried out is complete, one whose word still waits there is
not ready (R786). A channel with START 01 comes to this no more, so its word goes out but its write completes when START
is 11 or 10 (DESIGN CHOICE, log entry 61). -/
def dmaStore (ag : BusAgent) (a v : Word) (s : State) : Res Unit :=
  if s.latch.sent.any (fun l => l.agent == ag) then .ok () { s with latch := s.latch.release ag }
  else if s.latch.waiting.any (fun l => l.agent == ag) then .stall none
  else memWrite .dma ag a v s

/-- The write step of a unified channel (R793). -/
def dmaWriteStep (c : Fin 6) (w : Word) (s : State) : Res Unit :=
  (dmaStore (.primary c) s.dma[c].dst w s).bind fun _ s =>
    let d := s.dma[c]
    .ok () (countDown c (s.setDma c { d with
      tmp := none, dst := dmaNext d.dst d.didx (d.ctl.getLsbD 13), wl := if d.syncWrite then false else d.wl }))

/-- The write step of a primary half: to the output port register (R805). -/
def primaryWriteStep (c : Fin 6) (w : Word) (s : State) : Res Unit :=
  (dmaStore (.primary c) (portOutAddr s.dma[c].comPort) w s).bind fun _ s =>
    .ok () (countDown c (s.setDma c { s.dma[c] with tmp := none }))

/-- The read step of an auxiliary half: from the input port register (R805, D34). -/
def auxReadStep (c : Fin 6) (s : State) : Res Unit :=
  (memRead .dma (portInAddr s.dma[c].comPort) s).bind fun v s =>
    let d := s.dma[c]
    .ok () (s.setDma c { d with atmp := some v, aauto := none, wl := if d.syncWrite then false else d.wl })

/-- The write step of an auxiliary half (R805). -/
def auxWriteStep (c : Fin 6) (w : Word) (s : State) : Res Unit :=
  (dmaStore (.auxiliary c) s.dma[c].dst w s).bind fun _ s =>
    let d := s.dma[c]
    let s := s.setDma c { d with
      atmp := none, dst := dmaNext d.dst d.didx (d.ctl.getLsbD 13), acnt := d.acnt - 1 }
    .ok () (if d.acnt = 1 then auxBlockEnd c s else s)

/-! ## Autoinitialization (R806 to R808) -/

/-- The registers that an autoinitialization loads. -/
inductive DmaReg where
  | ctl | src | sidx | cnt | dst | didx | lnk | acnt | alnk
  deriving DecidableEq, Repr

/-- The row of a unified channel, of a primary half (R806). -/
def autoRow (split : Bool) : List DmaReg :=
  if split then [.ctl, .src, .sidx, .cnt, .lnk] else [.ctl, .src, .sidx, .cnt, .dst, .didx, .lnk]

/-- The row of an auxiliary half (R806). -/
def auxRow : List DmaReg := [.ctl, .dst, .didx, .acnt, .alnk]

/-- A loaded register; the control word waits for the end of the row (R807). -/
def Dma.load (d : Dma) (r : DmaReg) (v : Word) : Dma :=
  match r with
  | .ctl => d
  | .src => { d with src := v }
  | .sidx => { d with sidx := v }
  | .cnt => { d with cnt := v }
  | .dst => { d with dst := v }
  | .didx => { d with didx := v }
  | .lnk => { d with lnk := v }
  | .acnt => { d with acnt := v }
  | .alnk => { d with alnk := v }

/-- The bits of a loaded control word that count: all in unified mode, the auxiliary ones for an auxiliary half, the
others for a primary one (R807, D35). -/
def autoBits (split aux : Bool) : Word :=
  if !split then 0xFFFFFFFF#32 else if aux then 0x030BEAB0#32 else 0xFCF4154F#32

/-- The bits of the control register that an autoinitialization may change: the writable ones among them (R807). -/
def autoMask (split aux : Bool) : Word := autoBits split aux &&& 0x43CFFFFF#32

/-- A loaded control word over the running one, whose protected bits stay (R807). -/
def autoCtl (bits v ctl : Word) : Word := (v &&& bits) ||| (ctl &&& ~~~bits)

/-- The loaded control word takes effect (R807). -/
def Dma.applyCtl (d : Dma) (mask v : Word) : Dma :=
  Dma.applyStart { d with ctl := autoCtl mask v d.ctl }

/-- A control word that autoinitialization may not load: it differs in bits 11-8 (U18), or the bits of it that
count hold a reserved code (U17; DEDUCED, log entry 39). -/
def autoRefusal (c : Fin 6) (aux : Bool) (d : Dma) (r : DmaReg) (v : Word) : Option Refusal :=
  match r with
  | .ctl =>
    if v.extractLsb' 8 4 ≠ d.ctl.extractLsb' 8 4 then some .autoinitControl
    else if ctlReserved c (autoCtl (autoBits d.split aux) v d.ctl) then some .dmaControlCode
    else none
  | .src => none
  | .sidx => none
  | .cnt => none
  | .dst => none
  | .didx => none
  | .lnk => none
  | .acnt => none
  | .alnk => none

/-- The progress after a loaded word; `v` is the control word that counts where the register is CTL. -/
def Autoinit.advance (a : Autoinit) (r : DmaReg) (v : Word) (isStatic : Bool) : Autoinit :=
  { count := a.count + 1, ptr := if isStatic then a.ptr else a.ptr + 1, ctl := if r = .ctl then v else a.ctl }

/-- One word of the autoinitialization of a channel or its primary half (R806); the latches of its synchronisation
are consumed (R808). The load goes over the peripheral bus, which a word that waits in its latch holds (R786). -/
def autoinitStep (c : Fin 6) (s : State) : Res Unit :=
  if busHeld s then .stall none else
  let d0 := s.dma[c]
  let a := d0.auto.getD { count := 0, ptr := d0.lnk, ctl := d0.ctl }
  let row := autoRow d0.split
  let reg := row.getD a.count .ctl
  (memRead .dma a.ptr s).bind fun v s =>
    match autoRefusal c false d0 reg v with
    | some x => refuse x
    | none =>
      let a := a.advance reg (autoCtl (autoBits d0.split false) v d0.ctl) (d0.ctl.getLsbD 8)
      let d := s.dma[c].load reg v
      let d := { d with
        auto := some a
        rl := if d0.autoSyncRead then false else d.rl
        wl := if d0.autoSyncWrite && !d0.split then false else d.wl }
      if a.count < row.length then .ok () (s.setDma c d)
      else
        let d := d.applyCtl (autoMask d0.split false) a.ctl
        .ok () (s.setDma c { d with
          auto := if d.cnt = 0 ∧ d.auto.isSome then some { a with count := 7 } else none })

/-- One word of the autoinitialization of an auxiliary half (R806). -/
def auxAutoinitStep (c : Fin 6) (s : State) : Res Unit :=
  if busHeld s then .stall none else
  let d0 := s.dma[c]
  let a := d0.aauto.getD { count := 0, ptr := d0.alnk, ctl := d0.ctl }
  let reg := auxRow.getD a.count .ctl
  (memRead .dma a.ptr s).bind fun v s =>
    match autoRefusal c true d0 reg v with
    | some x => refuse x
    | none =>
      let a := a.advance reg (autoCtl (autoBits d0.split true) v d0.ctl) (d0.ctl.getLsbD 9)
      let d := s.dma[c].load reg v
      let d := { d with aauto := some a, wl := if d0.autoSyncWrite then false else d.wl }
      if a.count < auxRow.length then .ok () (s.setDma c d)
      else
        let d := d.applyCtl (autoMask d0.split true) a.ctl
        .ok () (s.setDma c { d with
          aauto := if d.acnt = 0 ∧ d.aauto.isSome then some { a with count := 7 } else none })

/-! ## The step of a channel -/

/-- The address of the next word of an autoinitialization (R806). -/
def Dma.autoPtr (d : Dma) : Word := (d.auto.getD { count := 0, ptr := d.lnk, ctl := d.ctl }).ptr

/-- The latches that an autoinitialization read needs (R808). -/
def Dma.autoReady (d : Dma) : Bool :=
  (!d.autoSyncRead || d.rl) && (d.split || !d.autoSyncWrite || d.wl)

/-- A FIFO access that R801 never starts: a read that ICRDY synchronises, of an input FIFO that is empty. -/
def readHeld (sync : Bool) (c : Fin 6) (a : Word) (s : State) : Bool :=
  sync && (readSignal s.die c).isIcrdy &&
    [0, 1, 2, 3, 4, 5].any fun x : Fin 6 => a == portInAddr x && !s.ports[x].icrdy

/-- A FIFO access that R801 never starts: a write that OCRDY synchronises, to an output FIFO that is full. A write whose
word has been in the latch has started before (R786). -/
def writeHeld (sync : Bool) (c : Fin 6) (a : Word) (s : State) : Bool :=
  sync && (writeSignal s.die c).isOcrdy && !s.latch.has (.primary c) &&
    [0, 1, 2, 3, 4, 5].any fun x : Fin 6 => a == portOutAddr x && !s.ports[x].ocrdy

/-- The next step of a channel, or of its primary half, where one is allowed (R793, R800, R802, R804, R805). A
synchronised step starts with its latch set, and one that ICRDY or OCRDY synchronises not on a FIFO that another
agent has emptied or filled since (R801; log entry 57). -/
def dmaStep (c : Fin 6) (s : State) : Res Unit :=
  let d := s.dma[c]
  if !d.active then .ok () s
  else match d.tmp with
    | some w =>
      if d.split then primaryWriteStep c w s
      else if (!d.syncWrite || d.wl) && !writeHeld d.syncWrite c d.dst s then dmaWriteStep c w s
      else .ok () s
    | none =>
      if d.inAuto then
        (if d.autoReady && !readHeld d.autoSyncRead c d.autoPtr s then autoinitStep c s else .ok () s)
      else if (!d.syncRead || d.rl) && !readHeld d.syncRead c d.src s then dmaReadStep c s
      else .ok () s

/-- The next step of the auxiliary half of a split channel (R805). Its signal is that of the WRITE field, which
is never ICRDY (R52, R53), so its read of an empty FIFO starts and waits (R786, R805). -/
def dmaAuxStep (c : Fin 6) (s : State) : Res Unit :=
  let d := s.dma[c]
  if !d.auxActive then .ok () s
  else match d.atmp with
    | some w => auxWriteStep c w s
    | none =>
      if d.inAuxAuto then (if !d.autoSyncWrite || d.wl then auxAutoinitStep c s else .ok () s)
      else if !d.syncWrite || d.wl then auxReadStep c s
      else .ok () s

end Sys2Proof.Machine
end

