-- ==== Sys2Proof/Machine/Interrupts.lean ====
section
/-! DEFINITION. The boundary between two instructions: hardware events, the interrupt controller and the choice of
what comes next (60_exceptions.md R705 to R735; 00_scope.md R6). -/

namespace Sys2Proof.Machine

/-! ## Requests, enables and priority (R705, R708) -/

/-- The port of an interrupt number 0Dh to 24h (R703). -/
def irqPort (k : Nat) : Fin 6 := Fin.ofNat 6 ((k - 13) / 4)

/-- The signal of a port interrupt (R703, R785). -/
def irqPortSignal (k : Nat) (p : Port) : Bool :=
  match (k - 13) % 4 with
  | 0 => p.icfull
  | 1 => p.icrdy
  | 2 => p.ocrdy
  | _ => p.ocempty

/-- The pin of an interrupt number 03h to 06h (R703). -/
def irqPin (k : Nat) : Fin 4 := Fin.ofNat 4 (k - 3)

/-- req(k) (R705). -/
def State.irqReq (s : State) (k : Nat) : Bool :=
  if k = 1 then s.iif.getLsbD 16
  else if k = 2 then s.iif.getLsbD 24
  else if k < 7 then iifFunc s.iif (irqPin k) && s.iifFlag (irqPin k)
  else if k < 37 then irqPortSignal k s.ports[irqPort k]
  else if k < 43 then s.iif.getLsbD (k - 12)
  else s.iif.getLsbD 31

/-- en(k) (R705). -/
def State.irqEn (s : State) (k : Nat) : Bool :=
  if k = 1 then true
  else if k = 2 then s.iie.getLsbD 0
  else if k < 7 then s.iif.getLsbD (4 * (k - 3) + 3)
  else if k < 43 then s.iie.getLsbD (k - 12)
  else s.iie.getLsbD 31

/-- The IIF bit that taking interrupt k clears, if its request is latched (R705, R707). -/
def State.irqLatch (s : State) (k : Nat) : Option Nat :=
  if k = 1 then some 16
  else if k = 2 then some 24
  else if k < 7 then (if iifType s.iif (irqPin k) then none else some (4 * (k - 3) + 2))
  else if k < 37 then none
  else if k < 43 then some (k - 12)
  else some 31

/-- The sources in order of priority (R703, R708). -/
def irqTable : List Nat := [1, 2, 3, 4, 5, 6] ++ (List.range 31).map (· + 13)

/-- k is a candidate (R709). -/
def State.irqCand (s : State) (k : Nat) : Bool := s.irqReq k && s.irqEn k && (k == 1 || s.stBit 13)

/-- The smallest candidate (R708, R709). -/
def State.irqChoice (s : State) : Option Nat := irqTable.find? s.irqCand

/-- No interrupt is taken here (R709, R712, R713, R786); the boot loader is one operation (D36). -/
def State.irqBlocked (s : State) : Bool :=
  s.delay.isSome || (s.stBit 8 && s.sFlag) || s.stalled || s.boot.isSome

/-! ## Events (R6, R706) -/

/-- A level on NMI_; a falling edge sets the latch (R57, R706). -/
def nmiEvent (level : Bool) (s : State) : State :=
  let fall := s.pins.nmi && !level
  let s := { s with pins := { s.pins with nmi := level } }
  if fall then s.setIif 16 true else s

/-- A level on an IIOF pin; a falling edge on an edge-triggered interrupt pin sets its flag (R56, R706). -/
def iiofEvent (x : Fin 4) (level : Bool) (s : State) : State :=
  let fall := s.pins.iiof[x] && !level
  let s := { s with pins := { s.pins with iiof := s.pins.iiof.set x level } }
  if fall && iifFunc s.iif x && !iifType s.iif x then s.setIif (4 * x.val + 2) true else s

/-- Another master writes a word of external memory (R107). -/
def masterWrite (a w : Word) (s : State) : State :=
  if (bus s.romen a).isSome then { s with mem := Memory.setWord s.mem a w } else s

/-- The bus enable inputs change (R126). -/
def busPinsEvent (isGlobal : Bool) (p : BusPins) (s : State) : State :=
  if isGlobal then { s with pins := { s.pins with globalBus := p } }
  else { s with pins := { s.pins with localBus := p } }

/-- A step of an agent that is not the CPU: where its access is not ready, only the latch may change (R786). -/
def agentStep (r : Res Unit) (s : State) : Res Unit :=
  match r with
  | .ok _ t => .ok () t
  | .stall l => .ok () { s with latch := s.latch.take l }
  | .stop x => .stop x

/-- One hardware event; an event whose guard does not hold does nothing. -/
def applyEvent (e : Event) (s : State) : Res Unit :=
  match e with
  | .reset => resetEvent s
  | .nmiPin level => .ok () (nmiEvent level s)
  | .iiofPin x level => .ok () (iiofEvent x level s)
  | .tclkPin t level => .ok () (tclkEvent t level s)
  | .h1 t => .ok () (timerH1 t s)
  | .deliver x w => .ok () (portDeliver x w s)
  | .accept x => .ok () (portAccept x s)
  | .takeToken x => .ok () (portTakeToken x s)
  | .giveToken x => .ok () (portGiveToken x s)
  | .extWrite a w => .ok () (masterWrite a w s)
  | .busPins g p => .ok () (busPinsEvent g p s)
  | .dma c => agentStep (dmaStep c s) s
  | .dmaAux c => agentStep (dmaAuxStep c s) s

/-- The events of a boundary in order. -/
def applyEvents : List Event → State → Res Unit
  | [], s => .ok () s
  | e :: t, s => (applyEvent e s).bind fun _ s => applyEvents t s

/-! ## The boundary (R709, R734, R735) -/

/-- Taking interrupt k (R730). Where the push or the vector read has to wait at a peripheral address, the request stays
(log entry 19): its flag is set again. DESIGN CHOICE, log entry 56: that is so too where a DMA channel consumed the flag
at the same boundary (R735), so that the flag may serve a channel a second time before the entry is complete. DESIGN
CHOICE, log entry 60: an entry that waits is not committed. The next boundary chooses anew, so another source or the
next instruction may come first, while the pushed word still goes out. -/
def takeInterrupt (k : Nat) (latched : Option Nat) (s : State) : Res Unit :=
  match enterException s.pc (s.ivtp + BitVec.ofNat 32 k) (s.clearFlag latched) with
  | .ok _ t => .ok () { t with idle := false }
  | .stall l =>
    let s := match latched with
      | some i => s.setIif i true
      | none => s
    agentStep (.stall l) s
  | .stop x => .stop x

/-- The boundary behind the end of the script: every agent that can move moves once, and nothing is postponed (R15;
the rate is DESIGN CHOICE, log entry 9). -/
def fairBoundary : Boundary :=
  { events := [.h1 0, .h1 1, .dma 0, .dma 1, .dma 2, .dma 3, .dma 4, .dma 5, .dmaAux 0, .dmaAux 1, .dmaAux 2,
      .dmaAux 3, .dmaAux 4, .dmaAux 5]
    defer := false }

/-- The next boundary (R6, R15). -/
def State.boundary (s : State) : Boundary := s.script.headD fairBoundary

/-- The state at the start of a step: its boundary is taken from the script, and no interface has yet made an access
in it (R125). -/
def State.opened (s : State) : State :=
  { s with script := s.script.tail, pins := { s.pins with stat := 15, lstat := 15 } }

/-- The CPU begins an instruction: unless it goes on with one that waits, no access of the CPU is in the latch
(R786). -/
def State.cpuStart (s : State) : State := if s.stalled then s else { s with latch := s.latch.release .cpu }

/-- Everything at a boundary but the next instruction: the events, the CPU's choice, the DMA latches, and the
interrupt, the idle state or the boot loader. `true` if the CPU executes no instruction now. -/
def atBoundary (s : State) : Res Bool :=
  (applyEvents s.boundary.events s.opened).bind fun _ t =>
    let choice := if t.irqBlocked || s.boundary.defer then none else t.irqChoice
    let u := latchDma t
    match choice with
    | some k => (takeInterrupt k (t.irqLatch k) u).bind fun _ u => .ok true u
    | none =>
      match u.boot with
      | some p => (agentStep (bootStep p u) u).bind fun _ u => .ok true u
      | none => if u.idle then .ok true u else .ok false u.cpuStart

end Sys2Proof.Machine
end

