-- ==== Sys2Proof/Machine/Run.lean ====
section
/-! DEFINITION. One instruction: its fetch, its decoding, its placement, its meaning and what follows it
(00_scope.md R7). -/

namespace Sys2Proof.Machine

/-- The word of the next instruction: the one that the instruction register holds, where the CPU repeats or waits
(R530, R786), else the word at the pc (R109). -/
def fetchWord (s : State) : Res Word := if s.held then .ok s.ir s else instrFetch s.pc s

/-- Run an instruction: refuse it where it may not stand (U3), else its meaning and what follows. -/
def runInstr (i : Instr) (s : State) : Host.Outcome State Fault Refusal :=
  match placement i s with
  | some r => .refused r
  | none => retireOutcome s (exec i s)

/-- Run an instruction word (R160, U6). -/
def runWord (w : Word) (s : State) : Host.Outcome State Fault Refusal :=
  match decode w with
  | .error e => .refused (.illegalEncoding e)
  | .ok i => runInstr i { s with ir := w }

/-- The next instruction. -/
def runNext (s : State) : Host.Outcome State Fault Refusal :=
  match fetchWord s with
  | .ok w t => runWord w t
  | .stall _ => .next s
  | .stop x => .refused x

/-- A boundary, and the next instruction where the CPU executes one. -/
def advance (s : State) : Host.Outcome State Fault Refusal :=
  match atBoundary s with
  | .ok true t => .next t
  | .ok false t => runNext t
  | .stall _ => .next s
  | .stop x => .refused x

/-- A program word placed where the next step fetches: in the instruction register and in the memory at the pc
(log entry 8). -/
def placeWord (w : Word) (s : State) : State :=
  { s with mem := Memory.setWord s.mem s.pc w, ir := w, boot := none, idle := false }

end Sys2Proof.Machine
end

