-- ==== Sys2Proof/Machine/Step.lean ====
section
/-! DEFINITION. The step of the machine, and the placement of its next instruction. -/

namespace Sys2Proof.Machine

/-- One step (R6, R7): the boundary, then the next instruction. -/
def step (s : State) : Host.Outcome State Fault Refusal := advance s

/-- The state whose next instruction is the word `w`: every instruction is one word (R160). -/
def State.withFetchWord (s : State) (nbits w : Nat) : State := placeWord (BitVec.ofNat 32 (w % 2 ^ nbits)) s

end Sys2Proof.Machine
end

