-- ==== Sys2Proof/Safety.lean ====
section
/-! DEFINITION. What counts as a legal state and as a safe step: the terms of the claims. -/

namespace Sys2Proof

/-! ## The memory operands of an instruction -/

/-- A type 2 operand as a memory operand (R165). -/
def Disp5.mem (d : Disp5) : Mem := .ind (.pre false false (.disp (d.disp.setWidth 8)) d.n)

/-- The memory operands of a source. -/
def Src.mems : Src → List Mem
  | .reg _ => []
  | .dir a => [.dir a]
  | .ind i => [.ind i]
  | .imm _ => []

/-- The memory operands of a source. -/
def FSrc.mems : FSrc → List Mem
  | .reg _ => []
  | .dir a => [.dir a]
  | .ind i => [.ind i]
  | .imm _ => []

/-- The memory operands of a source. -/
def RSrc.mems : RSrc → List Mem
  | .reg _ => []
  | .dir a => [.dir a]
  | .ind i => [.ind i]

/-- The memory operands of a source. -/
def FRSrc.mems : FRSrc → List Mem
  | .reg _ => []
  | .dir a => [.dir a]
  | .ind i => [.ind i]

/-- The memory operands of two sources. -/
def Ops3.mems : Ops3 → List Mem
  | .rr _ _ => []
  | .ir i _ => [.ind i]
  | .ri _ i => [.ind i]
  | .ii i j => [.ind i, .ind j]
  | .rk _ _ => []
  | .rd _ d => [d.mem]
  | .dk d _ => [d.mem]
  | .dd d e => [d.mem, e.mem]

/-- The memory operands of two sources. -/
def FOps3.mems : FOps3 → List Mem
  | .rr _ _ => []
  | .ir i _ => [.ind i]
  | .ri _ i => [.ind i]
  | .ii i j => [.ind i, .ind j]
  | .rd _ d => [d.mem]
  | .dd d e => [d.mem, e.mem]

/-- The auxiliary register that an addressing mode modifies (R171 to R197). -/
def Ind.moves : Ind → List Reg
  | .pre _ modify _ n => if modify then [.ar n] else []
  | .post _ _ _ n => [.ar n]
  | .plain _ => []
  | .bitRev n => [.ar n]

/-- The auxiliary register that a memory operand modifies. -/
def Mem.moves : Mem → List Reg
  | .dir _ => []
  | .ind i => i.moves

end Sys2Proof

namespace Sys2Proof.Machine

/-- A delayed branch waits for one, two or three slots (R497). -/
def delayOk (d : Option Delay) : Bool :=
  match d with
  | some d => decide (1 ≤ d.left) && decide (d.left ≤ 3)
  | none => true

/-- The stored bits of a timer's control register are its R/W bits (R776). -/
def timerOk (m : Timer) : Bool := m.ctl &&& 0x7C7#32 == m.ctl

/-- The queues of a port hold at most eight words (R781). -/
def portOk (p : Port) : Bool := decide (p.inq.length ≤ 8) && decide (p.outq.length ≤ 8)

/-- No reserved code of DMA PRI or COM PORT (R791, U17). -/
def codesOk (v : Word) : Bool := v.extractLsb' 0 2 != 2#2 && decide ((v.extractLsb' 15 3).toNat < 6)

/-- The control word that waits for the end of an autoinitialization holds no reserved code (R807, U17). -/
def autoOk (a : Option Autoinit) : Bool :=
  match a with
  | some a => codesOk a.ctl
  | none => true

/-- The stored bits of a DMA control register are its R/W bits and its flags, and no reserved code is among them
(R791, U17). -/
def dmaOk (d : Dma) : Bool :=
  d.ctl &&& 0x43FFFFFF#32 == d.ctl && codesOk d.ctl && autoOk d.auto && autoOk d.aauto

/-- A legal state: the memory is canonical; the reserved bits of ST, IIF, IVTP, TVTP, GMICR, LMICR and of the
peripheral registers read as the spec says; the LRU stack names every segment once; no queue is longer than its
FIFO. -/
structure State.Legal (s : State) : Prop where
  mem : Memory.wf s.mem = true
  st : s.stBit 12 = false
  iif : s.iif &&& 0x00FE0000#32 = 0
  ivtp : s.ivtp &&& 0x1FF#32 = 0
  tvtp : s.tvtp &&& 0x1FF#32 = 0
  gmicr : s.gmicr &&& 0xC000000F#32 = 0
  lmicr : s.lmicr &&& 0xC000000F#32 = 0
  lru : s.cache.lru.Perm [0, 1, 2, 3]
  delay : delayOk s.delay = true
  timers : ∀ t : Fin 2, timerOk s.timers[t] = true
  ports : ∀ x : Fin 6, portOk s.ports[x] = true
  dma : ∀ c : Fin 6, dmaOk s.dma[c] = true

/-- The state after an instruction that began in `s`, left `u` and goes on in sequence. -/
def State.after (s u : State) : State := { u with pc := s.pc + 1, stalled := false, held := false }

/-! ## Frames -/

/-- The address of a memory operand. -/
def State.memAddr (s : State) (m : Mem) : Word :=
  match m with
  | .dir a => dirAddr a s
  | .ind i => indAddr i s

/-- The registers that the memory operands of an instruction modify. -/
abbrev movesOf (l : List Mem) : List Reg := l.flatMap Mem.moves

/-- The addresses of the memory operands of an instruction. -/
abbrev addrsOf (s : State) (l : List Mem) : List Word := l.map s.memAddr

/-- The state after two indirect operands changed their auxiliary registers: `hi` left `x` and `lo` left `y`. The
register of the operand in bits 15-8 is as `hi` left it, whatever `lo` did to it (R166, R167, decision D10, log entry
21). -/
def State.moveBoth (s : State) (hi : Ind) (x y : State) : State :=
  { s with ar := Vector.ofFn fun n => if n = indAr hi then x.ar[n] else y.ar[n] }

/-- The state at the first slot of a delayed instruction at `s` that left `u` (R497). -/
def State.slots (s u : State) (target : Option Word) (annul : Bool) : State :=
  s.after { u with delay := some { target := target, left := 3, annul := annul, kind := .branch } }

/-- The state at `p` after a flush of the pipeline: a jump that is done. -/
def State.goto (u : State) (p : Word) : State := { u with pc := p, unflushed := 0, stalled := false, held := false }

/-- ST after an exception is taken: PGIE ← GIE, PCF ← CF, GIE ← 0, CF ← 1 (R730). -/
def enteredStatus (st : BitVec 16) : BitVec 16 :=
  (st &&& 0x99FF#16) ||| 0x0400#16 ||| (if st.getLsbD 13 then 0x4000#16 else 0) |||
    (if st.getLsbD 10 then 0x0200#16 else 0)

/-- ST after a return from an exception: GIE ← PGIE, CF ← PCF (R520). -/
def returnedStatus (st : BitVec 16) : BitVec 16 :=
  (st &&& 0xDBFF#16) ||| (if st.getLsbD 14 then 0x2000#16 else 0) ||| (if st.getLsbD 9 then 0x0400#16 else 0)

/-! ## Floating-point values -/

/-- Val: the number that a floating-point datum denotes (R232). -/
def valueOf (a : Ext) : ℚ := if expo a = -128 then 0 else mant a * 2 ^ (expo a - 31)

/-- The number that an IEEE single-precision word with an exponent of 1 to 254 denotes (R236). -/
def ieeeValue (w : Word) : ℚ :=
  (if w.msb then -1 else 1) * (2 ^ 23 + (w.extractLsb' 0 23).toNat) * 2 ^ ((w.extractLsb' 23 8).toNat - 150 : ℤ)

/-- `x` is the result of an exact value `v` (R238, R248): of 0, zero; above the range, the largest value of its sign
with overflow; nearer to 0 than the least value, zero with underflow; else the largest value of the format that is not
above `v` and has its exponent. -/
structure ResultOf (v : ℚ) (x : FRes) : Prop where
  zero : v = 0 → x = { r := 0x8000000000#40, ovf := false, unf := false }
  above : 2 ^ 128 ≤ v → x = { r := 0x7F7FFFFFFF#40, ovf := true, unf := false }
  below : v < -2 ^ 128 → x = { r := 0x7F80000000#40, ovf := true, unf := false }
  small : v ≠ 0 → v < 2 ^ (-127 : ℤ) → -2 ^ (-127 : ℤ) ≤ v → x = { r := 0x8000000000#40, ovf := false, unf := true }
  inside : (2 ^ (-127 : ℤ) ≤ v ∧ v < 2 ^ 128 ∨ -2 ^ 128 ≤ v ∧ v < -2 ^ (-127 : ℤ)) →
    x.ovf = false ∧ x.unf = false ∧ expo x.r ≠ -128 ∧ valueOf x.r ≤ v ∧ v < valueOf x.r + 2 ^ (expo x.r - 31)

/-- v(man): the number that the mantissa of a floating-point datum denotes (R232, R246). -/
def manValue (a : Ext) : ℚ := mant a / 2 ^ 31

/-- The difference of two values, of which the one with the smaller exponent lost the bits that do not fit (R241,
decision D27, log entry 27). -/
def alignedDiff (x y : Ext) : ℚ :=
  let e := max (expo x) (expo y)
  let part (a : Ext) : ℤ := if expo a = -128 then 0 else ⌊(mant a : ℚ) * 2 ^ (expo a - e)⌋
  (part x - part y) * 2 ^ (e - 31)

/-- `f` compares `x` with `y` (R48, R362): N is the order and Z the equality of the two numbers, V and UF are those of
the difference, C stays. -/
structure CompareFlags (x y : Ext) (f : FlagRes) : Prop where
  n : f.n = decide (valueOf x < valueOf y)
  z : f.z = decide (valueOf x = valueOf y)
  c : f.c = none
  range : ∃ r : FRes, ResultOf (alignedDiff x y) r ∧ f.v = r.ovf ∧ f.uf = r.unf

/-! ## Results by wide arithmetic -/

/-- The flags of a value that is moved or computed without overflow: C stays. -/
def plainFlags (v : Word) : FlagRes := { n := v.msb, z := v == 0, v := false, uf := false, c := none }

/-- The flags of a floating-point result (R41): C stays. -/
def resultFlags (x : FRes) : FlagRes :=
  { n := x.r.getLsbD 31, z := fIsZero x.r, v := x.ovf, uf := x.unf, c := none }

/-- ABSI (R355): N is 0. -/
def absResult (ovm : Bool) (a : Word) : IRes :=
  let v := if a = 0x80000000#32 then (if ovm then 0x7FFFFFFF#32 else 0x80000000#32) else if a.msb then -a else a
  { v := v, f := { n := false, z := v == 0, v := a == 0x80000000#32, uf := false, c := none } }

/-- ABSF (R354): N is 0. -/
def absFloatFlags (a : Ext) : FlagRes :=
  { n := false, z := fIsZero (fAbs a).r, v := (fAbs a).ovf, uf := false, c := none }

/-- FIX (R364). -/
def fixResult (a : Ext) : IRes :=
  { v := (fFix a).1, f := { n := (fFix a).1.msb, z := (fFix a).1 == 0, v := (fFix a).2, uf := false, c := none } }

/-- A 34-bit signed result as a 32-bit one: V where the result does not fit, saturated with OVM = 1 (R42, R353);
N and Z of the value written, of a wrapped one too (decision D12, log entry 26). -/
def narrow (ovm : Bool) (w : BitVec 34) (c : Option Bool) : IRes :=
  let out := w.extractLsb' 0 32
  let ovf := out.signExtend 34 != w
  let v := if ovm && ovf then (if w.msb then 0x80000000#32 else 0x7FFFFFFF#32) else out
  { v := v, f := { n := v.msb, z := v == 0, v := ovf, uf := false, c := c } }

/-- A carry or borrow as a wide number. -/
def bitAs (n : Nat) (b : Bool) : BitVec n := (BitVec.ofBool b).setWidth n

/-- `x + y + c`; C is the carry out of bit 31 (R41). -/
def wideSum (ovm : Bool) (x y : Word) (c : Bool) : IRes :=
  narrow ovm (x.signExtend 34 + y.signExtend 34 + bitAs 34 c)
    (some (x.setWidth 33 + y.setWidth 33 + bitAs 33 c).msb)

/-- `x - y - b`; C is the borrow into bit 31 (R41, R400). -/
def wideDiff (ovm : Bool) (x y : Word) (b : Bool) : IRes :=
  narrow ovm (x.signExtend 34 - y.signExtend 34 - bitAs 34 b)
    (some (x.setWidth 33 - y.setWidth 33 - bitAs 33 b).msb)

/-- The signed 64-bit product. -/
def wideProduct (x y : Word) : BitVec 64 := x.signExtend 64 * y.signExtend 64

/-- The low half of the signed product: overflow where a bit of the high half differs from the sign of the low
one (R371); N and Z of the value written, as in `narrow` (decision D12, log entry 26). -/
def lowProduct (ovm : Bool) (x y : Word) : IRes :=
  let p := wideProduct x y
  let out := p.extractLsb' 0 32
  let ovf := p.extractLsb' 32 32 != (if out.msb then 0xFFFFFFFF#32 else 0#32)
  let v := if ovm && ovf then (if p.msb then 0x80000000#32 else 0x7FFFFFFF#32) else out
  { v := v, f := { n := v.msb, z := v == 0, v := ovf, uf := false, c := none } }

/-- The high half of the signed product; Z looks at the whole product (R372). -/
def highProduct (x y : Word) : IRes :=
  let p := wideProduct x y
  { v := p.extractLsb' 32 32, f := { n := p.msb, z := p == 0, v := false, uf := false, c := none } }

/-- The high half of the unsigned product; N is 0 (R373). -/
def highUnsigned (x y : Word) : IRes :=
  let p : BitVec 64 := x.setWidth 64 * y.setWidth 64
  { v := p.extractLsb' 32 32, f := { n := false, z := p == 0, v := false, uf := false, c := none } }

/-- A value with the flags of a shift or rotate: C is the bit shifted out (R361, R367, R409). -/
def shifted (v : Word) (ovf out : Bool) : IRes :=
  { v := v, f := { n := v.msb, z := v == 0, v := ovf, uf := false, c := some out } }

/-- A 64-bit arithmetic shift of a word, its low 32 bits and its overflow: the count is the signed number in the
seven low bits (R361), beyond 32 either way too (decision D14, log entry 27). -/
def arithShift (d count : Word) : IRes :=
  let k := (count.extractLsb' 0 7).toInt
  if 0 < k then
    let w := d.signExtend 128 <<< k.toNat
    let out := w.extractLsb' 0 32
    shifted out (out.signExtend 128 != w) (w.getLsbD 32)
  else if k < 0 then shifted (d.sshiftRight (-k).toNat) false (d.signExtend 128 |>.getLsbD ((-k).toNat - 1))
  else shifted d false false

/-- A logical shift (R367). -/
def logicalShift (d count : Word) : IRes :=
  let k := (count.extractLsb' 0 7).toInt
  if 0 < k then shifted (d <<< k.toNat) false (if k ≤ 32 then (d.setWidth 64 <<< k.toNat).getLsbD 32 else d.getLsbD 0)
  else if k < 0 then shifted (d >>> (-k).toNat) false (d.getLsbD ((-k).toNat - 1))
  else shifted d false false

/-- No address of the list is in the peripheral space (R101). -/
def State.offPeriph (s : State) (l : List Word) : Prop := ∀ a ∈ l, region s.romen a ≠ .periph

/-- What an instruction leaves as it was: from `s` to `u` only the registers `regs`, the bits `flags` of ST, and
the words at `writes` may change; a read at `reads` or a store at `writes` in the peripheral space may change the
registers there. -/
structure State.Keeps (s u : State) (regs : List Reg) (flags : BitVec 16) (reads writes : List Word) : Prop where
  ext : ∀ n : Fin 12, .r n ∉ regs → u.r[n] = s.r[n]
  reg : ∀ d : Reg, d ≠ .st → d ≠ .iif → d ∉ regs → u.rdI d = s.rdI d
  iif : .iif ∉ regs → s.offPeriph writes → u.iif = s.iif
  st : .st ∉ regs → u.st &&& ~~~flags = s.st &&& ~~~flags
  cache : .st ∉ regs → u.cache = s.cache
  expansion : u.ivtp = s.ivtp ∧ u.tvtp = s.tvtp
  bytes : ∀ k : Nat, (∀ a ∈ writes, k / 4 ≠ a.toNat) → Memory.byte u.mem k = Memory.byte s.mem k
  blocks : s.offPeriph writes →
    u.gmicr = s.gmicr ∧ u.lmicr = s.lmicr ∧ u.timers = s.timers ∧ u.latch = s.latch
  agents : s.offPeriph (reads ++ writes) → u.ports = s.ports ∧ u.dma = s.dma
  inputs : u.pins.nmi = s.pins.nmi ∧ u.pins.iiof = s.pins.iiof ∧ u.pins.tclk = s.pins.tclk ∧
    u.pins.globalBus = s.pins.globalBus ∧ u.pins.localBus = s.pins.localBus ∧
    u.romen = s.romen ∧ u.resetloc = s.resetloc ∧ u.boot = s.boot ∧ u.script = s.script

/-- What an instruction that does not change the program flow also leaves: the S bit, the pending delayed branch,
the running state and the output pins. -/
structure State.Quiet (s u : State) : Prop where
  sFlag : u.sFlag = s.sFlag
  delay : u.delay = s.delay
  idle : u.idle = s.idle
  lock : u.pins.lock = s.pins.lock
  llock : u.pins.llock = s.pins.llock
  iack : u.pins.iack = s.pins.iack

/-- A safe step: the machine goes on, or it waits for another agent; it neither faults nor refuses. -/
def SafeStep (s : State) : Prop := ∃ t, step s = .next t

end Sys2Proof.Machine
end

