-- ==== Sys2Proof/Certificates/Slice0/Obligations.lean ====
section
/-! DEFINITION. The statements for the provers. Each docstring names the rules of spec/ that the statement comes
from. `State.after`, `State.Keeps`, `State.Quiet`, `State.Legal` and the results by wide arithmetic are defined in
Sys2Proof/Safety.lean. -/

open Sys2Proof Sys2Proof.Machine

/-! ## Encoding -/

/-- Decoding the encoding of a well-formed instruction gives the instruction back, and every instruction that the
decoder answers is well formed (R160 to R169, R303, R310, U6). The spec marks most of the operation code bits 'from
general knowledge, not in source'; the statement rests on them as opcode_table.json gives them. -/
def Obligations.DecodeEncode : Prop :=
  (∀ i : Instr, i.wf = true → decode (encode i) = .ok i) ∧
  (∀ (w : Word) (i : Instr), decode w = .ok i → i.wf = true)

/-- Words written out from the encodings (operation codes that the spec marks 'from general knowledge, not in source')
decode to what they stand for: ADDI R1,R2; LDI *AR1++(2),R3; CMPI3 R2,R1; BU R1; CALL 100h; RETIU; IDLE; LDPK 80h; STI
R4,@982Bh; MB2 AR1,AR2; LDII @985Fh,R3; ABSF *++AR3(IR1),R4 || STF R4,*-AR7(1). -/
def Obligations.DecodeWords : Prop :=
  decode 0x02020001#32 = .ok (.addi (.reg (.r 1)) (.r 2)) ∧
  decode 0x08432102#32 = .ok (.ldi (.ind (.post false false (.disp 2) 1)) (.r 3)) ∧
  decode 0x23800102#32 = .ok (.cmpi3 (.rr (.r 1) (.r 2))) ∧
  decode 0x68000001#32 = .ok (.bcond .u (.reg (.r 1))) ∧
  decode 0x62000100#32 = .ok (.call 0x100) ∧
  decode 0x78000000#32 = .ok (.reticond .u) ∧
  decode 0x06000000#32 = .ok .idle ∧
  decode 0x1F700080#32 = .ok (.ldpk 0x80) ∧
  decode 0x1524982B#32 = .ok (.stiDir (.r 4) 0x982B) ∧
  decode 0xB90A0009#32 = .ok (.mb 2 (.reg (.ar 1)) (.ar 2)) ∧
  decode 0x08A3985F#32 = .ok (.ldii (.dir 0x985F) (.r 3)) ∧
  decode 0xC9040F93#32 = .ok (.absfStf 4 4 (.pre true false (.disp 1) 7) (.pre false true .ir1 3))

/-! ## The machine -/

/-- A step runs the decoded instruction (R7, R109, R160): where the boundary leaves the CPU to execute, the fetched
word decodes to an instruction and the instruction may stand where it stands, the step is the instruction's meaning,
with the word in the instruction register, and then what follows every instruction (`retireOutcome`: slots, block
end, repetition). Outside a repeat mode and outside the slots of a delayed instruction nothing follows but the count
of R862 (R352, R497, R531). -/
def Obligations.StepRunsDecoded : Prop :=
  (∀ (s u v : State) (w : Word) (i : Instr),
    atBoundary s = .ok false u → fetchWord u = .ok w v → decode w = .ok i → placement i { v with ir := w } = none →
      step s = retireOutcome { v with ir := w } (exec i { v with ir := w })) ∧
  (∀ before s : State, before.stBit 8 = false → before.delay = none → s.stalled = false → s.stBit 8 = false →
    retireOutcome before (.next s) = .next { s with unflushed := s.unflushed - 1 })

/-- The DMA signals and latches at a boundary, and a boundary at which no interrupt is taken (R51 to R53, R709, R735,
R800, R801). The fields of DIE select a signal for the read and the write of each channel; a port signal counts by the
level of its FIFO, a pin as an interrupt pin alone, low where it is level-triggered, else by its flag, and a timer by
its flag. Each channel latches the signals that it waits for, the latched flags of those signals are cleared, and
nothing else changes. A boundary applies its events in their order; with no interrupt that may be taken, or a postponed
one, no boot loader and not idle, the CPU then executes; before the events the interfaces are idle (R125, log entry 53)
and, unless the CPU goes on with an instruction that waits, no access of the CPU is in the peripheral-bus latch (R786,
log entry 17). -/
def Obligations.QuietBoundary : Prop :=
  (∀ die : Word,
    let two (lo : Nat) (ready : Signal) (pin : Fin 4) : Signal :=
      [Signal.none, ready, .iiof pin, .tim 0].getD (die.extractLsb' lo 2).toNat .none
    let three (lo : Nat) (ready : Signal) : Signal :=
      [Signal.none, ready, .iiof 0, .iiof 1, .iiof 2, .iiof 3, .tim 0, .tim 1].getD (die.extractLsb' lo 3).toNat .none
    readSignal die 0 = two 0 (.icrdy 0) 0 ∧ writeSignal die 0 = two 2 (.ocrdy 0) 1 ∧
    readSignal die 1 = two 4 (.icrdy 1) 2 ∧ writeSignal die 1 = two 6 (.ocrdy 1) 3 ∧
    readSignal die 2 = three 8 (.icrdy 2) ∧ writeSignal die 2 = three 11 (.ocrdy 2) ∧
    readSignal die 3 = three 14 (.icrdy 3) ∧ writeSignal die 3 = three 17 (.ocrdy 3) ∧
    readSignal die 4 = three 20 (.icrdy 4) ∧ writeSignal die 4 = three 23 (.ocrdy 4) ∧
    readSignal die 5 = three 26 (.icrdy 5) ∧ writeSignal die 5 = three 29 (.ocrdy 5)) ∧
  (∀ s : State, s.signalOn .none = false ∧ s.signalLatch .none = none ∧
    (∀ x : Fin 6, s.signalOn (.icrdy x) = decide (1 ≤ s.ports[x].inq.length) ∧ s.signalLatch (.icrdy x) = none ∧
      s.signalOn (.ocrdy x) = decide (s.ports[x].outq.length ≤ 7) ∧ s.signalLatch (.ocrdy x) = none) ∧
    (∀ x : Fin 4, let level := s.iif.getLsbD (4 * x.val + 1)
      s.signalOn (.iiof x) = (s.iif.getLsbD (4 * x.val) &&
        (if level then !s.pins.iiof[x] else s.iif.getLsbD (4 * x.val + 2))) ∧
      s.signalLatch (.iiof x) = if level then none else some (4 * x.val + 2)) ∧
    (∀ t : Fin 2, let j := if t = 0 then 24 else 31
      s.signalOn (.tim t) = s.iif.getLsbD j ∧ s.signalLatch (.tim t) = some j)) ∧
  (∀ s : State,
    let gotR (c : Fin 6) : Bool := s.dma[c].waitsRead && s.signalOn (readSignal s.die c)
    let gotW (c : Fin 6) : Bool := s.dma[c].waitsWrite && s.signalOn (writeSignal s.die c)
    let used (j : Nat) : Prop := ∃ c, gotR c = true ∧ s.signalLatch (readSignal s.die c) = some j ∨
      gotW c = true ∧ s.signalLatch (writeSignal s.die c) = some j
    ∃ i : Word, (∀ j, used j → i.getLsbD j = false) ∧ (∀ j, ¬ used j → i.getLsbD j = s.iif.getLsbD j) ∧
      latchDma s = { s with
        iif := i
        dma := Vector.ofFn fun c =>
          { s.dma[c] with rl := s.dma[c].rl || gotR c, wl := s.dma[c].wl || gotW c } }) ∧
  (∀ s : State, applyEvents [] s = .ok () s ∧ ∀ (e : Event) (es : List Event) (t : State),
    applyEvent e s = .ok () t → applyEvents (e :: es) s = applyEvents es t) ∧
  (∀ (s t : State) (b : Boundary) (l : List Boundary), s.script = b :: l →
    applyEvents b.events { s with script := l, pins := { s.pins with stat := 15, lstat := 15 } } = .ok () t →
    (t.irqBlocked = true ∨ b.defer = true ∨ t.irqChoice = none) → t.boot = none → t.idle = false →
    atBoundary s = .ok false
      { latchDma t with latch := if t.stalled then t.latch else t.latch.release .cpu }) ∧
  (∀ (s : State) (l : List Boundary), s.script = { events := [], defer := false } :: l →
    (s.irqBlocked = true ∨ s.irqChoice = none) → s.boot = none → s.idle = false →
    atBoundary s = .ok false
      { latchDma { s with script := l, pins := { s.pins with stat := 15, lstat := 15 } } with
        latch := if s.stalled then s.latch else s.latch.release .cpu })

/-- A step keeps the invariant `State.Legal` (R21, R40, R49, R55, R61, R62, R100, R121, R130, R497, R776, R781,
R791): canonical memory, reserved bits as the spec says they read, a permutation in the LRU stack, queues within
their FIFOs. -/
def Obligations.StepKeepsLegal : Prop := ∀ s t : State, s.Legal → step s = .next t → t.Legal

/-- The state after reset is legal: with the values of R850 and, where the spec gives none, those that the log
entries 5, 6, 7 and 10 choose. -/
def Obligations.ResetLegal : Prop := State.reset.Legal

/-- The reset event, in any state: what R850 says it writes, the output pins of R853, and the pc from the vector that
RESETLOC selects (R851); the model's own fields for a repetition, for delay slots and for IDLE are cleared too
(decision D2, log entry 10). With ROMEN = 1 and RESETLOC = 00 the boot loader runs (R856), modelled by its contract
(R857, decision D36, log entry 44): it takes the source of the program from the IIOF pins, the first word of a memory as
its width, and of the stream the words for GMICR and LMICR, the blocks up to a size of 0, IVTP, TVTP and the address
that it reads with IACK_ low; it ends at the first address of the first block with the registers that its listing
leaves (R858). -/
def Obligations.ResetWrites : Prop :=
  (∀ s t : State, resetEvent s = .ok () t →
    t.st = 0 ∧ t.iie = 0 ∧ t.iif = 0 ∧ t.die = 0 ∧ t.ivtp = 0 ∧ t.tvtp = 0 ∧
    t.gmicr = 0x3E39FFF0 ∧ t.lmicr = 0x3E39FFF0 ∧ t.sFlag = false ∧ t.delay = none ∧ t.idle = false ∧
    (∀ i : Fin 2, t.timers[i].ctl = 0 ∧ t.timers[i].counter = 0 ∧ t.timers[i].period = 0) ∧
    (∀ x : Fin 6, t.ports[x].inq = [] ∧ t.ports[x].outq = [] ∧ t.ports[x].ich = false ∧ t.ports[x].och = false ∧
      t.ports[x].token = decide (x.val ≤ 2)) ∧
    (∀ c : Fin 6, t.dma[c].ctl = 0 ∧ t.dma[c].cnt = 0 ∧ t.dma[c].acnt = 0) ∧
    (∀ g : Fin 4, t.cache.segs[g].p = 0) ∧ t.cache.lru = [0, 1, 2, 3] ∧
    t.pins.lock = true ∧ t.pins.llock = true ∧ t.pins.iack = true ∧
    (resetState s).pins.stat = 15 ∧ (resetState s).pins.lstat = 15 ∧
    t.boot = (if s.romen = true ∧ s.resetloc = 0 then some .start else none) ∧
    ∃ u, dataRead (if s.resetloc = 0 then 0 else if s.resetloc = 1 then 0x7FFFFFFF
      else if s.resetloc = 2 then 0x80000000 else 0xFFFFFFFF) (resetState s) = .ok t.pc u) ∧
  (∀ (s t : State) (p : BootPhase) (l : List Boundary), s.script = { events := [], defer := false } :: l →
    s.boot = some p →
    bootStep p (latchDma { s with script := l, pins := { s.pins with stat := 15, lstat := 15 } }) = .ok () t →
      step s = .next t) ∧
  (∀ s : State,
    let go (u : State) (p : BootPhase) : Res Unit := .ok () { u with boot := some p }
    (s.pins.iiof[0] = true → bootStep .start s = go { s with sp := 0x2FFFF0 } .poll ∧
      (∀ p ∈ [(true, true, false, (0x00300000 : Word)), (true, false, true, 0x40000000), (true, false, false, 0x60000000),
          (false, true, true, 0x80000000), (false, true, false, 0xA0000000), (false, false, true, 0xC0000000)],
        s.pins.iiof[3] = p.1 → s.pins.iiof[2] = p.2.1 → s.pins.iiof[1] = p.2.2.1 →
          bootStep .poll s = go s (.width p.2.2.2)) ∧
      (s.pins.iiof[3] = true → s.pins.iiof[2] = true → s.pins.iiof[1] = true →
        (∀ x : Fin 6, s.ports[x].inq ≠ [] → (∀ y, y < x → s.ports[y].inq = []) →
          bootStep .poll s = go s (.gmicr (.port x))) ∧
        ((∀ x : Fin 6, s.ports[x].inq = []) → bootStep .poll s = .ok () s))) ∧
    (∀ (a v : Word) (t : State), dataRead a s = .ok v t → ∃ w, bootStep (.width a) s = go (t.wrI (.r 1) w)
      (.gmicr (if v.getLsbD 5 then .memory 32 (a + 1) else if v.getLsbD 4 then .memory 16 (a + 2)
        else .memory 8 (a + 4)))) ∧
    (∀ (a v : Word) (t : State), dataRead a s = .ok v t → bootWord (.memory 32 a) s = .ok (v, .memory 32 (a + 1)) t ∧
      ∀ (x : Word) (u : State), dataRead (a + 1) t = .ok x u →
        bootWord (.memory 16 a) s = .ok (x.setWidth 16 ++ v.setWidth 16, .memory 16 (a + 2)) u ∧
        ∀ (y z : Word) (m n : State), dataRead (a + 2) u = .ok y m → dataRead (a + 3) m = .ok z n →
          bootWord (.memory 8 a) s =
            .ok (z.setWidth 8 ++ y.setWidth 8 ++ x.setWidth 8 ++ v.setWidth 8, .memory 8 (a + 4)) n) ∧
    (∀ (x : Fin 6) (v : Word) (q : List Word), s.latch.waiting = none → s.ports[x].inq = v :: q →
      bootWord (.port x) s = .ok (v, .port x) { s with ports := s.ports.set x { s.ports[x] with inq := q } }) ∧
    (∀ x : Fin 6, s.ports[x].inq = [] → bootWord (.port x) s = .stall none) ∧
    (∀ (src next : BootSource) (entry : Option Word) (e v last size left a : Word) (t u : State),
      bootWord src s = .ok (v, next) t →
      (dataWrite 0x100000 v t = .ok () u → bootStep (.gmicr src) s = go u (.lmicr next)) ∧
      (dataWrite 0x100004 v t = .ok () u → bootStep (.lmicr src) s = go u (.size next none 0)) ∧
      (v ≠ 0 → v ≠ 0x80000000 → bootStep (.size src entry last) s = go t (.dest next entry v)) ∧
      (v = 0 → bootStep (.size src (some e) last) s = go t (.ivtp next e last)) ∧
      bootStep (.dest src none size) s = go t (.block next v size v) ∧
      bootStep (.dest src (some e) size) s = go t (.block next e size v) ∧
      (dataWrite a v t = .ok () u → bootStep (.block src e left a) s =
        go u (if left = 1 then .size next (some e) (a + 1) else .block next e (left - 1) (a + 1))) ∧
      bootStep (.ivtp src e last) s = go { t with ivtp := v &&& 0xFFFFFE00 } (.tvtp next e last) ∧
      bootStep (.tvtp src e last) s = go { t with tvtp := v &&& 0xFFFFFE00 } (.iack next e last)) ∧
    (∀ (src next : BootSource) (e v last w : Word) (t u : State),
      bootWord src (bootTest src s) = .ok (v, next) t → dataRead v (t.driveIack v false) = .ok w u →
      ∃ x, bootStep (.iack src e last) s = .ok () x ∧ x.pc = e ∧ x.boot = none ∧ x.rdI (.r 9) = e ∧ x.rdI (.r 0) = 1 ∧
        x.rdI (.ar 0) = last ∧ x.rdI (.ar 2) = v ∧ x.sp = 0x2FFFF0 ∧ x.rc = 0xFFFFFFFF ∧ x.stBit 1 = false ∧
        x.stBit 2 = false ∧ x.stBit 3 = false ∧ x.stBit 4 = false ∧ x.pins = (u.driveIack v true).pins ∧
        ∀ b, b ≠ 0x2FFFF1 → Memory.word x.mem b = Memory.word u.mem b))

/-! ## Operands and memory -/

/-- The values of the sources (R162, R163, R201, R234, R303): a register gives its value and a read of it changes
nothing; a 16-bit immediate is sign-extended for an integer instruction, zero-extended for a logical one, and for a
floating-point one a short floating-point number with its exponent sign-extended, where the exponent -8 gives the
canonical zero whatever the mantissa (the spec's own decision D25, R234, log entry 27); a direct operand is the word at
DP and the 16-bit field, an indirect one the word at the address of its mode, and a floating-point instruction reads
either as a single-precision number. -/
def Obligations.RegisterAndImmediateSources : Prop :=
  ∀ (s : State) (r : Reg) (n : Fin 12) (v : BitVec 16) (i : Ind),
    srcI (.reg r) s = .ok (s.rdI r) s ∧ srcU (.reg r) s = .ok (s.rdI r) s ∧ srcR (.reg r) s = .ok (s.rdI r) s ∧
    srcF (.reg n) s = .ok (s.rdF n) s ∧ srcFR (.reg n) s = .ok (s.rdF n) s ∧
    srcI (.imm v) s = .ok (v.signExtend 32) s ∧ srcU (.imm v) s = .ok (v.setWidth 32) s ∧
    srcF (.imm v) s = .ok (if v.extractLsb' 12 4 = 8 then 0x8000000000
      else (v.extractLsb' 12 4).signExtend 8 ++ v.extractLsb' 0 12 ++ 0#20) s ∧
    srcI (.dir v) s = dataRead (s.dp ++ v) s ∧ srcU (.dir v) s = dataRead (s.dp ++ v) s ∧
    srcR (.dir v) s = dataRead (s.dp ++ v) s ∧ srcMem (.dir v) s = dataRead (s.dp ++ v) s ∧
    srcI (.ind i) s = srcMem (.ind i) s ∧ srcU (.ind i) s = srcMem (.ind i) s ∧ srcR (.ind i) s = srcMem (.ind i) s ∧
    ∀ (w : Word) (t : State),
      (srcMem (.dir v) s = .ok w t → srcF (.dir v) s = .ok (w ++ 0#8) t ∧ srcFR (.dir v) s = .ok (w ++ 0#8) t) ∧
      (srcMem (.ind i) s = .ok w t → srcF (.ind i) s = .ok (w ++ 0#8) t ∧ srcFR (.ind i) s = .ok (w ++ 0#8) t)

/-- The modes of an indirect operand that are not circular or bit-reversed, with the codes of the mod field (R171 to
R176, R179 to R184, R187 to R192, R195): predisplacement gives the sum or the difference as the address, with
modification also to the auxiliary register; postdisplacement gives the register as the address and the sum or
difference to the register alone; the plain mode ignores its displacement. That the sums wrap modulo 2^32 is decision
D15 (R170, log entry 27). -/
def Obligations.IndirectModes : Prop :=
  (∀ (n : Fin 8) (d : BitVec 8), ∀ p ∈ [(0#5, Ind.pre false false (.disp d) n), (1#5, .pre true false (.disp d) n),
      (2#5, .pre false true (.disp d) n), (3#5, .pre true true (.disp d) n), (4#5, .post false false (.disp d) n),
      (5#5, .post true false (.disp d) n), (8#5, .pre false false .ir0 n), (9#5, .pre true false .ir0 n),
      (10#5, .pre false true .ir0 n), (11#5, .pre true true .ir0 n), (12#5, .post false false .ir0 n),
      (13#5, .post true false .ir0 n), (16#5, .pre false false .ir1 n), (17#5, .pre true false .ir1 n),
      (18#5, .pre false true .ir1 n), (19#5, .pre true true .ir1 n), (20#5, .post false false .ir1 n),
      (21#5, .post true false .ir1 n), (24#5, .plain n)], indOf p.1 (BitVec.ofFin n) d = .ok p.2) ∧
  ∀ (s : State) (n : Fin 8) (x : Index) (d : BitVec 8), s.index (.disp d) = d.setWidth 32 ∧
    s.index .ir0 = s.ir0 ∧ s.index .ir1 = s.ir1 ∧
    indEval (.plain n) s = .ok s.ar[n] s ∧
    indEval (.pre false false x n) s = .ok (s.ar[n] + s.index x) s ∧
    indEval (.pre true false x n) s = .ok (s.ar[n] - s.index x) s ∧
    indEval (.pre false true x n) s = .ok (s.ar[n] + s.index x) (s.wrAr n (s.ar[n] + s.index x)) ∧
    indEval (.pre true true x n) s = .ok (s.ar[n] - s.index x) (s.wrAr n (s.ar[n] - s.index x)) ∧
    indEval (.post false false x n) s = .ok s.ar[n] (s.wrAr n (s.ar[n] + s.index x)) ∧
    indEval (.post true false x n) s = .ok s.ar[n] (s.wrAr n (s.ar[n] - s.index x))

/-- Circular addressing under its stated conditions (R196): with K the number of index bits, the register moves by the
step modulo BK inside the buffer that starts where its K low bits are 0, and stays in it. Outside the conditions (U16)
the access is made and the register takes a value that is left open (the model's choice, log entry 22). Bit-reversed
addressing (R197) adds IR0 with the carry going to the lower bits, over the whole word (the spec's inference, U22, log
entry 23). -/
def Obligations.CircularAndBitReversed : Prop :=
  ∀ (s : State) (n : Fin 8) (x : Index) (sub : Bool),
    (circDefined s.bk s.ar[n] (s.index x) = true →
      ∃ v : Word, indEval (.post sub true x n) s = .ok s.ar[n] (s.wrAr n v) ∧
        v.toNat / 2 ^ circBits s.bk = s.ar[n].toNat / 2 ^ circBits s.bk ∧
        v.toNat % 2 ^ circBits s.bk < s.bk.toNat ∧
        ((v.toNat % 2 ^ circBits s.bk : Nat) : Int) % s.bk.toNat =
          ((s.ar[n].toNat % 2 ^ circBits s.bk : Nat) +
            (if sub then -((s.index x).toNat : Int) else (s.index x).toNat)) % s.bk.toNat) ∧
    (circDefined s.bk s.ar[n] (s.index x) = false →
      ∃ v : Word, indEval (.post sub true x n) s = .ok s.ar[n] (s.wrAr n v)) ∧
    indEval (.bitRev n) s = .ok s.ar[n] (s.wrAr n (s.ar[n].reverse + s.ir0.reverse).reverse)

/-- The memory map (R101), for both levels of ROMEN, and the data accesses by region (R105, R106, R108): the on-chip
RAM returns the last word written and keeps every other word; a write of the ROM has no effect (decision D4, log entry
11); an access to a reserved address is refused, where R103 names no effect (U11, log entry 51). -/
def Obligations.DataAccess : Prop :=
  (∀ (romen : Bool) (a : Word), ∀ row ∈ [(0, 0xFFF, Region.rom, Region.localBus), (0x1000, 0xFFFFF, .reserved, .localBus),
      (0x100000, 0x1000FF, .periph, .periph), (0x100100, 0x1FFFFF, .reserved, .reserved),
      (0x200000, 0x2FF7FF, .reserved, .reserved), (0x2FF800, 0x2FFBFF, .ram0, .ram0), (0x2FFC00, 0x2FFFFF, .ram1, .ram1),
      (0x300000, 0x7FFFFFFF, .localBus, .localBus), (0x80000000, 0xFFFFFFFF, .globalBus, .globalBus)],
    row.1 ≤ a.toNat → a.toNat ≤ row.2.1 → region romen a = if romen then row.2.2.1 else row.2.2.2) ∧
  ∀ (s : State) (a v : Word), Memory.wf s.mem = true →
    ((region s.romen a = .ram0 ∨ region s.romen a = .ram1) →
      ∃ t, dataWrite a v s = .ok () t ∧ dataRead a t = .ok v t ∧ Memory.wf t.mem = true ∧
        (∀ b, b ≠ a → Memory.word t.mem b = Memory.word s.mem b) ∧ t = { s with mem := t.mem }) ∧
    (region s.romen a = .rom → dataWrite a v s = .ok () s ∧ dataRead a s = .ok (Config.romImage a.toNat) s) ∧
    (region s.romen a = .reserved → dataRead a s = .stop (.reservedAddress a) ∧
      dataWrite a v s = .stop (.reservedAddress a))

/-- Accesses over an enabled external interface (R107, R122, R125, R126): a read gives the word of the external
memory, a write stores it, and each drives the status code of its strobe on its own interface's pins, where it stays
for the rest of the step (log entry 53); over a disabled interface a read gives any value and a write is lost (which
enables turn an access off is the model's choice, log entry 15). -/
def Obligations.ExternalAccess : Prop :=
  ∀ (s : State) (g : Bool) (a v : Word), region s.romen a = (if g then .globalBus else .localBus) →
    15 ≤ ((if g then s.gmicr else s.lmicr).extractLsb' 24 5).toNat →
    ((if g then s.gmicr else s.lmicr).extractLsb' 24 5).toNat ≤ 30 →
    let p := if g then s.pins.globalBus else s.pins.localBus
    let one : Bool := 2 ^ (((if g then s.gmicr else s.lmicr).extractLsb' 24 5).toNat + 1) ≤ a.toNat % 2 ^ 31
    let stat (c : BitVec 3) (u : State) : State :=
      if g then { u with pins := { u.pins with stat := BitVec.ofBool one ++ c } }
      else { u with pins := { u.pins with lstat := BitVec.ofBool one ++ c } }
    let enabled := p.de = false ∧ p.ae = false ∧ (if one then p.ce1 else p.ce0) = false
    (enabled → dataRead a s = .ok (Memory.word s.mem a) (stat 1 s) ∧
      dataWrite a v s = .ok () { stat 5 s with mem := Memory.setWord s.mem a v }) ∧
    (¬ enabled → (∃ w, dataRead a s = .ok w { stat 1 s with free := s.free + 1 }) ∧
      dataWrite a v s = .ok () (stat 5 s))

/-- The instruction cache (R134, R135): with CE = 1 and CF = 0 a fetch from external memory leaves the word in the
cache, so that the next fetch of the address gives the same word and reads no memory; with CE = 0 nothing in the
cache changes. -/
def Obligations.CacheHoldsFetchedWord : Prop :=
  ∀ (s t : State) (g : Bool) (a w : Word), cacheFetch g a s = .ok w t →
    (s.stBit 11 = false → t.cache = s.cache ∧ Res.ofPair (extRead .program g a s) = .ok w t) ∧
    (s.stBit 11 = true → s.stBit 10 = true → t.cache = s.cache) ∧
    (s.stBit 11 = true → s.stBit 10 = false →
      ∀ m : Memory, ∃ u : State, cacheFetch g a { t with mem := m } = .ok w u ∧ u.mem = m ∧ u.pins = t.pins ∧
        u.cache.segs = t.cache.segs)

/-! ## Registers and flags -/

/-- A register reads as it was written (R20 to R28, R49): DP keeps 16 bits (decision D1, log entry 46), ST keeps all
but bit 12 of its low half, and its high half is constant (R50, P1, log entry 2) with ANALYSIS 0 (R742), the exponent of
R0 to R11 stays; a write of ST with bit 12 set clears every P flag of the cache; IIF is stated apart. -/
def Obligations.RegisterWrite : Prop :=
  ∀ (s : State) (d : Reg) (v : Word), d ≠ .iif →
    (s.wrI d v).rdI d = (if d = .dp then v &&& 0xFFFF else if d = .st then
      Config.stId ++ 0#1 ++ (v.extractLsb' 0 16 &&& 0xEFFF) else v) ∧
    (∀ n, d = .r n → (s.wrI d v).r[n].extractLsb' 32 8 = s.r[n].extractLsb' 32 8) ∧
    (d = .st → ∀ g : Fin 4, (s.wrI d v).cache.segs[g].p = if v.getLsbD 12 then 0 else s.cache.segs[g].p) ∧
    s.Keeps (s.wrI d v) [d] 0 [] []

/-- A write of IIF (R55 to R58): the NMI latch and the reserved bits are not written, the enables, FUNC, TYPE and the
timer and DMA flags are; the FLAG bit of a pin that the new value makes an input reads the pin, of a level-triggered
interrupt pin the complement of the pin (R56), and a flag of an output or edge-triggered pin reads what was written.
That the newly written FUNC and TYPE decide is decision D3 (log entry 41). -/
def Obligations.IifWrite : Prop :=
  ∀ (s : State) (v : Word), s.iif &&& 0x00FE0000 = 0 →
    let u := s.wrI .iif v
    u.iif.getLsbD 16 = s.iif.getLsbD 16 ∧ u.rdI .iif &&& 0x00FE0000 = 0 ∧
    u.rdI .iif &&& 0xFF00BBBB = v &&& 0xFF00BBBB ∧
    ∀ x : Fin 4, (u.rdI .iif).getLsbD (4 * x.val + 2) =
      (if v.getLsbD (4 * x.val) = false ∧ v.getLsbD (4 * x.val + 1) = false then s.pins.iiof[x]
        else if v.getLsbD (4 * x.val) = true ∧ v.getLsbD (4 * x.val + 1) = true then !s.pins.iiof[x]
        else v.getLsbD (4 * x.val + 2))

/-- The gate of the condition flags (R41, R46, R47): an integer result writes its register, and the flags only where
the destination is one of R0 to R11, or SET COND is 1 and it is not ST; LV and LUF are then set with V and UF and
otherwise stay; C stays where the instruction computes none. -/
def Obligations.FlagGate : Prop :=
  ∀ (s : State) (d : Reg) (v : Word) (f : FlagRes),
    let u := s.putI d v f
    (((∃ n, d = .r n) ∨ (s.stBit 15 = true ∧ d ≠ .st)) →
      u.stBit 3 = f.n ∧ u.stBit 2 = f.z ∧ u.stBit 1 = f.v ∧ u.stBit 4 = f.uf ∧
      u.stBit 5 = (s.stBit 5 || f.v) ∧ u.stBit 6 = (s.stBit 6 || f.uf) ∧ u.stBit 0 = f.c.getD (s.stBit 0) ∧
      (∀ i, 7 ≤ i → u.stBit i = s.stBit i) ∧ u.rdI d = (s.wrI d v).rdI d) ∧
    (¬ ((∃ n, d = .r n) ∨ (s.stBit 15 = true ∧ d ≠ .st)) → u = s.wrI d v)

/-- The twenty conditions, their codes and what they test (R200); the other codes are refused. -/
def Obligations.Conditions : Prop :=
  (∀ p ∈ [(0#5, Cond.u), (1#5, .lo), (2#5, .ls), (3#5, .hi), (4#5, .hs), (5#5, .eq), (6#5, .ne), (7#5, .lt), (8#5, .le),
      (9#5, .gt), (10#5, .ge), (12#5, .nv), (13#5, .v), (14#5, .nuf), (15#5, .uf), (16#5, .nlv), (17#5, .lv),
      (18#5, .nluf), (19#5, .luf), (20#5, .zuf)], condOf p.1 = .ok p.2) ∧
  (∀ k : BitVec 5, (k = 11 ∨ 21 ≤ k.toNat) → condOf k = .error .badCond) ∧
  ∀ s : State, let c := s.stBit 0; let v := s.stBit 1; let z := s.stBit 2; let n := s.stBit 3
    let uf := s.stBit 4; let lv := s.stBit 5; let luf := s.stBit 6
    s.cond .u = true ∧ s.cond .lo = c ∧ s.cond .ls = (c || z) ∧ s.cond .hi = !(c || z) ∧ s.cond .hs = !c ∧
    s.cond .eq = z ∧ s.cond .ne = !z ∧ s.cond .lt = n ∧ s.cond .le = (n || z) ∧ s.cond .gt = !(n || z) ∧
    s.cond .ge = !n ∧ s.cond .nv = !v ∧ s.cond .v = v ∧ s.cond .nuf = !uf ∧ s.cond .uf = uf ∧
    s.cond .nlv = !lv ∧ s.cond .lv = lv ∧ s.cond .nluf = !luf ∧ s.cond .luf = luf ∧ s.cond .zuf = (z || uf)

/-! ## Two-operand instructions: results -/

/-- Addition, subtraction and negation (R353, R355, R356, R358, R401, R403, R414, R417, R418, R420): outside an
annulled slot, with a readable source `a`, each completes with the exact result narrowed to 32 bits, saturated with OVM
= 1, and C the carry or borrow; ABSI with N = 0 and C as it was. N and Z of a result that wraps, with OVM = 0, are
those of the value written (the spec's own decision D12, log entry 26). The register operands are those before an
indirect source modifies its register (the spec's own decision D17, log entry 20). -/
def Obligations.IntegerAddSubtract : Prop :=
  ∀ (src : Src) (dst : Reg) (s t : State) (a : Word), srcI src s = .ok a t → s.annulled = false →
    (∀ p ∈ [(Instr.addi src dst, wideSum s.ovm (s.rdI dst) a false), (.addc src dst, wideSum s.ovm (s.rdI dst) a s.cFlag),
        (.subi src dst, wideDiff s.ovm (s.rdI dst) a false), (.subb src dst, wideDiff s.ovm (s.rdI dst) a s.cFlag),
        (.subri src dst, wideDiff s.ovm a (s.rdI dst) false), (.subrb src dst, wideDiff s.ovm a (s.rdI dst) s.cFlag),
        (.negi src dst, wideDiff s.ovm 0 a false), (.negb src dst, wideDiff s.ovm 0 a s.cFlag)],
      exec p.1 s = .next (s.after (t.putI dst p.2.v p.2.f))) ∧
    exec (.absi src dst) s = .next (s.after (t.putI dst (absResult s.ovm a).v (absResult s.ovm a).f))

/-- The multiplications (R371 to R373), with the low half of the exact product (MPYI) and the high half of the signed
and of the unsigned one; the shifts (R361, R367) by the seven low bits of the source taken as a signed number; the
rotates (R409 to R412), whose C is the bit rotated out and where ROLC and RORC shift the old C in. Choices of the spec:
N and Z of a product of MPYI that wraps, with OVM = 0, are those of the value written (D12, log entry 26), the
immediate of MPYUHI is sign-extended and then taken as unsigned (D13, log entry 24), and ASH by more than 32 either way
is the ideal shift (D14, log entry 27). The register operands are those before an indirect source modifies its register
(the spec's own decision D17, log entry 20). -/
def Obligations.MultiplyShiftRotate : Prop :=
  ∀ (src : Src) (dst : Reg) (s t : State) (a : Word), srcI src s = .ok a t → s.annulled = false →
    let d := s.rdI dst
    (∀ p ∈ [(Instr.mpyi src dst, lowProduct s.ovm d a), (.mpyshi src dst, highProduct d a),
        (.mpyuhi src dst, highUnsigned d a), (.ash src dst, arithShift d a), (.lsh src dst, logicalShift d a)],
      exec p.1 s = .next (s.after (t.putI dst p.2.v p.2.f))) ∧
    (∀ p ∈ [(Instr.rol dst, shifted (d.rotateLeft 1) false d.msb),
        (.rolc dst, shifted ((d <<< 1) ||| bitAs 32 s.cFlag) false d.msb),
        (.ror dst, shifted (d.rotateRight 1) false (d.getLsbD 0)),
        (.rorc dst, shifted ((d >>> 1) ||| (bitAs 32 s.cFlag <<< 31)) false (d.getLsbD 0))],
      exec p.1 s = .next (s.after (s.putI dst p.2.v p.2.f)))

/-- The logical instructions (R359, R360, R405, R406, R422, R423), with a 16-bit immediate zero-extended: N is bit 31
and Z the zero test of the output, V and UF are 0, C stays; TSTB writes the flags alone, whatever its destination
register is. One step of a division (R415) writes no flag; that SUBC too reads its immediate zero-extended is decision
D19 (log entry 24). The register operands are those before an indirect source modifies its register (the spec's own
decision D17, log entry 20). -/
def Obligations.LogicalOperations : Prop :=
  ∀ (src : Src) (dst : Reg) (s t : State) (a : Word), srcU src s = .ok a t → s.annulled = false →
    let d := s.rdI dst
    (∀ p ∈ [(Instr.and src dst, d &&& a), (.andn src dst, d &&& ~~~a), (.or src dst, d ||| a),
        (.xor src dst, d ^^^ a), (.not src dst, ~~~a)],
      exec p.1 s = .next (s.after (t.putI dst p.2 (plainFlags p.2)))) ∧
    exec (.tstb src dst) s = .next (s.after (t.setFlags (plainFlags (d &&& a)))) ∧
    exec (.subc src dst) s = .next (s.after (t.wrI dst (if a ≤ d then 2 * (d - a) + 1 else 2 * d)))

/-- The comparison CMPI (R48, R363) and what a conditional branch sees after it: it writes the flags alone, N is the
signed order even where the difference overflows, C the unsigned order, Z equality, V the overflow. The register
operands are those before an indirect source modifies its register (the spec's own decision D17, log entry 20). -/
def Obligations.CompareOrders : Prop :=
  ∀ (src : Src) (dst : Reg) (s t : State) (a : Word), srcI src s = .ok a t → s.annulled = false →
    ∃ u, exec (.cmpi src dst) s = .next (s.after u) ∧ u = t.setFlags
        { n := (s.rdI dst).slt a, z := s.rdI dst == a, v := (s.rdI dst).ssubOverflow a, uf := false,
          c := some ((s.rdI dst).ult a) } ∧
      u.cond .lt = (s.rdI dst).slt a ∧ u.cond .le = (s.rdI dst).sle a ∧ u.cond .eq = (s.rdI dst == a) ∧
      u.cond .lo = (s.rdI dst).ult a ∧ u.cond .ls = (s.rdI dst).ule a

/-- The floating-point instructions on one general source (R249, R354, R357, R370, R402, R404, R408, R416, R419), each
with the flags of its result; ABSF has N = 0, NORM has V = 0 (its flags at zero are DEDUCED, log entry 29). The results
(R240 to R243, R250): a sum or difference is that of the mantissas after the one with the smaller exponent was shifted
right, its low bits dropped (decision D27), and a zero contributes nothing; a product is the exact one; an absolute
value that of the exact one; NORM takes the mantissa field as a signed number without its implied bit; RND adds half of
the last single-precision place and drops the low byte, and of zero gives zero (decision D28); each is then brought
into the format (R238, R248; truncated, decision D26; log entry 27). -/
def Obligations.FloatArithmetic : Prop :=
  (∀ a b : Ext,
    let e := max (expo a) (expo b)
    let part (x : Ext) : ℤ := if expo x = -128 then 0 else ⌊(mant x : ℚ) * 2 ^ (expo x - e)⌋
    let low : ℤ := (a.extractLsb' 0 32).toInt
    ResultOf ((part a + part b) * 2 ^ (e - 31)) (fAdd a b) ∧
    ResultOf ((part a - part b) * 2 ^ (e - 31)) (fSub a b) ∧
    ResultOf (valueOf a * valueOf b) (fMul a b) ∧
    (a.getLsbD 31 = true → ResultOf (-valueOf a) (fAbs a)) ∧
    (a.getLsbD 31 = false → fAbs a = { r := a, ovf := false, unf := false }) ∧
    (expo a = -128 → fNorm a = { r := 0x8000000000, ovf := false, unf := decide (low ≠ 0) } ∧
      fRnd a = { r := 0x8000000000, ovf := false, unf := false }) ∧
    (expo a ≠ -128 → ResultOf (low * 2 ^ (expo a - 31)) (fNorm a) ∧
      ∃ x, ResultOf ((mant a + 128) * 2 ^ (expo a - 31)) x ∧
        fRnd a = { x with r := if x.ovf || x.unf then x.r else x.r &&& 0xFFFFFFFF00 })) ∧
  ∀ (src : FSrc) (dst : Fin 12) (s t : State) (a : Ext), srcF src s = .ok a t → s.annulled = false →
    let d := s.rdF dst
    (∀ p ∈ [(Instr.addf src dst, fAdd d a), (.subf src dst, fSub d a), (.subrf src dst, fSub a d),
        (.mpyf src dst, fMul d a), (.negf src dst, fSub fZero a), (.rnd src dst, fRnd a)],
      exec p.1 s = .next (s.after (t.putF dst p.2.r (resultFlags p.2)))) ∧
    exec (.absf src dst) s = .next (s.after (t.putF dst (fAbs a).r (absFloatFlags a))) ∧
    exec (.norm src dst) s = .next (s.after (t.putF dst (fNorm a).r
      { n := (fNorm a).r.getLsbD 31,
        z := fIsZero (fNorm a).r && !(fIsZero a && a.extractLsb' 0 32 != 0), v := false, uf := (fNorm a).unf, c := none }))

/-- CMPF (R48, R362) writes the flags alone: N says that the register is the smaller number, Z that the two are equal,
V and UF are those of the difference (R241, R248; its alignment is the spec's own decision D27, log entry 27), C stays.
So comparing a value with itself gives Z = 1 and N = 0, and two operands of which one is zero are ordered by the sign
of the other. -/
def Obligations.FloatCompare : Prop :=
  ∀ (src : FSrc) (dst : Fin 12) (s t : State) (a : Ext), srcF src s = .ok a t → s.annulled = false →
    ∃ f : FlagRes, exec (.cmpf src dst) s = .next (s.after (t.setFlags f)) ∧ CompareFlags (s.rdF dst) a f ∧
      (s.rdF dst = a → f.z = true ∧ f.n = false) ∧
      (fIsZero (s.rdF dst) = true → fIsZero a = false → f.z = false ∧ f.n = !a.getLsbD 31) ∧
      (fIsZero (s.rdF dst) = false → fIsZero a = true → f.z = false ∧ f.n = (s.rdF dst).getLsbD 31)

/-- The conversions (R364 to R366, R421): FLOAT of an integer source, FIX into any register, FRIEEE from a memory word,
TOIEEE with the word in bits 39 to 8 and zeros below (decision D20, log entry 31); C stays. FLOAT is exact (R245, an
inference of the spec): the value of its result is the integer, and FIX gives the integer back without overflow. FRIEEE
(R236) gives the value of the IEEE number, zero for an exponent of 0, and the largest single-precision value of its
sign with overflow for 255. TOIEEE (R237) gives the IEEE number of the value without its eight last bits, zero for an
exponent below -126, and the negative infinity with overflow for the most negative number. -/
def Obligations.Conversions : Prop :=
  (∀ i : Word, valueOf (fFloat i) = i.toInt ∧ fFix (fFloat i) = (i, false)) ∧
  (∀ w : Word, let e := (w.extractLsb' 23 8).toNat
    (e = 0 → fromIEEE w = (0x8000000000, false)) ∧
    (e = 255 → fromIEEE w = (if w.msb then 0x7F80000000 else 0x7F7FFFFF00, true)) ∧
    (e ≠ 0 → e ≠ 255 → (fromIEEE w).2 = false ∧ valueOf (fromIEEE w).1 = ieeeValue w ∧
      (fromIEEE w).1.extractLsb' 0 8 = 0)) ∧
  (∀ a : Ext, let e := expo a
    (e < -126 → toIEEE a = (0, false)) ∧
    (a.extractLsb' 8 32 = 0x7F800000 → toIEEE a = (0xFF800000, true)) ∧
    (-126 ≤ e → a.extractLsb' 8 32 ≠ 0x7F800000 → (toIEEE a).2 = false ∧
      ieeeValue (toIEEE a).1 = valueOf (a &&& 0xFFFFFFFF00) ∧
      1 ≤ ((toIEEE a).1.extractLsb' 23 8).toNat ∧ ((toIEEE a).1.extractLsb' 23 8).toNat ≤ 254)) ∧
  ∀ (s : State), s.annulled = false →
    (∀ (src : Src) (dst : Fin 12) (t : State) (a : Word), srcI src s = .ok a t →
      exec (.float src dst) s = .next (s.after (t.putF dst (fFloat a) (resultFlags (.exact (fFloat a)))))) ∧
    (∀ (src : FSrc) (dst : Reg) (t : State) (a : Ext), srcF src s = .ok a t →
      exec (.fix src dst) s = .next (s.after (t.putI dst (fixResult a).v (fixResult a).f))) ∧
    (∀ (src : Mem) (dst : Fin 12) (t : State) (a : Word), srcMem src s = .ok a t →
      exec (.frieee src dst) s = .next (s.after (t.putF dst (fromIEEE a).1
        { n := (fromIEEE a).1.getLsbD 31, z := fIsZero (fromIEEE a).1, v := (fromIEEE a).2, uf := false, c := none }))) ∧
    (∀ (src : FRSrc) (dst : Fin 12) (t : State) (a : Ext), srcFR src s = .ok a t →
      exec (.toieee src dst) s = .next (s.after (t.putF dst ((toIEEE a).1 ++ 0#8)
        { n := (toIEEE a).1.msb, z := (toIEEE a).1 == 0, v := (toIEEE a).2, uf := false, c := none })))

/-- FIX (R244): zero gives zero; a value that is not zero gives the largest integer not above mant * 2^(expo - 31)
where the exponent is at most 30, else an overflow with the value saturated by its sign. -/
def Obligations.FixRoundsDown : Prop :=
  ∀ a : Ext, (fIsZero a = true → fFix a = (0, false)) ∧
    (fIsZero a = false →
      (expo a ≤ 30 → (fFix a).2 = false ∧
        (fFix a).1.toInt * 2 ^ (31 - expo a).toNat ≤ mant a ∧
        mant a < ((fFix a).1.toInt + 1) * 2 ^ (31 - expo a).toNat) ∧
      (30 < expo a → fFix a = (if a.getLsbD 31 then 0x80000000 else 0x7FFFFFFF, true)))

/-- The product of two values that are not zero (R238, R240, R248): without overflow or underflow the exact product of
the mantissas, truncated to the 32 bits of the result's mantissa, where truncation is R238's own decision D26 (log
entry 27); with overflow the largest value of the sign, with underflow zero. -/
def Obligations.FloatProductTruncates : Prop :=
  ∀ a b : Ext, fIsZero a = false → fIsZero b = false →
    ((fMul a b).ovf = false → (fMul a b).unf = false →
      0 ≤ 31 + expo (fMul a b).r - expo a - expo b ∧
      mant (fMul a b).r * 2 ^ (31 + expo (fMul a b).r - expo a - expo b).toNat ≤ mant a * mant b ∧
      mant a * mant b < (mant (fMul a b).r + 1) * 2 ^ (31 + expo (fMul a b).r - expo a - expo b).toNat) ∧
    ((fMul a b).ovf = true → (fMul a b).r = if 0 < mant a * mant b then 0x7F7FFFFFFF else 0x7F80000000) ∧
    ((fMul a b).unf = true → (fMul a b).r = 0x8000000000)

/-- The estimates (R246, R247, R407, R413): RCPF of zero is the largest value with V (its flags are DEDUCED, log entry
29), of a value with exponent 127 is zero, else has the exponent -e-1 and the operand's sign; RSQRF of a value that is
not negative is positive and has the exponent -(e+1)/2 rounded down. The 23 low bits of the mantissa are 0, and its
value is within 2^-8 of 2/v(man) for RCPF, of 2/sqrt(v(man)) for RSQRF with an even exponent and of
sqrt(2)/sqrt(v(man)) with an odd one (derived by the spec, R247), nearer than 2^-8 but in the special cases, whose
eight high fraction bits are 0: there it is 2 - 2^-8, or -1 - 2^-8 of a negative operand. Which value within the bound
the machine takes is left open (P2, log entry 4). Of a negative value RSQRF writes a free value and free flags (U9, the
model's choice, log entry 28). Each completes. -/
def Obligations.Estimates : Prop :=
  ∀ (src : FRSrc) (dst : Fin 12) (s t : State) (a : Ext), srcFR src s = .ok a t → s.annulled = false →
    let special : Prop := a.extractLsb' 23 8 = 0
    let v : ℝ := manValue a
    (∃ r : Ext, exec (.rcpf src dst) s = .next (s.after (t.putF dst r
        { n := (if fIsZero a then a.getLsbD 31 else r.getLsbD 31), z := fIsZero r, v := fIsZero a, uf := false, c := none })) ∧
      (fIsZero a = true → r = 0x7F7FFFFFFF) ∧
      (fIsZero a = false → expo a = 127 → r = 0x8000000000) ∧
      (fIsZero a = false → expo a ≠ 127 → expo r = -expo a - 1 ∧ r.getLsbD 31 = a.getLsbD 31 ∧
        r.extractLsb' 0 23 = 0 ∧ |(manValue r : ℝ) - 2 / v| ≤ 2 ^ (-8 : ℤ) ∧
        (¬ special → |(manValue r : ℝ) - 2 / v| < 2 ^ (-8 : ℤ)) ∧
        (special → r.extractLsb' 0 32 = if a.getLsbD 31 then 0xFF800000 else 0x7F800000))) ∧
    ((a.getLsbD 31 = false ∨ fIsZero a = true) → ∃ r : Ext, exec (.rsqrf src dst) s = .next (s.after (t.putF dst r
        { n := false, z := false, v := fIsZero a, uf := false, c := none })) ∧
      (fIsZero a = true → r = 0x7F7FFFFFFF) ∧
      (fIsZero a = false → expo r = -(expo a + 1) / 2 ∧ r.getLsbD 31 = false ∧ r.extractLsb' 0 23 = 0 ∧
        (expo a % 2 = 0 → |(manValue r : ℝ) - 2 / √v| ≤ 2 ^ (-8 : ℤ) ∧
          (¬ special → |(manValue r : ℝ) - 2 / √v| < 2 ^ (-8 : ℤ)) ∧ (special → r.extractLsb' 0 32 = 0x7F800000)) ∧
        (expo a % 2 = 1 → |(manValue r : ℝ) - √2 / √v| < 2 ^ (-8 : ℤ)))) ∧
    ((a.getLsbD 31 = true ∧ fIsZero a = false) → ∃ (r : Ext) (f : BitVec 7),
      exec (.rsqrf src dst) s = .next (s.after { (t.wrF dst r).withFlags f with free := t.free + 1 }))

/-! ## Loads, stores and the stack -/

/-- The integer and floating-point loads (R310, R311, R313, R314, R316 to R318): LDI and LDF with the flags of the
value, LDIcond and LDFcond without flags and reading their operand whatever the condition, LDA into an address
register, LDE the exponent alone, with the mantissa and the flags as they were (G10, DEDUCED, log entry 30), LDM the
mantissa alone (from memory the whole word, from an immediate its 12 low bits). -/
def Obligations.Loads : Prop :=
  ∀ s : State, s.annulled = false →
    (∀ (src : Src) (dst : Reg) (t : State) (a : Word), srcI src s = .ok a t →
      exec (.ldi src dst) s = .next (s.after (t.putI dst a (plainFlags a))) ∧
      (∀ c, exec (.ldicond c src dst) s = .next (s.after (if s.cond c then t.wrI dst a else t))) ∧
      (((∃ n, dst = .ar n) ∨ dst ∈ [.ir0, .ir1, .dp, .bk, .sp]) →
        exec (.lda src dst) s = .next (s.after (t.wrI dst a)))) ∧
    (∀ (src : FSrc) (dst : Fin 12) (t : State) (a : Ext), srcF src s = .ok a t →
      exec (.ldf src dst) s = .next (s.after (t.putF dst a (resultFlags (.exact a)))) ∧
      (∀ c, exec (.ldfcond c src dst) s = .next (s.after (if s.cond c then t.wrF dst a else t))) ∧
      exec (.lde src dst) s = .next (s.after (t.wrF dst (a.extractLsb' 32 8 ++ s.r[dst].extractLsb' 0 32)))) ∧
    (∀ (n dst : Fin 12) (h : BitVec 16),
      exec (.ldm (.reg n) dst) s =
        .next (s.after (s.wrF dst (s.r[dst].extractLsb' 32 8 ++ s.r[n].extractLsb' 0 32))) ∧
      exec (.ldm (.imm h) dst) s =
        .next (s.after (s.wrF dst (s.r[dst].extractLsb' 32 8 ++ (h.extractLsb' 0 12 ++ 0#20))))) ∧
    (∀ (m : Mem) (dst : Fin 12) (t : State) (w : Word), srcMem m s = .ok w t →
      exec (.ldm (match m with | .dir a => .dir a | .ind i => .ind i) dst) s =
        .next (s.after (t.wrF dst (s.r[dst].extractLsb' 32 8 ++ w))))

/-- LDHI and LDPK (R315, R321): their words (operation codes that the spec marks 'from general knowledge, not in
source'), and their effect; LDPK also in an annulled slot. -/
def Obligations.HighAndPageLoads : Prop :=
  ∀ (k : BitVec 16) (dst : Reg) (s : State),
    decode (0x0FF#11 ++ dst.code ++ k) = .ok (.ldhi k dst) ∧
    (s.annulled = false → exec (.ldhi k dst) s = .next (s.after (s.wrI dst (k ++ 0#16)))) ∧
    decode (0x1F70#16 ++ k) = .ok (.ldpk k) ∧
    exec (.ldpk k) s = .next (s.after { s with dp := k })

/-- LDEP and LDPE (R312, R320): their words (codes that the spec marks 'from general knowledge'), the words with
another expansion-register code (bits 4-0 of LDEP, bits 20-16 of LDPE), which are refused, and their effect, with the
alignment of R61 and R62. -/
def Obligations.ExpansionLoads : Prop :=
  (∀ (r : Reg), decode (0x3B0#11 ++ r.code ++ 0#16) = .ok (.ldep .ivtp r) ∧
    decode (0x3B0#11 ++ r.code ++ 1#16) = .ok (.ldep .tvtp r) ∧
    decode (0x3B4#11 ++ 0#5 ++ 0#11 ++ r.code) = .ok (.ldpe r .ivtp) ∧
    decode (0x3B4#11 ++ 1#5 ++ 0#11 ++ r.code) = .ok (.ldpe r .tvtp) ∧
    ∀ x : BitVec 5, 2 ≤ x.toNat → decode (0x3B0#11 ++ r.code ++ 0#11 ++ x) = .error .badExpansion ∧
      decode (0x3B4#11 ++ x ++ 0#11 ++ r.code) = .error .badExpansion) ∧
  ∀ (r : Reg) (s : State), s.annulled = false →
    exec (.ldep .ivtp r) s = .next (s.after (s.wrI r s.ivtp)) ∧
    exec (.ldep .tvtp r) s = .next (s.after (s.wrI r s.tvtp)) ∧
    exec (.ldpe r .ivtp) s = .next (s.after { s with ivtp := s.rdI r &&& 0xFFFFFE00 }) ∧
    exec (.ldpe r .tvtp) s = .next (s.after { s with tvtp := s.rdI r &&& 0xFFFFFE00 })

/-- The byte and half-word instructions (R303 to R309, R368, R369), byte by byte. The register operands are those
before an indirect source modifies its register (the spec's own decision D17, log entry 20). -/
def Obligations.ByteAndHalfLoads : Prop :=
  ∀ (src : RSrc) (dst : Reg) (s t : State) (w : Word), srcR src s = .ok w t → s.annulled = false →
    let byte (x : Word) (j : Nat) : BitVec 8 := x.extractLsb' (8 * j) 8
    let half (x : Word) (j : Nat) : BitVec 16 := x.extractLsb' (16 * j) 16
    let d := s.rdI dst
    let done (v : Word) : State := s.after (t.putI dst v (plainFlags v))
    (∀ b : Fin 4,
      exec (.lb b src dst) s = .next (done ((byte w b).signExtend 32)) ∧
      exec (.lbu b src dst) s = .next (done ((byte w b).setWidth 32)) ∧
      (∃ v, exec (.lwl b src dst) s = .next (done v) ∧
        ∀ j : Fin 4, byte v j = if j.val < b.val then byte d j else byte w (j.val - b.val)) ∧
      (∃ v, exec (.lwr b src dst) s = .next (done v) ∧
        ∀ j : Fin 4, byte v j = if j.val + b.val < 4 then byte w (j.val + b.val) else byte d j) ∧
      (∃ v, exec (.mb b src dst) s = .next (done v) ∧ ∀ j : Fin 4, byte v j = if j = b then byte w 0 else byte d j)) ∧
    (∀ h : Fin 2,
      exec (.lh h src dst) s = .next (done ((half w h).signExtend 32)) ∧
      exec (.lhu h src dst) s = .next (done ((half w h).setWidth 32)) ∧
      (∃ v, exec (.mh h src dst) s = .next (done v) ∧ ∀ j : Fin 2, half v j = if j = h then half w 0 else half d j))

/-- PUSH, PUSHF, POP and POPF (R27, R322 to R325): preincrement and postdecrement of SP; PUSHF stores bits 39-8, POPF
clears bits 7-0. The operand is read before SP changes (the spec's own decision D17, log entry 20). -/
def Obligations.StackInstructions : Prop :=
  ∀ s t : State, s.annulled = false →
    (∀ src : Reg, dataWrite (s.sp + 1) (s.rdI src) { s with sp := s.sp + 1 } = .ok () t →
      exec (.push src) s = .next (s.after t)) ∧
    (∀ src : Fin 12, dataWrite (s.sp + 1) (s.r[src].extractLsb' 8 32) { s with sp := s.sp + 1 } = .ok () t →
      exec (.pushf src) s = .next (s.after t)) ∧
    (∀ v : Word, dataRead s.sp s = .ok v t →
      (∀ dst : Reg, exec (.pop dst) s = .next (s.after ({ t with sp := s.sp - 1 }.putI dst v (plainFlags v)))) ∧
      (∀ dst : Fin 12, exec (.popf dst) s = .next (s.after ({ t with sp := s.sp - 1 }.putF dst (v ++ 0#8)
        { n := v.getLsbD 23, z := v.extractLsb' 24 8 == 0x80, v := false, uf := false, c := none }))))

/-- The stores STF, STI and STIK (R326 to R328) to a direct or indirect operand: the value is that of the register
before the address register changes (the spec's own decision D17, log entry 20). -/
def Obligations.StoreInstructions : Prop :=
  ∀ (dst : Mem) (s t u : State) (a : Word), memEval dst s = .ok a t → s.annulled = false →
    (∀ src : Fin 12, dataWrite a (s.r[src].extractLsb' 8 32) t = .ok () u →
      exec (.stf src dst) s = .next (s.after u)) ∧
    (∀ src : Reg, dataWrite a (s.rdI src) t = .ok () u →
      exec (match dst with | .dir d => .stiDir src d | .ind i => .stiInd src i) s = .next (s.after u)) ∧
    (∀ k : BitVec 5, dataWrite a (k.signExtend 32) t = .ok () u →
      exec (match dst with | .dir d => .stikDir k d | .ind i => .stikInd k i) s = .next (s.after u))

/-! ## Three operands -/

/-- The two sources of a three-operand instruction (R112, R165 to R167): a register gives its value, as it was before
the addressing (D17, log entry 20); an 8-bit immediate is sign-extended (D13, log entry 24); a memory source is read at
its address; of two memory sources src1 is read first and both addresses come from the registers before the
instruction. Where both name one auxiliary register, it is left as the mode of bits 15-8 leaves it and the update of
bits 7-0 is lost (R166, R167, the spec's own decision D10, log entry 21). -/
def Obligations.ThreeOperandSources : Prop :=
  ∀ (s t : State) (a b : Reg) (m n : Fin 12) (k : BitVec 8) (d e : Disp5) (i j : Ind) (x : Word),
    let place (d : Disp5) : Word := s.ar[d.n] + d.disp.setWidth 32
    src3 (.rr a b) s = .ok (s.rdI a, s.rdI b) s ∧ src3 (.rk a k) s = .ok (s.rdI a, k.signExtend 32) s ∧
    src3F (.rr m n) s = .ok (s.rdF m, s.rdF n) s ∧
    (dataRead (place d) s = .ok x t → src3 (.rd a d) s = .ok (s.rdI a, x) t ∧
      src3 (.dk d k) s = .ok (x, k.signExtend 32) t ∧ src3F (.rd m d) s = .ok (s.rdF m, x ++ 0#8) t) ∧
    (srcMem (.ind i) s = .ok x t → src3 (.ir i b) s = .ok (x, s.rdI b) t ∧ src3 (.ri a i) s = .ok (s.rdI a, x) t ∧
      src3F (.ir i n) s = .ok (x ++ 0#8, s.rdF n) t ∧ src3F (.ri m i) s = .ok (s.rdF m, x ++ 0#8) t) ∧
    (∀ (u : State) (y : Word), dataRead (place d) s = .ok x t → dataRead (place e) t = .ok y u →
      src3 (.dd d e) s = .ok (x, y) u ∧ src3F (.dd d e) s = .ok (x ++ 0#8, y ++ 0#8) u) ∧
    (∀ (hi lo u : State) (p q y : Word), memEval (.ind i) s = .ok p hi → memEval (.ind j) s = .ok q lo →
      dataRead p (s.moveBoth i hi lo) = .ok x t → dataRead q t = .ok y u →
      src3 (.ii i j) s = .ok (x, y) u ∧ src3F (.ii i j) s = .ok (x ++ 0#8, y ++ 0#8) u)

/-- The three-operand instructions (R452 to R470): each completes with its result from src1 and src2 and its flags;
CMPI3, TSTB3 and CMPF3 write the flags alone, and CMPF3 orders any two operands: N says that src1 is the smaller
number, Z that the two are equal, V and UF are those of the difference. Choices of the spec: N and Z of a result that
wraps, with OVM = 0, are those of the value written (D12, log entry 26), the type 2 immediates are sign-extended, those
of the logical instructions and of MPYUHI3 too (D13, log entry 24), ASH3 by more than 32 either way is the ideal shift
(D14, log entry 27), floating-point operands are aligned without guard bits and results truncated (D27, D26, log entry
27). Of the sources see Obligations.ThreeOperandSources. -/
def Obligations.ThreeOperand : Prop :=
  ∀ s t : State, s.annulled = false →
    (∀ (ops : Ops3) (dst : Reg) (x y : Word), src3 ops s = .ok (x, y) t →
      (∀ p ∈ [(Instr.addi3 ops dst, wideSum s.ovm x y false), (.addc3 ops dst, wideSum s.ovm x y s.cFlag),
          (.subi3 ops dst, wideDiff s.ovm x y false), (.subb3 ops dst, wideDiff s.ovm x y s.cFlag),
          (.mpyi3 ops dst, lowProduct s.ovm x y), (.mpyshi3 ops dst, highProduct x y),
          (.mpyuhi3 ops dst, highUnsigned x y), (.ash3 ops dst, arithShift x y), (.lsh3 ops dst, logicalShift x y),
          (.and3 ops dst, ⟨x &&& y, plainFlags (x &&& y)⟩), (.andn3 ops dst, ⟨x &&& ~~~y, plainFlags (x &&& ~~~y)⟩),
          (.or3 ops dst, ⟨x ||| y, plainFlags (x ||| y)⟩), (.xor3 ops dst, ⟨x ^^^ y, plainFlags (x ^^^ y)⟩)],
        exec p.1 s = .next (s.after (t.putI dst p.2.v p.2.f))) ∧
      exec (.tstb3 ops) s = .next (s.after (t.setFlags (plainFlags (x &&& y)))) ∧
      exec (.cmpi3 ops) s = .next (s.after (t.setFlags
        { n := x.slt y, z := x == y, v := x.ssubOverflow y, uf := false, c := some (x.ult y) }))) ∧
    (∀ (ops : FOps3) (dst : Fin 12) (x y : Ext), src3F ops s = .ok (x, y) t →
      (∀ p ∈ [(Instr.addf3 ops dst, fAdd x y), (.subf3 ops dst, fSub x y), (.mpyf3 ops dst, fMul x y)],
        exec p.1 s = .next (s.after (t.putF dst p.2.r (resultFlags p.2)))) ∧
      ∃ f : FlagRes, exec (.cmpf3 ops) s = .next (s.after (t.setFlags f)) ∧ CompareFlags x y f ∧
        (x = y → f.z = true ∧ f.n = false) ∧
        (fIsZero x = true → fIsZero y = false → f.z = false ∧ f.n = !y.getLsbD 31) ∧
        (fIsZero x = false → fIsZero y = true → f.z = false ∧ f.n = x.getLsbD 31))

/-! ## Interlocked instructions -/

/-- The interlocked instructions (R550 to R555): a load drives the lock pin of its external bus low before the read and
leaves it low, SIGI brings it high after the read, a store brings it high after the write; an on-chip address drives no
pin. STII stores its register as it was before the operand's mode modifies it, where it is the same auxiliary register
(R555, the spec's own decision D17, log entry 20). -/
def Obligations.Interlocked : Prop :=
  ∀ (m : Mem) (s t u : State) (a w : Word), memEval m s = .ok a t → s.annulled = false →
    let lock (x : State) (level : Bool) : State :=
      if region s.romen a = .globalBus then { x with pins := { x.pins with lock := level } }
      else if region s.romen a = .localBus then { x with pins := { x.pins with llock := level } } else x
    (dataRead a (lock t false) = .ok w u →
      u.pins.lock = (lock t false).pins.lock ∧ u.pins.llock = (lock t false).pins.llock ∧
      (∀ dst : Reg, exec (.ldii m dst) s = .next (s.after (u.putI dst w (plainFlags w)))) ∧
      (∀ dst : Fin 12, exec (.ldfi m dst) s =
        .next (s.after (u.putF dst (w ++ 0#8) (resultFlags (.exact (w ++ 0#8))))))) ∧
    (∀ dst : Reg, memRead .sigi a (lock t false) = .ok w u →
      exec (.sigi m dst) s = .next (s.after ((lock u true).putI dst w (plainFlags w)))) ∧
    (∀ src : Reg, dataWrite a (s.rdI src) t = .ok () u → exec (.stii src m) s = .next (s.after (lock u true))) ∧
    (∀ src : Fin 12, dataWrite a (s.r[src].extractLsb' 8 32) t = .ok () u →
      exec (.stfi src m) s = .next (s.after (lock u true)))

/-! ## Program control -/

/-- BR (R499): its word (a code that the spec marks 'from general knowledge, not in source'), and the jump by the
sign-extended displacement from the next address. -/
def Obligations.BranchAlways : Prop :=
  ∀ (disp : BitVec 24) (s : State), decode (0x60#8 ++ disp) = .ok (.br disp) ∧
    exec (.br disp) s = .next (s.goto (s.pc + 1 + disp.signExtend 32))

/-- The conditional and delayed branches (R490, R493 to R496, R500, R503, R504): the target is a register or is
relative to the next address, for a delayed branch to the address of its third slot; DBcond and DBcondD decrement their
auxiliary register, branch on the flags before and a count that is not negative, and read a register target before the
decrement (the spec's own decision D17, log entry 20). -/
def Obligations.Branches : Prop :=
  ∀ (s : State) (c : Cond) (tg : BTarget) (disp : BitVec 24) (n : Fin 8),
    let goal (k : Word) : Word := match tg with
      | .reg r => s.rdI r
      | .rel d => s.pc + k + d.signExtend 32
    let dec : State := { s with ar := s.ar.set n (s.ar[n] - 1) }
    let go : Bool := s.cond c && decide (0 ≤ (s.ar[n] - 1).toInt)
    exec (.bcond c tg) s = .next (if s.cond c then s.goto (goal 1) else s.after s) ∧
    exec (.bcondD c tg) s = .next (s.slots s (if s.cond c then some (goal 3) else none) false) ∧
    exec (.bcondAT c tg) s = .next (s.slots s (if s.cond c then some (goal 3) else none) (s.cond c)) ∧
    exec (.bcondAF c tg) s = .next (s.slots s (if s.cond c then some (goal 3) else none) (!s.cond c)) ∧
    exec (.brd disp) s = .next (s.slots s (some (s.pc + 3 + disp.signExtend 32)) false) ∧
    exec (.dbcond n c tg) s = .next (if go then dec.goto (goal 1) else s.after dec) ∧
    exec (.dbcondD n c tg) s = .next (s.slots dec (if go then some (goal 3) else none) false)

/-- The three slots of a delayed instruction (R497, R712): after each of the first two one slot fewer remains, after
the third the program goes on at the target, or in sequence without one; no interrupt is taken meanwhile, and no
instruction that changes the program flow may stand there (U3, log entry 32). A slot at the end of a repeat block
(R531, the spec's own decision D24, log entry 34) decrements RC, and the program goes on at RS while RC is not
negative, else RM becomes 0; that the slots of a taken branch come first and its target then counts, and that the slots
of RPTBD are no part of its block (R524), is DEDUCED (log entry 34). A delayed instruction among the last four of the
block is refused (Obligations.Stops). -/
def Obligations.DelaySlots : Prop :=
  ∀ (before s : State) (d : Delay), before.delay = some d →
    (before.stBit 8 = false → s.stBit 8 = false → s.stalled = false →
      (2 ≤ d.left → retire before s =
        .next { s with delay := some { d with left := d.left - 1 }, unflushed := s.unflushed - 1 }) ∧
      (d.left ≤ 1 → d.target = none → retire before s = .next { s with delay := none, unflushed := s.unflushed - 1 }) ∧
      (d.left ≤ 1 → ∀ p, d.target = some p → retire before s = .next { s with delay := none, unflushed := 0, pc := p })) ∧
    (before.sFlag = false → s.sFlag = false → s.stalled = false → s.unflushed = 0 →
      let slot (u : State) : State := if 2 ≤ d.left then { u with delay := some { d with left := d.left - 1 } }
        else match d.target with
          | none => { u with delay := none }
          | some p => { u with delay := none, pc := p }
      let round : State := if 0 ≤ (s.rc - 1).toInt
        then { s with rc := s.rc - 1, pc := if d.target = none then s.rs else s.pc }
        else { s with rc := s.rc - 1, st := s.st &&& 0xFEFF }
      (s.re ≠ before.pc → retire before s = .next (slot s)) ∧
      (before.stBit 8 = true → s.stBit 8 = true → before.re = before.pc → s.re = before.pc →
        retire before s = .next (slot (if d.kind = .rptbd then s else round)))) ∧
    before.irqBlocked = true ∧ before.annulled = d.annul ∧
    ∀ (c : Cond) (tg : BTarget) (disp : BitVec 24) (n : Fin 8) (r : Reg) (v : BitVec 9) (src : Src),
      ∀ i ∈ [Instr.bcond c tg, .bcondD c tg, .bcondAF c tg, .bcondAT c tg, .br disp, .brd disp, .dbcond n c tg,
          .dbcondD n c tg, .call disp, .callcond c tg, .idle, .laj disp, .lajcond c tg, .latcond c v, .reticond c,
          .reticondD c, .retscond c, .rptbRel disp, .rptbReg r, .rptbdRel disp, .rptbdReg r, .rpts src, .trapcond c v],
        placement i before = some .delaySlot

/-- Calls and links (R501, R502, R505, R506): CALL and CALLcond push the next address and jump; LAJ and LAJcond write
the address after their slots into the integer part of R11, before the slots execute (decision D18, log entry 35), and
jump after the slots, to a register as it was before the link (D17, log entry 20). A LAJcond that is not taken opens
slots too, in which no interrupt is taken and no branch may stand (DEDUCED, log entry 54). -/
def Obligations.CallsAndLinks : Prop :=
  ∀ (s t : State) (c : Cond) (tg : BTarget) (disp : BitVec 24),
    let goal (k : Word) : Word := match tg with
      | .reg r => s.rdI r
      | .rel d => s.pc + k + d.signExtend 32
    (dataWrite (s.sp + 1) (s.pc + 1) { s with sp := s.sp + 1 } = .ok () t →
      exec (.call disp) s = .next (t.goto (s.pc + 1 + disp.signExtend 32)) ∧
      (s.cond c = true → exec (.callcond c tg) s = .next (t.goto (goal 1)))) ∧
    (s.cond c = false → exec (.callcond c tg) s = .next (s.after s)) ∧
    exec (.laj disp) s = .next (s.slots (s.wrI (.r 11) (s.pc + 4)) (some (s.pc + 3 + disp.signExtend 32)) false) ∧
    exec (.lajcond c tg) s = .next (if s.cond c then s.slots (s.wrI (.r 11) (s.pc + 4)) (some (goal 3)) false
      else s.slots s none false)

/-- Traps (R507, R527, R720): TRAPcond saves GIE and CF, disables the interrupts, freezes the cache, pushes the next
address and goes to the address in the word at TVTP + N; LATcond does the same with the link in R11 instead of the
stack, written before its slots (decision D18, log entry 35), and goes there after three slots. An instruction that
writes ST in such a slot is refused (U3, log entry 32). A LATcond that is not taken opens slots of the common kind
(DEDUCED, log entry 54). -/
def Obligations.TrapsTaken : Prop :=
  (∀ (s t u : State) (c : Cond) (n : BitVec 9) (v : Word),
    (s.cond c = true →
      dataWrite (s.sp + 1) (s.pc + 1) { s with st := enteredStatus s.st, sp := s.sp + 1 } = .ok () t →
      dataRead (s.tvtp + n.setWidth 32) t = .ok v u → exec (.trapcond c n) s = .next (u.goto v)) ∧
    (s.cond c = true →
      dataRead (s.tvtp + n.setWidth 32) ({ s with st := enteredStatus s.st }.wrI (.r 11) (s.pc + 4)) = .ok v u →
      exec (.latcond c n) s = .next (s.after
        { u with delay := some { target := some v, left := 3, annul := false, kind := .latTaken } })) ∧
    (s.cond c = false → exec (.trapcond c n) s = .next (s.after s) ∧
      exec (.latcond c n) s = .next (s.slots s none false))) ∧
  ∀ (s : State) (d : Delay) (src : Src) (b : Fin 4) (h : Fin 2) (q : RSrc) (f : FSrc) (ops : Ops3) (m : Mem)
      (x : XReg) (c : Cond) (k : BitVec 16), s.delay = some d → d.kind = .latTaken →
    ∀ i ∈ [Instr.absi src .st, .addc src .st, .addi src .st, .and src .st, .andn src .st, .ash src .st, .ldi src .st,
        .lsh src .st, .mpyi src .st, .mpyshi src .st, .mpyuhi src .st, .negb src .st, .negi src .st, .not src .st,
        .or src .st, .subb src .st, .subc src .st, .subi src .st, .subrb src .st, .subri src .st, .xor src .st,
        .ldicond c src .st, .fix f .st, .ldii m .st, .sigi m .st, .pop .st, .rol .st, .rolc .st, .ror .st, .rorc .st,
        .ldhi k .st, .ldep x .st, .lb b q .st, .lbu b q .st, .lwl b q .st, .lwr b q .st, .mb b q .st, .lh h q .st,
        .lhu h q .st, .mh h q .st, .addc3 ops .st, .addi3 ops .st, .and3 ops .st, .andn3 ops .st, .ash3 ops .st,
        .lsh3 ops .st, .mpyi3 ops .st, .mpyshi3 ops .st, .mpyuhi3 ops .st, .or3 ops .st, .subb3 ops .st,
        .subi3 ops .st, .xor3 ops .st],
      runInstr i s = .refused .latSlotStatus

/-- Returns (R520 to R522, R732): RETIcond pops the pc and restores GIE and CF from PGIE and PCF; RETIcondD does so at
once and jumps after three slots (the spec's own decision D23, log entry 35); RETScond pops the pc alone. A RETIcondD
that is not taken opens slots too (DEDUCED, log entry 54). -/
def Obligations.Returns : Prop :=
  ∀ (s t : State) (c : Cond) (v : Word),
    (s.cond c = true → dataRead s.sp s = .ok v t →
      exec (.reticond c) s = .next ({ t with sp := s.sp - 1, st := returnedStatus s.st }.goto v) ∧
      exec (.reticondD c) s = .next (s.slots { t with sp := s.sp - 1, st := returnedStatus s.st } (some v) false) ∧
      exec (.retscond c) s = .next ({ t with sp := s.sp - 1 }.goto v)) ∧
    (s.cond c = false →
      exec (.reticond c) s = .next (s.after s) ∧ exec (.reticondD c) s = .next (s.slots s none false) ∧
      exec (.retscond c) s = .next (s.after s))

/-- The repeat instructions (R523 to R525): RS, RE, RM and S, with a displacement or a register; RPTBD begins after its
three slots; RPTS also loads RC, from an immediate zero-extended (the spec's own decision D21, log entry 24), and
repeats the next instruction. -/
def Obligations.RepeatStarts : Prop :=
  ∀ (s t : State) (disp : BitVec 24) (r : Reg) (src : Src) (v : Word),
    let block (start last : Word) : State :=
      { s with st := s.st ||| 0x100, rs := start, re := last, sFlag := false }
    let later (u : State) : State :=
      s.after { u with delay := some { target := none, left := 3, annul := false, kind := .rptbd } }
    exec (.rptbRel disp) s = .next ((block (s.pc + 1) (s.pc + 1 + disp.signExtend 32)).goto (s.pc + 1)) ∧
    exec (.rptbReg r) s = .next ((block (s.pc + 1) (s.rdI r)).goto (s.pc + 1)) ∧
    exec (.rptbdRel disp) s = .next (later (block (s.pc + 4) (s.pc + 3 + disp.signExtend 32))) ∧
    exec (.rptbdReg r) s = .next (later (block (s.pc + 4) (s.rdI r))) ∧
    (srcU src s = .ok v t → exec (.rpts src) s = .next
      ({ t with st := t.st ||| 0x100, rs := s.pc + 1, re := s.pc + 1, rc := v, sFlag := true }.goto (s.pc + 1)))

/-- The repeat modes (R531, R532, the spec's own decision D24, log entry 34): after the last instruction of a block RC
is decremented, and the program goes on at RS while RC is not negative, else in sequence with RM = 0; after a repeated
instruction likewise at the same word, from the instruction register, and else behind RE. -/
def Obligations.Repeats : Prop :=
  ∀ before s : State, before.stBit 8 = true → s.stBit 8 = true → s.stalled = false → before.delay = none →
    (before.sFlag = false → s.sFlag = false → before.re = before.pc → s.re = before.pc → s.unflushed = 0 →
      retire before s = .next (if 0 ≤ (s.rc - 1).toInt then { s with rc := s.rc - 1, pc := s.rs }
        else { s with rc := s.rc - 1, st := s.st &&& 0xFEFF })) ∧
    (before.sFlag = true →
      retire before s = .next (if 0 ≤ (s.rc - 1).toInt
        then { s with rc := s.rc - 1, pc := s.pc - 1, held := true, unflushed := s.unflushed - 1 }
        else { s with rc := s.rc - 1, pc := s.re + 1, st := s.st &&& 0xFEFF, sFlag := false,
                      unflushed := s.unflushed - 1 }))

/-- IDLE, NOP and IACK (R508 to R510, R734, R760): IDLE sets GIE (the spec's own decision D22, log entry 36) and the
CPU then waits, step by step, while no interrupt may be taken, but for the DMA latches, at every boundary without
events; NOP with an indirect operand updates its register and reads; IACK reads with the pin low, and leaves it high,
where the address is external. -/
def Obligations.IdleNopIack : Prop :=
  ∀ (s t u : State) (m : Mem) (i : Ind) (r : Reg) (a v : Word),
    let iack (x : State) (level : Bool) : State :=
      if region s.romen a = .globalBus ∨ region s.romen a = .localBus
        then { x with pins := { x.pins with iack := level } } else x
    exec .idle s = .next (s.after { s with st := s.st ||| 0x2000, idle := true, unflushed := 0 }) ∧
    (∀ l, s.idle = true → s.script = { events := [], defer := false } :: l → s.boot = none →
      (s.irqBlocked = true ∨ s.irqChoice = none) →
      step s = .next (latchDma { s with script := l, pins := { s.pins with stat := 15, lstat := 15 } })) ∧
    exec (.nop (.reg r)) s = .next (s.after s) ∧
    (srcMem (.ind i) s = .ok v t → exec (.nop (.ind i)) s = .next (s.after t)) ∧
    (memEval m s = .ok a t → dataRead a (iack t false) = .ok v u →
      exec (.iack m) s = .next (s.after (iack u true)))

/-! ## Parallel instructions -/

/-- Two loads (R570, R572) and two stores (R581, R582): both addresses come from the registers before the instruction,
the load of the first line comes first, of the stores that to dst1 (bits 15-8) comes first (R112, R868; the blocks of
R581 and R582 list dst2 first, log entry 55), and no flag changes. Where both name one auxiliary register, it is left
as the mode of bits 15-8 leaves it and the update of bits 7-0 is lost (R166, R167, the spec's own decision D10, log
entry 21). Two stores to one address (U10) store values that are left open (the model's choice, log entry 49). -/
def Obligations.TwoLoadsTwoStores : Prop :=
  ∀ (s hi lo : State) (i j : Ind) (p q : Word) (m n : Fin 8),
    memEval (.ind i) s = .ok p hi → memEval (.ind j) s = .ok q lo → s.annulled = false →
    (∀ (t u : State) (x y : Word), m ≠ n → dataRead q (s.moveBoth i hi lo) = .ok x t → dataRead p t = .ok y u →
      exec (.ldiLdi m n i j) s = .next (s.after ((u.wrI (.r (low n)) x).wrI (.r (low m)) y)) ∧
      exec (.ldfLdf m n i j) s = .next (s.after ((u.wrF (low n) (x ++ 0#8)).wrF (low m) (y ++ 0#8)))) ∧
    (∀ t u : State, p ≠ q → dataWrite p (s.rdI (.r (low n))) (s.moveBoth i hi lo) = .ok () t →
      dataWrite q (s.rdI (.r (low m))) t = .ok () u → exec (.stiSti m n i j) s = .next (s.after u)) ∧
    (∀ t u : State, p ≠ q → dataWrite p (s.r[low n].extractLsb' 8 32) (s.moveBoth i hi lo) = .ok () t →
      dataWrite q (s.r[low m].extractLsb' 8 32) t = .ok () u → exec (.stfStf m n i j) s = .next (s.after u)) ∧
    (∀ t u : State, p = q →
      dataWrite p (Config.freeWord s.free) { s.moveBoth i hi lo with free := s.free + 2 } = .ok () t →
      dataWrite p (Config.freeWord (s.free + 1)) t = .ok () u →
      exec (.stiSti m n i j) s = .next (s.after u) ∧ exec (.stfStf m n i j) s = .next (s.after u))

/-- An operation with a store (R560 to R569, R571, R573 to R580, R583 to R586): the word `w` is read at src2, then the
old value of src3 is stored at dst2, then the operation writes dst1 and its flags; SUBF3 and SUBI3 subtract the
register from the word, ASH3 and LSH3 shift the word by the register. Where both name one auxiliary register, it is
left as the mode of bits 15-8 leaves it and the update of bits 7-0 is lost (R166, R167, the spec's own decision D10,
log entry 21). Choices of the spec: N and Z of a result that wraps, with OVM = 0, are those of the value written (D12,
log entry 26), ASH3 by more than 32 either way is the ideal shift (D14, log entry 27), TOIEEE clears bits 7-0 of its
destination (D20, log entry 31), addends are aligned without guard bits and results truncated (D27 and D26, log entry
27). -/
def Obligations.OperationWithStore : Prop :=
  ∀ (s hi lo t u : State) (d2 s2 : Ind) (d1 r3 r1 : Fin 8) (p q w : Word),
    memEval (.ind d2) s = .ok p hi → memEval (.ind s2) s = .ok q lo → s.annulled = false →
    dataRead q (s.moveBoth d2 hi lo) = .ok w t →
    (dataWrite p (s.rdI (.r (low r3))) t = .ok () u →
      let a := s.rdI (.r (low r1))
      exec (.ldiSti d1 r3 d2 s2) s = .next (s.after (u.wrI (.r (low d1)) w)) ∧
      ∀ x ∈ [(Instr.absiSti d1 r3 d2 s2, absResult s.ovm w), (.fixSti d1 r3 d2 s2, fixResult (w ++ 0#8)),
          (.negiSti d1 r3 d2 s2, wideDiff s.ovm 0 w false), (.notSti d1 r3 d2 s2, ⟨~~~w, plainFlags (~~~w)⟩),
          (.addi3Sti d1 r1 r3 d2 s2, wideSum s.ovm a w false), (.subi3Sti d1 r1 r3 d2 s2, wideDiff s.ovm w a false),
          (.mpyi3Sti d1 r1 r3 d2 s2, lowProduct s.ovm a w), (.ash3Sti d1 r1 r3 d2 s2, arithShift w a),
          (.lsh3Sti d1 r1 r3 d2 s2, logicalShift w a), (.and3Sti d1 r1 r3 d2 s2, ⟨a &&& w, plainFlags (a &&& w)⟩),
          (.or3Sti d1 r1 r3 d2 s2, ⟨a ||| w, plainFlags (a ||| w)⟩),
          (.xor3Sti d1 r1 r3 d2 s2, ⟨a ^^^ w, plainFlags (a ^^^ w)⟩)],
        exec x.1 s = .next (s.after (u.putI (.r (low d1)) x.2.v x.2.f))) ∧
    (dataWrite p (s.r[low r3].extractLsb' 8 32) t = .ok () u →
      let a := s.r[low r1]
      let m : Ext := w ++ 0#8
      exec (.ldfStf d1 r3 d2 s2) s = .next (s.after (u.wrF (low d1) m)) ∧
      (∀ x ∈ [(Instr.negfStf d1 r3 d2 s2, fSub fZero m), (.floatStf d1 r3 d2 s2, .exact (fFloat w)),
          (.addf3Stf d1 r1 r3 d2 s2, fAdd a m), (.subf3Stf d1 r1 r3 d2 s2, fSub m a),
          (.mpyf3Stf d1 r1 r3 d2 s2, fMul a m)],
        exec x.1 s = .next (s.after (u.putF (low d1) x.2.r (resultFlags x.2)))) ∧
      exec (.absfStf d1 r3 d2 s2) s = .next (s.after (u.putF (low d1) (fAbs m).r (absFloatFlags m))) ∧
      exec (.frieeeStf d1 r3 d2 s2) s = .next (s.after (u.putF (low d1) (fromIEEE w).1
        { resultFlags (.exact (fromIEEE w).1) with v := (fromIEEE w).2 })) ∧
      exec (.toieeeStf d1 r3 d2 s2) s = .next (s.after (u.putF (low d1) ((toIEEE m).1 ++ 0#8)
        { plainFlags (toIEEE m).1 with v := (toIEEE m).2 })))

/-- The multiply pairs (R590 to R594): the P field says which of the two registers and of the two words are the
factors; the product goes to R0 or R1, the sum or difference to R2 or R3; N and Z are 0, V and UF those of either half.
The word of bits 15-8 is read first. Where both name one auxiliary register, it is left as the mode of bits 15-8 leaves
it and the update of bits 7-0 is lost (R166, R167, the spec's own decision D10, log entry 21). Floating-point addends
are aligned without guard bits and results truncated (the spec's own decisions D27, D26, log entry 27). -/
def Obligations.MultiplyPairs : Prop :=
  ∀ (s hi lo t u : State) (i j : Ind) (k : Fin 4) (d1 d2 : Fin 2) (m n : Fin 8) (p q x y : Word),
    memEval (.ind i) s = .ok p hi → memEval (.ind j) s = .ok q lo → s.annulled = false →
    dataRead p (s.moveBoth i hi lo) = .ok x t → dataRead q t = .ok y u →
    let dp : Fin 12 := if d1 = 0 then 0 else 1
    let ds : Fin 12 := if d2 = 0 then 2 else 3
    let fl (v uf : Bool) : FlagRes := { n := false, z := false, v := v, uf := uf, c := none }
    (let a := s.rdI (.r (low m))
     let b := s.rdI (.r (low n))
     let f := if k = 0 then (x, y) else if k = 2 then (a, b) else (x, a)
     let g := if k = 0 then (a, b) else if k = 1 then (y, b) else if k = 2 then (x, y) else (b, y)
     ∀ z ∈ [(Instr.mpyi3Addi3 k d1 d2 m n i j, wideSum s.ovm g.1 g.2 false),
         (.mpyi3Subi3 k d1 d2 m n i j, wideDiff s.ovm g.1 g.2 false)],
       exec z.1 s = .next (s.after (((u.wrI (.r dp) (lowProduct s.ovm f.1 f.2).v).wrI (.r ds) z.2.v).setFlags
         (fl ((lowProduct s.ovm f.1 f.2).f.v || z.2.f.v) false)))) ∧
    (let a := s.r[low m]
     let b := s.r[low n]
     let x : Ext := x ++ 0#8
     let y : Ext := y ++ 0#8
     let f := if k = 0 then (x, y) else if k = 2 then (a, b) else (x, a)
     let g := if k = 0 then (a, b) else if k = 1 then (y, b) else if k = 2 then (x, y) else (b, y)
     ∀ z ∈ [(Instr.mpyf3Addf3 k d1 d2 m n i j, fAdd g.1 g.2), (.mpyf3Subf3 k d1 d2 m n i j, fSub g.1 g.2)],
       exec z.1 s = .next (s.after (((u.wrF dp (fMul f.1 f.2).r).wrF ds z.2.r).setFlags
         (fl ((fMul f.1 f.2).ovf || z.2.ovf) ((fMul f.1 f.2).unf || z.2.unf)))))

/-! ## Annulled slots and frames -/

/-- An annulled slot (R498, R863): the operands are still read and the address registers, SP, and the registers of LDA
and LDPK change, and the pins that a read drives are driven; no other register, no flag and no memory does. What R498
does not name of this is DEDUCED (log entry 25); that the lock pin is driven by a kept read, and by no cancelled store,
is the model's choice (DESIGN CHOICE, log entry 25), and so are the two free values that two stores to one address draw
(log entries 25 and 49). Where both name one auxiliary register, it is left as the mode of bits 15-8 leaves it and the
update of bits 7-0 is lost (R166, R167, the spec's own decision D10, log entry 21). -/
def Obligations.AnnulledSlot : Prop :=
  ∀ s t : State, s.annulled = true →
    (∀ (src : Src) (dst : Reg) (n : Fin 12) (c : Cond) (a : Word), srcI src s = .ok a t →
      (∀ i ∈ [Instr.absi src dst, .addc src dst, .addi src dst, .ash src dst, .cmpi src dst, .ldi src dst,
          .ldicond c src dst, .lsh src dst, .mpyi src dst, .mpyshi src dst, .mpyuhi src dst, .negb src dst,
          .negi src dst, .subb src dst, .subi src dst, .subrb src dst, .subri src dst, .float src n],
        exec i s = .next (s.after t)) ∧
      (dst.isAddress = true → exec (.lda src dst) s = .next (s.after (t.wrI dst a)))) ∧
    (∀ (src : Src) (dst : Reg) (a : Word), srcU src s = .ok a t →
      ∀ i ∈ [Instr.and src dst, .andn src dst, .not src dst, .or src dst, .xor src dst, .tstb src dst,
          .subc src dst], exec i s = .next (s.after t)) ∧
    (∀ (src : FSrc) (dst : Fin 12) (d : Reg) (c : Cond) (a : Ext), srcF src s = .ok a t →
      ∀ i ∈ [Instr.absf src dst, .addf src dst, .cmpf src dst, .lde src dst, .ldf src dst, .ldfcond c src dst,
          .mpyf src dst, .negf src dst, .norm src dst, .rnd src dst, .subf src dst, .subrf src dst, .fix src d],
        exec i s = .next (s.after t)) ∧
    (∀ (src : RSrc) (dst : Reg) (b : Fin 4) (h : Fin 2) (a : Word), srcR src s = .ok a t →
      ∀ i ∈ [Instr.lb b src dst, .lbu b src dst, .lwl b src dst, .lwr b src dst, .mb b src dst, .lh h src dst,
          .lhu h src dst, .mh h src dst], exec i s = .next (s.after t)) ∧
    (∀ (src : FRSrc) (dst : Fin 12) (a : Ext), srcFR src s = .ok a t →
      ∀ i ∈ [Instr.rcpf src dst, .rsqrf src dst, .toieee src dst], exec i s = .next (s.after t)) ∧
    (∀ (m : Mem) (src dst : Fin 12) (a : Word), srcMem m s = .ok a t →
      exec (.frieee m dst) s = .next (s.after t) ∧ exec (.ldm (.reg src) dst) s = .next (s.after s) ∧
      exec (.ldm (match m with | .dir a => .dir a | .ind i => .ind i) dst) s = .next (s.after t)) ∧
    (∀ (ops : Ops3) (dst : Reg) (x y : Word), src3 ops s = .ok (x, y) t →
      ∀ i ∈ [Instr.addc3 ops dst, .addi3 ops dst, .and3 ops dst, .andn3 ops dst, .ash3 ops dst, .lsh3 ops dst,
          .mpyi3 ops dst, .mpyshi3 ops dst, .mpyuhi3 ops dst, .or3 ops dst, .subb3 ops dst, .subi3 ops dst,
          .xor3 ops dst, .cmpi3 ops, .tstb3 ops], exec i s = .next (s.after t)) ∧
    (∀ (ops : FOps3) (dst : Fin 12) (x y : Ext), src3F ops s = .ok (x, y) t →
      ∀ i ∈ [Instr.addf3 ops dst, .subf3 ops dst, .mpyf3 ops dst, .cmpf3 ops], exec i s = .next (s.after t)) ∧
    (∀ (m : Mem) (src : Reg) (f : Fin 12) (k : BitVec 5) (a : Word), memEval m s = .ok a t →
      ∀ i ∈ [(match m with | .dir d => Instr.stiDir src d | .ind i => .stiInd src i),
          (match m with | .dir d => .stikDir k d | .ind i => .stikInd k i), .stf f m, .stfi f m, .stii src m],
        exec i s = .next (s.after t)) ∧
    (∀ (m : Mem) (dst : Reg) (f : Fin 12) (a w : Word) (u v : State), memEval m s = .ok a u →
      (dataRead a (u.driveLock a false) = .ok w t → exec (.ldii m dst) s = .next (s.after t) ∧
        exec (.ldfi m f) s = .next (s.after t)) ∧
      (memRead .sigi a (u.driveLock a false) = .ok w v →
        exec (.sigi m dst) s = .next (s.after (v.driveLock a true))) ∧
      (dataRead a (u.driveIack a false) = .ok w v → exec (.iack m) s = .next (s.after (v.driveIack a true)))) ∧
    (∀ (src dst : Reg) (f : Fin 12) (x : XReg) (k : BitVec 16),
      (∀ i ∈ [Instr.push src, .pushf f], exec i s = .next (s.after { s with sp := s.sp + 1 })) ∧
      (∀ i ∈ [Instr.ldhi k dst, .ldep x dst, .ldpe src x, .rol dst, .rolc dst, .ror dst, .rorc dst, .nop (.reg dst),
          .ldm (.imm k) f], exec i s = .next (s.after s)) ∧
      exec (.ldpk k) s = .next (s.after { s with dp := k })) ∧
    (∀ (dst : Reg) (f : Fin 12) (w : Word), dataRead s.sp s = .ok w t →
      ∀ i ∈ [Instr.pop dst, .popf f], exec i s = .next (s.after { t with sp := s.sp - 1 })) ∧
    (∀ (i : Ind) (w : Word), srcMem (.ind i) s = .ok w t → exec (.nop (.ind i)) s = .next (s.after t)) ∧
    (∀ (i j : Ind) (hi lo u : State) (p q x y : Word) (k : Fin 4) (d1 d2 : Fin 2) (m n l : Fin 8),
      memEval (.ind i) s = .ok p hi → memEval (.ind j) s = .ok q lo →
      (∀ z ∈ [Instr.stfStf m n i j, .stiSti m n i j], exec z s = .next (s.after
        (if p = q then { s.moveBoth i hi lo with free := s.free + 2 } else s.moveBoth i hi lo))) ∧
      (dataRead q (s.moveBoth i hi lo) = .ok x t →
        (∀ z ∈ [Instr.addi3Sti m n l i j, .subi3Sti m n l i j, .negiSti m l i j, .ash3Sti m n l i j,
            .lsh3Sti m n l i j, .absiSti m l i j, .fixSti m l i j, .mpyi3Sti m n l i j, .and3Sti m n l i j,
            .or3Sti m n l i j, .xor3Sti m n l i j, .notSti m l i j, .ldiSti m l i j, .ldfStf m l i j, .absfStf m l i j,
            .floatStf m l i j, .negfStf m l i j, .toieeeStf m l i j, .frieeeStf m l i j, .addf3Stf m n l i j,
            .subf3Stf m n l i j, .mpyf3Stf m n l i j], exec z s = .next (s.after t)) ∧
        (dataRead p t = .ok y u → m ≠ n → ∀ z ∈ [Instr.ldfLdf m n i j, .ldiLdi m n i j],
          exec z s = .next (s.after u))) ∧
      (dataRead p (s.moveBoth i hi lo) = .ok x t → dataRead q t = .ok y u →
        ∀ z ∈ [Instr.mpyf3Addf3 k d1 d2 m n i j, .mpyf3Subf3 k d1 d2 m n i j, .mpyi3Addi3 k d1 d2 m n i j,
          .mpyi3Subi3 k d1 d2 m n i j], exec z s = .next (s.after u)))

/-- The frame of the instructions that compute into registers (R41, R47, R170, R351, R451, R560): where one answers a
next state, only its destination, the auxiliary registers that its addressing modes modify, and the condition flags
named for it have changed, the flags of an instruction with an integer destination only where the gate of R47 is
open; memory and everything else is as it was. Register and memory sources, all forms. -/
def Obligations.FrameComputing : Prop :=
  ∀ s u : State,
    (∀ (src : Src) (dst : Reg) (c : Cond) (b : Fin 12),
      (∀ x ∈ [(Instr.addi src dst, 0x3F#16), (.addc src dst, 0x3F#16), (.subi src dst, 0x3F#16),
          (.subb src dst, 0x3F#16), (.subri src dst, 0x3F#16), (.subrb src dst, 0x3F#16), (.negi src dst, 0x3F#16),
          (.negb src dst, 0x3F#16), (.ash src dst, 0x3F#16), (.absi src dst, 0x3E#16), (.mpyi src dst, 0x3E#16),
          (.lsh src dst, 0x1F#16), (.mpyshi src dst, 0x1E#16), (.mpyuhi src dst, 0x1E#16), (.and src dst, 0x1E#16),
          (.andn src dst, 0x1E#16), (.or src dst, 0x1E#16), (.xor src dst, 0x1E#16), (.not src dst, 0x1E#16),
          (.ldi src dst, 0x1E#16), (.subc src dst, 0), (.ldicond c src dst, 0), (.lda src dst, 0)],
        exec x.1 s = .next u → s.Keeps u (dst :: movesOf src.mems) (if s.flagsOn dst then x.2 else 0)
          (addrsOf s src.mems) [] ∧ s.Quiet u) ∧
      (∀ x ∈ [(Instr.cmpi src dst, 0x3F#16), (.tstb src dst, 0x1E#16)],
        exec x.1 s = .next u → s.Keeps u (movesOf src.mems) x.2 (addrsOf s src.mems) [] ∧ s.Quiet u) ∧
      (exec (.float src b) s = .next u →
        s.Keeps u (.r b :: movesOf src.mems) 0x1E (addrsOf s src.mems) [] ∧ s.Quiet u)) ∧
    (∀ (src : FSrc) (dst : Fin 12) (d : Reg) (c : Cond),
      (∀ x ∈ [(Instr.addf src dst, 0x7E#16), (.subf src dst, 0x7E#16), (.subrf src dst, 0x7E#16),
          (.mpyf src dst, 0x7E#16), (.negf src dst, 0x7E#16), (.rnd src dst, 0x7E#16), (.absf src dst, 0x3E#16),
          (.norm src dst, 0x5E#16), (.ldf src dst, 0x1E#16), (.ldfcond c src dst, 0), (.lde src dst, 0),
          (.ldm src dst, 0)],
        exec x.1 s = .next u → s.Keeps u (.r dst :: movesOf src.mems) x.2 (addrsOf s src.mems) [] ∧ s.Quiet u) ∧
      (exec (.cmpf src dst) s = .next u → s.Keeps u (movesOf src.mems) 0x7E (addrsOf s src.mems) [] ∧ s.Quiet u) ∧
      (exec (.fix src d) s = .next u → s.Keeps u (d :: movesOf src.mems) (if s.flagsOn d then 0x3E else 0)
        (addrsOf s src.mems) [] ∧ s.Quiet u)) ∧
    (∀ (src : RSrc) (dst : Reg) (b : Fin 4) (h : Fin 2),
      ∀ i ∈ [Instr.lb b src dst, .lbu b src dst, .lwl b src dst, .lwr b src dst, .mb b src dst, .lh h src dst,
          .lhu h src dst, .mh h src dst],
        exec i s = .next u → s.Keeps u (dst :: movesOf src.mems) (if s.flagsOn dst then 0x1E else 0)
          (addrsOf s src.mems) [] ∧ s.Quiet u) ∧
    (∀ (src : FRSrc) (dst : Fin 12),
      ∀ x ∈ [(Instr.rcpf src dst, 0x3E#16), (.rsqrf src dst, 0x7F#16), (.toieee src dst, 0x3E#16)],
        exec x.1 s = .next u → s.Keeps u (.r dst :: movesOf src.mems) x.2 (addrsOf s src.mems) [] ∧ s.Quiet u) ∧
    (∀ (src : Mem) (dst : Fin 12), exec (.frieee src dst) s = .next u →
      s.Keeps u (.r dst :: src.moves) 0x3E [s.memAddr src] [] ∧ s.Quiet u) ∧
    (∀ (ops : Ops3) (dst : Reg),
      (∀ x ∈ [(Instr.addi3 ops dst, 0x3F#16), (.addc3 ops dst, 0x3F#16), (.subi3 ops dst, 0x3F#16),
          (.subb3 ops dst, 0x3F#16), (.ash3 ops dst, 0x3F#16), (.mpyi3 ops dst, 0x3E#16), (.lsh3 ops dst, 0x1F#16),
          (.mpyshi3 ops dst, 0x1E#16), (.mpyuhi3 ops dst, 0x1E#16), (.and3 ops dst, 0x1E#16),
          (.andn3 ops dst, 0x1E#16), (.or3 ops dst, 0x1E#16), (.xor3 ops dst, 0x1E#16)],
        exec x.1 s = .next u → s.Keeps u (dst :: movesOf ops.mems) (if s.flagsOn dst then x.2 else 0)
          (addrsOf s ops.mems) [] ∧ s.Quiet u) ∧
      (∀ x ∈ [(Instr.cmpi3 ops, 0x3F#16), (.tstb3 ops, 0x1E#16)],
        exec x.1 s = .next u → s.Keeps u (movesOf ops.mems) x.2 (addrsOf s ops.mems) [] ∧ s.Quiet u)) ∧
    (∀ (ops : FOps3) (dst : Fin 12),
      (∀ i ∈ [Instr.addf3 ops dst, .subf3 ops dst, .mpyf3 ops dst],
        exec i s = .next u → s.Keeps u (.r dst :: movesOf ops.mems) 0x7E (addrsOf s ops.mems) [] ∧ s.Quiet u) ∧
      (exec (.cmpf3 ops) s = .next u → s.Keeps u (movesOf ops.mems) 0x7E (addrsOf s ops.mems) [] ∧ s.Quiet u)) ∧
    (∀ (dst : Reg) (n : Fin 12) (x : XReg) (k : BitVec 16),
      (∀ y ∈ [(Instr.rol dst, 0x1F#16), (.rolc dst, 0x1F#16), (.ror dst, 0x1F#16), (.rorc dst, 0x1F#16),
          (.ldhi k dst, 0), (.ldep x dst, 0)],
        exec y.1 s = .next u → s.Keeps u [dst] (if s.flagsOn dst then y.2 else 0) [] [] ∧ s.Quiet u) ∧
      (exec (.ldpk k) s = .next u → s.Keeps u [.dp] 0 [] [] ∧ s.Quiet u) ∧
      (exec (.pop dst) s = .next u → s.Keeps u [dst, .sp] (if s.flagsOn dst then 0x1E else 0) [s.sp] [] ∧ s.Quiet u) ∧
      (exec (.popf n) s = .next u → s.Keeps u [.r n, .sp] 0x1E [s.sp] [] ∧ s.Quiet u)) ∧
    (∀ (m n : Fin 8) (k : Fin 4) (d1 d2 : Fin 2) (i j : Ind),
      (∀ x ∈ [Instr.ldfLdf m n i j, .ldiLdi m n i j],
        exec x s = .next u → s.Keeps u (.r (low m) :: .r (low n) :: i.moves ++ j.moves) 0
          [s.memAddr (.ind i), s.memAddr (.ind j)] [] ∧ s.Quiet u) ∧
      (∀ x ∈ [Instr.mpyf3Addf3 k d1 d2 m n i j, .mpyf3Subf3 k d1 d2 m n i j, .mpyi3Addi3 k d1 d2 m n i j,
          .mpyi3Subi3 k d1 d2 m n i j],
        exec x s = .next u → s.Keeps u (.r (productReg d1) :: .r (sumReg d2) :: i.moves ++ j.moves) 0x7E
          [s.memAddr (.ind i), s.memAddr (.ind j)] [] ∧ s.Quiet u))

/-- The frame of the instructions that store (R27, R326 to R328, R554, R555, R561, R581): where one answers a next
state, the word that may have changed is the one at the address of its destination operand in the state before, and
with it only the auxiliary registers of its modes, SP for a push, and the destination and flags of the operation in
parallel; an interlocked store may also change a lock pin. -/
def Obligations.FrameStoring : Prop :=
  ∀ s u : State,
    (∀ (dst : Mem) (src : Reg) (n : Fin 12) (k : BitVec 5),
      (∀ i ∈ [Instr.stf n dst, (match dst with | .dir d => .stiDir src d | .ind i => .stiInd src i),
          (match dst with | .dir d => .stikDir k d | .ind i => .stikInd k i)],
        exec i s = .next u → s.Keeps u dst.moves 0 [] [s.memAddr dst] ∧ s.Quiet u) ∧
      (∀ i ∈ [Instr.stfi n dst, .stii src dst], exec i s = .next u → s.Keeps u dst.moves 0 [] [s.memAddr dst] ∧
        u.delay = s.delay ∧ u.sFlag = s.sFlag ∧ u.idle = s.idle ∧ u.pins.iack = s.pins.iack) ∧
      (∀ i ∈ [Instr.push src, .pushf n], exec i s = .next u → s.Keeps u [.sp] 0 [] [s.sp + 1] ∧ s.Quiet u)) ∧
    (∀ (d1 r3 r1 : Fin 8) (d2 s2 : Ind),
      (∀ x ∈ [(Instr.addi3Sti d1 r1 r3 d2 s2, 0x3F#16), (.subi3Sti d1 r1 r3 d2 s2, 0x3F#16),
          (.negiSti d1 r3 d2 s2, 0x3F#16), (.ash3Sti d1 r1 r3 d2 s2, 0x3F#16), (.lsh3Sti d1 r1 r3 d2 s2, 0x1F#16),
          (.absiSti d1 r3 d2 s2, 0x3E#16), (.fixSti d1 r3 d2 s2, 0x3E#16), (.mpyi3Sti d1 r1 r3 d2 s2, 0x3E#16),
          (.and3Sti d1 r1 r3 d2 s2, 0x1E#16), (.or3Sti d1 r1 r3 d2 s2, 0x1E#16), (.xor3Sti d1 r1 r3 d2 s2, 0x1E#16),
          (.notSti d1 r3 d2 s2, 0x1E#16), (.ldiSti d1 r3 d2 s2, 0), (.ldfStf d1 r3 d2 s2, 0),
          (.absfStf d1 r3 d2 s2, 0x3E#16), (.floatStf d1 r3 d2 s2, 0x1E#16), (.negfStf d1 r3 d2 s2, 0x7E#16),
          (.toieeeStf d1 r3 d2 s2, 0x3E#16), (.frieeeStf d1 r3 d2 s2, 0x3E#16), (.addf3Stf d1 r1 r3 d2 s2, 0x7E#16),
          (.subf3Stf d1 r1 r3 d2 s2, 0x7E#16), (.mpyf3Stf d1 r1 r3 d2 s2, 0x7E#16)],
        exec x.1 s = .next u → s.Keeps u (.r (low d1) :: d2.moves ++ s2.moves) x.2 [s.memAddr (.ind s2)]
          [s.memAddr (.ind d2)] ∧ s.Quiet u) ∧
      (∀ x ∈ [Instr.stfStf r3 r1 d2 s2, .stiSti r3 r1 d2 s2],
        exec x s = .next u → s.Keeps u (d2.moves ++ s2.moves) 0 []
          [s.memAddr (.ind d2), s.memAddr (.ind s2)] ∧ s.Quiet u))

/-- The frame of the instructions that change the program flow or drive a pin (R491, R493 to R510, R520 to R527,
R551 to R553): the registers, the bits of ST and the word of memory that each may change. Nothing else of the
registers, of memory and of the peripherals changes. -/
def Obligations.FrameControl : Prop :=
  ∀ (s u : State) (c : Cond) (tg : BTarget) (disp : BitVec 24) (n : Fin 8) (r : Reg) (v : BitVec 9) (src : Src)
    (m : Mem) (b : Fin 12) (i : Ind),
    (∀ x ∈ [Instr.br disp, .brd disp, .bcond c tg, .bcondD c tg, .bcondAT c tg, .bcondAF c tg, .nop (.reg r)],
      exec x s = .next u → s.Keeps u [] 0 [] []) ∧
    (∀ x ∈ [Instr.dbcond n c tg, .dbcondD n c tg], exec x s = .next u → s.Keeps u [.ar n] 0 [] []) ∧
    (∀ x ∈ [Instr.laj disp, .lajcond c tg], exec x s = .next u → s.Keeps u [.r 11] 0 [] []) ∧
    (∀ x ∈ [Instr.call disp, .callcond c tg], exec x s = .next u → s.Keeps u [.sp] 0 [] [s.sp + 1]) ∧
    (exec (.trapcond c v) s = .next u → s.Keeps u [.sp] 0x6600 [s.tvtp + v.setWidth 32] [s.sp + 1]) ∧
    (exec (.latcond c v) s = .next u → s.Keeps u [.r 11] 0x6600 [s.tvtp + v.setWidth 32] []) ∧
    (∀ x ∈ [Instr.reticond c, .reticondD c], exec x s = .next u → s.Keeps u [.sp] 0x2400 [s.sp] []) ∧
    (exec (.retscond c) s = .next u → s.Keeps u [.sp] 0 [s.sp] []) ∧
    (∀ x ∈ [Instr.rptbRel disp, .rptbReg r, .rptbdRel disp, .rptbdReg r],
      exec x s = .next u → s.Keeps u [.rs, .re] 0x100 [] []) ∧
    (exec (.rpts src) s = .next u →
      s.Keeps u ([.rs, .re, .rc] ++ movesOf src.mems) 0x100 (addrsOf s src.mems) []) ∧
    (exec .idle s = .next u → s.Keeps u [] 0x2000 [] []) ∧
    (exec (.nop (.ind i)) s = .next u → s.Keeps u i.moves 0 [s.memAddr (.ind i)] [] ∧ s.Quiet u) ∧
    (exec (.iack m) s = .next u → s.Keeps u m.moves 0 [s.memAddr m] []) ∧
    (∀ x ∈ [Instr.ldii m r, .sigi m r],
      exec x s = .next u → s.Keeps u (r :: m.moves) (if s.flagsOn r then 0x1E else 0) [s.memAddr m] []) ∧
    (exec (.ldfi m b) s = .next u → s.Keeps u (.r b :: m.moves) 0x1E [s.memAddr m] [])

/-! ## Interrupts, peripherals and the whole machine -/

/-- The interrupt controller (R703, R705, R706, R708, R709, R730, R785): a falling edge on NMI_ latches NMI, one on an
edge-triggered interrupt pin its flag, and no other level on a pin changes a latched bit of IIF; what requests, what
enables and what latches each of the forty interrupts; the choice is the smallest number that is requested and enabled,
with GIE for all but NMI; taking it clears its latch, saves GIE and CF, disables the interrupts, freezes the cache,
pushes the pc and goes to the address in the word at IVTP + k. The order of a boundary, the choice, then the DMA
latches, then the clearing of the flag, is decision D30 (R735, log entry 42). -/
def Obligations.InterruptTaken : Prop :=
  (∀ (s : State) (x : Fin 4) (b : Bool),
    applyEvent (.nmiPin b) s = .ok () { s with
      pins := { s.pins with nmi := b }
      iif := if s.pins.nmi = true ∧ b = false then s.iif ||| 0x10000 else s.iif } ∧
    applyEvent (.iiofPin x b) s = .ok () { s with
      pins := { s.pins with iiof := s.pins.iiof.set x b }
      iif := if s.pins.iiof[x] = true ∧ b = false ∧ s.iif.getLsbD (4 * x.val) = true ∧
          s.iif.getLsbD (4 * x.val + 1) = false then s.iif ||| 4#32 <<< (4 * x.val) else s.iif }) ∧
  (∀ s : State,
    s.irqReq 1 = s.iif.getLsbD 16 ∧ s.irqReq 2 = s.iif.getLsbD 24 ∧ s.irqReq 43 = s.iif.getLsbD 31 ∧
    s.irqEn 1 = true ∧ s.irqEn 2 = s.iie.getLsbD 0 ∧ s.irqEn 43 = s.iie.getLsbD 31 ∧
    s.irqLatch 1 = some 16 ∧ s.irqLatch 2 = some 24 ∧ s.irqLatch 43 = some 31 ∧
    (∀ x : Fin 4, let level := s.iif.getLsbD (4 * x.val + 1)
      s.irqReq (3 + x.val) = (s.iif.getLsbD (4 * x.val) &&
        (if level then !s.pins.iiof[x] else s.iif.getLsbD (4 * x.val + 2))) ∧
      s.irqEn (3 + x.val) = s.iif.getLsbD (4 * x.val + 3) ∧
      s.irqLatch (3 + x.val) = if level then none else some (4 * x.val + 2)) ∧
    (∀ x : Fin 6, let p := s.ports[x]
      s.irqReq (13 + 4 * x.val) = decide (8 ≤ p.inq.length) ∧ s.irqReq (14 + 4 * x.val) = decide (1 ≤ p.inq.length) ∧
      s.irqReq (15 + 4 * x.val) = decide (p.outq.length ≤ 7) ∧ s.irqReq (16 + 4 * x.val) = decide (p.outq.length = 0)) ∧
    (∀ y : Fin 6, s.irqReq (37 + y.val) = s.iif.getLsbD (25 + y.val) ∧ s.irqLatch (37 + y.val) = some (25 + y.val)) ∧
    (∀ k, 13 ≤ k → k ≤ 42 → s.irqEn k = s.iie.getLsbD (k - 12)) ∧
    (∀ k, 13 ≤ k → k ≤ 36 → s.irqLatch k = none)) ∧
  ∀ (s : State) (k : Nat),
    let eligible (j : Nat) : Prop := (1 ≤ j ∧ j ≤ 6 ∨ 13 ≤ j ∧ j ≤ 43) ∧ s.irqReq j = true ∧ s.irqEn j = true ∧
      (j = 1 ∨ s.stBit 13 = true)
    (s.irqChoice = some k ↔ eligible k ∧ ∀ j, j < k → ¬ eligible j) ∧
    (∀ l, s.script = { events := [], defer := false } :: l → s.irqBlocked = false → s.irqChoice = some k →
      ∀ (t w : State) (v : Word),
        let b : State := latchDma { s with script := l, pins := { s.pins with stat := 15, lstat := 15 } }
        dataWrite (s.sp + 1) s.pc { b.clearFlag (s.irqLatch k) with
          st := enteredStatus s.st, sp := s.sp + 1 } = .ok () t →
        dataRead (s.ivtp + BitVec.ofNat 32 k) t = .ok v w →
        step s = .next { w with pc := v, unflushed := 0, idle := false })

/-- A return undoes an entry (R27, R501, R520, R522, R527, R733): with the stack word and the vector in the on-chip
RAM, a call followed by RETS and a trap followed by RETI come back to the next address with SP, GIE and CF as they
were. -/
def Obligations.ReturnsUndoEntries : Prop :=
  ∀ (s : State) (disp : BitVec 24) (n : BitVec 9), Memory.wf s.mem = true →
    (region s.romen (s.sp + 1) = .ram0 ∨ region s.romen (s.sp + 1) = .ram1) →
    (∃ t u, exec (.call disp) s = .next t ∧ t.pc = s.pc + 1 + disp.signExtend 32 ∧ t.sp = s.sp + 1 ∧
      exec (.retscond .u) t = .next u ∧ u.pc = s.pc + 1 ∧ u.sp = s.sp ∧ u.st = s.st ∧ u.r = s.r ∧ u.ar = s.ar) ∧
    (∀ v : Word, (region s.romen (s.tvtp + n.setWidth 32) = .ram0 ∨ region s.romen (s.tvtp + n.setWidth 32) = .ram1) →
      s.tvtp + n.setWidth 32 ≠ s.sp + 1 → Memory.word s.mem (s.tvtp + n.setWidth 32) = v →
      ∃ t u, exec (.trapcond .u n) s = .next t ∧ t.pc = v ∧ t.sp = s.sp + 1 ∧ t.stBit 13 = false ∧ t.stBit 10 = true ∧
        exec (.reticond .u) t = .next u ∧ u.pc = s.pc + 1 ∧ u.sp = s.sp ∧ u.r = s.r ∧ u.ar = s.ar ∧
        ∀ i, i ≠ 9 → i ≠ 14 → u.stBit i = s.stBit i)

/-- The registers of the peripheral space (R110, R121, R770, R780, R782 to R784, R786, R790, R791, R802) and the link
of a port (R787, R788), with no word in the latch: GMICR and LMICR store bits 29-4 and show the enable pins in bits
3-0; the timers' counter and period registers and the DMA registers hold a word; CPCR shows the levels and the
direction of its port and stores ICH and OCH alone (bits 2 and 12-5 are not written: the spec's own decision D31, R782,
log entry 37), its other bits are left open (log entry 16, DEDUCED); a write of a port's output register appends to its
FIFO or, when that is full, waits with the word in the latch; a read of an input register takes the oldest word or
waits; a read of a DMA control register shows the status (AUX STATUS in unified mode too, the model's choice, log entry
58) and clears the two TCINT flags, a write stores the R/W fields, with START or AUX START 00 resets the channel, and
is refused with a reserved code (U17, log entry 39, DEDUCED). A word crosses the link, and the token is passed, under
the guards of R787 and R788 (that the far end may take the token back before a word is sent is the model's choice, log
entry 59). While a word waits in the latch every other access of the peripheral space waits; it is sent when its port
accepts a word, and the write, tried again, finds its word sent and completes (that it does, and that all accesses
wait, is DEDUCED, log entry 17). -/
def Obligations.PeripheralRegisters : Prop :=
  (∀ (s : State) (v : Word) (t : Fin 2) (x c : Fin 6), s.latch = { waiting := none, sent := [] } →
    dataWrite 0x100000 v s = .ok () { s with gmicr := v &&& 0x3FFFFFF0 } ∧
    dataWrite 0x100004 v s = .ok () { s with lmicr := v &&& 0x3FFFFFF0 } ∧
    (∃ w, dataRead 0x100000 s = .ok w s ∧ w.extractLsb' 4 26 = s.gmicr.extractLsb' 4 26 ∧ w.extractLsb' 30 2 = 0 ∧
      w.getLsbD 0 = s.pins.globalBus.ce0 ∧ w.getLsbD 1 = s.pins.globalBus.ce1 ∧
      w.getLsbD 2 = s.pins.globalBus.de ∧ w.getLsbD 3 = s.pins.globalBus.ae) ∧
    (∃ w, dataRead 0x100004 s = .ok w s ∧ w.extractLsb' 4 26 = s.lmicr.extractLsb' 4 26 ∧ w.extractLsb' 30 2 = 0 ∧
      w.getLsbD 0 = s.pins.localBus.ce0 ∧ w.getLsbD 1 = s.pins.localBus.ce1 ∧
      w.getLsbD 2 = s.pins.localBus.de ∧ w.getLsbD 3 = s.pins.localBus.ae) ∧
    (let m := s.timers[t]
     let base : Word := if t = 0 then 0x100020 else 0x100030
     dataWrite (base + 4) v s = .ok () { s with timers := s.timers.set t { m with counter := v } } ∧
     dataWrite (base + 8) v s = .ok () { s with timers := s.timers.set t { m with period := v } } ∧
     dataRead (base + 4) s = .ok m.counter s ∧ dataRead (base + 8) s = .ok m.period s) ∧
    (let p := s.ports[x]
     let base : Word := 0x100040 + BitVec.ofNat 32 (16 * x.val)
     let level (q : List Word) : Nat := if 8 ≤ q.length then 15 else q.length
     dataWrite base v s =
       .ok () { s with ports := s.ports.set x { p with ich := v.getLsbD 3, och := v.getLsbD 4 } } ∧
     (∃ w, dataRead base s = .ok w { s with free := s.free + 1 } ∧ w.getLsbD 2 = !p.token ∧ w.getLsbD 3 = p.ich ∧
       w.getLsbD 4 = p.och ∧ (w.extractLsb' 5 4).toNat = level p.outq ∧ (w.extractLsb' 9 4).toNat = level p.inq) ∧
     (p.outq.length < 8 → dataWrite (base + 2) v s =
       .ok () { s with ports := s.ports.set x { p with outq := p.outq ++ [v] } }) ∧
     (8 ≤ p.outq.length → dataWrite (base + 2) v s = .stall (some { port := x, word := v, agent := .cpu })) ∧
     (∃ w, dataRead (base + 2) s = .ok w { s with free := s.free + 1 }) ∧
     (p.inq = [] → dataRead (base + 1) s = .stall none) ∧
     (∀ w q, p.inq = w :: q → dataRead (base + 1) s = .ok w { s with ports := s.ports.set x { p with inq := q } }) ∧
     dataWrite (base + 1) v s = .ok () s ∧
     portDeliver x v s = (if p.token = false ∧ p.ich = false ∧ p.inq.length < 8
       then { s with ports := s.ports.set x { p with inq := p.inq ++ [v] } } else s) ∧
     portAccept x s = (if p.token = true ∧ p.och = false ∧ p.outq ≠ []
       then { s with ports := s.ports.set x { p with outq := p.outq.tail } } else s) ∧
     portTakeToken x s = (if p.token = true ∧ p.ich = false ∧ p.inq.length < 8
       then { s with ports := s.ports.set x { p with token := false } } else s) ∧
     portGiveToken x s = (if p.token = false ∧ p.outq ≠ [] ∧ p.och = false
       then { s with ports := s.ports.set x { p with token := true } } else s)) ∧
    (let d := s.dma[c]
     let base : Word := 0x1000A0 + BitVec.ofNat 32 (16 * c.val)
     let is (e : Dma) : State := { s with dma := s.dma.set c e }
     (∀ p ∈ [(1, { d with src := v }), (2, { d with sidx := v }), (3, { d with cnt := v }), (4, { d with dst := v }),
         (5, { d with didx := v }), (6, { d with lnk := v }), (7, { d with acnt := v }), (8, { d with alnk := v })],
       dataWrite (base + p.1) v s = .ok () (is p.2)) ∧
     (∀ p ∈ [(1, d.src), (2, d.sidx), (3, d.cnt), (4, d.dst), (5, d.didx), (6, d.lnk), (7, d.acnt), (8, d.alnk)],
       dataRead (base + p.1) s = .ok p.2 s) ∧
     (d.ctl.extractLsb' 26 4 = 0 → ∃ w, dataRead base s = .ok w (is { d with ctl := d.ctl &&& 0xFFCFFFFF }) ∧
       w &&& 0xC3FFFFFF = d.ctl &&& 0xC3FFFFFF ∧
       w.extractLsb' 26 2 = (if d.ctl.extractLsb' 22 2 = 3 then 3 else if d.tmp = none then 0 else 1) ∧
       w.extractLsb' 28 2 = (if d.ctl.extractLsb' 24 2 = 3 then 3 else if d.atmp = none then 0 else 1)) ∧
     (let legal : Prop := v.extractLsb' 0 2 ≠ 2 ∧ (v.extractLsb' 15 3).toNat < 6 ∧ v.getLsbD 31 = false ∧
        (v.getLsbD 30 = true → c = 0)
      let e : Dma := { d with ctl := (v &&& 0x43CFFFFF) ||| (d.ctl &&& 0x300000) }
      (¬ legal → dataWrite base v s = .stop .dmaControlCode) ∧
      (legal → v.extractLsb' 22 2 ≠ 0 → v.extractLsb' 24 2 ≠ 0 → dataWrite base v s = .ok () (is e)) ∧
      (legal → v.extractLsb' 22 2 = 0 → v.extractLsb' 24 2 ≠ 0 → dataWrite base v s =
        .ok () (is { e with tmp := none, rl := false, auto := none, wl := if v.getLsbD 14 then d.wl else false })) ∧
      (legal → v.extractLsb' 22 2 ≠ 0 → v.extractLsb' 24 2 = 0 → dataWrite base v s =
        .ok () (is { e with atmp := none, aauto := none, wl := if v.getLsbD 14 then false else d.wl })) ∧
      (legal → v.extractLsb' 22 2 = 0 → v.extractLsb' 24 2 = 0 → dataWrite base v s =
        .ok () (is { e with tmp := none, rl := false, auto := none, wl := false, atmp := none, aauto := none }))))) ∧
  ∀ (s : State) (l : Latch) (sent : List Latch) (a v w : Word) (q : List Word), region s.romen a = .periph →
    s.latch = { waiting := some l, sent := sent } →
    dataRead a s = .stall none ∧ ((∀ m ∈ sent, m.agent ≠ .cpu) → dataWrite a v s = .stall none) ∧
    (s.ports[l.port].token = true → s.ports[l.port].och = false → s.ports[l.port].outq = w :: q → q.length < 8 →
      l.agent = .cpu → sent = [] →
        let t : State := { s with ports := s.ports.set l.port { s.ports[l.port] with outq := q ++ [l.word] }
                                  latch := { waiting := none, sent := [l] } }
        portAccept l.port s = t ∧ dataWrite (0x100042 + BitVec.ofNat 32 (16 * l.port.val)) v t =
          .ok () { t with latch := { waiting := none, sent := [] } })

/-- A timer (R771 to R776): its control register stores bits 0-2 and 6-10, and shows the level of its pin or of DATOUT
and TSTAT; a rise of DATOUT that drives the timer is a tick (that the fields of the same write decide is the model's
choice, log entry 40). While HLD_ is 0 nothing moves. An H1 cycle ends a pulse (a TSTAT that clock mode has left too:
the model's choice, log entry 40), toggles the divide-by-two, and on its rise is a tick with CLKSRC = 1 (the phases are
DEDUCED, log entry 40); an edge of the pin, which INV selects, is a tick where the pin drives the timer. A tick with GO
clears the counter and GO; else it counts, and where the count meets the period the counter is 0 and TSTAT toggles in
clock mode, or is 1 in pulse mode, and its rise sets the timer's flag in IIF. At counter = period = 0 a pulse stays, and
in clock mode TSTAT toggles each H1 cycle and ticks count nothing; that GO = 1 ends both before its tick is the model's
choice (log entry 40). From a counter of 0 and a period p that is not 0, after k < p ticks the counter is k and TSTAT as
it was, and the tick p is the event. -/
def Obligations.TimerPeriod : Prop :=
  (∀ (s : State) (t : Fin 2) (v : Word), s.latch = { waiting := none, sent := [] } →
    let m := s.timers[t]
    let base : Word := if t = 0 then 0x100020 else 0x100030
    let u : State := { s with timers := s.timers.set t { m with ctl := v &&& 0x7C7 } }
    dataWrite base v s = .ok () (if v.getLsbD 0 = false ∧ v.getLsbD 1 = true ∧ v.getLsbD 9 = false ∧
      v.getLsbD 2 = true ∧ m.ctl.getLsbD 2 = false then timerTick t u else u) ∧
    (m.ctl &&& 0x7C7 = m.ctl → ∃ w, dataRead base s = .ok w s ∧ w &&& 0x7C7 = m.ctl ∧ w &&& 0xFFFFF030 = 0 ∧
      w.getLsbD 11 = m.tstat ∧
      w.getLsbD 3 = (if m.ctl.getLsbD 0 then
          (if m.ctl.getLsbD 9 then xor m.tstat (m.ctl.getLsbD 10) else s.pins.tclk[t])
        else if m.ctl.getLsbD 1 then m.ctl.getLsbD 2 else s.pins.tclk[t])) ∧
    (m.ctl.getLsbD 7 = false → timerTick t s = s ∧ timerH1 t s = s) ∧
    (m.ctl.getLsbD 7 = true → m.ctl.getLsbD 6 = true →
      timerTick t s = { s with timers := s.timers.set t { m with counter := 0, ctl := m.ctl &&& 0xFFFFFFBF } })) ∧
  (∀ (s : State) (t : Fin 2) (b : Bool), s.timers[t].ctl.getLsbD 7 = true →
    let m := s.timers[t]
    let still : Bool := m.counter == 0 && m.period == 0 && !m.ctl.getLsbD 6
    let put (n : Timer) : State := { s with timers := s.timers.set t n }
    let event (n : Timer) (level : Bool) : State := { put { n with tstat := level } with
      iif := if level = true ∧ m.tstat = false then s.iif ||| (if t = 0 then 0x01000000 else 0x80000000) else s.iif }
    let pin : State := { s with pins := { s.pins with tclk := s.pins.tclk.set t b } }
    (m.ctl.getLsbD 6 = false → still = false → timerTick t s =
      if m.counter + 1 = m.period then event { m with counter := 0 } (if m.ctl.getLsbD 8 then !m.tstat else true)
      else put { m with counter := m.counter + 1 }) ∧
    (still = true → timerTick t s = if m.ctl.getLsbD 8 then s else event m true) ∧
    (still = true → m.ctl.getLsbD 8 = true →
      applyEvent (.h1 t) s = .ok () (event { m with half := !m.half } (!m.tstat))) ∧
    (still = false ∨ m.ctl.getLsbD 8 = false →
      let u := put { m with half := !m.half, tstat := m.tstat && (m.ctl.getLsbD 8 || still) }
      applyEvent (.h1 t) s = .ok () (if m.half = false ∧ m.ctl.getLsbD 9 = true then timerTick t u else u)) ∧
    applyEvent (.tclkPin t b) s = .ok () (if m.ctl.getLsbD 9 = false ∧
      (m.ctl.getLsbD 0 = true ∨ m.ctl.getLsbD 1 = false) ∧
      (if m.ctl.getLsbD 10 then s.pins.tclk[t] = true ∧ b = false else s.pins.tclk[t] = false ∧ b = true)
      then timerTick t pin else pin)) ∧
  ∀ (s : State) (t : Fin 2), s.timers[t].counter = 0 → s.timers[t].period ≠ 0 →
    s.timers[t].ctl.getLsbD 7 = true → s.timers[t].ctl.getLsbD 6 = false →
    let p := s.timers[t].period.toNat
    (∀ k, k < p → (((timerTick t)^[k] s).timers[t].counter.toNat = k ∧
      ((timerTick t)^[k] s).timers[t].tstat = s.timers[t].tstat ∧ ((timerTick t)^[k] s).iif = s.iif)) ∧
    (let u := (timerTick t)^[p] s
     u.timers[t].counter = 0 ∧
     u.timers[t].tstat = (if s.timers[t].ctl.getLsbD 8 then !s.timers[t].tstat else true) ∧
     u.iif.getLsbD (if t = 0 then 24 else 31) =
       (s.iif.getLsbD (if t = 0 then 24 else 31) || (u.timers[t].tstat && !s.timers[t].tstat)))

/-- A DMA channel. One transfer in unified mode between words of the on-chip RAM (R793, R803, R804): two steps move the
word, add the indices to the addresses and decrement the counter; at 1 the block ends, with the channel's flag, its
interrupt where TCC asks for it, and START = 10 where the transfer mode stops. With synchronisation (R800, R801) a read
waits for `rl` and a write for `wl` and consumes it, and the channel waits for its signals as R801 says; a read that
ICRDY synchronises takes one word of its input FIFO and is not started on an empty one, and a write that OCRDY
synchronises is not started on a full output FIFO, though the latch is set (R801; that the FIFO is looked at when the
step is due, and the latch then stays, is DEDUCED, log entry 57); a channel that does not run, with START 01 also in a
begun access (log entry 61), stands still. In split mode (R805) the primary half writes to the output FIFO of its port
and the auxiliary half reads its input FIFO; the signal of the auxiliary half guards its read (decision D34, log entry
37), which waits at an empty FIFO (R786). With a counter of 0 in transfer mode 10 or 11 (R804, decision D33, log entry
37) seven steps load the seven registers from the link pointer (R806), the control word last and its writable bits alone
(R807, decision D35, log entry 37); a control word with a reserved code (U17) or with other bits 11-8 (U18) is refused
(log entry 39, DEDUCED). -/
def Obligations.DmaUnit : Prop :=
  (∀ (s : State) (c : Fin 6), let d := s.dma[c]
    let ram (a : Word) : Prop := region s.romen a = .ram0 ∨ region s.romen a = .ram1
    let done : Dma := { d with src := d.src + d.sidx, dst := d.dst + d.didx, cnt := d.cnt - 1 }
    d.ctl.extractLsb' 22 2 = 3 → d.ctl.extractLsb' 12 3 = 0 → d.ctl.extractLsb' 6 2 = 0 → d.tmp = none → d.auto = none →
    d.cnt ≠ 0 → ram d.src → ram d.dst → (∀ l, some l = s.latch.waiting ∨ l ∈ s.latch.sent → l.agent ≠ .primary c) →
    ∃ u v, dmaStep c s = .ok () u ∧ u.mem = s.mem ∧ u.dma[c].tmp = some (Memory.word s.mem d.src) ∧
      dmaStep c u = .ok () v ∧ v.mem = Memory.setWord s.mem d.dst (Memory.word s.mem d.src) ∧
      (d.cnt ≠ 1 → v = { s with mem := v.mem, dma := s.dma.set c done }) ∧
      (d.cnt = 1 → v.dma[c].cnt = 0 ∧ v.dma[c].ctl.getLsbD 20 = true ∧
        v.dma[c].ctl.extractLsb' 22 2 = (if d.ctl.getLsbD 2 then 2 else 3) ∧
        v.iif.getLsbD (25 + c.val) = (s.iif.getLsbD (25 + c.val) || d.ctl.getLsbD 18))) ∧
  (∀ (s : State) (c : Fin 6), let d := s.dma[c]
    let run : Bool := d.ctl.extractLsb' 22 2 == 3 || (d.ctl.extractLsb' 22 2 == 2 && d.tmp.isSome)
    let next (d : Dma) : State := { s with dma := s.dma.set c d }
    let ram (a : Word) : Prop := region s.romen a = .ram0 ∨ region s.romen a = .ram1
    (run = false → dmaStep c s = .ok () s) ∧
    d.waitsRead = (run && d.ctl.getLsbD 6 && d.tmp.isNone && !d.rl) ∧
    (d.ctl.getLsbD 14 = false → d.auto = none → d.cnt ≠ 0 → d.waitsWrite = (run && !d.wl &&
      (d.ctl.getLsbD 7 && (d.ctl.getLsbD 6 || d.tmp.isSome)))) ∧
    (run = true → d.auto = none → d.cnt ≠ 0 → d.tmp = none → d.ctl.getLsbD 6 = true →
      (d.rl = false → dmaStep c s = .ok () s) ∧
      (d.rl = true → d.ctl.getLsbD 12 = false → ram d.src → dmaStep c s = .ok () (next
        { d with tmp := some (Memory.word s.mem d.src), src := d.src + d.sidx, rl := false }))) ∧
    (run = true → d.ctl.getLsbD 14 = false → d.ctl.getLsbD 7 = true → ∀ w, d.tmp = some w →
      (d.wl = false → dmaStep c s = .ok () s) ∧
      (d.wl = true → d.ctl.getLsbD 13 = false → ram d.dst → d.cnt ≠ 1 → s.latch = { waiting := none, sent := [] } →
        dmaStep c s = .ok () { next { d with tmp := none, dst := d.dst + d.didx, cnt := d.cnt - 1, wl := false } with
          mem := Memory.setWord s.mem d.dst w }))) ∧
  (∀ (s : State) (c x : Fin 6) (w : Word), let d := s.dma[c]
    let next (d : Dma) (q : Port) : State := { s with dma := s.dma.set c d, ports := s.ports.set x q }
    d.ctl.extractLsb' 22 2 = 3 → d.ctl.getLsbD 14 = false → s.latch = { waiting := none, sent := [] } →
    (d.ctl.getLsbD 6 = true → d.rl = true → readSignal s.die c = .icrdy x → d.ctl.getLsbD 12 = false →
      d.src = 0x100041 + BitVec.ofNat 32 (16 * x.val) → d.tmp = none → d.auto = none → d.cnt ≠ 0 →
      (s.ports[x].inq = [] → dmaStep c s = .ok () s) ∧
      (∀ q, s.ports[x].inq = w :: q → dmaStep c s = .ok () (next
        { d with tmp := some w, src := d.src + d.sidx, rl := false } { s.ports[x] with inq := q }))) ∧
    (d.ctl.getLsbD 7 = true → d.wl = true → writeSignal s.die c = .ocrdy x → d.ctl.getLsbD 13 = false →
      d.dst = 0x100042 + BitVec.ofNat 32 (16 * x.val) → d.tmp = some w → d.cnt ≠ 1 →
      (8 ≤ s.ports[x].outq.length → dmaStep c s = .ok () s) ∧
      (s.ports[x].outq.length < 8 → dmaStep c s = .ok () (next
        { d with tmp := none, dst := d.dst + d.didx, cnt := d.cnt - 1, wl := false }
        { s.ports[x] with outq := s.ports[x].outq ++ [w] })))) ∧
  (∀ (s : State) (c p : Fin 6) (w : Word), let d := s.dma[c]
    let next (d : Dma) (q : Port) : State := { s with dma := s.dma.set c d, ports := s.ports.set p q }
    d.ctl.getLsbD 14 = true → (d.ctl.extractLsb' 15 3).toNat = p.val → s.latch = { waiting := none, sent := [] } →
    (d.ctl.extractLsb' 22 2 = 3 → d.tmp = some w →
      (s.ports[p].outq.length < 8 → d.cnt ≠ 1 → dmaStep c s =
        .ok () (next { d with tmp := none, cnt := d.cnt - 1 } { s.ports[p] with outq := s.ports[p].outq ++ [w] })) ∧
      (8 ≤ s.ports[p].outq.length → dmaStep c s = .stall (some { port := p, word := w, agent := .primary c }))) ∧
    (d.ctl.extractLsb' 24 2 = 3 → d.atmp = none → d.aauto = none → d.acnt ≠ 0 →
      (d.ctl.getLsbD 7 = true → d.wl = false → dmaAuxStep c s = .ok () s) ∧
      ((d.ctl.getLsbD 7 = true → d.wl = true) → s.ports[p].inq = [] → dmaAuxStep c s = .stall none) ∧
      ((d.ctl.getLsbD 7 = true → d.wl = true) → ∀ q, s.ports[p].inq = w :: q → dmaAuxStep c s =
        .ok () (next { d with atmp := some w, wl := if d.ctl.getLsbD 7 then false else d.wl }
          { s.ports[p] with inq := q }))) ∧
    (d.ctl.extractLsb' 24 2 = 3 → d.atmp = some w → d.ctl.getLsbD 13 = false → d.acnt ≠ 1 →
      (region s.romen d.dst = .ram0 ∨ region s.romen d.dst = .ram1) → dmaAuxStep c s =
        .ok () { s with dma := s.dma.set c { d with atmp := none, dst := d.dst + d.didx, acnt := d.acnt - 1 }
                        mem := Memory.setWord s.mem d.dst w })) ∧
  (∀ (s : State) (c : Fin 6), let d := s.dma[c]
    let word (k : Nat) : Word := Memory.word s.mem (d.lnk + BitVec.ofNat 32 k)
    let steps (k : Nat) : Res Unit := k.rec (.ok () s) fun _ r => r.bind fun _ t => dmaStep c t
    d.ctl.extractLsb' 22 2 = 3 → d.ctl.getLsbD 3 = true → d.ctl.getLsbD 6 = false → d.ctl.getLsbD 7 = false →
    d.ctl.getLsbD 8 = false → d.ctl.getLsbD 14 = false → d.cnt = 0 → d.tmp = none → d.auto = none →
    (∀ k < 7, region s.romen (d.lnk + BitVec.ofNat 32 k) = .ram0 ∨ region s.romen (d.lnk + BitVec.ofNat 32 k) = .ram1) →
    s.latch.waiting = none →
    let bad : Prop := (word 0).extractLsb' 0 2 = 2 ∨ 6 ≤ ((word 0).extractLsb' 15 3).toNat ∨
      (word 0).getLsbD 31 = true ∨ (word 0).getLsbD 30 = true ∧ c ≠ 0
    let same : Prop := (word 0).extractLsb' 8 4 = d.ctl.extractLsb' 8 4
    (¬ same → dmaStep c s = .stop .autoinitControl) ∧ (same → bad → dmaStep c s = .stop .dmaControlCode) ∧
    (same → ¬ bad → word 3 ≠ 0 → (word 0).extractLsb' 22 2 = 3 → (word 0).extractLsb' 24 2 ≠ 0 →
      steps 7 = .ok () { s with dma := s.dma.set c { d with
        ctl := (word 0 &&& 0x43CFFFFF) ||| (d.ctl &&& 0xBC300000), src := word 1, sidx := word 2, cnt := word 3,
        dst := word 4, didx := word 5, lnk := word 6 } }))

/-- What no instruction does (R41, R45, R60, R70): IVTP and TVTP change by LDPE alone; LV and LUF, once set, stay set
but by a write of ST or the open flags of RSQRF (log entry 28); GIE changes by a write of ST, IDLE, a trap or a
return from one alone, CF without IDLE, PGIE and PCF by a write of ST or a trap alone; the strap pins do not
change. -/
def Obligations.WholeMachineRules : Prop :=
  ∀ (i : Instr) (s u : State), exec i s = .next u →
    ((∀ src x, i ≠ .ldpe src x) → u.ivtp = s.ivtp ∧ u.tvtp = s.tvtp) ∧
    (intDst i ≠ some .st → (∀ a b, i ≠ .rsqrf a b) →
      (s.stBit 5 = true → u.stBit 5 = true) ∧ (s.stBit 6 = true → u.stBit 6 = true)) ∧
    (intDst i ≠ some .st → (∀ c n, i ≠ .trapcond c n ∧ i ≠ .latcond c n) →
      u.stBit 9 = s.stBit 9 ∧ u.stBit 14 = s.stBit 14 ∧ ((∀ c, i ≠ .reticond c ∧ i ≠ .reticondD c) →
        u.stBit 10 = s.stBit 10 ∧ (i ≠ .idle → u.stBit 13 = s.stBit 13))) ∧
    u.romen = s.romen ∧ u.resetloc = s.resetloc

/-- The stops (R160, R310, R497, R532, R534, R570, R572, R862), each a refusal under a name of its own: a word that is
no instruction, an LDA into a register that is no address register, two parallel loads into one register, an
instruction fetched from the peripheral space or a reserved address (U11, log entry 51), an instruction that changes
the program flow under RPTS, at the end of a repeat block or, delayed, among its last four words (U3, log entry 32),
and a block end that comes too soon after a load of RE or RM (U3, log entry 33). -/
def Obligations.Stops : Prop :=
  (∀ (w : Word) (e : DecodeError) (s : State), decode w = .error e → runWord w s = .refused (.illegalEncoding e)) ∧
  (∀ (src : Src) (dst : Reg) (s : State), dst ∉ [Reg.ar 0, .ar 1, .ar 2, .ar 3, .ar 4, .ar 5, .ar 6, .ar 7, .dp, .ir0,
      .ir1, .bk, .sp] → exec (.lda src dst) s = .refused .illegalOperand) ∧
  (∀ (n : Fin 8) (i j : Ind) (s : State), exec (.ldiLdi n n i j) s = .refused .sameDestination ∧
    exec (.ldfLdf n n i j) s = .refused .sameDestination) ∧
  (∀ (a : Word) (s : State), (region s.romen a = .periph → instrFetch a s = .stop (.peripheralFetch a)) ∧
    (region s.romen a = .reserved → instrFetch a s = .stop (.reservedAddress a))) ∧
  (∀ (s : State) (c : Cond) (tg : BTarget) (disp : BitVec 24) (n : Fin 8) (r : Reg) (v : BitVec 9) (src : Src),
    s.delay = none → s.stBit 8 = true →
    let delayed := [Instr.bcondD c tg, .bcondAF c tg, .bcondAT c tg, .brd disp, .dbcondD n c tg, .laj disp,
      .lajcond c tg, .latcond c v, .reticondD c, .rptbdRel disp, .rptbdReg r]
    let standard := [Instr.bcond c tg, .br disp, .dbcond n c tg, .call disp, .callcond c tg, .trapcond c v, .reticond c,
      .retscond c, .idle, .rptbRel disp, .rptbReg r, .rpts src]
    ((s.sFlag = true ∨ s.pc = s.re) → ∀ i ∈ standard ++ delayed, runInstr i s = .refused .repeatBlockEnd) ∧
    (s.sFlag = false → s.rs.toNat ≤ s.pc.toNat → s.pc.toNat ≤ s.re.toNat → s.re.toNat < s.pc.toNat + 4 →
      ∀ i ∈ delayed, runInstr i s = .refused .repeatBlockEnd)) ∧
  (∀ before s : State, s.stalled = false → before.sFlag = false → s.sFlag = false → s.stBit 8 = true → s.re = before.pc →
    s.unflushed ≠ 0 → retireOutcome before (.next s) = .refused .repeatNotFlushed)

/-- SWI (R526): its word (a code that the spec marks 'from general knowledge, not in source'), and the refusal, since
the source does not describe the emulator interrupt (U8, log entry 50). -/
def Obligations.SwiStops : Prop :=
  decode 0x66000000#32 = .ok .swi ∧ ∀ s : State, exec .swi s = .refused .emulatorInterrupt
end

