-- ==== Sys2Proof/Laws/State.lean ====
section
/-! SUPPORT. What each named update of the state leaves unchanged: one lemma per field. -/

namespace Sys2Proof.Machine

variable (s : State)

/-! ## `State.withFlags` -/

@[simp] theorem State.withFlags_r (f : BitVec 7) : (s.withFlags f).r = s.r := rfl
@[simp] theorem State.withFlags_ar (f : BitVec 7) : (s.withFlags f).ar = s.ar := rfl
@[simp] theorem State.withFlags_dp (f : BitVec 7) : (s.withFlags f).dp = s.dp := rfl
@[simp] theorem State.withFlags_ir0 (f : BitVec 7) : (s.withFlags f).ir0 = s.ir0 := rfl
@[simp] theorem State.withFlags_ir1 (f : BitVec 7) : (s.withFlags f).ir1 = s.ir1 := rfl
@[simp] theorem State.withFlags_bk (f : BitVec 7) : (s.withFlags f).bk = s.bk := rfl
@[simp] theorem State.withFlags_sp (f : BitVec 7) : (s.withFlags f).sp = s.sp := rfl
@[simp] theorem State.withFlags_st (f : BitVec 7) : (s.withFlags f).st = s.st.extractLsb' 7 9 ++ f := rfl
@[simp] theorem State.withFlags_die (f : BitVec 7) : (s.withFlags f).die = s.die := rfl
@[simp] theorem State.withFlags_iie (f : BitVec 7) : (s.withFlags f).iie = s.iie := rfl
@[simp] theorem State.withFlags_iif (f : BitVec 7) : (s.withFlags f).iif = s.iif := rfl
@[simp] theorem State.withFlags_rs (f : BitVec 7) : (s.withFlags f).rs = s.rs := rfl
@[simp] theorem State.withFlags_re (f : BitVec 7) : (s.withFlags f).re = s.re := rfl
@[simp] theorem State.withFlags_rc (f : BitVec 7) : (s.withFlags f).rc = s.rc := rfl
@[simp] theorem State.withFlags_pc (f : BitVec 7) : (s.withFlags f).pc = s.pc := rfl
@[simp] theorem State.withFlags_ivtp (f : BitVec 7) : (s.withFlags f).ivtp = s.ivtp := rfl
@[simp] theorem State.withFlags_tvtp (f : BitVec 7) : (s.withFlags f).tvtp = s.tvtp := rfl
@[simp] theorem State.withFlags_sFlag (f : BitVec 7) : (s.withFlags f).sFlag = s.sFlag := rfl
@[simp] theorem State.withFlags_delay (f : BitVec 7) : (s.withFlags f).delay = s.delay := rfl
@[simp] theorem State.withFlags_idle (f : BitVec 7) : (s.withFlags f).idle = s.idle := rfl
@[simp] theorem State.withFlags_ir (f : BitVec 7) : (s.withFlags f).ir = s.ir := rfl
@[simp] theorem State.withFlags_held (f : BitVec 7) : (s.withFlags f).held = s.held := rfl
@[simp] theorem State.withFlags_stalled (f : BitVec 7) : (s.withFlags f).stalled = s.stalled := rfl
@[simp] theorem State.withFlags_unflushed (f : BitVec 7) : (s.withFlags f).unflushed = s.unflushed := rfl
@[simp] theorem State.withFlags_cache (f : BitVec 7) : (s.withFlags f).cache = s.cache := rfl
@[simp] theorem State.withFlags_mem (f : BitVec 7) : (s.withFlags f).mem = s.mem := rfl
@[simp] theorem State.withFlags_romen (f : BitVec 7) : (s.withFlags f).romen = s.romen := rfl
@[simp] theorem State.withFlags_resetloc (f : BitVec 7) : (s.withFlags f).resetloc = s.resetloc := rfl
@[simp] theorem State.withFlags_pins (f : BitVec 7) : (s.withFlags f).pins = s.pins := rfl
@[simp] theorem State.withFlags_gmicr (f : BitVec 7) : (s.withFlags f).gmicr = s.gmicr := rfl
@[simp] theorem State.withFlags_lmicr (f : BitVec 7) : (s.withFlags f).lmicr = s.lmicr := rfl
@[simp] theorem State.withFlags_timers (f : BitVec 7) : (s.withFlags f).timers = s.timers := rfl
@[simp] theorem State.withFlags_ports (f : BitVec 7) : (s.withFlags f).ports = s.ports := rfl
@[simp] theorem State.withFlags_dma (f : BitVec 7) : (s.withFlags f).dma = s.dma := rfl
@[simp] theorem State.withFlags_latch (f : BitVec 7) : (s.withFlags f).latch = s.latch := rfl
@[simp] theorem State.withFlags_boot (f : BitVec 7) : (s.withFlags f).boot = s.boot := rfl
@[simp] theorem State.withFlags_script (f : BitVec 7) : (s.withFlags f).script = s.script := rfl
@[simp] theorem State.withFlags_free (f : BitVec 7) : (s.withFlags f).free = s.free := rfl

/-! ## `State.setFlags` -/

@[simp] theorem State.setFlags_r (f : FlagRes) : (s.setFlags f).r = s.r := rfl
@[simp] theorem State.setFlags_ar (f : FlagRes) : (s.setFlags f).ar = s.ar := rfl
@[simp] theorem State.setFlags_dp (f : FlagRes) : (s.setFlags f).dp = s.dp := rfl
@[simp] theorem State.setFlags_ir0 (f : FlagRes) : (s.setFlags f).ir0 = s.ir0 := rfl
@[simp] theorem State.setFlags_ir1 (f : FlagRes) : (s.setFlags f).ir1 = s.ir1 := rfl
@[simp] theorem State.setFlags_bk (f : FlagRes) : (s.setFlags f).bk = s.bk := rfl
@[simp] theorem State.setFlags_sp (f : FlagRes) : (s.setFlags f).sp = s.sp := rfl
@[simp] theorem State.setFlags_die (f : FlagRes) : (s.setFlags f).die = s.die := rfl
@[simp] theorem State.setFlags_iie (f : FlagRes) : (s.setFlags f).iie = s.iie := rfl
@[simp] theorem State.setFlags_iif (f : FlagRes) : (s.setFlags f).iif = s.iif := rfl
@[simp] theorem State.setFlags_rs (f : FlagRes) : (s.setFlags f).rs = s.rs := rfl
@[simp] theorem State.setFlags_re (f : FlagRes) : (s.setFlags f).re = s.re := rfl
@[simp] theorem State.setFlags_rc (f : FlagRes) : (s.setFlags f).rc = s.rc := rfl
@[simp] theorem State.setFlags_pc (f : FlagRes) : (s.setFlags f).pc = s.pc := rfl
@[simp] theorem State.setFlags_ivtp (f : FlagRes) : (s.setFlags f).ivtp = s.ivtp := rfl
@[simp] theorem State.setFlags_tvtp (f : FlagRes) : (s.setFlags f).tvtp = s.tvtp := rfl
@[simp] theorem State.setFlags_sFlag (f : FlagRes) : (s.setFlags f).sFlag = s.sFlag := rfl
@[simp] theorem State.setFlags_delay (f : FlagRes) : (s.setFlags f).delay = s.delay := rfl
@[simp] theorem State.setFlags_idle (f : FlagRes) : (s.setFlags f).idle = s.idle := rfl
@[simp] theorem State.setFlags_ir (f : FlagRes) : (s.setFlags f).ir = s.ir := rfl
@[simp] theorem State.setFlags_held (f : FlagRes) : (s.setFlags f).held = s.held := rfl
@[simp] theorem State.setFlags_stalled (f : FlagRes) : (s.setFlags f).stalled = s.stalled := rfl
@[simp] theorem State.setFlags_unflushed (f : FlagRes) : (s.setFlags f).unflushed = s.unflushed := rfl
@[simp] theorem State.setFlags_cache (f : FlagRes) : (s.setFlags f).cache = s.cache := rfl
@[simp] theorem State.setFlags_mem (f : FlagRes) : (s.setFlags f).mem = s.mem := rfl
@[simp] theorem State.setFlags_romen (f : FlagRes) : (s.setFlags f).romen = s.romen := rfl
@[simp] theorem State.setFlags_resetloc (f : FlagRes) : (s.setFlags f).resetloc = s.resetloc := rfl
@[simp] theorem State.setFlags_pins (f : FlagRes) : (s.setFlags f).pins = s.pins := rfl
@[simp] theorem State.setFlags_gmicr (f : FlagRes) : (s.setFlags f).gmicr = s.gmicr := rfl
@[simp] theorem State.setFlags_lmicr (f : FlagRes) : (s.setFlags f).lmicr = s.lmicr := rfl
@[simp] theorem State.setFlags_timers (f : FlagRes) : (s.setFlags f).timers = s.timers := rfl
@[simp] theorem State.setFlags_ports (f : FlagRes) : (s.setFlags f).ports = s.ports := rfl
@[simp] theorem State.setFlags_dma (f : FlagRes) : (s.setFlags f).dma = s.dma := rfl
@[simp] theorem State.setFlags_latch (f : FlagRes) : (s.setFlags f).latch = s.latch := rfl
@[simp] theorem State.setFlags_boot (f : FlagRes) : (s.setFlags f).boot = s.boot := rfl
@[simp] theorem State.setFlags_script (f : FlagRes) : (s.setFlags f).script = s.script := rfl
@[simp] theorem State.setFlags_free (f : FlagRes) : (s.setFlags f).free = s.free := rfl

/-! ## `State.setSt` -/

@[simp] theorem State.setSt_r (i : Nat) (b : Bool) : (s.setSt i b).r = s.r := rfl
@[simp] theorem State.setSt_ar (i : Nat) (b : Bool) : (s.setSt i b).ar = s.ar := rfl
@[simp] theorem State.setSt_dp (i : Nat) (b : Bool) : (s.setSt i b).dp = s.dp := rfl
@[simp] theorem State.setSt_ir0 (i : Nat) (b : Bool) : (s.setSt i b).ir0 = s.ir0 := rfl
@[simp] theorem State.setSt_ir1 (i : Nat) (b : Bool) : (s.setSt i b).ir1 = s.ir1 := rfl
@[simp] theorem State.setSt_bk (i : Nat) (b : Bool) : (s.setSt i b).bk = s.bk := rfl
@[simp] theorem State.setSt_sp (i : Nat) (b : Bool) : (s.setSt i b).sp = s.sp := rfl
@[simp] theorem State.setSt_st (i : Nat) (b : Bool) : (s.setSt i b).st = if b then s.st ||| (1#16 <<< i) else s.st &&& ~~~(1#16 <<< i) := rfl
@[simp] theorem State.setSt_die (i : Nat) (b : Bool) : (s.setSt i b).die = s.die := rfl
@[simp] theorem State.setSt_iie (i : Nat) (b : Bool) : (s.setSt i b).iie = s.iie := rfl
@[simp] theorem State.setSt_iif (i : Nat) (b : Bool) : (s.setSt i b).iif = s.iif := rfl
@[simp] theorem State.setSt_rs (i : Nat) (b : Bool) : (s.setSt i b).rs = s.rs := rfl
@[simp] theorem State.setSt_re (i : Nat) (b : Bool) : (s.setSt i b).re = s.re := rfl
@[simp] theorem State.setSt_rc (i : Nat) (b : Bool) : (s.setSt i b).rc = s.rc := rfl
@[simp] theorem State.setSt_pc (i : Nat) (b : Bool) : (s.setSt i b).pc = s.pc := rfl
@[simp] theorem State.setSt_ivtp (i : Nat) (b : Bool) : (s.setSt i b).ivtp = s.ivtp := rfl
@[simp] theorem State.setSt_tvtp (i : Nat) (b : Bool) : (s.setSt i b).tvtp = s.tvtp := rfl
@[simp] theorem State.setSt_sFlag (i : Nat) (b : Bool) : (s.setSt i b).sFlag = s.sFlag := rfl
@[simp] theorem State.setSt_delay (i : Nat) (b : Bool) : (s.setSt i b).delay = s.delay := rfl
@[simp] theorem State.setSt_idle (i : Nat) (b : Bool) : (s.setSt i b).idle = s.idle := rfl
@[simp] theorem State.setSt_ir (i : Nat) (b : Bool) : (s.setSt i b).ir = s.ir := rfl
@[simp] theorem State.setSt_held (i : Nat) (b : Bool) : (s.setSt i b).held = s.held := rfl
@[simp] theorem State.setSt_stalled (i : Nat) (b : Bool) : (s.setSt i b).stalled = s.stalled := rfl
@[simp] theorem State.setSt_unflushed (i : Nat) (b : Bool) : (s.setSt i b).unflushed = s.unflushed := rfl
@[simp] theorem State.setSt_cache (i : Nat) (b : Bool) : (s.setSt i b).cache = s.cache := rfl
@[simp] theorem State.setSt_mem (i : Nat) (b : Bool) : (s.setSt i b).mem = s.mem := rfl
@[simp] theorem State.setSt_romen (i : Nat) (b : Bool) : (s.setSt i b).romen = s.romen := rfl
@[simp] theorem State.setSt_resetloc (i : Nat) (b : Bool) : (s.setSt i b).resetloc = s.resetloc := rfl
@[simp] theorem State.setSt_pins (i : Nat) (b : Bool) : (s.setSt i b).pins = s.pins := rfl
@[simp] theorem State.setSt_gmicr (i : Nat) (b : Bool) : (s.setSt i b).gmicr = s.gmicr := rfl
@[simp] theorem State.setSt_lmicr (i : Nat) (b : Bool) : (s.setSt i b).lmicr = s.lmicr := rfl
@[simp] theorem State.setSt_timers (i : Nat) (b : Bool) : (s.setSt i b).timers = s.timers := rfl
@[simp] theorem State.setSt_ports (i : Nat) (b : Bool) : (s.setSt i b).ports = s.ports := rfl
@[simp] theorem State.setSt_dma (i : Nat) (b : Bool) : (s.setSt i b).dma = s.dma := rfl
@[simp] theorem State.setSt_latch (i : Nat) (b : Bool) : (s.setSt i b).latch = s.latch := rfl
@[simp] theorem State.setSt_boot (i : Nat) (b : Bool) : (s.setSt i b).boot = s.boot := rfl
@[simp] theorem State.setSt_script (i : Nat) (b : Bool) : (s.setSt i b).script = s.script := rfl
@[simp] theorem State.setSt_free (i : Nat) (b : Bool) : (s.setSt i b).free = s.free := rfl

/-! ## `State.wrSt` -/

@[simp] theorem State.wrSt_r (v : Word) : (s.wrSt v).r = s.r := rfl
@[simp] theorem State.wrSt_ar (v : Word) : (s.wrSt v).ar = s.ar := rfl
@[simp] theorem State.wrSt_dp (v : Word) : (s.wrSt v).dp = s.dp := rfl
@[simp] theorem State.wrSt_ir0 (v : Word) : (s.wrSt v).ir0 = s.ir0 := rfl
@[simp] theorem State.wrSt_ir1 (v : Word) : (s.wrSt v).ir1 = s.ir1 := rfl
@[simp] theorem State.wrSt_bk (v : Word) : (s.wrSt v).bk = s.bk := rfl
@[simp] theorem State.wrSt_sp (v : Word) : (s.wrSt v).sp = s.sp := rfl
@[simp] theorem State.wrSt_st (v : Word) : (s.wrSt v).st = v.extractLsb' 0 16 &&& 0xEFFF#16 := rfl
@[simp] theorem State.wrSt_die (v : Word) : (s.wrSt v).die = s.die := rfl
@[simp] theorem State.wrSt_iie (v : Word) : (s.wrSt v).iie = s.iie := rfl
@[simp] theorem State.wrSt_iif (v : Word) : (s.wrSt v).iif = s.iif := rfl
@[simp] theorem State.wrSt_rs (v : Word) : (s.wrSt v).rs = s.rs := rfl
@[simp] theorem State.wrSt_re (v : Word) : (s.wrSt v).re = s.re := rfl
@[simp] theorem State.wrSt_rc (v : Word) : (s.wrSt v).rc = s.rc := rfl
@[simp] theorem State.wrSt_pc (v : Word) : (s.wrSt v).pc = s.pc := rfl
@[simp] theorem State.wrSt_ivtp (v : Word) : (s.wrSt v).ivtp = s.ivtp := rfl
@[simp] theorem State.wrSt_tvtp (v : Word) : (s.wrSt v).tvtp = s.tvtp := rfl
@[simp] theorem State.wrSt_sFlag (v : Word) : (s.wrSt v).sFlag = s.sFlag := rfl
@[simp] theorem State.wrSt_delay (v : Word) : (s.wrSt v).delay = s.delay := rfl
@[simp] theorem State.wrSt_idle (v : Word) : (s.wrSt v).idle = s.idle := rfl
@[simp] theorem State.wrSt_ir (v : Word) : (s.wrSt v).ir = s.ir := rfl
@[simp] theorem State.wrSt_held (v : Word) : (s.wrSt v).held = s.held := rfl
@[simp] theorem State.wrSt_stalled (v : Word) : (s.wrSt v).stalled = s.stalled := rfl
@[simp] theorem State.wrSt_cache (v : Word) : (s.wrSt v).cache = if v.getLsbD 12 then s.cache.clear else s.cache := rfl
@[simp] theorem State.wrSt_mem (v : Word) : (s.wrSt v).mem = s.mem := rfl
@[simp] theorem State.wrSt_romen (v : Word) : (s.wrSt v).romen = s.romen := rfl
@[simp] theorem State.wrSt_resetloc (v : Word) : (s.wrSt v).resetloc = s.resetloc := rfl
@[simp] theorem State.wrSt_pins (v : Word) : (s.wrSt v).pins = s.pins := rfl
@[simp] theorem State.wrSt_gmicr (v : Word) : (s.wrSt v).gmicr = s.gmicr := rfl
@[simp] theorem State.wrSt_lmicr (v : Word) : (s.wrSt v).lmicr = s.lmicr := rfl
@[simp] theorem State.wrSt_timers (v : Word) : (s.wrSt v).timers = s.timers := rfl
@[simp] theorem State.wrSt_ports (v : Word) : (s.wrSt v).ports = s.ports := rfl
@[simp] theorem State.wrSt_dma (v : Word) : (s.wrSt v).dma = s.dma := rfl
@[simp] theorem State.wrSt_latch (v : Word) : (s.wrSt v).latch = s.latch := rfl
@[simp] theorem State.wrSt_boot (v : Word) : (s.wrSt v).boot = s.boot := rfl
@[simp] theorem State.wrSt_script (v : Word) : (s.wrSt v).script = s.script := rfl
@[simp] theorem State.wrSt_free (v : Word) : (s.wrSt v).free = s.free := rfl

/-! ## `State.wrIif` -/

@[simp] theorem State.wrIif_r (v : Word) : (s.wrIif v).r = s.r := rfl
@[simp] theorem State.wrIif_ar (v : Word) : (s.wrIif v).ar = s.ar := rfl
@[simp] theorem State.wrIif_dp (v : Word) : (s.wrIif v).dp = s.dp := rfl
@[simp] theorem State.wrIif_ir0 (v : Word) : (s.wrIif v).ir0 = s.ir0 := rfl
@[simp] theorem State.wrIif_ir1 (v : Word) : (s.wrIif v).ir1 = s.ir1 := rfl
@[simp] theorem State.wrIif_bk (v : Word) : (s.wrIif v).bk = s.bk := rfl
@[simp] theorem State.wrIif_sp (v : Word) : (s.wrIif v).sp = s.sp := rfl
@[simp] theorem State.wrIif_st (v : Word) : (s.wrIif v).st = s.st := rfl
@[simp] theorem State.wrIif_die (v : Word) : (s.wrIif v).die = s.die := rfl
@[simp] theorem State.wrIif_iie (v : Word) : (s.wrIif v).iie = s.iie := rfl
@[simp] theorem State.wrIif_rs (v : Word) : (s.wrIif v).rs = s.rs := rfl
@[simp] theorem State.wrIif_re (v : Word) : (s.wrIif v).re = s.re := rfl
@[simp] theorem State.wrIif_rc (v : Word) : (s.wrIif v).rc = s.rc := rfl
@[simp] theorem State.wrIif_pc (v : Word) : (s.wrIif v).pc = s.pc := rfl
@[simp] theorem State.wrIif_ivtp (v : Word) : (s.wrIif v).ivtp = s.ivtp := rfl
@[simp] theorem State.wrIif_tvtp (v : Word) : (s.wrIif v).tvtp = s.tvtp := rfl
@[simp] theorem State.wrIif_sFlag (v : Word) : (s.wrIif v).sFlag = s.sFlag := rfl
@[simp] theorem State.wrIif_delay (v : Word) : (s.wrIif v).delay = s.delay := rfl
@[simp] theorem State.wrIif_idle (v : Word) : (s.wrIif v).idle = s.idle := rfl
@[simp] theorem State.wrIif_ir (v : Word) : (s.wrIif v).ir = s.ir := rfl
@[simp] theorem State.wrIif_held (v : Word) : (s.wrIif v).held = s.held := rfl
@[simp] theorem State.wrIif_stalled (v : Word) : (s.wrIif v).stalled = s.stalled := rfl
@[simp] theorem State.wrIif_unflushed (v : Word) : (s.wrIif v).unflushed = s.unflushed := rfl
@[simp] theorem State.wrIif_cache (v : Word) : (s.wrIif v).cache = s.cache := rfl
@[simp] theorem State.wrIif_mem (v : Word) : (s.wrIif v).mem = s.mem := rfl
@[simp] theorem State.wrIif_romen (v : Word) : (s.wrIif v).romen = s.romen := rfl
@[simp] theorem State.wrIif_resetloc (v : Word) : (s.wrIif v).resetloc = s.resetloc := rfl
@[simp] theorem State.wrIif_pins (v : Word) : (s.wrIif v).pins = s.pins := rfl
@[simp] theorem State.wrIif_gmicr (v : Word) : (s.wrIif v).gmicr = s.gmicr := rfl
@[simp] theorem State.wrIif_lmicr (v : Word) : (s.wrIif v).lmicr = s.lmicr := rfl
@[simp] theorem State.wrIif_timers (v : Word) : (s.wrIif v).timers = s.timers := rfl
@[simp] theorem State.wrIif_ports (v : Word) : (s.wrIif v).ports = s.ports := rfl
@[simp] theorem State.wrIif_dma (v : Word) : (s.wrIif v).dma = s.dma := rfl
@[simp] theorem State.wrIif_latch (v : Word) : (s.wrIif v).latch = s.latch := rfl
@[simp] theorem State.wrIif_boot (v : Word) : (s.wrIif v).boot = s.boot := rfl
@[simp] theorem State.wrIif_script (v : Word) : (s.wrIif v).script = s.script := rfl
@[simp] theorem State.wrIif_free (v : Word) : (s.wrIif v).free = s.free := rfl

/-! ## `State.setIif` -/

@[simp] theorem State.setIif_r (i : Nat) (b : Bool) : (s.setIif i b).r = s.r := rfl
@[simp] theorem State.setIif_ar (i : Nat) (b : Bool) : (s.setIif i b).ar = s.ar := rfl
@[simp] theorem State.setIif_dp (i : Nat) (b : Bool) : (s.setIif i b).dp = s.dp := rfl
@[simp] theorem State.setIif_ir0 (i : Nat) (b : Bool) : (s.setIif i b).ir0 = s.ir0 := rfl
@[simp] theorem State.setIif_ir1 (i : Nat) (b : Bool) : (s.setIif i b).ir1 = s.ir1 := rfl
@[simp] theorem State.setIif_bk (i : Nat) (b : Bool) : (s.setIif i b).bk = s.bk := rfl
@[simp] theorem State.setIif_sp (i : Nat) (b : Bool) : (s.setIif i b).sp = s.sp := rfl
@[simp] theorem State.setIif_st (i : Nat) (b : Bool) : (s.setIif i b).st = s.st := rfl
@[simp] theorem State.setIif_die (i : Nat) (b : Bool) : (s.setIif i b).die = s.die := rfl
@[simp] theorem State.setIif_iie (i : Nat) (b : Bool) : (s.setIif i b).iie = s.iie := rfl
@[simp] theorem State.setIif_iif (i : Nat) (b : Bool) : (s.setIif i b).iif = setBit s.iif i b := rfl
@[simp] theorem State.setIif_rs (i : Nat) (b : Bool) : (s.setIif i b).rs = s.rs := rfl
@[simp] theorem State.setIif_re (i : Nat) (b : Bool) : (s.setIif i b).re = s.re := rfl
@[simp] theorem State.setIif_rc (i : Nat) (b : Bool) : (s.setIif i b).rc = s.rc := rfl
@[simp] theorem State.setIif_pc (i : Nat) (b : Bool) : (s.setIif i b).pc = s.pc := rfl
@[simp] theorem State.setIif_ivtp (i : Nat) (b : Bool) : (s.setIif i b).ivtp = s.ivtp := rfl
@[simp] theorem State.setIif_tvtp (i : Nat) (b : Bool) : (s.setIif i b).tvtp = s.tvtp := rfl
@[simp] theorem State.setIif_sFlag (i : Nat) (b : Bool) : (s.setIif i b).sFlag = s.sFlag := rfl
@[simp] theorem State.setIif_delay (i : Nat) (b : Bool) : (s.setIif i b).delay = s.delay := rfl
@[simp] theorem State.setIif_idle (i : Nat) (b : Bool) : (s.setIif i b).idle = s.idle := rfl
@[simp] theorem State.setIif_ir (i : Nat) (b : Bool) : (s.setIif i b).ir = s.ir := rfl
@[simp] theorem State.setIif_held (i : Nat) (b : Bool) : (s.setIif i b).held = s.held := rfl
@[simp] theorem State.setIif_stalled (i : Nat) (b : Bool) : (s.setIif i b).stalled = s.stalled := rfl
@[simp] theorem State.setIif_unflushed (i : Nat) (b : Bool) : (s.setIif i b).unflushed = s.unflushed := rfl
@[simp] theorem State.setIif_cache (i : Nat) (b : Bool) : (s.setIif i b).cache = s.cache := rfl
@[simp] theorem State.setIif_mem (i : Nat) (b : Bool) : (s.setIif i b).mem = s.mem := rfl
@[simp] theorem State.setIif_romen (i : Nat) (b : Bool) : (s.setIif i b).romen = s.romen := rfl
@[simp] theorem State.setIif_resetloc (i : Nat) (b : Bool) : (s.setIif i b).resetloc = s.resetloc := rfl
@[simp] theorem State.setIif_pins (i : Nat) (b : Bool) : (s.setIif i b).pins = s.pins := rfl
@[simp] theorem State.setIif_gmicr (i : Nat) (b : Bool) : (s.setIif i b).gmicr = s.gmicr := rfl
@[simp] theorem State.setIif_lmicr (i : Nat) (b : Bool) : (s.setIif i b).lmicr = s.lmicr := rfl
@[simp] theorem State.setIif_timers (i : Nat) (b : Bool) : (s.setIif i b).timers = s.timers := rfl
@[simp] theorem State.setIif_ports (i : Nat) (b : Bool) : (s.setIif i b).ports = s.ports := rfl
@[simp] theorem State.setIif_dma (i : Nat) (b : Bool) : (s.setIif i b).dma = s.dma := rfl
@[simp] theorem State.setIif_latch (i : Nat) (b : Bool) : (s.setIif i b).latch = s.latch := rfl
@[simp] theorem State.setIif_boot (i : Nat) (b : Bool) : (s.setIif i b).boot = s.boot := rfl
@[simp] theorem State.setIif_script (i : Nat) (b : Bool) : (s.setIif i b).script = s.script := rfl
@[simp] theorem State.setIif_free (i : Nat) (b : Bool) : (s.setIif i b).free = s.free := rfl

/-! ## `State.wrF` -/

@[simp] theorem State.wrF_r (n : Fin 12) (v : Ext) : (s.wrF n v).r = s.r.set n v := rfl
@[simp] theorem State.wrF_ar (n : Fin 12) (v : Ext) : (s.wrF n v).ar = s.ar := rfl
@[simp] theorem State.wrF_dp (n : Fin 12) (v : Ext) : (s.wrF n v).dp = s.dp := rfl
@[simp] theorem State.wrF_ir0 (n : Fin 12) (v : Ext) : (s.wrF n v).ir0 = s.ir0 := rfl
@[simp] theorem State.wrF_ir1 (n : Fin 12) (v : Ext) : (s.wrF n v).ir1 = s.ir1 := rfl
@[simp] theorem State.wrF_bk (n : Fin 12) (v : Ext) : (s.wrF n v).bk = s.bk := rfl
@[simp] theorem State.wrF_sp (n : Fin 12) (v : Ext) : (s.wrF n v).sp = s.sp := rfl
@[simp] theorem State.wrF_st (n : Fin 12) (v : Ext) : (s.wrF n v).st = s.st := rfl
@[simp] theorem State.wrF_die (n : Fin 12) (v : Ext) : (s.wrF n v).die = s.die := rfl
@[simp] theorem State.wrF_iie (n : Fin 12) (v : Ext) : (s.wrF n v).iie = s.iie := rfl
@[simp] theorem State.wrF_iif (n : Fin 12) (v : Ext) : (s.wrF n v).iif = s.iif := rfl
@[simp] theorem State.wrF_rs (n : Fin 12) (v : Ext) : (s.wrF n v).rs = s.rs := rfl
@[simp] theorem State.wrF_re (n : Fin 12) (v : Ext) : (s.wrF n v).re = s.re := rfl
@[simp] theorem State.wrF_rc (n : Fin 12) (v : Ext) : (s.wrF n v).rc = s.rc := rfl
@[simp] theorem State.wrF_pc (n : Fin 12) (v : Ext) : (s.wrF n v).pc = s.pc := rfl
@[simp] theorem State.wrF_ivtp (n : Fin 12) (v : Ext) : (s.wrF n v).ivtp = s.ivtp := rfl
@[simp] theorem State.wrF_tvtp (n : Fin 12) (v : Ext) : (s.wrF n v).tvtp = s.tvtp := rfl
@[simp] theorem State.wrF_sFlag (n : Fin 12) (v : Ext) : (s.wrF n v).sFlag = s.sFlag := rfl
@[simp] theorem State.wrF_delay (n : Fin 12) (v : Ext) : (s.wrF n v).delay = s.delay := rfl
@[simp] theorem State.wrF_idle (n : Fin 12) (v : Ext) : (s.wrF n v).idle = s.idle := rfl
@[simp] theorem State.wrF_ir (n : Fin 12) (v : Ext) : (s.wrF n v).ir = s.ir := rfl
@[simp] theorem State.wrF_held (n : Fin 12) (v : Ext) : (s.wrF n v).held = s.held := rfl
@[simp] theorem State.wrF_stalled (n : Fin 12) (v : Ext) : (s.wrF n v).stalled = s.stalled := rfl
@[simp] theorem State.wrF_unflushed (n : Fin 12) (v : Ext) : (s.wrF n v).unflushed = s.unflushed := rfl
@[simp] theorem State.wrF_cache (n : Fin 12) (v : Ext) : (s.wrF n v).cache = s.cache := rfl
@[simp] theorem State.wrF_mem (n : Fin 12) (v : Ext) : (s.wrF n v).mem = s.mem := rfl
@[simp] theorem State.wrF_romen (n : Fin 12) (v : Ext) : (s.wrF n v).romen = s.romen := rfl
@[simp] theorem State.wrF_resetloc (n : Fin 12) (v : Ext) : (s.wrF n v).resetloc = s.resetloc := rfl
@[simp] theorem State.wrF_pins (n : Fin 12) (v : Ext) : (s.wrF n v).pins = s.pins := rfl
@[simp] theorem State.wrF_gmicr (n : Fin 12) (v : Ext) : (s.wrF n v).gmicr = s.gmicr := rfl
@[simp] theorem State.wrF_lmicr (n : Fin 12) (v : Ext) : (s.wrF n v).lmicr = s.lmicr := rfl
@[simp] theorem State.wrF_timers (n : Fin 12) (v : Ext) : (s.wrF n v).timers = s.timers := rfl
@[simp] theorem State.wrF_ports (n : Fin 12) (v : Ext) : (s.wrF n v).ports = s.ports := rfl
@[simp] theorem State.wrF_dma (n : Fin 12) (v : Ext) : (s.wrF n v).dma = s.dma := rfl
@[simp] theorem State.wrF_latch (n : Fin 12) (v : Ext) : (s.wrF n v).latch = s.latch := rfl
@[simp] theorem State.wrF_boot (n : Fin 12) (v : Ext) : (s.wrF n v).boot = s.boot := rfl
@[simp] theorem State.wrF_script (n : Fin 12) (v : Ext) : (s.wrF n v).script = s.script := rfl
@[simp] theorem State.wrF_free (n : Fin 12) (v : Ext) : (s.wrF n v).free = s.free := rfl

/-! ## `State.wrAr` -/

@[simp] theorem State.wrAr_r (n : Fin 8) (v : Word) : (s.wrAr n v).r = s.r := rfl
@[simp] theorem State.wrAr_ar (n : Fin 8) (v : Word) : (s.wrAr n v).ar = s.ar.set n v := rfl
@[simp] theorem State.wrAr_dp (n : Fin 8) (v : Word) : (s.wrAr n v).dp = s.dp := rfl
@[simp] theorem State.wrAr_ir0 (n : Fin 8) (v : Word) : (s.wrAr n v).ir0 = s.ir0 := rfl
@[simp] theorem State.wrAr_ir1 (n : Fin 8) (v : Word) : (s.wrAr n v).ir1 = s.ir1 := rfl
@[simp] theorem State.wrAr_bk (n : Fin 8) (v : Word) : (s.wrAr n v).bk = s.bk := rfl
@[simp] theorem State.wrAr_sp (n : Fin 8) (v : Word) : (s.wrAr n v).sp = s.sp := rfl
@[simp] theorem State.wrAr_st (n : Fin 8) (v : Word) : (s.wrAr n v).st = s.st := rfl
@[simp] theorem State.wrAr_die (n : Fin 8) (v : Word) : (s.wrAr n v).die = s.die := rfl
@[simp] theorem State.wrAr_iie (n : Fin 8) (v : Word) : (s.wrAr n v).iie = s.iie := rfl
@[simp] theorem State.wrAr_iif (n : Fin 8) (v : Word) : (s.wrAr n v).iif = s.iif := rfl
@[simp] theorem State.wrAr_rs (n : Fin 8) (v : Word) : (s.wrAr n v).rs = s.rs := rfl
@[simp] theorem State.wrAr_re (n : Fin 8) (v : Word) : (s.wrAr n v).re = s.re := rfl
@[simp] theorem State.wrAr_rc (n : Fin 8) (v : Word) : (s.wrAr n v).rc = s.rc := rfl
@[simp] theorem State.wrAr_pc (n : Fin 8) (v : Word) : (s.wrAr n v).pc = s.pc := rfl
@[simp] theorem State.wrAr_ivtp (n : Fin 8) (v : Word) : (s.wrAr n v).ivtp = s.ivtp := rfl
@[simp] theorem State.wrAr_tvtp (n : Fin 8) (v : Word) : (s.wrAr n v).tvtp = s.tvtp := rfl
@[simp] theorem State.wrAr_sFlag (n : Fin 8) (v : Word) : (s.wrAr n v).sFlag = s.sFlag := rfl
@[simp] theorem State.wrAr_delay (n : Fin 8) (v : Word) : (s.wrAr n v).delay = s.delay := rfl
@[simp] theorem State.wrAr_idle (n : Fin 8) (v : Word) : (s.wrAr n v).idle = s.idle := rfl
@[simp] theorem State.wrAr_ir (n : Fin 8) (v : Word) : (s.wrAr n v).ir = s.ir := rfl
@[simp] theorem State.wrAr_held (n : Fin 8) (v : Word) : (s.wrAr n v).held = s.held := rfl
@[simp] theorem State.wrAr_stalled (n : Fin 8) (v : Word) : (s.wrAr n v).stalled = s.stalled := rfl
@[simp] theorem State.wrAr_unflushed (n : Fin 8) (v : Word) : (s.wrAr n v).unflushed = s.unflushed := rfl
@[simp] theorem State.wrAr_cache (n : Fin 8) (v : Word) : (s.wrAr n v).cache = s.cache := rfl
@[simp] theorem State.wrAr_mem (n : Fin 8) (v : Word) : (s.wrAr n v).mem = s.mem := rfl
@[simp] theorem State.wrAr_romen (n : Fin 8) (v : Word) : (s.wrAr n v).romen = s.romen := rfl
@[simp] theorem State.wrAr_resetloc (n : Fin 8) (v : Word) : (s.wrAr n v).resetloc = s.resetloc := rfl
@[simp] theorem State.wrAr_pins (n : Fin 8) (v : Word) : (s.wrAr n v).pins = s.pins := rfl
@[simp] theorem State.wrAr_gmicr (n : Fin 8) (v : Word) : (s.wrAr n v).gmicr = s.gmicr := rfl
@[simp] theorem State.wrAr_lmicr (n : Fin 8) (v : Word) : (s.wrAr n v).lmicr = s.lmicr := rfl
@[simp] theorem State.wrAr_timers (n : Fin 8) (v : Word) : (s.wrAr n v).timers = s.timers := rfl
@[simp] theorem State.wrAr_ports (n : Fin 8) (v : Word) : (s.wrAr n v).ports = s.ports := rfl
@[simp] theorem State.wrAr_dma (n : Fin 8) (v : Word) : (s.wrAr n v).dma = s.dma := rfl
@[simp] theorem State.wrAr_latch (n : Fin 8) (v : Word) : (s.wrAr n v).latch = s.latch := rfl
@[simp] theorem State.wrAr_boot (n : Fin 8) (v : Word) : (s.wrAr n v).boot = s.boot := rfl
@[simp] theorem State.wrAr_script (n : Fin 8) (v : Word) : (s.wrAr n v).script = s.script := rfl
@[simp] theorem State.wrAr_free (n : Fin 8) (v : Word) : (s.wrAr n v).free = s.free := rfl

/-! ## `State.wrRe` -/

@[simp] theorem State.wrRe_r (v : Word) : (s.wrRe v).r = s.r := rfl
@[simp] theorem State.wrRe_ar (v : Word) : (s.wrRe v).ar = s.ar := rfl
@[simp] theorem State.wrRe_dp (v : Word) : (s.wrRe v).dp = s.dp := rfl
@[simp] theorem State.wrRe_ir0 (v : Word) : (s.wrRe v).ir0 = s.ir0 := rfl
@[simp] theorem State.wrRe_ir1 (v : Word) : (s.wrRe v).ir1 = s.ir1 := rfl
@[simp] theorem State.wrRe_bk (v : Word) : (s.wrRe v).bk = s.bk := rfl
@[simp] theorem State.wrRe_sp (v : Word) : (s.wrRe v).sp = s.sp := rfl
@[simp] theorem State.wrRe_st (v : Word) : (s.wrRe v).st = s.st := rfl
@[simp] theorem State.wrRe_die (v : Word) : (s.wrRe v).die = s.die := rfl
@[simp] theorem State.wrRe_iie (v : Word) : (s.wrRe v).iie = s.iie := rfl
@[simp] theorem State.wrRe_iif (v : Word) : (s.wrRe v).iif = s.iif := rfl
@[simp] theorem State.wrRe_rs (v : Word) : (s.wrRe v).rs = s.rs := rfl
@[simp] theorem State.wrRe_re (v : Word) : (s.wrRe v).re = v := rfl
@[simp] theorem State.wrRe_rc (v : Word) : (s.wrRe v).rc = s.rc := rfl
@[simp] theorem State.wrRe_pc (v : Word) : (s.wrRe v).pc = s.pc := rfl
@[simp] theorem State.wrRe_ivtp (v : Word) : (s.wrRe v).ivtp = s.ivtp := rfl
@[simp] theorem State.wrRe_tvtp (v : Word) : (s.wrRe v).tvtp = s.tvtp := rfl
@[simp] theorem State.wrRe_sFlag (v : Word) : (s.wrRe v).sFlag = s.sFlag := rfl
@[simp] theorem State.wrRe_delay (v : Word) : (s.wrRe v).delay = s.delay := rfl
@[simp] theorem State.wrRe_idle (v : Word) : (s.wrRe v).idle = s.idle := rfl
@[simp] theorem State.wrRe_ir (v : Word) : (s.wrRe v).ir = s.ir := rfl
@[simp] theorem State.wrRe_held (v : Word) : (s.wrRe v).held = s.held := rfl
@[simp] theorem State.wrRe_stalled (v : Word) : (s.wrRe v).stalled = s.stalled := rfl
@[simp] theorem State.wrRe_cache (v : Word) : (s.wrRe v).cache = s.cache := rfl
@[simp] theorem State.wrRe_mem (v : Word) : (s.wrRe v).mem = s.mem := rfl
@[simp] theorem State.wrRe_romen (v : Word) : (s.wrRe v).romen = s.romen := rfl
@[simp] theorem State.wrRe_resetloc (v : Word) : (s.wrRe v).resetloc = s.resetloc := rfl
@[simp] theorem State.wrRe_pins (v : Word) : (s.wrRe v).pins = s.pins := rfl
@[simp] theorem State.wrRe_gmicr (v : Word) : (s.wrRe v).gmicr = s.gmicr := rfl
@[simp] theorem State.wrRe_lmicr (v : Word) : (s.wrRe v).lmicr = s.lmicr := rfl
@[simp] theorem State.wrRe_timers (v : Word) : (s.wrRe v).timers = s.timers := rfl
@[simp] theorem State.wrRe_ports (v : Word) : (s.wrRe v).ports = s.ports := rfl
@[simp] theorem State.wrRe_dma (v : Word) : (s.wrRe v).dma = s.dma := rfl
@[simp] theorem State.wrRe_latch (v : Word) : (s.wrRe v).latch = s.latch := rfl
@[simp] theorem State.wrRe_boot (v : Word) : (s.wrRe v).boot = s.boot := rfl
@[simp] theorem State.wrRe_script (v : Word) : (s.wrRe v).script = s.script := rfl
@[simp] theorem State.wrRe_free (v : Word) : (s.wrRe v).free = s.free := rfl

/-! ## `State.setTimer` -/

@[simp] theorem State.setTimer_r (t : Fin 2) (m : Timer) : (s.setTimer t m).r = s.r := rfl
@[simp] theorem State.setTimer_ar (t : Fin 2) (m : Timer) : (s.setTimer t m).ar = s.ar := rfl
@[simp] theorem State.setTimer_dp (t : Fin 2) (m : Timer) : (s.setTimer t m).dp = s.dp := rfl
@[simp] theorem State.setTimer_ir0 (t : Fin 2) (m : Timer) : (s.setTimer t m).ir0 = s.ir0 := rfl
@[simp] theorem State.setTimer_ir1 (t : Fin 2) (m : Timer) : (s.setTimer t m).ir1 = s.ir1 := rfl
@[simp] theorem State.setTimer_bk (t : Fin 2) (m : Timer) : (s.setTimer t m).bk = s.bk := rfl
@[simp] theorem State.setTimer_sp (t : Fin 2) (m : Timer) : (s.setTimer t m).sp = s.sp := rfl
@[simp] theorem State.setTimer_st (t : Fin 2) (m : Timer) : (s.setTimer t m).st = s.st := rfl
@[simp] theorem State.setTimer_die (t : Fin 2) (m : Timer) : (s.setTimer t m).die = s.die := rfl
@[simp] theorem State.setTimer_iie (t : Fin 2) (m : Timer) : (s.setTimer t m).iie = s.iie := rfl
@[simp] theorem State.setTimer_iif (t : Fin 2) (m : Timer) : (s.setTimer t m).iif = s.iif := rfl
@[simp] theorem State.setTimer_rs (t : Fin 2) (m : Timer) : (s.setTimer t m).rs = s.rs := rfl
@[simp] theorem State.setTimer_re (t : Fin 2) (m : Timer) : (s.setTimer t m).re = s.re := rfl
@[simp] theorem State.setTimer_rc (t : Fin 2) (m : Timer) : (s.setTimer t m).rc = s.rc := rfl
@[simp] theorem State.setTimer_pc (t : Fin 2) (m : Timer) : (s.setTimer t m).pc = s.pc := rfl
@[simp] theorem State.setTimer_ivtp (t : Fin 2) (m : Timer) : (s.setTimer t m).ivtp = s.ivtp := rfl
@[simp] theorem State.setTimer_tvtp (t : Fin 2) (m : Timer) : (s.setTimer t m).tvtp = s.tvtp := rfl
@[simp] theorem State.setTimer_sFlag (t : Fin 2) (m : Timer) : (s.setTimer t m).sFlag = s.sFlag := rfl
@[simp] theorem State.setTimer_delay (t : Fin 2) (m : Timer) : (s.setTimer t m).delay = s.delay := rfl
@[simp] theorem State.setTimer_idle (t : Fin 2) (m : Timer) : (s.setTimer t m).idle = s.idle := rfl
@[simp] theorem State.setTimer_ir (t : Fin 2) (m : Timer) : (s.setTimer t m).ir = s.ir := rfl
@[simp] theorem State.setTimer_held (t : Fin 2) (m : Timer) : (s.setTimer t m).held = s.held := rfl
@[simp] theorem State.setTimer_stalled (t : Fin 2) (m : Timer) : (s.setTimer t m).stalled = s.stalled := rfl
@[simp] theorem State.setTimer_unflushed (t : Fin 2) (m : Timer) : (s.setTimer t m).unflushed = s.unflushed := rfl
@[simp] theorem State.setTimer_cache (t : Fin 2) (m : Timer) : (s.setTimer t m).cache = s.cache := rfl
@[simp] theorem State.setTimer_mem (t : Fin 2) (m : Timer) : (s.setTimer t m).mem = s.mem := rfl
@[simp] theorem State.setTimer_romen (t : Fin 2) (m : Timer) : (s.setTimer t m).romen = s.romen := rfl
@[simp] theorem State.setTimer_resetloc (t : Fin 2) (m : Timer) : (s.setTimer t m).resetloc = s.resetloc := rfl
@[simp] theorem State.setTimer_pins (t : Fin 2) (m : Timer) : (s.setTimer t m).pins = s.pins := rfl
@[simp] theorem State.setTimer_gmicr (t : Fin 2) (m : Timer) : (s.setTimer t m).gmicr = s.gmicr := rfl
@[simp] theorem State.setTimer_lmicr (t : Fin 2) (m : Timer) : (s.setTimer t m).lmicr = s.lmicr := rfl
@[simp] theorem State.setTimer_timers (t : Fin 2) (m : Timer) : (s.setTimer t m).timers = s.timers.set t m := rfl
@[simp] theorem State.setTimer_ports (t : Fin 2) (m : Timer) : (s.setTimer t m).ports = s.ports := rfl
@[simp] theorem State.setTimer_dma (t : Fin 2) (m : Timer) : (s.setTimer t m).dma = s.dma := rfl
@[simp] theorem State.setTimer_latch (t : Fin 2) (m : Timer) : (s.setTimer t m).latch = s.latch := rfl
@[simp] theorem State.setTimer_boot (t : Fin 2) (m : Timer) : (s.setTimer t m).boot = s.boot := rfl
@[simp] theorem State.setTimer_script (t : Fin 2) (m : Timer) : (s.setTimer t m).script = s.script := rfl
@[simp] theorem State.setTimer_free (t : Fin 2) (m : Timer) : (s.setTimer t m).free = s.free := rfl

/-! ## `State.setPort` -/

@[simp] theorem State.setPort_r (x : Fin 6) (p : Port) : (s.setPort x p).r = s.r := rfl
@[simp] theorem State.setPort_ar (x : Fin 6) (p : Port) : (s.setPort x p).ar = s.ar := rfl
@[simp] theorem State.setPort_dp (x : Fin 6) (p : Port) : (s.setPort x p).dp = s.dp := rfl
@[simp] theorem State.setPort_ir0 (x : Fin 6) (p : Port) : (s.setPort x p).ir0 = s.ir0 := rfl
@[simp] theorem State.setPort_ir1 (x : Fin 6) (p : Port) : (s.setPort x p).ir1 = s.ir1 := rfl
@[simp] theorem State.setPort_bk (x : Fin 6) (p : Port) : (s.setPort x p).bk = s.bk := rfl
@[simp] theorem State.setPort_sp (x : Fin 6) (p : Port) : (s.setPort x p).sp = s.sp := rfl
@[simp] theorem State.setPort_st (x : Fin 6) (p : Port) : (s.setPort x p).st = s.st := rfl
@[simp] theorem State.setPort_die (x : Fin 6) (p : Port) : (s.setPort x p).die = s.die := rfl
@[simp] theorem State.setPort_iie (x : Fin 6) (p : Port) : (s.setPort x p).iie = s.iie := rfl
@[simp] theorem State.setPort_iif (x : Fin 6) (p : Port) : (s.setPort x p).iif = s.iif := rfl
@[simp] theorem State.setPort_rs (x : Fin 6) (p : Port) : (s.setPort x p).rs = s.rs := rfl
@[simp] theorem State.setPort_re (x : Fin 6) (p : Port) : (s.setPort x p).re = s.re := rfl
@[simp] theorem State.setPort_rc (x : Fin 6) (p : Port) : (s.setPort x p).rc = s.rc := rfl
@[simp] theorem State.setPort_pc (x : Fin 6) (p : Port) : (s.setPort x p).pc = s.pc := rfl
@[simp] theorem State.setPort_ivtp (x : Fin 6) (p : Port) : (s.setPort x p).ivtp = s.ivtp := rfl
@[simp] theorem State.setPort_tvtp (x : Fin 6) (p : Port) : (s.setPort x p).tvtp = s.tvtp := rfl
@[simp] theorem State.setPort_sFlag (x : Fin 6) (p : Port) : (s.setPort x p).sFlag = s.sFlag := rfl
@[simp] theorem State.setPort_delay (x : Fin 6) (p : Port) : (s.setPort x p).delay = s.delay := rfl
@[simp] theorem State.setPort_idle (x : Fin 6) (p : Port) : (s.setPort x p).idle = s.idle := rfl
@[simp] theorem State.setPort_ir (x : Fin 6) (p : Port) : (s.setPort x p).ir = s.ir := rfl
@[simp] theorem State.setPort_held (x : Fin 6) (p : Port) : (s.setPort x p).held = s.held := rfl
@[simp] theorem State.setPort_stalled (x : Fin 6) (p : Port) : (s.setPort x p).stalled = s.stalled := rfl
@[simp] theorem State.setPort_unflushed (x : Fin 6) (p : Port) : (s.setPort x p).unflushed = s.unflushed := rfl
@[simp] theorem State.setPort_cache (x : Fin 6) (p : Port) : (s.setPort x p).cache = s.cache := rfl
@[simp] theorem State.setPort_mem (x : Fin 6) (p : Port) : (s.setPort x p).mem = s.mem := rfl
@[simp] theorem State.setPort_romen (x : Fin 6) (p : Port) : (s.setPort x p).romen = s.romen := rfl
@[simp] theorem State.setPort_resetloc (x : Fin 6) (p : Port) : (s.setPort x p).resetloc = s.resetloc := rfl
@[simp] theorem State.setPort_pins (x : Fin 6) (p : Port) : (s.setPort x p).pins = s.pins := rfl
@[simp] theorem State.setPort_gmicr (x : Fin 6) (p : Port) : (s.setPort x p).gmicr = s.gmicr := rfl
@[simp] theorem State.setPort_lmicr (x : Fin 6) (p : Port) : (s.setPort x p).lmicr = s.lmicr := rfl
@[simp] theorem State.setPort_timers (x : Fin 6) (p : Port) : (s.setPort x p).timers = s.timers := rfl
@[simp] theorem State.setPort_ports (x : Fin 6) (p : Port) : (s.setPort x p).ports = s.ports.set x p := rfl
@[simp] theorem State.setPort_dma (x : Fin 6) (p : Port) : (s.setPort x p).dma = s.dma := rfl
@[simp] theorem State.setPort_latch (x : Fin 6) (p : Port) : (s.setPort x p).latch = s.latch := rfl
@[simp] theorem State.setPort_boot (x : Fin 6) (p : Port) : (s.setPort x p).boot = s.boot := rfl
@[simp] theorem State.setPort_script (x : Fin 6) (p : Port) : (s.setPort x p).script = s.script := rfl
@[simp] theorem State.setPort_free (x : Fin 6) (p : Port) : (s.setPort x p).free = s.free := rfl

/-! ## `State.setDma` -/

@[simp] theorem State.setDma_r (c : Fin 6) (d : Dma) : (s.setDma c d).r = s.r := rfl
@[simp] theorem State.setDma_ar (c : Fin 6) (d : Dma) : (s.setDma c d).ar = s.ar := rfl
@[simp] theorem State.setDma_dp (c : Fin 6) (d : Dma) : (s.setDma c d).dp = s.dp := rfl
@[simp] theorem State.setDma_ir0 (c : Fin 6) (d : Dma) : (s.setDma c d).ir0 = s.ir0 := rfl
@[simp] theorem State.setDma_ir1 (c : Fin 6) (d : Dma) : (s.setDma c d).ir1 = s.ir1 := rfl
@[simp] theorem State.setDma_bk (c : Fin 6) (d : Dma) : (s.setDma c d).bk = s.bk := rfl
@[simp] theorem State.setDma_sp (c : Fin 6) (d : Dma) : (s.setDma c d).sp = s.sp := rfl
@[simp] theorem State.setDma_st (c : Fin 6) (d : Dma) : (s.setDma c d).st = s.st := rfl
@[simp] theorem State.setDma_die (c : Fin 6) (d : Dma) : (s.setDma c d).die = s.die := rfl
@[simp] theorem State.setDma_iie (c : Fin 6) (d : Dma) : (s.setDma c d).iie = s.iie := rfl
@[simp] theorem State.setDma_iif (c : Fin 6) (d : Dma) : (s.setDma c d).iif = s.iif := rfl
@[simp] theorem State.setDma_rs (c : Fin 6) (d : Dma) : (s.setDma c d).rs = s.rs := rfl
@[simp] theorem State.setDma_re (c : Fin 6) (d : Dma) : (s.setDma c d).re = s.re := rfl
@[simp] theorem State.setDma_rc (c : Fin 6) (d : Dma) : (s.setDma c d).rc = s.rc := rfl
@[simp] theorem State.setDma_pc (c : Fin 6) (d : Dma) : (s.setDma c d).pc = s.pc := rfl
@[simp] theorem State.setDma_ivtp (c : Fin 6) (d : Dma) : (s.setDma c d).ivtp = s.ivtp := rfl
@[simp] theorem State.setDma_tvtp (c : Fin 6) (d : Dma) : (s.setDma c d).tvtp = s.tvtp := rfl
@[simp] theorem State.setDma_sFlag (c : Fin 6) (d : Dma) : (s.setDma c d).sFlag = s.sFlag := rfl
@[simp] theorem State.setDma_delay (c : Fin 6) (d : Dma) : (s.setDma c d).delay = s.delay := rfl
@[simp] theorem State.setDma_idle (c : Fin 6) (d : Dma) : (s.setDma c d).idle = s.idle := rfl
@[simp] theorem State.setDma_ir (c : Fin 6) (d : Dma) : (s.setDma c d).ir = s.ir := rfl
@[simp] theorem State.setDma_held (c : Fin 6) (d : Dma) : (s.setDma c d).held = s.held := rfl
@[simp] theorem State.setDma_stalled (c : Fin 6) (d : Dma) : (s.setDma c d).stalled = s.stalled := rfl
@[simp] theorem State.setDma_unflushed (c : Fin 6) (d : Dma) : (s.setDma c d).unflushed = s.unflushed := rfl
@[simp] theorem State.setDma_cache (c : Fin 6) (d : Dma) : (s.setDma c d).cache = s.cache := rfl
@[simp] theorem State.setDma_mem (c : Fin 6) (d : Dma) : (s.setDma c d).mem = s.mem := rfl
@[simp] theorem State.setDma_romen (c : Fin 6) (d : Dma) : (s.setDma c d).romen = s.romen := rfl
@[simp] theorem State.setDma_resetloc (c : Fin 6) (d : Dma) : (s.setDma c d).resetloc = s.resetloc := rfl
@[simp] theorem State.setDma_pins (c : Fin 6) (d : Dma) : (s.setDma c d).pins = s.pins := rfl
@[simp] theorem State.setDma_gmicr (c : Fin 6) (d : Dma) : (s.setDma c d).gmicr = s.gmicr := rfl
@[simp] theorem State.setDma_lmicr (c : Fin 6) (d : Dma) : (s.setDma c d).lmicr = s.lmicr := rfl
@[simp] theorem State.setDma_timers (c : Fin 6) (d : Dma) : (s.setDma c d).timers = s.timers := rfl
@[simp] theorem State.setDma_ports (c : Fin 6) (d : Dma) : (s.setDma c d).ports = s.ports := rfl
@[simp] theorem State.setDma_dma (c : Fin 6) (d : Dma) : (s.setDma c d).dma = s.dma.set c d := rfl
@[simp] theorem State.setDma_latch (c : Fin 6) (d : Dma) : (s.setDma c d).latch = s.latch := rfl
@[simp] theorem State.setDma_boot (c : Fin 6) (d : Dma) : (s.setDma c d).boot = s.boot := rfl
@[simp] theorem State.setDma_script (c : Fin 6) (d : Dma) : (s.setDma c d).script = s.script := rfl
@[simp] theorem State.setDma_free (c : Fin 6) (d : Dma) : (s.setDma c d).free = s.free := rfl

/-! ## `State.settled` -/

@[simp] theorem State.settled_r : s.settled.r = s.r := rfl
@[simp] theorem State.settled_ar : s.settled.ar = s.ar := rfl
@[simp] theorem State.settled_dp : s.settled.dp = s.dp := rfl
@[simp] theorem State.settled_ir0 : s.settled.ir0 = s.ir0 := rfl
@[simp] theorem State.settled_ir1 : s.settled.ir1 = s.ir1 := rfl
@[simp] theorem State.settled_bk : s.settled.bk = s.bk := rfl
@[simp] theorem State.settled_sp : s.settled.sp = s.sp := rfl
@[simp] theorem State.settled_st : s.settled.st = s.st := rfl
@[simp] theorem State.settled_die : s.settled.die = s.die := rfl
@[simp] theorem State.settled_iie : s.settled.iie = s.iie := rfl
@[simp] theorem State.settled_iif : s.settled.iif = s.iif := rfl
@[simp] theorem State.settled_rs : s.settled.rs = s.rs := rfl
@[simp] theorem State.settled_re : s.settled.re = s.re := rfl
@[simp] theorem State.settled_rc : s.settled.rc = s.rc := rfl
@[simp] theorem State.settled_pc : s.settled.pc = s.pc := rfl
@[simp] theorem State.settled_ivtp : s.settled.ivtp = s.ivtp := rfl
@[simp] theorem State.settled_tvtp : s.settled.tvtp = s.tvtp := rfl
@[simp] theorem State.settled_sFlag : s.settled.sFlag = s.sFlag := rfl
@[simp] theorem State.settled_delay : s.settled.delay = s.delay := rfl
@[simp] theorem State.settled_idle : s.settled.idle = s.idle := rfl
@[simp] theorem State.settled_ir : s.settled.ir = s.ir := rfl
@[simp] theorem State.settled_held : s.settled.held = false := rfl
@[simp] theorem State.settled_stalled : s.settled.stalled = false := rfl
@[simp] theorem State.settled_unflushed : s.settled.unflushed = s.unflushed := rfl
@[simp] theorem State.settled_cache : s.settled.cache = s.cache := rfl
@[simp] theorem State.settled_mem : s.settled.mem = s.mem := rfl
@[simp] theorem State.settled_romen : s.settled.romen = s.romen := rfl
@[simp] theorem State.settled_resetloc : s.settled.resetloc = s.resetloc := rfl
@[simp] theorem State.settled_pins : s.settled.pins = s.pins := rfl
@[simp] theorem State.settled_gmicr : s.settled.gmicr = s.gmicr := rfl
@[simp] theorem State.settled_lmicr : s.settled.lmicr = s.lmicr := rfl
@[simp] theorem State.settled_timers : s.settled.timers = s.timers := rfl
@[simp] theorem State.settled_ports : s.settled.ports = s.ports := rfl
@[simp] theorem State.settled_dma : s.settled.dma = s.dma := rfl
@[simp] theorem State.settled_latch : s.settled.latch = s.latch := rfl
@[simp] theorem State.settled_boot : s.settled.boot = s.boot := rfl
@[simp] theorem State.settled_script : s.settled.script = s.script := rfl
@[simp] theorem State.settled_free : s.settled.free = s.free := rfl

/-! ## `State.waiting` -/

@[simp] theorem State.waiting_r (l : Option Latch) : (s.waiting l).r = s.r := rfl
@[simp] theorem State.waiting_ar (l : Option Latch) : (s.waiting l).ar = s.ar := rfl
@[simp] theorem State.waiting_dp (l : Option Latch) : (s.waiting l).dp = s.dp := rfl
@[simp] theorem State.waiting_ir0 (l : Option Latch) : (s.waiting l).ir0 = s.ir0 := rfl
@[simp] theorem State.waiting_ir1 (l : Option Latch) : (s.waiting l).ir1 = s.ir1 := rfl
@[simp] theorem State.waiting_bk (l : Option Latch) : (s.waiting l).bk = s.bk := rfl
@[simp] theorem State.waiting_sp (l : Option Latch) : (s.waiting l).sp = s.sp := rfl
@[simp] theorem State.waiting_st (l : Option Latch) : (s.waiting l).st = s.st := rfl
@[simp] theorem State.waiting_die (l : Option Latch) : (s.waiting l).die = s.die := rfl
@[simp] theorem State.waiting_iie (l : Option Latch) : (s.waiting l).iie = s.iie := rfl
@[simp] theorem State.waiting_iif (l : Option Latch) : (s.waiting l).iif = s.iif := rfl
@[simp] theorem State.waiting_rs (l : Option Latch) : (s.waiting l).rs = s.rs := rfl
@[simp] theorem State.waiting_re (l : Option Latch) : (s.waiting l).re = s.re := rfl
@[simp] theorem State.waiting_rc (l : Option Latch) : (s.waiting l).rc = s.rc := rfl
@[simp] theorem State.waiting_pc (l : Option Latch) : (s.waiting l).pc = s.pc := rfl
@[simp] theorem State.waiting_ivtp (l : Option Latch) : (s.waiting l).ivtp = s.ivtp := rfl
@[simp] theorem State.waiting_tvtp (l : Option Latch) : (s.waiting l).tvtp = s.tvtp := rfl
@[simp] theorem State.waiting_sFlag (l : Option Latch) : (s.waiting l).sFlag = s.sFlag := rfl
@[simp] theorem State.waiting_delay (l : Option Latch) : (s.waiting l).delay = s.delay := rfl
@[simp] theorem State.waiting_idle (l : Option Latch) : (s.waiting l).idle = s.idle := rfl
@[simp] theorem State.waiting_ir (l : Option Latch) : (s.waiting l).ir = s.ir := rfl
@[simp] theorem State.waiting_held (l : Option Latch) : (s.waiting l).held = true := rfl
@[simp] theorem State.waiting_stalled (l : Option Latch) : (s.waiting l).stalled = true := rfl
@[simp] theorem State.waiting_unflushed (l : Option Latch) : (s.waiting l).unflushed = s.unflushed := rfl
@[simp] theorem State.waiting_cache (l : Option Latch) : (s.waiting l).cache = s.cache := rfl
@[simp] theorem State.waiting_mem (l : Option Latch) : (s.waiting l).mem = s.mem := rfl
@[simp] theorem State.waiting_romen (l : Option Latch) : (s.waiting l).romen = s.romen := rfl
@[simp] theorem State.waiting_resetloc (l : Option Latch) : (s.waiting l).resetloc = s.resetloc := rfl
@[simp] theorem State.waiting_pins (l : Option Latch) : (s.waiting l).pins = s.pins := rfl
@[simp] theorem State.waiting_gmicr (l : Option Latch) : (s.waiting l).gmicr = s.gmicr := rfl
@[simp] theorem State.waiting_lmicr (l : Option Latch) : (s.waiting l).lmicr = s.lmicr := rfl
@[simp] theorem State.waiting_timers (l : Option Latch) : (s.waiting l).timers = s.timers := rfl
@[simp] theorem State.waiting_ports (l : Option Latch) : (s.waiting l).ports = s.ports := rfl
@[simp] theorem State.waiting_dma (l : Option Latch) : (s.waiting l).dma = s.dma := rfl
@[simp] theorem State.waiting_latch (l : Option Latch) : (s.waiting l).latch = s.latch.take l := rfl
@[simp] theorem State.waiting_boot (l : Option Latch) : (s.waiting l).boot = s.boot := rfl
@[simp] theorem State.waiting_script (l : Option Latch) : (s.waiting l).script = s.script := rfl
@[simp] theorem State.waiting_free (l : Option Latch) : (s.waiting l).free = s.free := rfl

/-! ## `State.opened` -/

@[simp] theorem State.opened_r : s.opened.r = s.r := rfl
@[simp] theorem State.opened_ar : s.opened.ar = s.ar := rfl
@[simp] theorem State.opened_dp : s.opened.dp = s.dp := rfl
@[simp] theorem State.opened_ir0 : s.opened.ir0 = s.ir0 := rfl
@[simp] theorem State.opened_ir1 : s.opened.ir1 = s.ir1 := rfl
@[simp] theorem State.opened_bk : s.opened.bk = s.bk := rfl
@[simp] theorem State.opened_sp : s.opened.sp = s.sp := rfl
@[simp] theorem State.opened_st : s.opened.st = s.st := rfl
@[simp] theorem State.opened_die : s.opened.die = s.die := rfl
@[simp] theorem State.opened_iie : s.opened.iie = s.iie := rfl
@[simp] theorem State.opened_iif : s.opened.iif = s.iif := rfl
@[simp] theorem State.opened_rs : s.opened.rs = s.rs := rfl
@[simp] theorem State.opened_re : s.opened.re = s.re := rfl
@[simp] theorem State.opened_rc : s.opened.rc = s.rc := rfl
@[simp] theorem State.opened_pc : s.opened.pc = s.pc := rfl
@[simp] theorem State.opened_ivtp : s.opened.ivtp = s.ivtp := rfl
@[simp] theorem State.opened_tvtp : s.opened.tvtp = s.tvtp := rfl
@[simp] theorem State.opened_sFlag : s.opened.sFlag = s.sFlag := rfl
@[simp] theorem State.opened_delay : s.opened.delay = s.delay := rfl
@[simp] theorem State.opened_idle : s.opened.idle = s.idle := rfl
@[simp] theorem State.opened_ir : s.opened.ir = s.ir := rfl
@[simp] theorem State.opened_held : s.opened.held = s.held := rfl
@[simp] theorem State.opened_stalled : s.opened.stalled = s.stalled := rfl
@[simp] theorem State.opened_unflushed : s.opened.unflushed = s.unflushed := rfl
@[simp] theorem State.opened_cache : s.opened.cache = s.cache := rfl
@[simp] theorem State.opened_mem : s.opened.mem = s.mem := rfl
@[simp] theorem State.opened_romen : s.opened.romen = s.romen := rfl
@[simp] theorem State.opened_resetloc : s.opened.resetloc = s.resetloc := rfl
@[simp] theorem State.opened_pins : s.opened.pins = { s.pins with stat := 15, lstat := 15 } := rfl
@[simp] theorem State.opened_gmicr : s.opened.gmicr = s.gmicr := rfl
@[simp] theorem State.opened_lmicr : s.opened.lmicr = s.lmicr := rfl
@[simp] theorem State.opened_timers : s.opened.timers = s.timers := rfl
@[simp] theorem State.opened_ports : s.opened.ports = s.ports := rfl
@[simp] theorem State.opened_dma : s.opened.dma = s.dma := rfl
@[simp] theorem State.opened_latch : s.opened.latch = s.latch := rfl
@[simp] theorem State.opened_boot : s.opened.boot = s.boot := rfl
@[simp] theorem State.opened_script : s.opened.script = s.script.tail := rfl
@[simp] theorem State.opened_free : s.opened.free = s.free := rfl

/-! ## `State.jump` -/

@[simp] theorem State.jump_r (a : Word) : (s.jump a).r = s.r := rfl
@[simp] theorem State.jump_ar (a : Word) : (s.jump a).ar = s.ar := rfl
@[simp] theorem State.jump_dp (a : Word) : (s.jump a).dp = s.dp := rfl
@[simp] theorem State.jump_ir0 (a : Word) : (s.jump a).ir0 = s.ir0 := rfl
@[simp] theorem State.jump_ir1 (a : Word) : (s.jump a).ir1 = s.ir1 := rfl
@[simp] theorem State.jump_bk (a : Word) : (s.jump a).bk = s.bk := rfl
@[simp] theorem State.jump_sp (a : Word) : (s.jump a).sp = s.sp := rfl
@[simp] theorem State.jump_st (a : Word) : (s.jump a).st = s.st := rfl
@[simp] theorem State.jump_die (a : Word) : (s.jump a).die = s.die := rfl
@[simp] theorem State.jump_iie (a : Word) : (s.jump a).iie = s.iie := rfl
@[simp] theorem State.jump_iif (a : Word) : (s.jump a).iif = s.iif := rfl
@[simp] theorem State.jump_rs (a : Word) : (s.jump a).rs = s.rs := rfl
@[simp] theorem State.jump_re (a : Word) : (s.jump a).re = s.re := rfl
@[simp] theorem State.jump_rc (a : Word) : (s.jump a).rc = s.rc := rfl
@[simp] theorem State.jump_pc (a : Word) : (s.jump a).pc = a := rfl
@[simp] theorem State.jump_ivtp (a : Word) : (s.jump a).ivtp = s.ivtp := rfl
@[simp] theorem State.jump_tvtp (a : Word) : (s.jump a).tvtp = s.tvtp := rfl
@[simp] theorem State.jump_sFlag (a : Word) : (s.jump a).sFlag = s.sFlag := rfl
@[simp] theorem State.jump_delay (a : Word) : (s.jump a).delay = s.delay := rfl
@[simp] theorem State.jump_idle (a : Word) : (s.jump a).idle = s.idle := rfl
@[simp] theorem State.jump_ir (a : Word) : (s.jump a).ir = s.ir := rfl
@[simp] theorem State.jump_held (a : Word) : (s.jump a).held = s.held := rfl
@[simp] theorem State.jump_stalled (a : Word) : (s.jump a).stalled = s.stalled := rfl
@[simp] theorem State.jump_unflushed (a : Word) : (s.jump a).unflushed = 0 := rfl
@[simp] theorem State.jump_cache (a : Word) : (s.jump a).cache = s.cache := rfl
@[simp] theorem State.jump_mem (a : Word) : (s.jump a).mem = s.mem := rfl
@[simp] theorem State.jump_romen (a : Word) : (s.jump a).romen = s.romen := rfl
@[simp] theorem State.jump_resetloc (a : Word) : (s.jump a).resetloc = s.resetloc := rfl
@[simp] theorem State.jump_pins (a : Word) : (s.jump a).pins = s.pins := rfl
@[simp] theorem State.jump_gmicr (a : Word) : (s.jump a).gmicr = s.gmicr := rfl
@[simp] theorem State.jump_lmicr (a : Word) : (s.jump a).lmicr = s.lmicr := rfl
@[simp] theorem State.jump_timers (a : Word) : (s.jump a).timers = s.timers := rfl
@[simp] theorem State.jump_ports (a : Word) : (s.jump a).ports = s.ports := rfl
@[simp] theorem State.jump_dma (a : Word) : (s.jump a).dma = s.dma := rfl
@[simp] theorem State.jump_latch (a : Word) : (s.jump a).latch = s.latch := rfl
@[simp] theorem State.jump_boot (a : Word) : (s.jump a).boot = s.boot := rfl
@[simp] theorem State.jump_script (a : Word) : (s.jump a).script = s.script := rfl
@[simp] theorem State.jump_free (a : Word) : (s.jump a).free = s.free := rfl

/-! ## `State.delayed` -/

@[simp] theorem State.delayed_r (a : Option Word) (b : Bool) (k : SlotKind) : (s.delayed a b k).r = s.r := rfl
@[simp] theorem State.delayed_ar (a : Option Word) (b : Bool) (k : SlotKind) : (s.delayed a b k).ar = s.ar := rfl
@[simp] theorem State.delayed_dp (a : Option Word) (b : Bool) (k : SlotKind) : (s.delayed a b k).dp = s.dp := rfl
@[simp] theorem State.delayed_ir0 (a : Option Word) (b : Bool) (k : SlotKind) : (s.delayed a b k).ir0 = s.ir0 := rfl
@[simp] theorem State.delayed_ir1 (a : Option Word) (b : Bool) (k : SlotKind) : (s.delayed a b k).ir1 = s.ir1 := rfl
@[simp] theorem State.delayed_bk (a : Option Word) (b : Bool) (k : SlotKind) : (s.delayed a b k).bk = s.bk := rfl
@[simp] theorem State.delayed_sp (a : Option Word) (b : Bool) (k : SlotKind) : (s.delayed a b k).sp = s.sp := rfl
@[simp] theorem State.delayed_st (a : Option Word) (b : Bool) (k : SlotKind) : (s.delayed a b k).st = s.st := rfl
@[simp] theorem State.delayed_die (a : Option Word) (b : Bool) (k : SlotKind) : (s.delayed a b k).die = s.die := rfl
@[simp] theorem State.delayed_iie (a : Option Word) (b : Bool) (k : SlotKind) : (s.delayed a b k).iie = s.iie := rfl
@[simp] theorem State.delayed_iif (a : Option Word) (b : Bool) (k : SlotKind) : (s.delayed a b k).iif = s.iif := rfl
@[simp] theorem State.delayed_rs (a : Option Word) (b : Bool) (k : SlotKind) : (s.delayed a b k).rs = s.rs := rfl
@[simp] theorem State.delayed_re (a : Option Word) (b : Bool) (k : SlotKind) : (s.delayed a b k).re = s.re := rfl
@[simp] theorem State.delayed_rc (a : Option Word) (b : Bool) (k : SlotKind) : (s.delayed a b k).rc = s.rc := rfl
@[simp] theorem State.delayed_pc (a : Option Word) (b : Bool) (k : SlotKind) : (s.delayed a b k).pc = s.pc := rfl
@[simp] theorem State.delayed_ivtp (a : Option Word) (b : Bool) (k : SlotKind) : (s.delayed a b k).ivtp = s.ivtp := rfl
@[simp] theorem State.delayed_tvtp (a : Option Word) (b : Bool) (k : SlotKind) : (s.delayed a b k).tvtp = s.tvtp := rfl
@[simp] theorem State.delayed_sFlag (a : Option Word) (b : Bool) (k : SlotKind) : (s.delayed a b k).sFlag = s.sFlag := rfl
@[simp] theorem State.delayed_delay (a : Option Word) (b : Bool) (k : SlotKind) : (s.delayed a b k).delay = some { target := a, left := 3, annul := b, kind := k } := rfl
@[simp] theorem State.delayed_idle (a : Option Word) (b : Bool) (k : SlotKind) : (s.delayed a b k).idle = s.idle := rfl
@[simp] theorem State.delayed_ir (a : Option Word) (b : Bool) (k : SlotKind) : (s.delayed a b k).ir = s.ir := rfl
@[simp] theorem State.delayed_held (a : Option Word) (b : Bool) (k : SlotKind) : (s.delayed a b k).held = s.held := rfl
@[simp] theorem State.delayed_stalled (a : Option Word) (b : Bool) (k : SlotKind) : (s.delayed a b k).stalled = s.stalled := rfl
@[simp] theorem State.delayed_unflushed (a : Option Word) (b : Bool) (k : SlotKind) : (s.delayed a b k).unflushed = s.unflushed := rfl
@[simp] theorem State.delayed_cache (a : Option Word) (b : Bool) (k : SlotKind) : (s.delayed a b k).cache = s.cache := rfl
@[simp] theorem State.delayed_mem (a : Option Word) (b : Bool) (k : SlotKind) : (s.delayed a b k).mem = s.mem := rfl
@[simp] theorem State.delayed_romen (a : Option Word) (b : Bool) (k : SlotKind) : (s.delayed a b k).romen = s.romen := rfl
@[simp] theorem State.delayed_resetloc (a : Option Word) (b : Bool) (k : SlotKind) : (s.delayed a b k).resetloc = s.resetloc := rfl
@[simp] theorem State.delayed_pins (a : Option Word) (b : Bool) (k : SlotKind) : (s.delayed a b k).pins = s.pins := rfl
@[simp] theorem State.delayed_gmicr (a : Option Word) (b : Bool) (k : SlotKind) : (s.delayed a b k).gmicr = s.gmicr := rfl
@[simp] theorem State.delayed_lmicr (a : Option Word) (b : Bool) (k : SlotKind) : (s.delayed a b k).lmicr = s.lmicr := rfl
@[simp] theorem State.delayed_timers (a : Option Word) (b : Bool) (k : SlotKind) : (s.delayed a b k).timers = s.timers := rfl
@[simp] theorem State.delayed_ports (a : Option Word) (b : Bool) (k : SlotKind) : (s.delayed a b k).ports = s.ports := rfl
@[simp] theorem State.delayed_dma (a : Option Word) (b : Bool) (k : SlotKind) : (s.delayed a b k).dma = s.dma := rfl
@[simp] theorem State.delayed_latch (a : Option Word) (b : Bool) (k : SlotKind) : (s.delayed a b k).latch = s.latch := rfl
@[simp] theorem State.delayed_boot (a : Option Word) (b : Bool) (k : SlotKind) : (s.delayed a b k).boot = s.boot := rfl
@[simp] theorem State.delayed_script (a : Option Word) (b : Bool) (k : SlotKind) : (s.delayed a b k).script = s.script := rfl
@[simp] theorem State.delayed_free (a : Option Word) (b : Bool) (k : SlotKind) : (s.delayed a b k).free = s.free := rfl

/-! ## `State.saveStatus` -/

@[simp] theorem State.saveStatus_r : s.saveStatus.r = s.r := by simp [State.saveStatus]
@[simp] theorem State.saveStatus_ar : s.saveStatus.ar = s.ar := by simp [State.saveStatus]
@[simp] theorem State.saveStatus_dp : s.saveStatus.dp = s.dp := by simp [State.saveStatus]
@[simp] theorem State.saveStatus_ir0 : s.saveStatus.ir0 = s.ir0 := by simp [State.saveStatus]
@[simp] theorem State.saveStatus_ir1 : s.saveStatus.ir1 = s.ir1 := by simp [State.saveStatus]
@[simp] theorem State.saveStatus_bk : s.saveStatus.bk = s.bk := by simp [State.saveStatus]
@[simp] theorem State.saveStatus_sp : s.saveStatus.sp = s.sp := by simp [State.saveStatus]
@[simp] theorem State.saveStatus_die : s.saveStatus.die = s.die := by simp [State.saveStatus]
@[simp] theorem State.saveStatus_iie : s.saveStatus.iie = s.iie := by simp [State.saveStatus]
@[simp] theorem State.saveStatus_iif : s.saveStatus.iif = s.iif := by simp [State.saveStatus]
@[simp] theorem State.saveStatus_rs : s.saveStatus.rs = s.rs := by simp [State.saveStatus]
@[simp] theorem State.saveStatus_re : s.saveStatus.re = s.re := by simp [State.saveStatus]
@[simp] theorem State.saveStatus_rc : s.saveStatus.rc = s.rc := by simp [State.saveStatus]
@[simp] theorem State.saveStatus_pc : s.saveStatus.pc = s.pc := by simp [State.saveStatus]
@[simp] theorem State.saveStatus_ivtp : s.saveStatus.ivtp = s.ivtp := by simp [State.saveStatus]
@[simp] theorem State.saveStatus_tvtp : s.saveStatus.tvtp = s.tvtp := by simp [State.saveStatus]
@[simp] theorem State.saveStatus_sFlag : s.saveStatus.sFlag = s.sFlag := by simp [State.saveStatus]
@[simp] theorem State.saveStatus_delay : s.saveStatus.delay = s.delay := by simp [State.saveStatus]
@[simp] theorem State.saveStatus_idle : s.saveStatus.idle = s.idle := by simp [State.saveStatus]
@[simp] theorem State.saveStatus_ir : s.saveStatus.ir = s.ir := by simp [State.saveStatus]
@[simp] theorem State.saveStatus_held : s.saveStatus.held = s.held := by simp [State.saveStatus]
@[simp] theorem State.saveStatus_stalled : s.saveStatus.stalled = s.stalled := by simp [State.saveStatus]
@[simp] theorem State.saveStatus_unflushed : s.saveStatus.unflushed = s.unflushed := by simp [State.saveStatus]
@[simp] theorem State.saveStatus_cache : s.saveStatus.cache = s.cache := by simp [State.saveStatus]
@[simp] theorem State.saveStatus_mem : s.saveStatus.mem = s.mem := by simp [State.saveStatus]
@[simp] theorem State.saveStatus_romen : s.saveStatus.romen = s.romen := by simp [State.saveStatus]
@[simp] theorem State.saveStatus_resetloc : s.saveStatus.resetloc = s.resetloc := by simp [State.saveStatus]
@[simp] theorem State.saveStatus_pins : s.saveStatus.pins = s.pins := by simp [State.saveStatus]
@[simp] theorem State.saveStatus_gmicr : s.saveStatus.gmicr = s.gmicr := by simp [State.saveStatus]
@[simp] theorem State.saveStatus_lmicr : s.saveStatus.lmicr = s.lmicr := by simp [State.saveStatus]
@[simp] theorem State.saveStatus_timers : s.saveStatus.timers = s.timers := by simp [State.saveStatus]
@[simp] theorem State.saveStatus_ports : s.saveStatus.ports = s.ports := by simp [State.saveStatus]
@[simp] theorem State.saveStatus_dma : s.saveStatus.dma = s.dma := by simp [State.saveStatus]
@[simp] theorem State.saveStatus_latch : s.saveStatus.latch = s.latch := by simp [State.saveStatus]
@[simp] theorem State.saveStatus_boot : s.saveStatus.boot = s.boot := by simp [State.saveStatus]
@[simp] theorem State.saveStatus_script : s.saveStatus.script = s.script := by simp [State.saveStatus]
@[simp] theorem State.saveStatus_free : s.saveStatus.free = s.free := by simp [State.saveStatus]

/-! ## `State.restoreStatus` -/

@[simp] theorem State.restoreStatus_r : s.restoreStatus.r = s.r := by simp [State.restoreStatus]
@[simp] theorem State.restoreStatus_ar : s.restoreStatus.ar = s.ar := by simp [State.restoreStatus]
@[simp] theorem State.restoreStatus_dp : s.restoreStatus.dp = s.dp := by simp [State.restoreStatus]
@[simp] theorem State.restoreStatus_ir0 : s.restoreStatus.ir0 = s.ir0 := by simp [State.restoreStatus]
@[simp] theorem State.restoreStatus_ir1 : s.restoreStatus.ir1 = s.ir1 := by simp [State.restoreStatus]
@[simp] theorem State.restoreStatus_bk : s.restoreStatus.bk = s.bk := by simp [State.restoreStatus]
@[simp] theorem State.restoreStatus_sp : s.restoreStatus.sp = s.sp := by simp [State.restoreStatus]
@[simp] theorem State.restoreStatus_die : s.restoreStatus.die = s.die := by simp [State.restoreStatus]
@[simp] theorem State.restoreStatus_iie : s.restoreStatus.iie = s.iie := by simp [State.restoreStatus]
@[simp] theorem State.restoreStatus_iif : s.restoreStatus.iif = s.iif := by simp [State.restoreStatus]
@[simp] theorem State.restoreStatus_rs : s.restoreStatus.rs = s.rs := by simp [State.restoreStatus]
@[simp] theorem State.restoreStatus_re : s.restoreStatus.re = s.re := by simp [State.restoreStatus]
@[simp] theorem State.restoreStatus_rc : s.restoreStatus.rc = s.rc := by simp [State.restoreStatus]
@[simp] theorem State.restoreStatus_pc : s.restoreStatus.pc = s.pc := by simp [State.restoreStatus]
@[simp] theorem State.restoreStatus_ivtp : s.restoreStatus.ivtp = s.ivtp := by simp [State.restoreStatus]
@[simp] theorem State.restoreStatus_tvtp : s.restoreStatus.tvtp = s.tvtp := by simp [State.restoreStatus]
@[simp] theorem State.restoreStatus_sFlag : s.restoreStatus.sFlag = s.sFlag := by simp [State.restoreStatus]
@[simp] theorem State.restoreStatus_delay : s.restoreStatus.delay = s.delay := by simp [State.restoreStatus]
@[simp] theorem State.restoreStatus_idle : s.restoreStatus.idle = s.idle := by simp [State.restoreStatus]
@[simp] theorem State.restoreStatus_ir : s.restoreStatus.ir = s.ir := by simp [State.restoreStatus]
@[simp] theorem State.restoreStatus_held : s.restoreStatus.held = s.held := by simp [State.restoreStatus]
@[simp] theorem State.restoreStatus_stalled : s.restoreStatus.stalled = s.stalled := by simp [State.restoreStatus]
@[simp] theorem State.restoreStatus_unflushed : s.restoreStatus.unflushed = s.unflushed := by simp [State.restoreStatus]
@[simp] theorem State.restoreStatus_cache : s.restoreStatus.cache = s.cache := by simp [State.restoreStatus]
@[simp] theorem State.restoreStatus_mem : s.restoreStatus.mem = s.mem := by simp [State.restoreStatus]
@[simp] theorem State.restoreStatus_romen : s.restoreStatus.romen = s.romen := by simp [State.restoreStatus]
@[simp] theorem State.restoreStatus_resetloc : s.restoreStatus.resetloc = s.resetloc := by simp [State.restoreStatus]
@[simp] theorem State.restoreStatus_pins : s.restoreStatus.pins = s.pins := by simp [State.restoreStatus]
@[simp] theorem State.restoreStatus_gmicr : s.restoreStatus.gmicr = s.gmicr := by simp [State.restoreStatus]
@[simp] theorem State.restoreStatus_lmicr : s.restoreStatus.lmicr = s.lmicr := by simp [State.restoreStatus]
@[simp] theorem State.restoreStatus_timers : s.restoreStatus.timers = s.timers := by simp [State.restoreStatus]
@[simp] theorem State.restoreStatus_ports : s.restoreStatus.ports = s.ports := by simp [State.restoreStatus]
@[simp] theorem State.restoreStatus_dma : s.restoreStatus.dma = s.dma := by simp [State.restoreStatus]
@[simp] theorem State.restoreStatus_latch : s.restoreStatus.latch = s.latch := by simp [State.restoreStatus]
@[simp] theorem State.restoreStatus_boot : s.restoreStatus.boot = s.boot := by simp [State.restoreStatus]
@[simp] theorem State.restoreStatus_script : s.restoreStatus.script = s.script := by simp [State.restoreStatus]
@[simp] theorem State.restoreStatus_free : s.restoreStatus.free = s.free := by simp [State.restoreStatus]

/-! ## `State.startBlock` -/

@[simp] theorem State.startBlock_r (a b : Word) : (s.startBlock a b).r = s.r := rfl
@[simp] theorem State.startBlock_ar (a b : Word) : (s.startBlock a b).ar = s.ar := rfl
@[simp] theorem State.startBlock_dp (a b : Word) : (s.startBlock a b).dp = s.dp := rfl
@[simp] theorem State.startBlock_ir0 (a b : Word) : (s.startBlock a b).ir0 = s.ir0 := rfl
@[simp] theorem State.startBlock_ir1 (a b : Word) : (s.startBlock a b).ir1 = s.ir1 := rfl
@[simp] theorem State.startBlock_bk (a b : Word) : (s.startBlock a b).bk = s.bk := rfl
@[simp] theorem State.startBlock_sp (a b : Word) : (s.startBlock a b).sp = s.sp := rfl
@[simp] theorem State.startBlock_st (a b : Word) : (s.startBlock a b).st = (s.setSt 8 true).st := rfl
@[simp] theorem State.startBlock_die (a b : Word) : (s.startBlock a b).die = s.die := rfl
@[simp] theorem State.startBlock_iie (a b : Word) : (s.startBlock a b).iie = s.iie := rfl
@[simp] theorem State.startBlock_iif (a b : Word) : (s.startBlock a b).iif = s.iif := rfl
@[simp] theorem State.startBlock_rs (a b : Word) : (s.startBlock a b).rs = a := rfl
@[simp] theorem State.startBlock_re (a b : Word) : (s.startBlock a b).re = b := rfl
@[simp] theorem State.startBlock_rc (a b : Word) : (s.startBlock a b).rc = s.rc := rfl
@[simp] theorem State.startBlock_pc (a b : Word) : (s.startBlock a b).pc = s.pc := rfl
@[simp] theorem State.startBlock_ivtp (a b : Word) : (s.startBlock a b).ivtp = s.ivtp := rfl
@[simp] theorem State.startBlock_tvtp (a b : Word) : (s.startBlock a b).tvtp = s.tvtp := rfl
@[simp] theorem State.startBlock_sFlag (a b : Word) : (s.startBlock a b).sFlag = false := rfl
@[simp] theorem State.startBlock_delay (a b : Word) : (s.startBlock a b).delay = s.delay := rfl
@[simp] theorem State.startBlock_idle (a b : Word) : (s.startBlock a b).idle = s.idle := rfl
@[simp] theorem State.startBlock_ir (a b : Word) : (s.startBlock a b).ir = s.ir := rfl
@[simp] theorem State.startBlock_held (a b : Word) : (s.startBlock a b).held = s.held := rfl
@[simp] theorem State.startBlock_stalled (a b : Word) : (s.startBlock a b).stalled = s.stalled := rfl
@[simp] theorem State.startBlock_unflushed (a b : Word) : (s.startBlock a b).unflushed = s.unflushed := rfl
@[simp] theorem State.startBlock_cache (a b : Word) : (s.startBlock a b).cache = s.cache := rfl
@[simp] theorem State.startBlock_mem (a b : Word) : (s.startBlock a b).mem = s.mem := rfl
@[simp] theorem State.startBlock_romen (a b : Word) : (s.startBlock a b).romen = s.romen := rfl
@[simp] theorem State.startBlock_resetloc (a b : Word) : (s.startBlock a b).resetloc = s.resetloc := rfl
@[simp] theorem State.startBlock_pins (a b : Word) : (s.startBlock a b).pins = s.pins := rfl
@[simp] theorem State.startBlock_gmicr (a b : Word) : (s.startBlock a b).gmicr = s.gmicr := rfl
@[simp] theorem State.startBlock_lmicr (a b : Word) : (s.startBlock a b).lmicr = s.lmicr := rfl
@[simp] theorem State.startBlock_timers (a b : Word) : (s.startBlock a b).timers = s.timers := rfl
@[simp] theorem State.startBlock_ports (a b : Word) : (s.startBlock a b).ports = s.ports := rfl
@[simp] theorem State.startBlock_dma (a b : Word) : (s.startBlock a b).dma = s.dma := rfl
@[simp] theorem State.startBlock_latch (a b : Word) : (s.startBlock a b).latch = s.latch := rfl
@[simp] theorem State.startBlock_boot (a b : Word) : (s.startBlock a b).boot = s.boot := rfl
@[simp] theorem State.startBlock_script (a b : Word) : (s.startBlock a b).script = s.script := rfl
@[simp] theorem State.startBlock_free (a b : Word) : (s.startBlock a b).free = s.free := rfl

/-! ## `State.startSingle` -/

@[simp] theorem State.startSingle_r (a n : Word) : (s.startSingle a n).r = s.r := rfl
@[simp] theorem State.startSingle_ar (a n : Word) : (s.startSingle a n).ar = s.ar := rfl
@[simp] theorem State.startSingle_dp (a n : Word) : (s.startSingle a n).dp = s.dp := rfl
@[simp] theorem State.startSingle_ir0 (a n : Word) : (s.startSingle a n).ir0 = s.ir0 := rfl
@[simp] theorem State.startSingle_ir1 (a n : Word) : (s.startSingle a n).ir1 = s.ir1 := rfl
@[simp] theorem State.startSingle_bk (a n : Word) : (s.startSingle a n).bk = s.bk := rfl
@[simp] theorem State.startSingle_sp (a n : Word) : (s.startSingle a n).sp = s.sp := rfl
@[simp] theorem State.startSingle_st (a n : Word) : (s.startSingle a n).st = (s.setSt 8 true).st := rfl
@[simp] theorem State.startSingle_die (a n : Word) : (s.startSingle a n).die = s.die := rfl
@[simp] theorem State.startSingle_iie (a n : Word) : (s.startSingle a n).iie = s.iie := rfl
@[simp] theorem State.startSingle_iif (a n : Word) : (s.startSingle a n).iif = s.iif := rfl
@[simp] theorem State.startSingle_rs (a n : Word) : (s.startSingle a n).rs = a := rfl
@[simp] theorem State.startSingle_re (a n : Word) : (s.startSingle a n).re = a := rfl
@[simp] theorem State.startSingle_rc (a n : Word) : (s.startSingle a n).rc = n := rfl
@[simp] theorem State.startSingle_pc (a n : Word) : (s.startSingle a n).pc = s.pc := rfl
@[simp] theorem State.startSingle_ivtp (a n : Word) : (s.startSingle a n).ivtp = s.ivtp := rfl
@[simp] theorem State.startSingle_tvtp (a n : Word) : (s.startSingle a n).tvtp = s.tvtp := rfl
@[simp] theorem State.startSingle_sFlag (a n : Word) : (s.startSingle a n).sFlag = true := rfl
@[simp] theorem State.startSingle_delay (a n : Word) : (s.startSingle a n).delay = s.delay := rfl
@[simp] theorem State.startSingle_idle (a n : Word) : (s.startSingle a n).idle = s.idle := rfl
@[simp] theorem State.startSingle_ir (a n : Word) : (s.startSingle a n).ir = s.ir := rfl
@[simp] theorem State.startSingle_held (a n : Word) : (s.startSingle a n).held = s.held := rfl
@[simp] theorem State.startSingle_stalled (a n : Word) : (s.startSingle a n).stalled = s.stalled := rfl
@[simp] theorem State.startSingle_unflushed (a n : Word) : (s.startSingle a n).unflushed = s.unflushed := rfl
@[simp] theorem State.startSingle_cache (a n : Word) : (s.startSingle a n).cache = s.cache := rfl
@[simp] theorem State.startSingle_mem (a n : Word) : (s.startSingle a n).mem = s.mem := rfl
@[simp] theorem State.startSingle_romen (a n : Word) : (s.startSingle a n).romen = s.romen := rfl
@[simp] theorem State.startSingle_resetloc (a n : Word) : (s.startSingle a n).resetloc = s.resetloc := rfl
@[simp] theorem State.startSingle_pins (a n : Word) : (s.startSingle a n).pins = s.pins := rfl
@[simp] theorem State.startSingle_gmicr (a n : Word) : (s.startSingle a n).gmicr = s.gmicr := rfl
@[simp] theorem State.startSingle_lmicr (a n : Word) : (s.startSingle a n).lmicr = s.lmicr := rfl
@[simp] theorem State.startSingle_timers (a n : Word) : (s.startSingle a n).timers = s.timers := rfl
@[simp] theorem State.startSingle_ports (a n : Word) : (s.startSingle a n).ports = s.ports := rfl
@[simp] theorem State.startSingle_dma (a n : Word) : (s.startSingle a n).dma = s.dma := rfl
@[simp] theorem State.startSingle_latch (a n : Word) : (s.startSingle a n).latch = s.latch := rfl
@[simp] theorem State.startSingle_boot (a n : Word) : (s.startSingle a n).boot = s.boot := rfl
@[simp] theorem State.startSingle_script (a n : Word) : (s.startSingle a n).script = s.script := rfl
@[simp] theorem State.startSingle_free (a n : Word) : (s.startSingle a n).free = s.free := rfl

/-! ## `State.after` -/

@[simp] theorem State.after_r (u : State) : (s.after u).r = u.r := rfl
@[simp] theorem State.after_ar (u : State) : (s.after u).ar = u.ar := rfl
@[simp] theorem State.after_dp (u : State) : (s.after u).dp = u.dp := rfl
@[simp] theorem State.after_ir0 (u : State) : (s.after u).ir0 = u.ir0 := rfl
@[simp] theorem State.after_ir1 (u : State) : (s.after u).ir1 = u.ir1 := rfl
@[simp] theorem State.after_bk (u : State) : (s.after u).bk = u.bk := rfl
@[simp] theorem State.after_sp (u : State) : (s.after u).sp = u.sp := rfl
@[simp] theorem State.after_st (u : State) : (s.after u).st = u.st := rfl
@[simp] theorem State.after_die (u : State) : (s.after u).die = u.die := rfl
@[simp] theorem State.after_iie (u : State) : (s.after u).iie = u.iie := rfl
@[simp] theorem State.after_iif (u : State) : (s.after u).iif = u.iif := rfl
@[simp] theorem State.after_rs (u : State) : (s.after u).rs = u.rs := rfl
@[simp] theorem State.after_re (u : State) : (s.after u).re = u.re := rfl
@[simp] theorem State.after_rc (u : State) : (s.after u).rc = u.rc := rfl
@[simp] theorem State.after_pc (u : State) : (s.after u).pc = s.pc + 1 := rfl
@[simp] theorem State.after_ivtp (u : State) : (s.after u).ivtp = u.ivtp := rfl
@[simp] theorem State.after_tvtp (u : State) : (s.after u).tvtp = u.tvtp := rfl
@[simp] theorem State.after_sFlag (u : State) : (s.after u).sFlag = u.sFlag := rfl
@[simp] theorem State.after_delay (u : State) : (s.after u).delay = u.delay := rfl
@[simp] theorem State.after_idle (u : State) : (s.after u).idle = u.idle := rfl
@[simp] theorem State.after_ir (u : State) : (s.after u).ir = u.ir := rfl
@[simp] theorem State.after_held (u : State) : (s.after u).held = false := rfl
@[simp] theorem State.after_stalled (u : State) : (s.after u).stalled = false := rfl
@[simp] theorem State.after_unflushed (u : State) : (s.after u).unflushed = u.unflushed := rfl
@[simp] theorem State.after_cache (u : State) : (s.after u).cache = u.cache := rfl
@[simp] theorem State.after_mem (u : State) : (s.after u).mem = u.mem := rfl
@[simp] theorem State.after_romen (u : State) : (s.after u).romen = u.romen := rfl
@[simp] theorem State.after_resetloc (u : State) : (s.after u).resetloc = u.resetloc := rfl
@[simp] theorem State.after_pins (u : State) : (s.after u).pins = u.pins := rfl
@[simp] theorem State.after_gmicr (u : State) : (s.after u).gmicr = u.gmicr := rfl
@[simp] theorem State.after_lmicr (u : State) : (s.after u).lmicr = u.lmicr := rfl
@[simp] theorem State.after_timers (u : State) : (s.after u).timers = u.timers := rfl
@[simp] theorem State.after_ports (u : State) : (s.after u).ports = u.ports := rfl
@[simp] theorem State.after_dma (u : State) : (s.after u).dma = u.dma := rfl
@[simp] theorem State.after_latch (u : State) : (s.after u).latch = u.latch := rfl
@[simp] theorem State.after_boot (u : State) : (s.after u).boot = u.boot := rfl
@[simp] theorem State.after_script (u : State) : (s.after u).script = u.script := rfl
@[simp] theorem State.after_free (u : State) : (s.after u).free = u.free := rfl

/-! ## `State.wrI` -/

@[simp] theorem State.wrI_pc (d : Reg) (v : Word) : (s.wrI d v).pc = s.pc := by cases d <;> rfl
@[simp] theorem State.wrI_ivtp (d : Reg) (v : Word) : (s.wrI d v).ivtp = s.ivtp := by cases d <;> rfl
@[simp] theorem State.wrI_tvtp (d : Reg) (v : Word) : (s.wrI d v).tvtp = s.tvtp := by cases d <;> rfl
@[simp] theorem State.wrI_sFlag (d : Reg) (v : Word) : (s.wrI d v).sFlag = s.sFlag := by cases d <;> rfl
@[simp] theorem State.wrI_delay (d : Reg) (v : Word) : (s.wrI d v).delay = s.delay := by cases d <;> rfl
@[simp] theorem State.wrI_idle (d : Reg) (v : Word) : (s.wrI d v).idle = s.idle := by cases d <;> rfl
@[simp] theorem State.wrI_ir (d : Reg) (v : Word) : (s.wrI d v).ir = s.ir := by cases d <;> rfl
@[simp] theorem State.wrI_held (d : Reg) (v : Word) : (s.wrI d v).held = s.held := by cases d <;> rfl
@[simp] theorem State.wrI_stalled (d : Reg) (v : Word) : (s.wrI d v).stalled = s.stalled := by cases d <;> rfl
@[simp] theorem State.wrI_mem (d : Reg) (v : Word) : (s.wrI d v).mem = s.mem := by cases d <;> rfl
@[simp] theorem State.wrI_romen (d : Reg) (v : Word) : (s.wrI d v).romen = s.romen := by cases d <;> rfl
@[simp] theorem State.wrI_resetloc (d : Reg) (v : Word) : (s.wrI d v).resetloc = s.resetloc := by cases d <;> rfl
@[simp] theorem State.wrI_pins (d : Reg) (v : Word) : (s.wrI d v).pins = s.pins := by cases d <;> rfl
@[simp] theorem State.wrI_gmicr (d : Reg) (v : Word) : (s.wrI d v).gmicr = s.gmicr := by cases d <;> rfl
@[simp] theorem State.wrI_lmicr (d : Reg) (v : Word) : (s.wrI d v).lmicr = s.lmicr := by cases d <;> rfl
@[simp] theorem State.wrI_timers (d : Reg) (v : Word) : (s.wrI d v).timers = s.timers := by cases d <;> rfl
@[simp] theorem State.wrI_ports (d : Reg) (v : Word) : (s.wrI d v).ports = s.ports := by cases d <;> rfl
@[simp] theorem State.wrI_dma (d : Reg) (v : Word) : (s.wrI d v).dma = s.dma := by cases d <;> rfl
@[simp] theorem State.wrI_latch (d : Reg) (v : Word) : (s.wrI d v).latch = s.latch := by cases d <;> rfl
@[simp] theorem State.wrI_boot (d : Reg) (v : Word) : (s.wrI d v).boot = s.boot := by cases d <;> rfl
@[simp] theorem State.wrI_script (d : Reg) (v : Word) : (s.wrI d v).script = s.script := by cases d <;> rfl
@[simp] theorem State.wrI_free (d : Reg) (v : Word) : (s.wrI d v).free = s.free := by cases d <;> rfl

/-! ## `State.wrX` -/

@[simp] theorem State.wrX_r (x : XReg) (v : Word) : (s.wrX x v).r = s.r := by cases x <;> rfl
@[simp] theorem State.wrX_ar (x : XReg) (v : Word) : (s.wrX x v).ar = s.ar := by cases x <;> rfl
@[simp] theorem State.wrX_dp (x : XReg) (v : Word) : (s.wrX x v).dp = s.dp := by cases x <;> rfl
@[simp] theorem State.wrX_ir0 (x : XReg) (v : Word) : (s.wrX x v).ir0 = s.ir0 := by cases x <;> rfl
@[simp] theorem State.wrX_ir1 (x : XReg) (v : Word) : (s.wrX x v).ir1 = s.ir1 := by cases x <;> rfl
@[simp] theorem State.wrX_bk (x : XReg) (v : Word) : (s.wrX x v).bk = s.bk := by cases x <;> rfl
@[simp] theorem State.wrX_sp (x : XReg) (v : Word) : (s.wrX x v).sp = s.sp := by cases x <;> rfl
@[simp] theorem State.wrX_st (x : XReg) (v : Word) : (s.wrX x v).st = s.st := by cases x <;> rfl
@[simp] theorem State.wrX_die (x : XReg) (v : Word) : (s.wrX x v).die = s.die := by cases x <;> rfl
@[simp] theorem State.wrX_iie (x : XReg) (v : Word) : (s.wrX x v).iie = s.iie := by cases x <;> rfl
@[simp] theorem State.wrX_iif (x : XReg) (v : Word) : (s.wrX x v).iif = s.iif := by cases x <;> rfl
@[simp] theorem State.wrX_rs (x : XReg) (v : Word) : (s.wrX x v).rs = s.rs := by cases x <;> rfl
@[simp] theorem State.wrX_re (x : XReg) (v : Word) : (s.wrX x v).re = s.re := by cases x <;> rfl
@[simp] theorem State.wrX_rc (x : XReg) (v : Word) : (s.wrX x v).rc = s.rc := by cases x <;> rfl
@[simp] theorem State.wrX_pc (x : XReg) (v : Word) : (s.wrX x v).pc = s.pc := by cases x <;> rfl
@[simp] theorem State.wrX_sFlag (x : XReg) (v : Word) : (s.wrX x v).sFlag = s.sFlag := by cases x <;> rfl
@[simp] theorem State.wrX_delay (x : XReg) (v : Word) : (s.wrX x v).delay = s.delay := by cases x <;> rfl
@[simp] theorem State.wrX_idle (x : XReg) (v : Word) : (s.wrX x v).idle = s.idle := by cases x <;> rfl
@[simp] theorem State.wrX_ir (x : XReg) (v : Word) : (s.wrX x v).ir = s.ir := by cases x <;> rfl
@[simp] theorem State.wrX_held (x : XReg) (v : Word) : (s.wrX x v).held = s.held := by cases x <;> rfl
@[simp] theorem State.wrX_stalled (x : XReg) (v : Word) : (s.wrX x v).stalled = s.stalled := by cases x <;> rfl
@[simp] theorem State.wrX_unflushed (x : XReg) (v : Word) : (s.wrX x v).unflushed = s.unflushed := by cases x <;> rfl
@[simp] theorem State.wrX_cache (x : XReg) (v : Word) : (s.wrX x v).cache = s.cache := by cases x <;> rfl
@[simp] theorem State.wrX_mem (x : XReg) (v : Word) : (s.wrX x v).mem = s.mem := by cases x <;> rfl
@[simp] theorem State.wrX_romen (x : XReg) (v : Word) : (s.wrX x v).romen = s.romen := by cases x <;> rfl
@[simp] theorem State.wrX_resetloc (x : XReg) (v : Word) : (s.wrX x v).resetloc = s.resetloc := by cases x <;> rfl
@[simp] theorem State.wrX_pins (x : XReg) (v : Word) : (s.wrX x v).pins = s.pins := by cases x <;> rfl
@[simp] theorem State.wrX_gmicr (x : XReg) (v : Word) : (s.wrX x v).gmicr = s.gmicr := by cases x <;> rfl
@[simp] theorem State.wrX_lmicr (x : XReg) (v : Word) : (s.wrX x v).lmicr = s.lmicr := by cases x <;> rfl
@[simp] theorem State.wrX_timers (x : XReg) (v : Word) : (s.wrX x v).timers = s.timers := by cases x <;> rfl
@[simp] theorem State.wrX_ports (x : XReg) (v : Word) : (s.wrX x v).ports = s.ports := by cases x <;> rfl
@[simp] theorem State.wrX_dma (x : XReg) (v : Word) : (s.wrX x v).dma = s.dma := by cases x <;> rfl
@[simp] theorem State.wrX_latch (x : XReg) (v : Word) : (s.wrX x v).latch = s.latch := by cases x <;> rfl
@[simp] theorem State.wrX_boot (x : XReg) (v : Word) : (s.wrX x v).boot = s.boot := by cases x <;> rfl
@[simp] theorem State.wrX_script (x : XReg) (v : Word) : (s.wrX x v).script = s.script := by cases x <;> rfl
@[simp] theorem State.wrX_free (x : XReg) (v : Word) : (s.wrX x v).free = s.free := by cases x <;> rfl

/-! ## `State.putI` -/

@[simp] theorem State.putI_pc (d : Reg) (v : Word) (f : FlagRes) : (s.putI d v f).pc = s.pc := by unfold State.putI; split <;> simp
@[simp] theorem State.putI_ivtp (d : Reg) (v : Word) (f : FlagRes) : (s.putI d v f).ivtp = s.ivtp := by unfold State.putI; split <;> simp
@[simp] theorem State.putI_tvtp (d : Reg) (v : Word) (f : FlagRes) : (s.putI d v f).tvtp = s.tvtp := by unfold State.putI; split <;> simp
@[simp] theorem State.putI_sFlag (d : Reg) (v : Word) (f : FlagRes) : (s.putI d v f).sFlag = s.sFlag := by unfold State.putI; split <;> simp
@[simp] theorem State.putI_delay (d : Reg) (v : Word) (f : FlagRes) : (s.putI d v f).delay = s.delay := by unfold State.putI; split <;> simp
@[simp] theorem State.putI_idle (d : Reg) (v : Word) (f : FlagRes) : (s.putI d v f).idle = s.idle := by unfold State.putI; split <;> simp
@[simp] theorem State.putI_ir (d : Reg) (v : Word) (f : FlagRes) : (s.putI d v f).ir = s.ir := by unfold State.putI; split <;> simp
@[simp] theorem State.putI_held (d : Reg) (v : Word) (f : FlagRes) : (s.putI d v f).held = s.held := by unfold State.putI; split <;> simp
@[simp] theorem State.putI_stalled (d : Reg) (v : Word) (f : FlagRes) : (s.putI d v f).stalled = s.stalled := by unfold State.putI; split <;> simp
@[simp] theorem State.putI_mem (d : Reg) (v : Word) (f : FlagRes) : (s.putI d v f).mem = s.mem := by unfold State.putI; split <;> simp
@[simp] theorem State.putI_romen (d : Reg) (v : Word) (f : FlagRes) : (s.putI d v f).romen = s.romen := by unfold State.putI; split <;> simp
@[simp] theorem State.putI_resetloc (d : Reg) (v : Word) (f : FlagRes) : (s.putI d v f).resetloc = s.resetloc := by unfold State.putI; split <;> simp
@[simp] theorem State.putI_pins (d : Reg) (v : Word) (f : FlagRes) : (s.putI d v f).pins = s.pins := by unfold State.putI; split <;> simp
@[simp] theorem State.putI_gmicr (d : Reg) (v : Word) (f : FlagRes) : (s.putI d v f).gmicr = s.gmicr := by unfold State.putI; split <;> simp
@[simp] theorem State.putI_lmicr (d : Reg) (v : Word) (f : FlagRes) : (s.putI d v f).lmicr = s.lmicr := by unfold State.putI; split <;> simp
@[simp] theorem State.putI_timers (d : Reg) (v : Word) (f : FlagRes) : (s.putI d v f).timers = s.timers := by unfold State.putI; split <;> simp
@[simp] theorem State.putI_ports (d : Reg) (v : Word) (f : FlagRes) : (s.putI d v f).ports = s.ports := by unfold State.putI; split <;> simp
@[simp] theorem State.putI_dma (d : Reg) (v : Word) (f : FlagRes) : (s.putI d v f).dma = s.dma := by unfold State.putI; split <;> simp
@[simp] theorem State.putI_latch (d : Reg) (v : Word) (f : FlagRes) : (s.putI d v f).latch = s.latch := by unfold State.putI; split <;> simp
@[simp] theorem State.putI_boot (d : Reg) (v : Word) (f : FlagRes) : (s.putI d v f).boot = s.boot := by unfold State.putI; split <;> simp
@[simp] theorem State.putI_script (d : Reg) (v : Word) (f : FlagRes) : (s.putI d v f).script = s.script := by unfold State.putI; split <;> simp
@[simp] theorem State.putI_free (d : Reg) (v : Word) (f : FlagRes) : (s.putI d v f).free = s.free := by unfold State.putI; split <;> simp

/-! ## `State.putF` -/

@[simp] theorem State.putF_ar (n : Fin 12) (v : Ext) (f : FlagRes) : (s.putF n v f).ar = s.ar := rfl
@[simp] theorem State.putF_dp (n : Fin 12) (v : Ext) (f : FlagRes) : (s.putF n v f).dp = s.dp := rfl
@[simp] theorem State.putF_ir0 (n : Fin 12) (v : Ext) (f : FlagRes) : (s.putF n v f).ir0 = s.ir0 := rfl
@[simp] theorem State.putF_ir1 (n : Fin 12) (v : Ext) (f : FlagRes) : (s.putF n v f).ir1 = s.ir1 := rfl
@[simp] theorem State.putF_bk (n : Fin 12) (v : Ext) (f : FlagRes) : (s.putF n v f).bk = s.bk := rfl
@[simp] theorem State.putF_sp (n : Fin 12) (v : Ext) (f : FlagRes) : (s.putF n v f).sp = s.sp := rfl
@[simp] theorem State.putF_die (n : Fin 12) (v : Ext) (f : FlagRes) : (s.putF n v f).die = s.die := rfl
@[simp] theorem State.putF_iie (n : Fin 12) (v : Ext) (f : FlagRes) : (s.putF n v f).iie = s.iie := rfl
@[simp] theorem State.putF_iif (n : Fin 12) (v : Ext) (f : FlagRes) : (s.putF n v f).iif = s.iif := rfl
@[simp] theorem State.putF_rs (n : Fin 12) (v : Ext) (f : FlagRes) : (s.putF n v f).rs = s.rs := rfl
@[simp] theorem State.putF_re (n : Fin 12) (v : Ext) (f : FlagRes) : (s.putF n v f).re = s.re := rfl
@[simp] theorem State.putF_rc (n : Fin 12) (v : Ext) (f : FlagRes) : (s.putF n v f).rc = s.rc := rfl
@[simp] theorem State.putF_pc (n : Fin 12) (v : Ext) (f : FlagRes) : (s.putF n v f).pc = s.pc := rfl
@[simp] theorem State.putF_ivtp (n : Fin 12) (v : Ext) (f : FlagRes) : (s.putF n v f).ivtp = s.ivtp := rfl
@[simp] theorem State.putF_tvtp (n : Fin 12) (v : Ext) (f : FlagRes) : (s.putF n v f).tvtp = s.tvtp := rfl
@[simp] theorem State.putF_sFlag (n : Fin 12) (v : Ext) (f : FlagRes) : (s.putF n v f).sFlag = s.sFlag := rfl
@[simp] theorem State.putF_delay (n : Fin 12) (v : Ext) (f : FlagRes) : (s.putF n v f).delay = s.delay := rfl
@[simp] theorem State.putF_idle (n : Fin 12) (v : Ext) (f : FlagRes) : (s.putF n v f).idle = s.idle := rfl
@[simp] theorem State.putF_ir (n : Fin 12) (v : Ext) (f : FlagRes) : (s.putF n v f).ir = s.ir := rfl
@[simp] theorem State.putF_held (n : Fin 12) (v : Ext) (f : FlagRes) : (s.putF n v f).held = s.held := rfl
@[simp] theorem State.putF_stalled (n : Fin 12) (v : Ext) (f : FlagRes) : (s.putF n v f).stalled = s.stalled := rfl
@[simp] theorem State.putF_unflushed (n : Fin 12) (v : Ext) (f : FlagRes) : (s.putF n v f).unflushed = s.unflushed := rfl
@[simp] theorem State.putF_cache (n : Fin 12) (v : Ext) (f : FlagRes) : (s.putF n v f).cache = s.cache := rfl
@[simp] theorem State.putF_mem (n : Fin 12) (v : Ext) (f : FlagRes) : (s.putF n v f).mem = s.mem := rfl
@[simp] theorem State.putF_romen (n : Fin 12) (v : Ext) (f : FlagRes) : (s.putF n v f).romen = s.romen := rfl
@[simp] theorem State.putF_resetloc (n : Fin 12) (v : Ext) (f : FlagRes) : (s.putF n v f).resetloc = s.resetloc := rfl
@[simp] theorem State.putF_pins (n : Fin 12) (v : Ext) (f : FlagRes) : (s.putF n v f).pins = s.pins := rfl
@[simp] theorem State.putF_gmicr (n : Fin 12) (v : Ext) (f : FlagRes) : (s.putF n v f).gmicr = s.gmicr := rfl
@[simp] theorem State.putF_lmicr (n : Fin 12) (v : Ext) (f : FlagRes) : (s.putF n v f).lmicr = s.lmicr := rfl
@[simp] theorem State.putF_timers (n : Fin 12) (v : Ext) (f : FlagRes) : (s.putF n v f).timers = s.timers := rfl
@[simp] theorem State.putF_ports (n : Fin 12) (v : Ext) (f : FlagRes) : (s.putF n v f).ports = s.ports := rfl
@[simp] theorem State.putF_dma (n : Fin 12) (v : Ext) (f : FlagRes) : (s.putF n v f).dma = s.dma := rfl
@[simp] theorem State.putF_latch (n : Fin 12) (v : Ext) (f : FlagRes) : (s.putF n v f).latch = s.latch := rfl
@[simp] theorem State.putF_boot (n : Fin 12) (v : Ext) (f : FlagRes) : (s.putF n v f).boot = s.boot := rfl
@[simp] theorem State.putF_script (n : Fin 12) (v : Ext) (f : FlagRes) : (s.putF n v f).script = s.script := rfl
@[simp] theorem State.putF_free (n : Fin 12) (v : Ext) (f : FlagRes) : (s.putF n v f).free = s.free := rfl

/-! ## `State.link` -/

@[simp] theorem State.link_ar (v : Word) : (s.link v).ar = s.ar := rfl
@[simp] theorem State.link_dp (v : Word) : (s.link v).dp = s.dp := rfl
@[simp] theorem State.link_ir0 (v : Word) : (s.link v).ir0 = s.ir0 := rfl
@[simp] theorem State.link_ir1 (v : Word) : (s.link v).ir1 = s.ir1 := rfl
@[simp] theorem State.link_bk (v : Word) : (s.link v).bk = s.bk := rfl
@[simp] theorem State.link_sp (v : Word) : (s.link v).sp = s.sp := rfl
@[simp] theorem State.link_st (v : Word) : (s.link v).st = s.st := rfl
@[simp] theorem State.link_die (v : Word) : (s.link v).die = s.die := rfl
@[simp] theorem State.link_iie (v : Word) : (s.link v).iie = s.iie := rfl
@[simp] theorem State.link_iif (v : Word) : (s.link v).iif = s.iif := rfl
@[simp] theorem State.link_rs (v : Word) : (s.link v).rs = s.rs := rfl
@[simp] theorem State.link_re (v : Word) : (s.link v).re = s.re := rfl
@[simp] theorem State.link_rc (v : Word) : (s.link v).rc = s.rc := rfl
@[simp] theorem State.link_pc (v : Word) : (s.link v).pc = s.pc := rfl
@[simp] theorem State.link_ivtp (v : Word) : (s.link v).ivtp = s.ivtp := rfl
@[simp] theorem State.link_tvtp (v : Word) : (s.link v).tvtp = s.tvtp := rfl
@[simp] theorem State.link_sFlag (v : Word) : (s.link v).sFlag = s.sFlag := rfl
@[simp] theorem State.link_delay (v : Word) : (s.link v).delay = s.delay := rfl
@[simp] theorem State.link_idle (v : Word) : (s.link v).idle = s.idle := rfl
@[simp] theorem State.link_ir (v : Word) : (s.link v).ir = s.ir := rfl
@[simp] theorem State.link_held (v : Word) : (s.link v).held = s.held := rfl
@[simp] theorem State.link_stalled (v : Word) : (s.link v).stalled = s.stalled := rfl
@[simp] theorem State.link_unflushed (v : Word) : (s.link v).unflushed = s.unflushed := rfl
@[simp] theorem State.link_cache (v : Word) : (s.link v).cache = s.cache := rfl
@[simp] theorem State.link_mem (v : Word) : (s.link v).mem = s.mem := rfl
@[simp] theorem State.link_romen (v : Word) : (s.link v).romen = s.romen := rfl
@[simp] theorem State.link_resetloc (v : Word) : (s.link v).resetloc = s.resetloc := rfl
@[simp] theorem State.link_pins (v : Word) : (s.link v).pins = s.pins := rfl
@[simp] theorem State.link_gmicr (v : Word) : (s.link v).gmicr = s.gmicr := rfl
@[simp] theorem State.link_lmicr (v : Word) : (s.link v).lmicr = s.lmicr := rfl
@[simp] theorem State.link_timers (v : Word) : (s.link v).timers = s.timers := rfl
@[simp] theorem State.link_ports (v : Word) : (s.link v).ports = s.ports := rfl
@[simp] theorem State.link_dma (v : Word) : (s.link v).dma = s.dma := rfl
@[simp] theorem State.link_latch (v : Word) : (s.link v).latch = s.latch := rfl
@[simp] theorem State.link_boot (v : Word) : (s.link v).boot = s.boot := rfl
@[simp] theorem State.link_script (v : Word) : (s.link v).script = s.script := rfl
@[simp] theorem State.link_free (v : Word) : (s.link v).free = s.free := rfl

/-! ## `State.driveLock` -/

@[simp] theorem State.driveLock_r (a : Word) (b : Bool) : (s.driveLock a b).r = s.r := by unfold State.driveLock; split <;> rfl
@[simp] theorem State.driveLock_ar (a : Word) (b : Bool) : (s.driveLock a b).ar = s.ar := by unfold State.driveLock; split <;> rfl
@[simp] theorem State.driveLock_dp (a : Word) (b : Bool) : (s.driveLock a b).dp = s.dp := by unfold State.driveLock; split <;> rfl
@[simp] theorem State.driveLock_ir0 (a : Word) (b : Bool) : (s.driveLock a b).ir0 = s.ir0 := by unfold State.driveLock; split <;> rfl
@[simp] theorem State.driveLock_ir1 (a : Word) (b : Bool) : (s.driveLock a b).ir1 = s.ir1 := by unfold State.driveLock; split <;> rfl
@[simp] theorem State.driveLock_bk (a : Word) (b : Bool) : (s.driveLock a b).bk = s.bk := by unfold State.driveLock; split <;> rfl
@[simp] theorem State.driveLock_sp (a : Word) (b : Bool) : (s.driveLock a b).sp = s.sp := by unfold State.driveLock; split <;> rfl
@[simp] theorem State.driveLock_st (a : Word) (b : Bool) : (s.driveLock a b).st = s.st := by unfold State.driveLock; split <;> rfl
@[simp] theorem State.driveLock_die (a : Word) (b : Bool) : (s.driveLock a b).die = s.die := by unfold State.driveLock; split <;> rfl
@[simp] theorem State.driveLock_iie (a : Word) (b : Bool) : (s.driveLock a b).iie = s.iie := by unfold State.driveLock; split <;> rfl
@[simp] theorem State.driveLock_iif (a : Word) (b : Bool) : (s.driveLock a b).iif = s.iif := by unfold State.driveLock; split <;> rfl
@[simp] theorem State.driveLock_rs (a : Word) (b : Bool) : (s.driveLock a b).rs = s.rs := by unfold State.driveLock; split <;> rfl
@[simp] theorem State.driveLock_re (a : Word) (b : Bool) : (s.driveLock a b).re = s.re := by unfold State.driveLock; split <;> rfl
@[simp] theorem State.driveLock_rc (a : Word) (b : Bool) : (s.driveLock a b).rc = s.rc := by unfold State.driveLock; split <;> rfl
@[simp] theorem State.driveLock_pc (a : Word) (b : Bool) : (s.driveLock a b).pc = s.pc := by unfold State.driveLock; split <;> rfl
@[simp] theorem State.driveLock_ivtp (a : Word) (b : Bool) : (s.driveLock a b).ivtp = s.ivtp := by unfold State.driveLock; split <;> rfl
@[simp] theorem State.driveLock_tvtp (a : Word) (b : Bool) : (s.driveLock a b).tvtp = s.tvtp := by unfold State.driveLock; split <;> rfl
@[simp] theorem State.driveLock_sFlag (a : Word) (b : Bool) : (s.driveLock a b).sFlag = s.sFlag := by unfold State.driveLock; split <;> rfl
@[simp] theorem State.driveLock_delay (a : Word) (b : Bool) : (s.driveLock a b).delay = s.delay := by unfold State.driveLock; split <;> rfl
@[simp] theorem State.driveLock_idle (a : Word) (b : Bool) : (s.driveLock a b).idle = s.idle := by unfold State.driveLock; split <;> rfl
@[simp] theorem State.driveLock_ir (a : Word) (b : Bool) : (s.driveLock a b).ir = s.ir := by unfold State.driveLock; split <;> rfl
@[simp] theorem State.driveLock_held (a : Word) (b : Bool) : (s.driveLock a b).held = s.held := by unfold State.driveLock; split <;> rfl
@[simp] theorem State.driveLock_stalled (a : Word) (b : Bool) : (s.driveLock a b).stalled = s.stalled := by unfold State.driveLock; split <;> rfl
@[simp] theorem State.driveLock_unflushed (a : Word) (b : Bool) : (s.driveLock a b).unflushed = s.unflushed := by unfold State.driveLock; split <;> rfl
@[simp] theorem State.driveLock_cache (a : Word) (b : Bool) : (s.driveLock a b).cache = s.cache := by unfold State.driveLock; split <;> rfl
@[simp] theorem State.driveLock_mem (a : Word) (b : Bool) : (s.driveLock a b).mem = s.mem := by unfold State.driveLock; split <;> rfl
@[simp] theorem State.driveLock_romen (a : Word) (b : Bool) : (s.driveLock a b).romen = s.romen := by unfold State.driveLock; split <;> rfl
@[simp] theorem State.driveLock_resetloc (a : Word) (b : Bool) : (s.driveLock a b).resetloc = s.resetloc := by unfold State.driveLock; split <;> rfl
@[simp] theorem State.driveLock_gmicr (a : Word) (b : Bool) : (s.driveLock a b).gmicr = s.gmicr := by unfold State.driveLock; split <;> rfl
@[simp] theorem State.driveLock_lmicr (a : Word) (b : Bool) : (s.driveLock a b).lmicr = s.lmicr := by unfold State.driveLock; split <;> rfl
@[simp] theorem State.driveLock_timers (a : Word) (b : Bool) : (s.driveLock a b).timers = s.timers := by unfold State.driveLock; split <;> rfl
@[simp] theorem State.driveLock_ports (a : Word) (b : Bool) : (s.driveLock a b).ports = s.ports := by unfold State.driveLock; split <;> rfl
@[simp] theorem State.driveLock_dma (a : Word) (b : Bool) : (s.driveLock a b).dma = s.dma := by unfold State.driveLock; split <;> rfl
@[simp] theorem State.driveLock_latch (a : Word) (b : Bool) : (s.driveLock a b).latch = s.latch := by unfold State.driveLock; split <;> rfl
@[simp] theorem State.driveLock_boot (a : Word) (b : Bool) : (s.driveLock a b).boot = s.boot := by unfold State.driveLock; split <;> rfl
@[simp] theorem State.driveLock_script (a : Word) (b : Bool) : (s.driveLock a b).script = s.script := by unfold State.driveLock; split <;> rfl
@[simp] theorem State.driveLock_free (a : Word) (b : Bool) : (s.driveLock a b).free = s.free := by unfold State.driveLock; split <;> rfl

/-! ## `State.lockLow` -/

@[simp] theorem State.lockLow_r (a : Word) : (s.lockLow a).r = s.r := by simp [State.lockLow]
@[simp] theorem State.lockLow_ar (a : Word) : (s.lockLow a).ar = s.ar := by simp [State.lockLow]
@[simp] theorem State.lockLow_dp (a : Word) : (s.lockLow a).dp = s.dp := by simp [State.lockLow]
@[simp] theorem State.lockLow_ir0 (a : Word) : (s.lockLow a).ir0 = s.ir0 := by simp [State.lockLow]
@[simp] theorem State.lockLow_ir1 (a : Word) : (s.lockLow a).ir1 = s.ir1 := by simp [State.lockLow]
@[simp] theorem State.lockLow_bk (a : Word) : (s.lockLow a).bk = s.bk := by simp [State.lockLow]
@[simp] theorem State.lockLow_sp (a : Word) : (s.lockLow a).sp = s.sp := by simp [State.lockLow]
@[simp] theorem State.lockLow_st (a : Word) : (s.lockLow a).st = s.st := by simp [State.lockLow]
@[simp] theorem State.lockLow_die (a : Word) : (s.lockLow a).die = s.die := by simp [State.lockLow]
@[simp] theorem State.lockLow_iie (a : Word) : (s.lockLow a).iie = s.iie := by simp [State.lockLow]
@[simp] theorem State.lockLow_iif (a : Word) : (s.lockLow a).iif = s.iif := by simp [State.lockLow]
@[simp] theorem State.lockLow_rs (a : Word) : (s.lockLow a).rs = s.rs := by simp [State.lockLow]
@[simp] theorem State.lockLow_re (a : Word) : (s.lockLow a).re = s.re := by simp [State.lockLow]
@[simp] theorem State.lockLow_rc (a : Word) : (s.lockLow a).rc = s.rc := by simp [State.lockLow]
@[simp] theorem State.lockLow_pc (a : Word) : (s.lockLow a).pc = s.pc := by simp [State.lockLow]
@[simp] theorem State.lockLow_ivtp (a : Word) : (s.lockLow a).ivtp = s.ivtp := by simp [State.lockLow]
@[simp] theorem State.lockLow_tvtp (a : Word) : (s.lockLow a).tvtp = s.tvtp := by simp [State.lockLow]
@[simp] theorem State.lockLow_sFlag (a : Word) : (s.lockLow a).sFlag = s.sFlag := by simp [State.lockLow]
@[simp] theorem State.lockLow_delay (a : Word) : (s.lockLow a).delay = s.delay := by simp [State.lockLow]
@[simp] theorem State.lockLow_idle (a : Word) : (s.lockLow a).idle = s.idle := by simp [State.lockLow]
@[simp] theorem State.lockLow_ir (a : Word) : (s.lockLow a).ir = s.ir := by simp [State.lockLow]
@[simp] theorem State.lockLow_held (a : Word) : (s.lockLow a).held = s.held := by simp [State.lockLow]
@[simp] theorem State.lockLow_stalled (a : Word) : (s.lockLow a).stalled = s.stalled := by simp [State.lockLow]
@[simp] theorem State.lockLow_unflushed (a : Word) : (s.lockLow a).unflushed = s.unflushed := by simp [State.lockLow]
@[simp] theorem State.lockLow_cache (a : Word) : (s.lockLow a).cache = s.cache := by simp [State.lockLow]
@[simp] theorem State.lockLow_mem (a : Word) : (s.lockLow a).mem = s.mem := by simp [State.lockLow]
@[simp] theorem State.lockLow_romen (a : Word) : (s.lockLow a).romen = s.romen := by simp [State.lockLow]
@[simp] theorem State.lockLow_resetloc (a : Word) : (s.lockLow a).resetloc = s.resetloc := by simp [State.lockLow]
@[simp] theorem State.lockLow_gmicr (a : Word) : (s.lockLow a).gmicr = s.gmicr := by simp [State.lockLow]
@[simp] theorem State.lockLow_lmicr (a : Word) : (s.lockLow a).lmicr = s.lmicr := by simp [State.lockLow]
@[simp] theorem State.lockLow_timers (a : Word) : (s.lockLow a).timers = s.timers := by simp [State.lockLow]
@[simp] theorem State.lockLow_ports (a : Word) : (s.lockLow a).ports = s.ports := by simp [State.lockLow]
@[simp] theorem State.lockLow_dma (a : Word) : (s.lockLow a).dma = s.dma := by simp [State.lockLow]
@[simp] theorem State.lockLow_latch (a : Word) : (s.lockLow a).latch = s.latch := by simp [State.lockLow]
@[simp] theorem State.lockLow_boot (a : Word) : (s.lockLow a).boot = s.boot := by simp [State.lockLow]
@[simp] theorem State.lockLow_script (a : Word) : (s.lockLow a).script = s.script := by simp [State.lockLow]
@[simp] theorem State.lockLow_free (a : Word) : (s.lockLow a).free = s.free := by simp [State.lockLow]

/-! ## `State.lockHigh` -/

@[simp] theorem State.lockHigh_r (a : Word) : (s.lockHigh a).r = s.r := by simp [State.lockHigh]
@[simp] theorem State.lockHigh_ar (a : Word) : (s.lockHigh a).ar = s.ar := by simp [State.lockHigh]
@[simp] theorem State.lockHigh_dp (a : Word) : (s.lockHigh a).dp = s.dp := by simp [State.lockHigh]
@[simp] theorem State.lockHigh_ir0 (a : Word) : (s.lockHigh a).ir0 = s.ir0 := by simp [State.lockHigh]
@[simp] theorem State.lockHigh_ir1 (a : Word) : (s.lockHigh a).ir1 = s.ir1 := by simp [State.lockHigh]
@[simp] theorem State.lockHigh_bk (a : Word) : (s.lockHigh a).bk = s.bk := by simp [State.lockHigh]
@[simp] theorem State.lockHigh_sp (a : Word) : (s.lockHigh a).sp = s.sp := by simp [State.lockHigh]
@[simp] theorem State.lockHigh_st (a : Word) : (s.lockHigh a).st = s.st := by simp [State.lockHigh]
@[simp] theorem State.lockHigh_die (a : Word) : (s.lockHigh a).die = s.die := by simp [State.lockHigh]
@[simp] theorem State.lockHigh_iie (a : Word) : (s.lockHigh a).iie = s.iie := by simp [State.lockHigh]
@[simp] theorem State.lockHigh_iif (a : Word) : (s.lockHigh a).iif = s.iif := by simp [State.lockHigh]
@[simp] theorem State.lockHigh_rs (a : Word) : (s.lockHigh a).rs = s.rs := by simp [State.lockHigh]
@[simp] theorem State.lockHigh_re (a : Word) : (s.lockHigh a).re = s.re := by simp [State.lockHigh]
@[simp] theorem State.lockHigh_rc (a : Word) : (s.lockHigh a).rc = s.rc := by simp [State.lockHigh]
@[simp] theorem State.lockHigh_pc (a : Word) : (s.lockHigh a).pc = s.pc := by simp [State.lockHigh]
@[simp] theorem State.lockHigh_ivtp (a : Word) : (s.lockHigh a).ivtp = s.ivtp := by simp [State.lockHigh]
@[simp] theorem State.lockHigh_tvtp (a : Word) : (s.lockHigh a).tvtp = s.tvtp := by simp [State.lockHigh]
@[simp] theorem State.lockHigh_sFlag (a : Word) : (s.lockHigh a).sFlag = s.sFlag := by simp [State.lockHigh]
@[simp] theorem State.lockHigh_delay (a : Word) : (s.lockHigh a).delay = s.delay := by simp [State.lockHigh]
@[simp] theorem State.lockHigh_idle (a : Word) : (s.lockHigh a).idle = s.idle := by simp [State.lockHigh]
@[simp] theorem State.lockHigh_ir (a : Word) : (s.lockHigh a).ir = s.ir := by simp [State.lockHigh]
@[simp] theorem State.lockHigh_held (a : Word) : (s.lockHigh a).held = s.held := by simp [State.lockHigh]
@[simp] theorem State.lockHigh_stalled (a : Word) : (s.lockHigh a).stalled = s.stalled := by simp [State.lockHigh]
@[simp] theorem State.lockHigh_unflushed (a : Word) : (s.lockHigh a).unflushed = s.unflushed := by simp [State.lockHigh]
@[simp] theorem State.lockHigh_cache (a : Word) : (s.lockHigh a).cache = s.cache := by simp [State.lockHigh]
@[simp] theorem State.lockHigh_mem (a : Word) : (s.lockHigh a).mem = s.mem := by simp [State.lockHigh]
@[simp] theorem State.lockHigh_romen (a : Word) : (s.lockHigh a).romen = s.romen := by simp [State.lockHigh]
@[simp] theorem State.lockHigh_resetloc (a : Word) : (s.lockHigh a).resetloc = s.resetloc := by simp [State.lockHigh]
@[simp] theorem State.lockHigh_gmicr (a : Word) : (s.lockHigh a).gmicr = s.gmicr := by simp [State.lockHigh]
@[simp] theorem State.lockHigh_lmicr (a : Word) : (s.lockHigh a).lmicr = s.lmicr := by simp [State.lockHigh]
@[simp] theorem State.lockHigh_timers (a : Word) : (s.lockHigh a).timers = s.timers := by simp [State.lockHigh]
@[simp] theorem State.lockHigh_ports (a : Word) : (s.lockHigh a).ports = s.ports := by simp [State.lockHigh]
@[simp] theorem State.lockHigh_dma (a : Word) : (s.lockHigh a).dma = s.dma := by simp [State.lockHigh]
@[simp] theorem State.lockHigh_latch (a : Word) : (s.lockHigh a).latch = s.latch := by simp [State.lockHigh]
@[simp] theorem State.lockHigh_boot (a : Word) : (s.lockHigh a).boot = s.boot := by simp [State.lockHigh]
@[simp] theorem State.lockHigh_script (a : Word) : (s.lockHigh a).script = s.script := by simp [State.lockHigh]
@[simp] theorem State.lockHigh_free (a : Word) : (s.lockHigh a).free = s.free := by simp [State.lockHigh]

/-! ## `State.cpuStart` -/

@[simp] theorem State.cpuStart_r : s.cpuStart.r = s.r := by unfold State.cpuStart; split <;> rfl
@[simp] theorem State.cpuStart_ar : s.cpuStart.ar = s.ar := by unfold State.cpuStart; split <;> rfl
@[simp] theorem State.cpuStart_dp : s.cpuStart.dp = s.dp := by unfold State.cpuStart; split <;> rfl
@[simp] theorem State.cpuStart_ir0 : s.cpuStart.ir0 = s.ir0 := by unfold State.cpuStart; split <;> rfl
@[simp] theorem State.cpuStart_ir1 : s.cpuStart.ir1 = s.ir1 := by unfold State.cpuStart; split <;> rfl
@[simp] theorem State.cpuStart_bk : s.cpuStart.bk = s.bk := by unfold State.cpuStart; split <;> rfl
@[simp] theorem State.cpuStart_sp : s.cpuStart.sp = s.sp := by unfold State.cpuStart; split <;> rfl
@[simp] theorem State.cpuStart_st : s.cpuStart.st = s.st := by unfold State.cpuStart; split <;> rfl
@[simp] theorem State.cpuStart_die : s.cpuStart.die = s.die := by unfold State.cpuStart; split <;> rfl
@[simp] theorem State.cpuStart_iie : s.cpuStart.iie = s.iie := by unfold State.cpuStart; split <;> rfl
@[simp] theorem State.cpuStart_iif : s.cpuStart.iif = s.iif := by unfold State.cpuStart; split <;> rfl
@[simp] theorem State.cpuStart_rs : s.cpuStart.rs = s.rs := by unfold State.cpuStart; split <;> rfl
@[simp] theorem State.cpuStart_re : s.cpuStart.re = s.re := by unfold State.cpuStart; split <;> rfl
@[simp] theorem State.cpuStart_rc : s.cpuStart.rc = s.rc := by unfold State.cpuStart; split <;> rfl
@[simp] theorem State.cpuStart_pc : s.cpuStart.pc = s.pc := by unfold State.cpuStart; split <;> rfl
@[simp] theorem State.cpuStart_ivtp : s.cpuStart.ivtp = s.ivtp := by unfold State.cpuStart; split <;> rfl
@[simp] theorem State.cpuStart_tvtp : s.cpuStart.tvtp = s.tvtp := by unfold State.cpuStart; split <;> rfl
@[simp] theorem State.cpuStart_sFlag : s.cpuStart.sFlag = s.sFlag := by unfold State.cpuStart; split <;> rfl
@[simp] theorem State.cpuStart_delay : s.cpuStart.delay = s.delay := by unfold State.cpuStart; split <;> rfl
@[simp] theorem State.cpuStart_idle : s.cpuStart.idle = s.idle := by unfold State.cpuStart; split <;> rfl
@[simp] theorem State.cpuStart_ir : s.cpuStart.ir = s.ir := by unfold State.cpuStart; split <;> rfl
@[simp] theorem State.cpuStart_held : s.cpuStart.held = s.held := by unfold State.cpuStart; split <;> rfl
@[simp] theorem State.cpuStart_stalled : s.cpuStart.stalled = s.stalled := by unfold State.cpuStart; split <;> rfl
@[simp] theorem State.cpuStart_unflushed : s.cpuStart.unflushed = s.unflushed := by unfold State.cpuStart; split <;> rfl
@[simp] theorem State.cpuStart_cache : s.cpuStart.cache = s.cache := by unfold State.cpuStart; split <;> rfl
@[simp] theorem State.cpuStart_mem : s.cpuStart.mem = s.mem := by unfold State.cpuStart; split <;> rfl
@[simp] theorem State.cpuStart_romen : s.cpuStart.romen = s.romen := by unfold State.cpuStart; split <;> rfl
@[simp] theorem State.cpuStart_resetloc : s.cpuStart.resetloc = s.resetloc := by unfold State.cpuStart; split <;> rfl
@[simp] theorem State.cpuStart_pins : s.cpuStart.pins = s.pins := by unfold State.cpuStart; split <;> rfl
@[simp] theorem State.cpuStart_gmicr : s.cpuStart.gmicr = s.gmicr := by unfold State.cpuStart; split <;> rfl
@[simp] theorem State.cpuStart_lmicr : s.cpuStart.lmicr = s.lmicr := by unfold State.cpuStart; split <;> rfl
@[simp] theorem State.cpuStart_timers : s.cpuStart.timers = s.timers := by unfold State.cpuStart; split <;> rfl
@[simp] theorem State.cpuStart_ports : s.cpuStart.ports = s.ports := by unfold State.cpuStart; split <;> rfl
@[simp] theorem State.cpuStart_dma : s.cpuStart.dma = s.dma := by unfold State.cpuStart; split <;> rfl
@[simp] theorem State.cpuStart_boot : s.cpuStart.boot = s.boot := by unfold State.cpuStart; split <;> rfl
@[simp] theorem State.cpuStart_script : s.cpuStart.script = s.script := by unfold State.cpuStart; split <;> rfl
@[simp] theorem State.cpuStart_free : s.cpuStart.free = s.free := by unfold State.cpuStart; split <;> rfl

/-! ## `State.driveIack` -/

@[simp] theorem State.driveIack_r (a : Word) (b : Bool) : (s.driveIack a b).r = s.r := by unfold State.driveIack; split <;> rfl
@[simp] theorem State.driveIack_ar (a : Word) (b : Bool) : (s.driveIack a b).ar = s.ar := by unfold State.driveIack; split <;> rfl
@[simp] theorem State.driveIack_dp (a : Word) (b : Bool) : (s.driveIack a b).dp = s.dp := by unfold State.driveIack; split <;> rfl
@[simp] theorem State.driveIack_ir0 (a : Word) (b : Bool) : (s.driveIack a b).ir0 = s.ir0 := by unfold State.driveIack; split <;> rfl
@[simp] theorem State.driveIack_ir1 (a : Word) (b : Bool) : (s.driveIack a b).ir1 = s.ir1 := by unfold State.driveIack; split <;> rfl
@[simp] theorem State.driveIack_bk (a : Word) (b : Bool) : (s.driveIack a b).bk = s.bk := by unfold State.driveIack; split <;> rfl
@[simp] theorem State.driveIack_sp (a : Word) (b : Bool) : (s.driveIack a b).sp = s.sp := by unfold State.driveIack; split <;> rfl
@[simp] theorem State.driveIack_st (a : Word) (b : Bool) : (s.driveIack a b).st = s.st := by unfold State.driveIack; split <;> rfl
@[simp] theorem State.driveIack_die (a : Word) (b : Bool) : (s.driveIack a b).die = s.die := by unfold State.driveIack; split <;> rfl
@[simp] theorem State.driveIack_iie (a : Word) (b : Bool) : (s.driveIack a b).iie = s.iie := by unfold State.driveIack; split <;> rfl
@[simp] theorem State.driveIack_iif (a : Word) (b : Bool) : (s.driveIack a b).iif = s.iif := by unfold State.driveIack; split <;> rfl
@[simp] theorem State.driveIack_rs (a : Word) (b : Bool) : (s.driveIack a b).rs = s.rs := by unfold State.driveIack; split <;> rfl
@[simp] theorem State.driveIack_re (a : Word) (b : Bool) : (s.driveIack a b).re = s.re := by unfold State.driveIack; split <;> rfl
@[simp] theorem State.driveIack_rc (a : Word) (b : Bool) : (s.driveIack a b).rc = s.rc := by unfold State.driveIack; split <;> rfl
@[simp] theorem State.driveIack_pc (a : Word) (b : Bool) : (s.driveIack a b).pc = s.pc := by unfold State.driveIack; split <;> rfl
@[simp] theorem State.driveIack_ivtp (a : Word) (b : Bool) : (s.driveIack a b).ivtp = s.ivtp := by unfold State.driveIack; split <;> rfl
@[simp] theorem State.driveIack_tvtp (a : Word) (b : Bool) : (s.driveIack a b).tvtp = s.tvtp := by unfold State.driveIack; split <;> rfl
@[simp] theorem State.driveIack_sFlag (a : Word) (b : Bool) : (s.driveIack a b).sFlag = s.sFlag := by unfold State.driveIack; split <;> rfl
@[simp] theorem State.driveIack_delay (a : Word) (b : Bool) : (s.driveIack a b).delay = s.delay := by unfold State.driveIack; split <;> rfl
@[simp] theorem State.driveIack_idle (a : Word) (b : Bool) : (s.driveIack a b).idle = s.idle := by unfold State.driveIack; split <;> rfl
@[simp] theorem State.driveIack_ir (a : Word) (b : Bool) : (s.driveIack a b).ir = s.ir := by unfold State.driveIack; split <;> rfl
@[simp] theorem State.driveIack_held (a : Word) (b : Bool) : (s.driveIack a b).held = s.held := by unfold State.driveIack; split <;> rfl
@[simp] theorem State.driveIack_stalled (a : Word) (b : Bool) : (s.driveIack a b).stalled = s.stalled := by unfold State.driveIack; split <;> rfl
@[simp] theorem State.driveIack_unflushed (a : Word) (b : Bool) : (s.driveIack a b).unflushed = s.unflushed := by unfold State.driveIack; split <;> rfl
@[simp] theorem State.driveIack_cache (a : Word) (b : Bool) : (s.driveIack a b).cache = s.cache := by unfold State.driveIack; split <;> rfl
@[simp] theorem State.driveIack_mem (a : Word) (b : Bool) : (s.driveIack a b).mem = s.mem := by unfold State.driveIack; split <;> rfl
@[simp] theorem State.driveIack_romen (a : Word) (b : Bool) : (s.driveIack a b).romen = s.romen := by unfold State.driveIack; split <;> rfl
@[simp] theorem State.driveIack_resetloc (a : Word) (b : Bool) : (s.driveIack a b).resetloc = s.resetloc := by unfold State.driveIack; split <;> rfl
@[simp] theorem State.driveIack_gmicr (a : Word) (b : Bool) : (s.driveIack a b).gmicr = s.gmicr := by unfold State.driveIack; split <;> rfl
@[simp] theorem State.driveIack_lmicr (a : Word) (b : Bool) : (s.driveIack a b).lmicr = s.lmicr := by unfold State.driveIack; split <;> rfl
@[simp] theorem State.driveIack_timers (a : Word) (b : Bool) : (s.driveIack a b).timers = s.timers := by unfold State.driveIack; split <;> rfl
@[simp] theorem State.driveIack_ports (a : Word) (b : Bool) : (s.driveIack a b).ports = s.ports := by unfold State.driveIack; split <;> rfl
@[simp] theorem State.driveIack_dma (a : Word) (b : Bool) : (s.driveIack a b).dma = s.dma := by unfold State.driveIack; split <;> rfl
@[simp] theorem State.driveIack_latch (a : Word) (b : Bool) : (s.driveIack a b).latch = s.latch := by unfold State.driveIack; split <;> rfl
@[simp] theorem State.driveIack_boot (a : Word) (b : Bool) : (s.driveIack a b).boot = s.boot := by unfold State.driveIack; split <;> rfl
@[simp] theorem State.driveIack_script (a : Word) (b : Bool) : (s.driveIack a b).script = s.script := by unfold State.driveIack; split <;> rfl
@[simp] theorem State.driveIack_free (a : Word) (b : Bool) : (s.driveIack a b).free = s.free := by unfold State.driveIack; split <;> rfl

end Sys2Proof.Machine
end

