-- ==== Sys2Proof/Laws/Memory.lean ====
section
/-! SUPPORT. The laws of memory: reading after writing, and the canonical form. -/

namespace Sys2Proof.Machine

/-! ## Bytes -/

@[simp] theorem Memory.byte_nil (k : Nat) : Memory.byte [] k = 0 := rfl

theorem Memory.byte_set (m : Memory) (k j : Nat) (b : Byte) (h : Memory.wf m = true) :
    Memory.byte (Memory.set m k b) j = if j = k then b else Memory.byte m j := by
  have key : ∀ (m : Memory) (lo : Nat), Memory.above lo m = true →
      (∀ i, i < lo → Memory.byte m i = 0) ∧
        Memory.byte (Memory.set m k b) j = if j = k then b else Memory.byte m j := by
    intro m
    induction m with
    | nil =>
      intro lo _
      refine ⟨fun _ _ => rfl, ?_⟩
      by_cases hb : b = 0#8
      · simp [Memory.set, hb]
      · by_cases hj : k = j
        · simp [Memory.set, hb, Memory.byte, hj]
        · have hj' : j ≠ k := fun e => hj e.symm
          simp [Memory.set, hb, Memory.byte, hj, hj']
    | cons p t ih =>
      obtain ⟨a, c⟩ := p
      intro lo hm
      simp only [Memory.above, Bool.and_eq_true, decide_eq_true_eq] at hm
      obtain ⟨⟨⟨h1, h2⟩, h3⟩, h4⟩ := hm
      obtain ⟨z, e⟩ := ih (a + 1) h4
      have zero : ∀ i, i < lo → Memory.byte ((a, c) :: t) i = 0 := by
        intro i hi
        have : a ≠ i := by omega
        simp only [Memory.byte, this, if_false]
        exact z i (by omega)
      refine ⟨zero, ?_⟩
      by_cases hlt : k < a
      · by_cases hb : b = 0#8
        · by_cases hj : j = k
          · subst hj
            have : a ≠ j := by omega
            simp [Memory.set, hlt, hb, Memory.byte, this, z j (by omega)]
          · simp [Memory.set, hlt, hb, hj]
        · by_cases hj : j = k
          · simp [Memory.set, hlt, hb, Memory.byte, hj]
          · have : k ≠ j := fun e => hj e.symm
            simp [Memory.set, hlt, hb, Memory.byte, hj, this]
      · by_cases hk : k = a
        · subst hk
          by_cases hb : b = 0#8
          · by_cases hj : j = k
            · subst hj
              simp [Memory.set, hb, z j (by omega)]
            · have : k ≠ j := fun e => hj e.symm
              simp [Memory.set, hb, Memory.byte, hj, this]
          · by_cases hj : j = k
            · simp [Memory.set, hb, Memory.byte, hj]
            · have : k ≠ j := fun e => hj e.symm
              simp [Memory.set, hb, Memory.byte, hj, this]
        · by_cases hj : a = j
          · subst hj
            have : a ≠ k := fun e => hk e.symm
            simp [Memory.set, hlt, hk, Memory.byte, this]
          · simp [Memory.set, hlt, hk, Memory.byte, hj, e]
  exact (key m 0 h).2

/-- A store of a byte leaves every other byte, whatever form the list has. -/
theorem Memory.byte_set_other (m : Memory) (k j : Nat) (b : Byte) (h : j ≠ k) :
    Memory.byte (Memory.set m k b) j = Memory.byte m j := by
  have h' : k ≠ j := fun e => h e.symm
  induction m with
  | nil =>
    by_cases hb : b = 0#8
    · simp [Memory.set, hb]
    · simp [Memory.set, hb, Memory.byte, h']
  | cons p t ih =>
    obtain ⟨a, c⟩ := p
    by_cases hlt : k < a
    · by_cases hb : b = 0#8
      · simp [Memory.set, hlt, hb]
      · simp [Memory.set, hlt, hb, Memory.byte, h']
    · by_cases hk : k = a
      · subst hk
        by_cases hb : b = 0#8
        · simp [Memory.set, hb, Memory.byte, h']
        · simp [Memory.set, hb, Memory.byte, h']
      · simp [Memory.set, hlt, hk, Memory.byte, ih]

/-- A store of a word leaves every byte of the other words, whatever form the list has. -/
theorem Memory.byte_setWord_other (m : Memory) (a v : Word) (j : Nat) (h : j / 4 ≠ a.toNat) :
    Memory.byte (Memory.setWord m a v) j = Memory.byte m j := by
  unfold Memory.setWord
  rw [Memory.byte_set_other _ _ _ _ (by omega), Memory.byte_set_other _ _ _ _ (by omega),
    Memory.byte_set_other _ _ _ _ (by omega), Memory.byte_set_other _ _ _ _ (by omega)]

/-- A store of a word leaves every other word, whatever form the list has. -/
theorem Memory.word_setWord_other (m : Memory) (a b v : Word) (h : b ≠ a) :
    Memory.word (Memory.setWord m a v) b = Memory.word m b := by
  have h' : b.toNat ≠ a.toNat := fun e => h (BitVec.eq_of_toNat_eq e)
  unfold Memory.word
  rw [Memory.byte_setWord_other _ _ _ _ (by omega), Memory.byte_setWord_other _ _ _ _ (by omega),
    Memory.byte_setWord_other _ _ _ _ (by omega), Memory.byte_setWord_other _ _ _ _ (by omega)]

theorem Memory.above_mono (m : Memory) {lo hi : Nat} (h : lo ≤ hi) (hm : Memory.above hi m = true) :
    Memory.above lo m = true := by
  cases m with
  | nil => rfl
  | cons p t =>
    simp only [Memory.above, Bool.and_eq_true, decide_eq_true_eq] at hm ⊢
    exact ⟨⟨⟨by omega, hm.1.1.2⟩, hm.1.2⟩, hm.2⟩

theorem Memory.above_set (m : Memory) (k : Nat) (b : Byte) (hk : k < 2 ^ 34) :
    ∀ lo, lo ≤ k → Memory.above lo m = true → Memory.above lo (Memory.set m k b) = true := by
  induction m with
  | nil =>
    intro lo hlo _
    by_cases hb : b = 0#8
    · simp [Memory.set, hb, Memory.above]
    · simp [Memory.set, hb, Memory.above, hlo]
      omega
  | cons p t ih =>
    obtain ⟨a, c⟩ := p
    intro lo hlo hm
    have hm' := hm
    simp only [Memory.above, Bool.and_eq_true, decide_eq_true_eq] at hm'
    obtain ⟨⟨⟨h1, h2⟩, h3⟩, h4⟩ := hm'
    by_cases hlt : k < a
    · by_cases hb : b = 0#8
      · simpa [Memory.set, hlt, hb] using hm
      · have e : Memory.set ((a, c) :: t) k b = (k, b) :: (a, c) :: t := by simp [Memory.set, hlt, hb]
        rw [e]
        simp only [Memory.above, Bool.and_eq_true, decide_eq_true_eq]
        exact ⟨⟨⟨hlo, hk⟩, hb⟩, ⟨⟨by omega, h2⟩, h3⟩, h4⟩
    · by_cases hka : k = a
      · subst hka
        by_cases hb : b = 0#8
        · simpa [Memory.set, hb] using Memory.above_mono t (by omega : lo ≤ k + 1) h4
        · rw [show Memory.set ((k, c) :: t) k b = (k, b) :: t by simp [Memory.set, hb]]
          simp only [Memory.above, Bool.and_eq_true, decide_eq_true_eq]
          exact ⟨⟨⟨hlo, hk⟩, hb⟩, h4⟩
      · simp only [Memory.set, hlt, hka, if_false, Memory.above, Bool.and_eq_true, decide_eq_true_eq]
        exact ⟨⟨⟨h1, h2⟩, h3⟩, ih (a + 1) (by omega) h4⟩

/-- Storing a byte keeps the canonical form. -/
theorem Memory.wf_set (m : Memory) (k : Nat) (b : Byte) (hk : k < 2 ^ 34) (h : Memory.wf m = true) :
    Memory.wf (Memory.set m k b) = true := Memory.above_set m k b hk 0 (Nat.zero_le _) h

/-! ## Words -/

theorem word_lt (a : Word) : a.toNat < 2 ^ 32 := a.isLt

/-- Storing a word keeps the canonical form. -/
theorem Memory.wf_setWord (m : Memory) (a v : Word) (h : Memory.wf m = true) :
    Memory.wf (Memory.setWord m a v) = true := by
  have := word_lt a
  unfold Memory.setWord
  exact Memory.wf_set _ _ _ (by omega) (Memory.wf_set _ _ _ (by omega) (Memory.wf_set _ _ _ (by omega)
    (Memory.wf_set _ _ _ (by omega) h)))

/-- Every byte after a word was stored. -/
theorem Memory.byte_setWord (m : Memory) (a v : Word) (j : Nat) (h : Memory.wf m = true) :
    Memory.byte (Memory.setWord m a v) j =
      if j / 4 = a.toNat then v.extractLsb' (8 * (j % 4)) 8 else Memory.byte m j := by
  have ha := word_lt a
  have w0 := Memory.wf_set m (4 * a.toNat) (v.extractLsb' 0 8) (by omega) h
  have w1 := Memory.wf_set _ (4 * a.toNat + 1) (v.extractLsb' 8 8) (by omega) w0
  have w2 := Memory.wf_set _ (4 * a.toNat + 2) (v.extractLsb' 16 8) (by omega) w1
  unfold Memory.setWord
  rw [Memory.byte_set _ _ _ _ w2, Memory.byte_set _ _ _ _ w1, Memory.byte_set _ _ _ _ w0, Memory.byte_set _ _ _ _ h]
  by_cases hj : j / 4 = a.toNat
  · have h4 : j % 4 = 0 ∨ j % 4 = 1 ∨ j % 4 = 2 ∨ j % 4 = 3 := by omega
    rw [if_pos hj]
    rcases h4 with e | e | e | e
    · rw [if_neg (by omega), if_neg (by omega), if_neg (by omega), if_pos (by omega), e]
    · rw [if_neg (by omega), if_neg (by omega), if_pos (by omega), e]
    · rw [if_neg (by omega), if_pos (by omega), e]
    · rw [if_pos (by omega), e]
  · rw [if_neg hj, if_neg (by omega), if_neg (by omega), if_neg (by omega), if_neg (by omega)]

/-- The four bytes of a word joined again. -/
theorem join_bytes (v : Word) :
    v.extractLsb' 24 8 ++ v.extractLsb' 16 8 ++ v.extractLsb' 8 8 ++ v.extractLsb' 0 8 = v := by
  apply BitVec.eq_of_getLsbD_eq
  intro i hi
  simp only [BitVec.getLsbD_append, BitVec.getLsbD_extractLsb']
  by_cases h0 : i < 8
  · simp [h0]
  · by_cases h1 : i - 8 < 8
    · have e : 8 + (i - 8) = i := by omega
      simp [h0, h1, e]
    · by_cases h2 : i - 8 - 8 < 8
      · have e : 16 + (i - 8 - 8) = i := by omega
        simp [h0, h1, h2, e]
      · have h3 : i - 8 - 8 - 8 < 8 := by omega
        have e : 24 + (i - 8 - 8 - 8) = i := by omega
        simp [h0, h1, h2, h3, e]

/-- A word read after a word was stored. -/
theorem Memory.word_setWord (m : Memory) (a b v : Word) (h : Memory.wf m = true) :
    Memory.word (Memory.setWord m a v) b = if b = a then v else Memory.word m b := by
  unfold Memory.word
  rw [Memory.byte_setWord _ _ _ _ h, Memory.byte_setWord _ _ _ _ h, Memory.byte_setWord _ _ _ _ h,
    Memory.byte_setWord _ _ _ _ h]
  have e3 : (4 * b.toNat + 3) / 4 = b.toNat := by omega
  have e2 : (4 * b.toNat + 2) / 4 = b.toNat := by omega
  have e1 : (4 * b.toNat + 1) / 4 = b.toNat := by omega
  have e0 : (4 * b.toNat) / 4 = b.toNat := by omega
  rw [e3, e2, e1, e0]
  by_cases hb : b = a
  · subst hb
    have m3 : (4 * b.toNat + 3) % 4 = 3 := by omega
    have m2 : (4 * b.toNat + 2) % 4 = 2 := by omega
    have m1 : (4 * b.toNat + 1) % 4 = 1 := by omega
    have m0 : (4 * b.toNat) % 4 = 0 := by omega
    simp only [if_true, m3, m2, m1, m0]
    exact join_bytes v
  · have : b.toNat ≠ a.toNat := fun e => hb (BitVec.eq_of_toNat_eq e)
    simp [hb, this]

/-- The memory after reset is canonical. -/
theorem State.reset_mem_wf : Memory.wf State.reset.mem = true := rfl

end Sys2Proof.Machine
end

