-- ==== Sys2Proof/Laws/Access.lean ====
section
/-! SUPPORT. What a read and what a write of the address space can change, each said once. -/

namespace Sys2Proof.Machine

/-! ## Sequencing -/

@[simp] theorem Res.bind_ok {α β : Type} (a : α) (s : State) (f : α → State → Res β) :
    (Res.ok a s).bind f = f a s := rfl

@[simp] theorem Res.bind_stall {α β : Type} (l : Option Latch) (f : α → State → Res β) :
    (Res.stall (α := α) l).bind f = .stall l := rfl

@[simp] theorem Res.bind_stop {α β : Type} (x : Refusal) (f : α → State → Res β) :
    (Res.stop (α := α) x).bind f = .stop x := rfl

/-- A sequence that completes: both parts complete. -/
theorem Res.bind_eq_ok {α β : Type} {x : Res α} {f : α → State → Res β} {b : β} {u : State}
    (h : x.bind f = .ok b u) : ∃ a t, x = .ok a t ∧ f a t = .ok b u := by
  cases x with
  | ok a t => exact ⟨a, t, rfl, h⟩
  | stall l => cases h
  | stop x => cases h

/-- A sequence that waits: one of its parts waits. -/
theorem Res.bind_eq_stall {α β : Type} {x : Res α} {f : α → State → Res β} {l : Option Latch}
    (h : x.bind f = .stall l) : x = .stall l ∨ ∃ a t, x = .ok a t ∧ f a t = .stall l := by
  cases x with
  | ok a t => exact .inr ⟨a, t, rfl, h⟩
  | stall l' => exact .inl (by simpa [Res.bind] using h)
  | stop x => cases h

/-! ## The external interfaces -/

theorem strobe_state (g : Bool) (a : Word) (s : State) :
    ∃ f, (strobe g a s).2 = { s with free := f } := by
  unfold strobe
  dsimp only
  generalize BitVec.toNat _ = n
  split
  · exact ⟨s.free, rfl⟩
  · exact ⟨s.free + 1, rfl⟩

theorem setStat_state (g : Bool) (c : BitVec 4) (s : State) :
    ∃ x y, setStat g c s = { s with pins := { s.pins with stat := x, lstat := y } } := by
  unfold setStat
  split
  · exact ⟨c, s.pins.lstat, rfl⟩
  · exact ⟨s.pins.stat, c, rfl⟩

/-- A read over an external interface changes the status pins and the count of free values. -/
theorem extRead_state (k : Access) (g : Bool) (a : Word) (s : State) :
    ∃ x y f, (extRead k g a s).2 = { s with pins := { s.pins with stat := x, lstat := y }, free := f } := by
  obtain ⟨f, hf⟩ := strobe_state g a s
  obtain ⟨x, y, hx⟩ := setStat_state g (BitVec.ofBool (strobe g a s).1 ++ k.readCode) (strobe g a s).2
  unfold extRead
  simp only
  split
  · exact ⟨x, y, f, by rw [hx, hf]⟩
  · exact ⟨x, y, f + 1, by rw [hx, hf]; rfl⟩

/-- A write over an external interface stores the word, or loses it where the interface is disabled. -/
theorem extWrite_state (k : Access) (g : Bool) (a v : Word) (s : State) :
    ∃ m x y f, extWrite k g a v s =
      { s with mem := m, pins := { s.pins with stat := x, lstat := y }, free := f } ∧
      (m = s.mem ∨ m = Memory.setWord s.mem a v) := by
  obtain ⟨f, hf⟩ := strobe_state g a s
  obtain ⟨x, y, hx⟩ := setStat_state g (BitVec.ofBool (strobe g a s).1 ++ k.writeCode) (strobe g a s).2
  unfold extWrite
  simp only
  split
  · exact ⟨Memory.setWord s.mem a v, x, y, f, by rw [hx, hf], .inr rfl⟩
  · exact ⟨s.mem, x, y, f, by rw [hx, hf], .inl rfl⟩

/-! ## Reads -/

/-- A read of the peripheral space changes ports, channels and the count of free values. -/
theorem periphRead_state {a : Word} {s t : State} {v : Word} (h : periphRead a s = .ok v t) :
    ∃ p d f, t = { s with ports := p, dma := d, free := f } := by
  have ofPair : ∀ {x : Word × State}, Res.ofPair x = .ok v t → t = x.2 := by
    intro x hx
    simp only [Res.ofPair, Res.ok.injEq] at hx
    exact hx.2.symm
  have draw : ∀ {s' : State}, Res.ofPair (drawWord s') = .ok v t → t = { s' with free := s'.free + 1 } :=
    fun hx => ofPair hx
  have timer : ∀ {i : Fin 2} {off : Nat}, timerRead i off s = .ok v t →
      ∃ p d f, t = { s with ports := p, dma := d, free := f } := by
    intro i off hx
    unfold timerRead at hx
    split at hx
    · cases hx; exact ⟨s.ports, s.dma, s.free, rfl⟩
    split at hx
    · cases hx; exact ⟨s.ports, s.dma, s.free, rfl⟩
    split at hx
    · cases hx; exact ⟨s.ports, s.dma, s.free, rfl⟩
    · exact ⟨s.ports, s.dma, s.free + 1, draw hx⟩
  have port : ∀ {x : Fin 6} {off : Nat}, portBlockRead x off s = .ok v t →
      ∃ p d f, t = { s with ports := p, dma := d, free := f } := by
    intro x off hx
    unfold portBlockRead at hx
    split at hx
    · exact ⟨s.ports, s.dma, s.free + 1, ofPair hx⟩
    split at hx
    · unfold portRead at hx
      split at hx
      · cases hx
      · cases hx; exact ⟨_, s.dma, s.free, rfl⟩
    · exact ⟨s.ports, s.dma, s.free + 1, draw hx⟩
  have dma : ∀ {c : Fin 6} {off : Nat}, Res.ofPair (dmaRead c off s) = .ok v t →
      ∃ p d f, t = { s with ports := p, dma := d, free := f } := by
    intro c off hx
    have e := ofPair hx
    unfold dmaRead at e
    split at e
    · exact ⟨s.ports, _, s.free, e⟩
    all_goals first
      | exact ⟨s.ports, s.dma, s.free, e⟩
      | exact ⟨s.ports, s.dma, s.free + 1, e⟩
  unfold periphRead at h
  simp only at h
  split at h
  · cases h
  split at h
  · unfold micrRead at h
    split at h
    · cases h; exact ⟨s.ports, s.dma, s.free, rfl⟩
    split at h
    · cases h; exact ⟨s.ports, s.dma, s.free, rfl⟩
    · exact ⟨s.ports, s.dma, s.free + 1, draw h⟩
  · exact ⟨s.ports, s.dma, s.free + 1, draw h⟩
  · exact timer h
  · exact timer h
  all_goals first
    | exact port h
    | exact dma h

/-- A read changes nothing but the status pins, the count of free values and, in the peripheral space, the ports
and the channels. -/
theorem memRead_state {k : Access} {a : Word} {s t : State} {v : Word} (h : memRead k a s = .ok v t) :
    ∃ p d x y f, t = { s with ports := p, dma := d, pins := { s.pins with stat := x, lstat := y }, free := f } ∧
      (region s.romen a ≠ .periph → p = s.ports ∧ d = s.dma) := by
  unfold memRead at h
  split at h
  · cases h; exact ⟨_, _, _, _, _, rfl, fun _ => ⟨rfl, rfl⟩⟩
  · cases h; exact ⟨_, _, _, _, _, rfl, fun _ => ⟨rfl, rfl⟩⟩
  · cases h; exact ⟨_, _, _, _, _, rfl, fun _ => ⟨rfl, rfl⟩⟩
  · rename_i hr
    obtain ⟨p, d, f, e⟩ := periphRead_state h
    exact ⟨p, d, s.pins.stat, s.pins.lstat, f, e, fun hn => absurd hr hn⟩
  · obtain ⟨x, y, f, e⟩ := extRead_state k false a s
    simp only [Res.ofPair, Res.ok.injEq] at h
    exact ⟨s.ports, s.dma, x, y, f, by rw [← h.2, e], fun _ => ⟨rfl, rfl⟩⟩
  · obtain ⟨x, y, f, e⟩ := extRead_state k true a s
    simp only [Res.ofPair, Res.ok.injEq] at h
    exact ⟨s.ports, s.dma, x, y, f, by rw [← h.2, e], fun _ => ⟨rfl, rfl⟩⟩
  · cases h

/-- A read of the on-chip RAM gives the word and changes nothing. -/
theorem memRead_ram {k : Access} {a : Word} {s : State}
    (h : region s.romen a = .ram0 ∨ region s.romen a = .ram1) :
    memRead k a s = .ok (Memory.word s.mem a) s := by
  unfold memRead
  rcases h with h | h <;> simp [h]

/-! ## Writes -/

/-- A write of the peripheral space changes peripheral registers, IIF and the latch. -/
theorem periphWrite_state {ag : BusAgent} {a v : Word} {s t : State} (h : periphWrite ag a v s = .ok () t) :
    ∃ g l m p d c i, t = { s with gmicr := g, lmicr := l, timers := m, ports := p, dma := d, latch := c, iif := i } := by
  have tick : ∀ (i : Fin 2) (u : State), ∃ m x, timerEvent i u = { u with timers := m, iif := x } := by
    intro i u
    unfold timerEvent
    dsimp only
    split
    all_goals split
    all_goals exact ⟨_, _, rfl⟩
  have clock : ∀ (i : Fin 2) (u : State), ∃ m x, timerTick i u = { u with timers := m, iif := x } := by
    intro i u
    unfold timerTick
    simp only
    split
    · exact ⟨_, _, rfl⟩
    split
    · exact ⟨_, _, rfl⟩
    split
    · split
      · exact ⟨_, _, rfl⟩
      · exact tick i u
    split
    · obtain ⟨m, x, e⟩ := tick i (u.setTimer i { u.timers[i] with counter := 0 })
      exact ⟨m, x, by rw [e]; rfl⟩
    · exact ⟨_, _, rfl⟩
  have timer : ∀ (i : Fin 2) (off : Nat), ∃ m x, timerWrite i off v s = { s with timers := m, iif := x } := by
    intro i off
    unfold timerWrite
    split
    · unfold timerCtlWrite
      simp only
      split
      · obtain ⟨m, x, e⟩ := clock i (s.setTimer i { s.timers[i] with ctl := v &&& 0x7C7#32 })
        exact ⟨m, x, by rw [e]; rfl⟩
      · exact ⟨_, _, rfl⟩
    split
    · exact ⟨_, _, rfl⟩
    split <;> exact ⟨_, _, rfl⟩
  have timer' : ∀ {i : Fin 2} {off : Nat}, Res.ok () (timerWrite i off v s) = .ok () t →
      ∃ g l m p d c i, t = { s with gmicr := g, lmicr := l, timers := m, ports := p, dma := d, latch := c, iif := i } := by
    intro i off hx
    obtain ⟨m, x, e⟩ := timer i off
    rw [e] at hx
    cases hx
    exact ⟨_, _, _, _, _, _, _, rfl⟩
  have port : ∀ {x : Fin 6} {off : Nat}, portBlockWrite ag x off v s = .ok () t →
      ∃ g l m p d c i, t = { s with gmicr := g, lmicr := l, timers := m, ports := p, dma := d, latch := c, iif := i } := by
    intro x off hx
    unfold portBlockWrite at hx
    split at hx
    · cases hx; exact ⟨_, _, _, _, _, _, _, rfl⟩
    split at hx
    · unfold portWrite at hx
      simp only at hx
      split at hx
      · cases hx; exact ⟨_, _, _, _, _, _, _, rfl⟩
      · cases hx
    · cases hx; exact ⟨_, _, _, _, _, _, _, rfl⟩
  have dma : ∀ {x : Fin 6} {off : Nat}, dmaWrite x off v s = .ok () t →
      ∃ g l m p d c i, t = { s with gmicr := g, lmicr := l, timers := m, ports := p, dma := d, latch := c, iif := i } := by
    intro x off hx
    unfold dmaWrite at hx
    simp only at hx
    split at hx
    · unfold dmaWriteCtl at hx
      split at hx
      · cases hx
      · cases hx; exact ⟨_, _, _, _, _, _, _, rfl⟩
    all_goals (cases hx; exact ⟨_, _, _, _, _, _, _, rfl⟩)
  unfold periphWrite at h
  simp only at h
  split at h
  · cases h; exact ⟨_, _, _, _, _, _, _, rfl⟩
  split at h
  · cases h
  split at h
  · cases h
    unfold micrWrite
    split
    · exact ⟨_, _, _, _, _, _, _, rfl⟩
    split <;> exact ⟨_, _, _, _, _, _, _, rfl⟩
  · cases h; exact ⟨_, _, _, _, _, _, _, rfl⟩
  · exact timer' h
  · exact timer' h
  all_goals first
    | exact port h
    | exact dma h

/-- A write changes the word at its address, the status pins and the count of free values; in the peripheral
space, peripheral registers, IIF and the latch, and no memory. -/
theorem memWrite_state {k : Access} {ag : BusAgent} {a v : Word} {s t : State}
    (h : memWrite k ag a v s = .ok () t) :
    ∃ n x y f g l m p d c i, t = { s with
        mem := n, pins := { s.pins with stat := x, lstat := y }, free := f, gmicr := g, lmicr := l, timers := m,
        ports := p, dma := d, latch := c, iif := i } ∧
      (n = s.mem ∨ n = Memory.setWord s.mem a v) ∧
      (region s.romen a ≠ .periph →
        g = s.gmicr ∧ l = s.lmicr ∧ m = s.timers ∧ p = s.ports ∧ d = s.dma ∧ c = s.latch ∧ i = s.iif) := by
  have same : ∀ n x y f, (n = s.mem ∨ n = Memory.setWord s.mem a v) →
      t = { s with mem := n, pins := { s.pins with stat := x, lstat := y }, free := f } →
      ∃ n x y f g l m p d c i, t = { s with
        mem := n, pins := { s.pins with stat := x, lstat := y }, free := f, gmicr := g, lmicr := l, timers := m,
        ports := p, dma := d, latch := c, iif := i } ∧
      (n = s.mem ∨ n = Memory.setWord s.mem a v) ∧
      (region s.romen a ≠ .periph →
        g = s.gmicr ∧ l = s.lmicr ∧ m = s.timers ∧ p = s.ports ∧ d = s.dma ∧ c = s.latch ∧ i = s.iif) :=
    fun n x y f hn e => ⟨n, x, y, f, _, _, _, _, _, _, _, e, hn, fun _ => ⟨rfl, rfl, rfl, rfl, rfl, rfl, rfl⟩⟩
  unfold memWrite at h
  split at h
  · cases h; exact same _ _ _ _ (.inr rfl) rfl
  · cases h; exact same _ _ _ _ (.inr rfl) rfl
  · cases h; exact same _ _ _ _ (.inl rfl) rfl
  · rename_i hr
    obtain ⟨g, l, m, p, d, c, i, e⟩ := periphWrite_state h
    exact ⟨s.mem, s.pins.stat, s.pins.lstat, s.free, g, l, m, p, d, c, i, e, .inl rfl, fun hn => absurd hr hn⟩
  · obtain ⟨n, x, y, f, e, hn⟩ := extWrite_state k false a v s
    simp only [Res.ok.injEq, true_and] at h
    exact same n x y f hn (by rw [← h, e])
  · obtain ⟨n, x, y, f, e, hn⟩ := extWrite_state k true a v s
    simp only [Res.ok.injEq, true_and] at h
    exact same n x y f hn (by rw [← h, e])
  · cases h

/-- A write leaves the registers but IIF, and the running state. -/
theorem memWrite_fields {k : Access} {ag : BusAgent} {a v : Word} {s t : State} (h : memWrite k ag a v s = .ok () t) :
    t.r = s.r ∧ t.ar = s.ar ∧ t.st = s.st ∧ t.sp = s.sp ∧ t.pc = s.pc ∧ t.romen = s.romen ∧
      t.annulled = s.annulled ∧ t.tvtp = s.tvtp ∧ t.ivtp = s.ivtp := by
  obtain ⟨n, x, y, f, g, l, m, p, d, c, i, rfl, -, -⟩ := memWrite_state h
  exact ⟨rfl, rfl, rfl, rfl, rfl, rfl, rfl, rfl, rfl⟩

/-- A write of the on-chip RAM stores the word and changes nothing else. -/
theorem memWrite_ram {k : Access} {ag : BusAgent} {a v : Word} {s : State}
    (h : region s.romen a = .ram0 ∨ region s.romen a = .ram1) :
    memWrite k ag a v s = .ok () { s with mem := Memory.setWord s.mem a v } := by
  unfold memWrite
  rcases h with h | h <;> simp [h]

/-- Where a write waits, at most one word goes into an empty latch. -/
theorem memWrite_stall {k : Access} {ag : BusAgent} {a v : Word} {s : State} {l : Latch}
    (h : memWrite k ag a v s = .stall (some l)) : s.latch.waiting = none ∧ region s.romen a = .periph := by
  unfold memWrite at h
  split at h
  · cases h
  · cases h
  · cases h
  · rename_i hr
    refine ⟨?_, hr⟩
    unfold periphWrite busHeld at h
    simp only at h
    split at h
    · cases h
    split at h
    · cases h
    · rename_i hb
      cases hw : s.latch.waiting with
      | none => rfl
      | some x => exact absurd (by rw [hw]; rfl) hb
  · cases h
  · cases h
  · cases h

end Sys2Proof.Machine
end

