-- ==== Sys2Proof/Laws/Reading.lean ====
section
/-! SUPPORT. What reading the operands of an instruction can change, said once for every operand form. -/

namespace Sys2Proof.Machine

/-- From `s` to `t` operands were read: only the auxiliary registers `moved`, the status pins, the count of free
values and, for an address of `reads` in the peripheral space, the ports and channels may have changed. -/
def ReadBy (s t : State) (moved : List Reg) (reads : List Word) : Prop :=
  ∃ ar p d x y f, t = { s with
      ar := ar, ports := p, dma := d, pins := { s.pins with stat := x, lstat := y }, free := f } ∧
    (∀ n : Fin 8, .ar n ∉ moved → ar[n] = s.ar[n]) ∧
    (s.offPeriph reads → p = s.ports ∧ d = s.dma)

theorem ReadBy.refl (s : State) (m : List Reg) (a : List Word) : ReadBy s s m a :=
  ⟨_, _, _, _, _, _, rfl, fun _ _ => rfl, fun _ => ⟨rfl, rfl⟩⟩

theorem ReadBy.trans {s t u : State} {m m' : List Reg} {a a' : List Word} (h : ReadBy s t m a)
    (h' : ReadBy t u m' a') : ReadBy s u (m ++ m') (a ++ a') := by
  obtain ⟨ar, p, d, x, y, f, rfl, hm, ha⟩ := h
  obtain ⟨ar', p', d', x', y', f', rfl, hm', ha'⟩ := h'
  refine ⟨ar', p', d', x', y', f', rfl, fun n hn => ?_, fun hr => ?_⟩
  · simp only [List.mem_append, not_or] at hn
    rw [hm' n hn.2, hm n hn.1]
  · have h1 : s.offPeriph a := fun b hb => hr b (List.mem_append_left _ hb)
    have h2 : s.offPeriph a' := fun b hb => hr b (List.mem_append_right _ hb)
    obtain ⟨e1, e2⟩ := ha h1
    obtain ⟨e3, e4⟩ := ha' h2
    exact ⟨e3.trans e1, e4.trans e2⟩

theorem ReadBy.mono {s t : State} {m m' : List Reg} {a a' : List Word} (h : ReadBy s t m a)
    (hm : m ⊆ m') (ha : a ⊆ a') : ReadBy s t m' a' := by
  obtain ⟨ar, p, d, x, y, f, e, h1, h2⟩ := h
  exact ⟨ar, p, d, x, y, f, e, fun n hn => h1 n fun hc => hn (hm hc), fun hr => h2 fun b hb => hr b (ha hb)⟩

/-- A word read at an address. -/
theorem memRead_readBy {k : Access} {a : Word} {s t : State} {v : Word} (h : memRead k a s = .ok v t) :
    ReadBy s t [] [a] := by
  obtain ⟨p, d, x, y, f, e, hp⟩ := memRead_state h
  exact ⟨s.ar, p, d, x, y, f, e, fun _ _ => rfl, fun hr => hp (hr a (List.mem_singleton.2 rfl))⟩

theorem dataRead_readBy {a : Word} {s t : State} {v : Word} (h : dataRead a s = .ok v t) : ReadBy s t [] [a] :=
  memRead_readBy h

/-! ## Indirect operands -/

theorem indUpdate_readBy (i : Ind) (b s : State) : ReadBy s (indUpdate i b s) i.moves [] := by
  unfold indUpdate
  cases i with
  | pre sub m x n =>
    cases m
    · exact ReadBy.refl _ _ _
    · refine ⟨_, s.ports, s.dma, s.pins.stat, s.pins.lstat, s.free, rfl, fun j hj => ?_, fun _ => ⟨rfl, rfl⟩⟩
      simp only [Ind.moves, if_true, List.mem_singleton, Reg.ar.injEq] at hj
      have : n.val ≠ j.val := fun e => hj (Fin.ext e.symm)
      simp [indAr, this]
  | post sub c x n =>
    refine ⟨_, s.ports, s.dma, s.pins.stat, s.pins.lstat, s.free, rfl, fun j hj => ?_, fun _ => ⟨rfl, rfl⟩⟩
    simp only [Ind.moves, List.mem_singleton, Reg.ar.injEq] at hj
    have : n.val ≠ j.val := fun e => hj (Fin.ext e.symm)
    simp [indAr, this]
  | plain n => exact ReadBy.refl _ _ _
  | bitRev n =>
    refine ⟨_, s.ports, s.dma, s.pins.stat, s.pins.lstat, s.free, rfl, fun j hj => ?_, fun _ => ⟨rfl, rfl⟩⟩
    simp only [Ind.moves, List.mem_singleton, Reg.ar.injEq] at hj
    have : n.val ≠ j.val := fun e => hj (Fin.ext e.symm)
    simp [indAr, this]

/-- An indirect operand: its address and its update. -/
theorem indEval_ok {i : Ind} {s t : State} {a : Word} (h : indEval i s = .ok a t) :
    a = indAddr i s ∧ t = indUpdate i s s := by
  cases h
  exact ⟨rfl, rfl⟩

theorem indEval_readBy {i : Ind} {s t : State} {a : Word} (h : indEval i s = .ok a t) : ReadBy s t i.moves [] := by
  obtain ⟨-, rfl⟩ := indEval_ok h
  exact indUpdate_readBy i s s

theorem indEval2_ok {i j : Ind} {s t : State} {p : Word × Word} (h : indEval2 i j s = .ok p t) :
    p = (indAddr i s, indAddr j s) ∧ t = indUpdate2 i j s := by
  cases h
  exact ⟨rfl, rfl⟩

theorem indEval2_readBy {i j : Ind} {s t : State} {p : Word × Word} (h : indEval2 i j s = .ok p t) :
    ReadBy s t (i.moves ++ j.moves) [] := by
  obtain ⟨-, rfl⟩ := indEval2_ok h
  unfold indUpdate2
  split
  · exact (indUpdate_readBy i s s).mono (by simp) (by simp)
  · exact ((indUpdate_readBy j s s).trans (indUpdate_readBy i s _)).mono (by simp) (by simp)

/-- An address mode changes the auxiliary registers of its `moves` alone, to values of the state before. -/
theorem indUpdate_ar (i : Ind) (b s : State) (n : Fin 8) :
    (indUpdate i b s).ar[n] = if Reg.ar n ∈ i.moves then (indUpdate i b b).ar[n] else s.ar[n] := by
  have set_ne : ∀ (v : Vector Word 8) (m : Fin 8) (x : Word), n ≠ m → (v.set m x)[n] = v[n] := by
    intro v m x h
    have : m.val ≠ n.val := fun e => h (Fin.ext e.symm)
    simp [this]
  unfold indUpdate
  cases i with
  | pre sub m x k => cases m <;> by_cases h : n = k <;> simp_all [Ind.moves, indNew, indAr]
  | post sub c x k => by_cases h : n = k <;> simp_all [Ind.moves, indNew, indAr]
  | plain k => simp [Ind.moves, indNew]
  | bitRev k => by_cases h : n = k <;> simp_all [Ind.moves, indNew, indAr]

theorem indUpdate_eq (i : Ind) (b s : State) : indUpdate i b s = { s with ar := (indUpdate i b s).ar } := by
  unfold indUpdate
  split <;> rfl

/-- An address mode changes no register but its own. -/
theorem Ind.moves_indAr {i : Ind} {n : Fin 8} (h : Reg.ar n ∈ i.moves) : n = indAr i := by
  cases i with
  | pre sub m x k => cases m <;> simp_all [Ind.moves, indAr]
  | post sub c x k => simp_all [Ind.moves, indAr]
  | plain k => simp [Ind.moves] at h
  | bitRev k => simp_all [Ind.moves, indAr]

/-- The auxiliary registers after both updates. -/
theorem indUpdate2_ar (i j : Ind) (s : State) (n : Fin 8) :
    (indUpdate2 i j s).ar[n] = if n = indAr i then (indUpdate i s s).ar[n] else (indUpdate j s s).ar[n] := by
  have hi : n ≠ indAr i → Reg.ar n ∉ i.moves := fun h m => h (Ind.moves_indAr m)
  have hj : n ≠ indAr j → (indUpdate j s s).ar[n] = s.ar[n] := by
    intro h
    rw [indUpdate_ar, if_neg fun m => h (Ind.moves_indAr m)]
  unfold indUpdate2
  rw [indUpdate_ar]
  by_cases h : n = indAr i
  · rw [if_pos h]
    split
    · rfl
    · rename_i hm
      rw [indUpdate_ar i s s, if_neg hm]
      split
      · rfl
      · rename_i e
        exact hj fun e' => e (h ▸ e')
  · rw [if_neg h, if_neg (hi h)]
    split
    · rename_i e
      exact (hj (e ▸ h)).symm
    · rfl

theorem indUpdate2_eq (i j : Ind) (s : State) : indUpdate2 i j s = { s with ar := (indUpdate2 i j s).ar } := by
  unfold indUpdate2
  rw [indUpdate_eq i]
  split
  · rfl
  · rw [indUpdate_eq j]

/-- The state after both updates. -/
theorem indUpdate_both (i j : Ind) (s : State) :
    indUpdate2 i j s = s.moveBoth i (indUpdate i s s) (indUpdate j s s) := by
  rw [indUpdate2_eq, State.moveBoth]
  congr 1
  apply Vector.ext
  intro k hk
  have h := indUpdate2_ar i j s ⟨k, hk⟩
  simp only [Fin.getElem_fin] at h
  rw [Vector.getElem_ofFn]
  exact h

theorem indRead_ok {i : Ind} {s t : State} {v : Word} (h : indRead i s = .ok v t) :
    dataRead (indAddr i s) (indUpdate i s s) = .ok v t := by
  obtain ⟨a, u, h1, h2⟩ := Res.bind_eq_ok h
  obtain ⟨rfl, rfl⟩ := indEval_ok h1
  exact h2

theorem indRead_readBy {i : Ind} {s t : State} {v : Word} (h : indRead i s = .ok v t) :
    ReadBy s t i.moves [indAddr i s] := by
  have h2 := indRead_ok h
  exact ((indUpdate_readBy i s s).trans (dataRead_readBy h2)).mono (by simp) (by simp)

theorem memEval_readBy {m : Mem} {s t : State} {a : Word} (h : memEval m s = .ok a t) :
    a = s.memAddr m ∧ ReadBy s t m.moves [] := by
  cases m with
  | dir d => cases h; exact ⟨rfl, ReadBy.refl _ _ _⟩
  | ind i =>
    obtain ⟨rfl, -⟩ := indEval_ok h
    exact ⟨rfl, indEval_readBy h⟩

/-! ## Sources -/

theorem dir_readBy {a : BitVec 16} {s t : State} {v : Word} (h : dataRead (dirAddr a s) s = .ok v t) :
    ReadBy s t (movesOf [.dir a]) (addrsOf s [.dir a]) :=
  (dataRead_readBy h).mono (by simp) (by simp [State.memAddr])

theorem ind_readBy {i : Ind} {s t : State} {v : Word} (h : indRead i s = .ok v t) :
    ReadBy s t (movesOf [.ind i]) (addrsOf s [.ind i]) :=
  (indRead_readBy h).mono (by simp [Mem.moves]) (by simp [State.memAddr])

theorem srcI_readBy {src : Src} {s t : State} {v : Word} (h : srcI src s = .ok v t) :
    ReadBy s t (movesOf src.mems) (addrsOf s src.mems) := by
  cases src with
  | reg r => cases h; exact ReadBy.refl _ _ _
  | dir a => exact dir_readBy h
  | ind i => exact ind_readBy h
  | imm v => cases h; exact ReadBy.refl _ _ _

theorem srcU_readBy {src : Src} {s t : State} {v : Word} (h : srcU src s = .ok v t) :
    ReadBy s t (movesOf src.mems) (addrsOf s src.mems) := by
  cases src with
  | reg r => cases h; exact ReadBy.refl _ _ _
  | dir a => exact dir_readBy h
  | ind i => exact ind_readBy h
  | imm v => cases h; exact ReadBy.refl _ _ _

theorem asFloat_ok {x : Res Word} {v : Ext} {t : State} (h : asFloat x = .ok v t) :
    ∃ w, x = .ok w t ∧ v = singleToExt w := by
  obtain ⟨w, u, h1, h2⟩ := Res.bind_eq_ok h
  cases h2
  exact ⟨w, h1, rfl⟩

theorem srcF_readBy {src : FSrc} {s t : State} {v : Ext} (h : srcF src s = .ok v t) :
    ReadBy s t (movesOf src.mems) (addrsOf s src.mems) := by
  cases src with
  | reg r => cases h; exact ReadBy.refl _ _ _
  | dir a => obtain ⟨w, h, -⟩ := asFloat_ok h; exact dir_readBy h
  | ind i => obtain ⟨w, h, -⟩ := asFloat_ok h; exact ind_readBy h
  | imm v => cases h; exact ReadBy.refl _ _ _

theorem srcR_readBy {src : RSrc} {s t : State} {v : Word} (h : srcR src s = .ok v t) :
    ReadBy s t (movesOf src.mems) (addrsOf s src.mems) := by
  cases src with
  | reg r => cases h; exact ReadBy.refl _ _ _
  | dir a => exact dir_readBy h
  | ind i => exact ind_readBy h

theorem srcFR_readBy {src : FRSrc} {s t : State} {v : Ext} (h : srcFR src s = .ok v t) :
    ReadBy s t (movesOf src.mems) (addrsOf s src.mems) := by
  cases src with
  | reg r => cases h; exact ReadBy.refl _ _ _
  | dir a => obtain ⟨w, h, -⟩ := asFloat_ok h; exact dir_readBy h
  | ind i => obtain ⟨w, h, -⟩ := asFloat_ok h; exact ind_readBy h

theorem srcMem_readBy {m : Mem} {s t : State} {v : Word} (h : srcMem m s = .ok v t) :
    ReadBy s t (movesOf [m]) (addrsOf s [m]) := by
  obtain ⟨a, u, h1, h2⟩ := Res.bind_eq_ok h
  obtain ⟨rfl, r⟩ := memEval_readBy h1
  exact (r.trans (dataRead_readBy h2)).mono (by simp) (by simp)

theorem srcMan_readBy {src : FSrc} {s t : State} {v : Word} (h : srcMan src s = .ok v t) :
    ReadBy s t (movesOf src.mems) (addrsOf s src.mems) := by
  cases src with
  | reg r => cases h; exact ReadBy.refl _ _ _
  | dir a => exact dir_readBy h
  | ind i => exact ind_readBy h
  | imm v => cases h; exact ReadBy.refl _ _ _

/-! ## Two sources -/

theorem disp5_addr (d : Disp5) (s : State) : s.memAddr d.mem = disp5Addr d s := by
  simp [State.memAddr, Disp5.mem, indAddr, disp5Addr, linear, State.index]

theorem disp5_readBy {d : Disp5} {s t : State} {v : Word} (h : dataRead (disp5Addr d s) s = .ok v t) :
    ReadBy s t (movesOf [d.mem]) (addrsOf s [d.mem]) :=
  (dataRead_readBy h).mono (by simp) (by simp [disp5_addr])

theorem two_reads {a b : Word} {s t : State} {p : Word × Word}
    (h : ((dataRead a s).bind fun x s => (dataRead b s).bind fun y s => .ok (x, y) s) = .ok p t) :
    ReadBy s t [] [a, b] := by
  obtain ⟨x, u, h1, h2⟩ := Res.bind_eq_ok h
  obtain ⟨y, w, h3, h4⟩ := Res.bind_eq_ok h2
  cases h4
  exact ((dataRead_readBy h1).trans (dataRead_readBy h3)).mono (by simp) (by simp)

theorem indRead2_readBy {i j : Ind} {s t : State} {p : Word × Word} (h : indRead2 i j s = .ok p t) :
    ReadBy s t (movesOf [.ind i, .ind j]) (addrsOf s [.ind i, .ind j]) := by
  obtain ⟨q, u, h1, h2⟩ := Res.bind_eq_ok h
  obtain ⟨rfl, -⟩ := indEval2_ok h1
  exact ((indEval2_readBy h1).trans (two_reads h2)).mono (by simp [Mem.moves]) (by simp [State.memAddr])

theorem read2_readBy {d e : Disp5} {s t : State} {p : Word × Word}
    (h : read2 (disp5Addr d s) (disp5Addr e s) s = .ok p t) :
    ReadBy s t (movesOf [d.mem, e.mem]) (addrsOf s [d.mem, e.mem]) :=
  (two_reads h).mono (by simp) (by simp [disp5_addr])

theorem src3_readBy {ops : Ops3} {s t : State} {p : Word × Word} (h : src3 ops s = .ok p t) :
    ReadBy s t (movesOf ops.mems) (addrsOf s ops.mems) := by
  cases ops with
  | rr a b => cases h; exact ReadBy.refl _ _ _
  | ir i b => obtain ⟨x, u, h1, h2⟩ := Res.bind_eq_ok h; cases h2; exact ind_readBy h1
  | ri a j => obtain ⟨x, u, h1, h2⟩ := Res.bind_eq_ok h; cases h2; exact ind_readBy h1
  | ii i j => exact indRead2_readBy h
  | rk a k => cases h; exact ReadBy.refl _ _ _
  | rd a d => obtain ⟨x, u, h1, h2⟩ := Res.bind_eq_ok h; cases h2; exact disp5_readBy h1
  | dk d k => obtain ⟨x, u, h1, h2⟩ := Res.bind_eq_ok h; cases h2; exact disp5_readBy h1
  | dd d e => exact read2_readBy h

theorem asFloat2_ok {x : Res (Word × Word)} {p : Ext × Ext} {t : State} (h : asFloat2 x = .ok p t) :
    ∃ w, x = .ok w t ∧ p = (singleToExt w.1, singleToExt w.2) := by
  obtain ⟨w, u, h1, h2⟩ := Res.bind_eq_ok h
  cases h2
  exact ⟨w, h1, rfl⟩

theorem src3F_readBy {ops : FOps3} {s t : State} {p : Ext × Ext} (h : src3F ops s = .ok p t) :
    ReadBy s t (movesOf ops.mems) (addrsOf s ops.mems) := by
  cases ops with
  | rr a b => cases h; exact ReadBy.refl _ _ _
  | ir i b => obtain ⟨x, u, h1, h2⟩ := Res.bind_eq_ok h; cases h2; exact ind_readBy h1
  | ri a j => obtain ⟨x, u, h1, h2⟩ := Res.bind_eq_ok h; cases h2; exact ind_readBy h1
  | ii i j => obtain ⟨w, h, -⟩ := asFloat2_ok h; exact indRead2_readBy h
  | rd a d => obtain ⟨x, u, h1, h2⟩ := Res.bind_eq_ok h; cases h2; exact disp5_readBy h1
  | dd d e => obtain ⟨w, h, -⟩ := asFloat2_ok h; exact read2_readBy h

/-! ## What reading leaves -/

/-- Reading operands leaves every field but the auxiliary registers, the ports, the channels, the status pins and
the count of free values. -/
theorem ReadBy.fields {s t : State} {m : List Reg} {a : List Word} (h : ReadBy s t m a) :
    t.st = s.st ∧ t.mem = s.mem ∧ t.delay = s.delay ∧ t.pc = s.pc ∧ t.romen = s.romen ∧ t.r = s.r ∧ t.sp = s.sp ∧
      t.latch = s.latch := by
  obtain ⟨ar, p, d, x, y, f, rfl, -, -⟩ := h
  exact ⟨rfl, rfl, rfl, rfl, rfl, rfl, rfl, rfl⟩

theorem ReadBy.annulled {s t : State} {m : List Reg} {a : List Word} (h : ReadBy s t m a) :
    t.annulled = s.annulled := by
  unfold State.annulled
  rw [h.fields.2.2.1]

/-- Reading operands leaves every register but the auxiliary registers that it moves. -/
theorem ReadBy.rdI {s t : State} {m : List Reg} {a : List Word} (h : ReadBy s t m a) {d : Reg} (hd : d ∉ m) :
    t.rdI d = s.rdI d := by
  obtain ⟨ar, p, c, x, y, f, rfl, hm, -⟩ := h
  cases d with
  | ar n => exact hm n hd
  | _ => rfl

end Sys2Proof.Machine
end

