-- ==== Sys2Proof/Laws/Ops.lean ====
section
/-! SUPPORT. How an instruction ends, said once: the inversion lemmas of `finish`, `sequential` and `execute`, and
which operations can leave a word in the latch when they wait. -/

namespace Sys2Proof.Machine

/-! ## How an instruction ends -/

theorem finish_ok {s t : State} {r : Res Unit} (h : r = .ok () t) : finish s r = .next t.settled := by
  rw [h]; rfl

theorem finish_next {s u : State} {r : Res Unit} (h : finish s r = .next u) :
    (∃ t, r = .ok () t ∧ u = t.settled) ∨ ∃ l, r = .stall l ∧ u = s.waiting l := by
  cases r with
  | ok a t => left; exact ⟨t, rfl, by simpa [finish] using h.symm⟩
  | stall l => right; exact ⟨l, rfl, by simpa [finish] using h.symm⟩
  | stop x => cases x <;> cases h

theorem sequential_ok {s t : State} {r : Res Unit} (h : r = .ok () t) : sequential s r = .next (s.after t) := by
  rw [h]; rfl

theorem sequential_next {s u : State} {r : Res Unit} (h : sequential s r = .next u) :
    (∃ t, r = .ok () t ∧ u = s.after t) ∨ ∃ l, r = .stall l ∧ u = s.waiting l := by
  rcases finish_next h with ⟨t, h1, rfl⟩ | ⟨l, h1, rfl⟩
  · obtain ⟨a, w, h2, h3⟩ := Res.bind_eq_ok h1
    cases h3
    exact .inl ⟨w, h2, rfl⟩
  · rcases Res.bind_eq_stall h1 with h2 | ⟨a, w, -, h3⟩
    · exact .inr ⟨l, h2, rfl⟩
    · cases h3

theorem exe_live {s : State} (h : s.annulled = false) (f : State → State) : s.exe f = f s := by
  simp [State.exe, h]

theorem exe_annulled {s : State} (h : s.annulled = true) (f : State → State) : s.exe f = s := by
  simp [State.exe, h]

/-- An instruction whose source is readable, outside an annulled slot. -/
theorem execute_live {α : Type} {s t : State} {src : Res α} {v : α} {f : α → State → State}
    (h : src = .ok v t) (ha : t.annulled = false) : execute s src f = .next (s.after (f v t)) := by
  rw [execute, h, sequential_ok (t := f v t)]
  simp [exe_live ha]

/-- An instruction whose source is readable, in an annulled slot. -/
theorem execute_annulled {α : Type} {s t : State} {src : Res α} {v : α} {f : α → State → State}
    (h : src = .ok v t) (ha : t.annulled = true) : execute s src f = .next (s.after t) := by
  rw [execute, h, sequential_ok (t := t)]
  simp [exe_annulled ha]

theorem execute_next {α : Type} {s u : State} {src : Res α} {f : α → State → State}
    (h : execute s src f = .next u) :
    (∃ v t, src = .ok v t ∧ u = s.after (t.exe (f v))) ∨ ∃ l, src = .stall l ∧ u = s.waiting l := by
  rcases sequential_next h with ⟨t, h1, rfl⟩ | ⟨l, h1, rfl⟩
  · obtain ⟨v, w, h2, h3⟩ := Res.bind_eq_ok h1
    cases h3
    exact .inl ⟨v, w, h2, rfl⟩
  · rcases Res.bind_eq_stall h1 with h2 | ⟨a, w, -, h3⟩
    · exact .inr ⟨l, h2, rfl⟩
    · cases h3

/-! ## Waiting without a word in the latch -/

/-- Where the operation waits, nothing goes into the latch. -/
def Waits {α : Type} (x : Res α) : Prop := ∀ l, x = .stall l → l = none

theorem Waits.ok {α : Type} (a : α) (s : State) : Waits (Res.ok a s) := fun _ h => by cases h

theorem Waits.bind {α β : Type} {x : Res α} {f : α → State → Res β} (hx : Waits x)
    (hf : ∀ a t, x = .ok a t → Waits (f a t)) : Waits (x.bind f) := by
  intro l h
  rcases Res.bind_eq_stall h with h1 | ⟨a, t, h1, h2⟩
  · exact hx l h1
  · exact hf a t h1 l h2

theorem memRead_waits (k : Access) (a : Word) (s : State) : Waits (memRead k a s) := by
  intro l h
  have port : ∀ {x : Fin 6} {off : Nat}, portBlockRead x off s = .stall l → l = none := by
    intro x off hx
    unfold portBlockRead at hx
    split at hx
    · cases hx
    split at hx
    · unfold portRead at hx
      split at hx
      · cases hx; rfl
      · cases hx
    · cases hx
  have timer : ∀ {i : Fin 2} {off : Nat}, timerRead i off s ≠ .stall l := by
    intro i off hx
    unfold timerRead at hx
    split at hx
    · cases hx
    split at hx
    · cases hx
    split at hx <;> cases hx
  unfold memRead at h
  split at h
  · cases h
  · cases h
  · cases h
  · unfold periphRead at h
    simp only at h
    split at h
    · cases h; rfl
    split at h
    · unfold micrRead at h
      split at h
      · cases h
      split at h <;> cases h
    · cases h
    · exact absurd h timer
    · exact absurd h timer
    all_goals first
      | exact port h
      | cases h
  · cases h
  · cases h
  · cases h

theorem dataRead_waits (a : Word) (s : State) : Waits (dataRead a s) := memRead_waits _ _ _

theorem indEval_waits (i : Ind) (s : State) : Waits (indEval i s) := by
  intro l h
  cases h

theorem indEval2_waits (i j : Ind) (s : State) : Waits (indEval2 i j s) := by
  intro l h
  cases h

theorem memEval_waits (m : Mem) (s : State) : Waits (memEval m s) := by
  cases m with
  | dir a => exact Waits.ok _ _
  | ind i => exact indEval_waits i s

theorem indRead_waits (i : Ind) (s : State) : Waits (indRead i s) :=
  (indEval_waits i s).bind fun _ _ _ => dataRead_waits _ _

theorem srcMem_waits (m : Mem) (s : State) : Waits (srcMem m s) :=
  (memEval_waits m s).bind fun _ _ _ => dataRead_waits _ _

theorem srcI_waits (src : Src) (s : State) : Waits (srcI src s) := by
  cases src with
  | reg r => exact Waits.ok _ _
  | dir a => exact dataRead_waits _ _
  | ind i => exact indRead_waits _ _
  | imm v => exact Waits.ok _ _

theorem srcU_waits (src : Src) (s : State) : Waits (srcU src s) := by
  cases src with
  | reg r => exact Waits.ok _ _
  | dir a => exact dataRead_waits _ _
  | ind i => exact indRead_waits _ _
  | imm v => exact Waits.ok _ _

theorem srcMan_waits (src : FSrc) (s : State) : Waits (srcMan src s) := by
  cases src with
  | reg r => exact Waits.ok _ _
  | dir a => exact dataRead_waits _ _
  | ind i => exact indRead_waits _ _
  | imm v => exact Waits.ok _ _

theorem srcR_waits (src : RSrc) (s : State) : Waits (srcR src s) := by
  cases src with
  | reg r => exact Waits.ok _ _
  | dir a => exact dataRead_waits _ _
  | ind i => exact indRead_waits _ _

theorem asFloat_waits {x : Res Word} (h : Waits x) : Waits (asFloat x) := h.bind fun _ _ _ => Waits.ok _ _

theorem srcF_waits (src : FSrc) (s : State) : Waits (srcF src s) := by
  cases src with
  | reg r => exact Waits.ok _ _
  | dir a => exact asFloat_waits (dataRead_waits _ _)
  | ind i => exact asFloat_waits (indRead_waits _ _)
  | imm v => exact Waits.ok _ _

theorem srcFR_waits (src : FRSrc) (s : State) : Waits (srcFR src s) := by
  cases src with
  | reg r => exact Waits.ok _ _
  | dir a => exact asFloat_waits (dataRead_waits _ _)
  | ind i => exact asFloat_waits (indRead_waits _ _)

theorem two_waits (a b : Word) (s : State) :
    Waits ((dataRead a s).bind fun x s => (dataRead b s).bind fun y s => .ok (x, y) s) :=
  (dataRead_waits a s).bind fun _ _ _ => (dataRead_waits b _).bind fun _ _ _ => Waits.ok _ _

theorem indRead2_waits (i j : Ind) (s : State) : Waits (indRead2 i j s) :=
  (indEval2_waits i j s).bind fun _ _ _ => two_waits _ _ _

theorem read2_waits (a b : Word) (s : State) : Waits (read2 a b s) := two_waits a b s

theorem src3_waits (ops : Ops3) (s : State) : Waits (src3 ops s) := by
  cases ops with
  | rr a b => exact Waits.ok _ _
  | ir i b => exact (indRead_waits _ _).bind fun _ _ _ => Waits.ok _ _
  | ri a j => exact (indRead_waits _ _).bind fun _ _ _ => Waits.ok _ _
  | ii i j => exact indRead2_waits _ _ _
  | rk a k => exact Waits.ok _ _
  | rd a d => exact (dataRead_waits _ _).bind fun _ _ _ => Waits.ok _ _
  | dk d k => exact (dataRead_waits _ _).bind fun _ _ _ => Waits.ok _ _
  | dd d e => exact read2_waits _ _ _

theorem asFloat2_waits {x : Res (Word × Word)} (h : Waits x) : Waits (asFloat2 x) := h.bind fun _ _ _ => Waits.ok _ _

theorem src3F_waits (ops : FOps3) (s : State) : Waits (src3F ops s) := by
  cases ops with
  | rr a b => exact Waits.ok _ _
  | ir i b => exact (indRead_waits _ _).bind fun _ _ _ => Waits.ok _ _
  | ri a j => exact (indRead_waits _ _).bind fun _ _ _ => Waits.ok _ _
  | ii i j => exact asFloat2_waits (indRead2_waits _ _ _)
  | rd a d => exact (dataRead_waits _ _).bind fun _ _ _ => Waits.ok _ _
  | dd d e => exact asFloat2_waits (read2_waits _ _ _)

theorem pop_waits (s : State) : Waits (pop s) := (dataRead_waits _ _).bind fun _ _ _ => Waits.ok _ _

theorem lockedRead_waits (m : Mem) (s : State) : Waits (lockedRead m s) :=
  (memEval_waits m s).bind fun _ _ _ => dataRead_waits _ _

theorem signalRead_waits (m : Mem) (s : State) : Waits (signalRead m s) :=
  (memEval_waits m s).bind fun _ _ _ => (memRead_waits _ _ _).bind fun _ _ _ => Waits.ok _ _

end Sys2Proof.Machine
end

