-- ==== Sys2Proof/Laws/Frame.lean ====
section
/-! SUPPORT. What each shared operation leaves unchanged, in the terms of `State.Keeps` and `State.Quiet`. -/

namespace Sys2Proof.Machine

/-! ## Composition -/

theorem State.Keeps.refl (s : State) (r : List Reg) (f : BitVec 16) (a w : List Word) : s.Keeps s r f a w where
  ext _ _ := rfl
  reg _ _ _ _ := rfl
  iif _ _ := rfl
  st _ := rfl
  cache _ := rfl
  expansion := ⟨rfl, rfl⟩
  bytes _ _ := rfl
  blocks _ := ⟨rfl, rfl, rfl, rfl⟩
  agents _ := ⟨rfl, rfl⟩
  inputs := ⟨rfl, rfl, rfl, rfl, rfl, rfl, rfl, rfl, rfl⟩

theorem State.Quiet.refl (s : State) : s.Quiet s := ⟨rfl, rfl, rfl, rfl, rfl, rfl⟩

theorem State.Quiet.trans {s t u : State} (h : s.Quiet t) (h' : t.Quiet u) : s.Quiet u :=
  ⟨h'.1.trans h.1, h'.2.trans h.2, h'.3.trans h.3, h'.4.trans h.4, h'.5.trans h.5, h'.6.trans h.6⟩

theorem State.offPeriph_append {s : State} {a b : List Word} (h : s.offPeriph (a ++ b)) :
    s.offPeriph a ∧ s.offPeriph b :=
  ⟨fun x hx => h x (List.mem_append_left _ hx), fun x hx => h x (List.mem_append_right _ hx)⟩

theorem State.offPeriph_of_romen {s t : State} {a : List Word} (e : t.romen = s.romen) (h : s.offPeriph a) :
    t.offPeriph a := fun x hx => by rw [e]; exact h x hx

theorem State.Keeps.trans {s t u : State} {r r' : List Reg} {f : BitVec 16} {a a' w w' : List Word}
    (h : s.Keeps t r f a w) (h' : t.Keeps u r' f a' w') : s.Keeps u (r ++ r') f (a ++ a') (w ++ w') := by
  have er : t.romen = s.romen := h.inputs.2.2.2.2.2.1
  refine ⟨?_, ?_, ?_, ?_, ?_, ?_, ?_, ?_, ?_, ?_⟩
  · intro n hn
    simp only [List.mem_append, not_or] at hn
    rw [h'.ext n hn.2, h.ext n hn.1]
  · intro d h1 h2 hd
    simp only [List.mem_append, not_or] at hd
    rw [h'.reg d h1 h2 hd.2, h.reg d h1 h2 hd.1]
  · intro hd hw
    simp only [List.mem_append, not_or] at hd
    obtain ⟨w1, w2⟩ := State.offPeriph_append hw
    rw [h'.iif hd.2 (State.offPeriph_of_romen er w2), h.iif hd.1 w1]
  · intro hd
    simp only [List.mem_append, not_or] at hd
    rw [h'.st hd.2, h.st hd.1]
  · intro hd
    simp only [List.mem_append, not_or] at hd
    rw [h'.cache hd.2, h.cache hd.1]
  · exact ⟨h'.expansion.1.trans h.expansion.1, h'.expansion.2.trans h.expansion.2⟩
  · intro k hk
    rw [h'.bytes k fun x hx => hk x (List.mem_append_right _ hx), h.bytes k fun x hx => hk x (List.mem_append_left _ hx)]
  · intro hw
    obtain ⟨w1, w2⟩ := State.offPeriph_append hw
    obtain ⟨a1, a2, a3, a4⟩ := h'.blocks (State.offPeriph_of_romen er w2)
    obtain ⟨b1, b2, b3, b4⟩ := h.blocks w1
    exact ⟨a1.trans b1, a2.trans b2, a3.trans b3, a4.trans b4⟩
  · intro hw
    have hs : s.offPeriph (a ++ w) := fun x hx => hw x (by simp only [List.mem_append] at hx ⊢; tauto)
    have ht : s.offPeriph (a' ++ w') := fun x hx => hw x (by simp only [List.mem_append] at hx ⊢; tauto)
    obtain ⟨a1, a2⟩ := h'.agents (State.offPeriph_of_romen er ht)
    obtain ⟨b1, b2⟩ := h.agents hs
    exact ⟨a1.trans b1, a2.trans b2⟩
  · obtain ⟨a1, a2, a3, a4, a5, a6, a7, a8, a9⟩ := h'.inputs
    obtain ⟨b1, b2, b3, b4, b5, b6, b7, b8, b9⟩ := h.inputs
    exact ⟨a1.trans b1, a2.trans b2, a3.trans b3, a4.trans b4, a5.trans b5, a6.trans b6, a7.trans b7, a8.trans b8,
      a9.trans b9⟩

theorem and_not_of_or {x y f g : BitVec 16} (hf : f ||| g = g) (h : x &&& ~~~f = y &&& ~~~f) :
    x &&& ~~~g = y &&& ~~~g := by
  have e : ∀ z : BitVec 16, z &&& ~~~g = (z &&& ~~~f) &&& ~~~g := by
    intro z
    rw [← hf]
    ext i hi
    simp
    cases z[i] <;> cases f[i] <;> simp
  rw [e x, e y, h]

theorem State.Keeps.mono {s u : State} {r r' : List Reg} {f f' : BitVec 16} {a a' w w' : List Word}
    (h : s.Keeps u r f a w) (hr : r ⊆ r') (hf : f ||| f' = f') (ha : a ⊆ a') (hw : w ⊆ w') :
    s.Keeps u r' f' a' w' := by
  have off : s.offPeriph w' → s.offPeriph w := fun h x hx => h x (hw hx)
  refine ⟨fun n hn => h.ext n fun c => hn (hr c), fun d h1 h2 hd => h.reg d h1 h2 fun c => hd (hr c),
    fun hd ho => h.iif (fun c => hd (hr c)) (off ho), fun hd => and_not_of_or hf (h.st fun c => hd (hr c)),
    fun hd => h.cache fun c => hd (hr c), h.expansion, fun k hk => h.bytes k fun x hx => hk x (hw hx),
    fun ho => h.blocks (off ho), fun ho => h.agents fun x hx => ho x ?_, h.inputs⟩
  simp only [List.mem_append] at hx ⊢
  exact hx.imp (fun c => ha c) fun c => hw c

/-! ## The end of an instruction -/

theorem State.Keeps.after {s t : State} {r : List Reg} {f : BitVec 16} {a w : List Word} (h : s.Keeps t r f a w) :
    s.Keeps (s.after t) r f a w :=
  ⟨h.ext, fun d h1 h2 hd => (by cases d <;> rfl : (s.after t).rdI d = t.rdI d).trans (h.reg d h1 h2 hd), h.iif, h.st,
    h.cache, h.expansion, h.bytes, h.blocks, h.agents, h.inputs⟩

theorem State.Quiet.after {s t : State} (h : s.Quiet t) : s.Quiet (s.after t) := ⟨h.1, h.2, h.3, h.4, h.5, h.6⟩

theorem State.Keeps.settled {s t : State} {r : List Reg} {f : BitVec 16} {a w : List Word} (h : s.Keeps t r f a w) :
    s.Keeps t.settled r f a w :=
  ⟨h.ext, fun d h1 h2 hd => (by cases d <;> rfl : t.settled.rdI d = t.rdI d).trans (h.reg d h1 h2 hd), h.iif, h.st,
    h.cache, h.expansion, h.bytes, h.blocks, h.agents, h.inputs⟩

theorem State.keeps_jump (s : State) (p : Word) (r : List Reg) (f : BitVec 16) (a w : List Word) :
    s.Keeps (s.jump p) r f a w where
  ext _ _ := rfl
  reg d _ _ _ := by cases d <;> rfl
  iif _ _ := rfl
  st _ := rfl
  cache _ := rfl
  expansion := ⟨rfl, rfl⟩
  bytes _ _ := rfl
  blocks _ := ⟨rfl, rfl, rfl, rfl⟩
  agents _ := ⟨rfl, rfl⟩
  inputs := ⟨rfl, rfl, rfl, rfl, rfl, rfl, rfl, rfl, rfl⟩

theorem State.keeps_delayed (s : State) (p : Option Word) (b : Bool) (k : SlotKind) (r : List Reg) (f : BitVec 16)
    (a w : List Word) : s.Keeps (s.delayed p b k) r f a w where
  ext _ _ := rfl
  reg d _ _ _ := by cases d <;> rfl
  iif _ _ := rfl
  st _ := rfl
  cache _ := rfl
  expansion := ⟨rfl, rfl⟩
  bytes _ _ := rfl
  blocks _ := ⟨rfl, rfl, rfl, rfl⟩
  agents _ := ⟨rfl, rfl⟩
  inputs := ⟨rfl, rfl, rfl, rfl, rfl, rfl, rfl, rfl, rfl⟩

/-- An instruction that waits changes nothing but the latch, and that only where it writes the peripheral space. -/
theorem State.keeps_waiting (s : State) (l : Option Latch) (r : List Reg) (f : BitVec 16) (a w : List Word)
    (h : s.offPeriph w → l = none) : s.Keeps (s.waiting l) r f a w where
  ext _ _ := rfl
  reg d _ _ _ := by cases d <;> rfl
  iif _ _ := rfl
  st _ := rfl
  cache _ := rfl
  expansion := ⟨rfl, rfl⟩
  bytes _ _ := rfl
  blocks ho := by rw [h ho]; exact ⟨rfl, rfl, rfl, rfl⟩
  agents _ := ⟨rfl, rfl⟩
  inputs := ⟨rfl, rfl, rfl, rfl, rfl, rfl, rfl, rfl, rfl⟩

theorem State.quiet_waiting (s : State) (l : Option Latch) : s.Quiet (s.waiting l) := ⟨rfl, rfl, rfl, rfl, rfl, rfl⟩

/-! ## Reads and writes -/

theorem ReadBy.keeps {s t : State} {m : List Reg} {a : List Word} (h : ReadBy s t m a) (f : BitVec 16)
    (w : List Word) : s.Keeps t m f a w := by
  have hr := fun d => h.rdI (d := d)
  obtain ⟨ar, p, c, x, y, n, rfl, hm, hp⟩ := h
  refine ⟨fun _ _ => rfl, fun d _ _ hd => hr d hd, fun _ _ => rfl, fun _ => rfl, fun _ => rfl, ⟨rfl, rfl⟩,
    fun _ _ => rfl, fun _ => ⟨rfl, rfl, rfl, rfl⟩, fun ho => hp (State.offPeriph_append ho).1,
    ⟨rfl, rfl, rfl, rfl, rfl, rfl, rfl, rfl, rfl⟩⟩

theorem ReadBy.quiet {s t : State} {m : List Reg} {a : List Word} (h : ReadBy s t m a) : s.Quiet t := by
  obtain ⟨ar, p, c, x, y, n, rfl, -, -⟩ := h
  exact ⟨rfl, rfl, rfl, rfl, rfl, rfl⟩

theorem memWrite_keeps {k : Access} {ag : BusAgent} {a v : Word} {s t : State} (h : memWrite k ag a v s = .ok () t)
    (r : List Reg) (f : BitVec 16) (b : List Word) : s.Keeps t r f b [a] := by
  obtain ⟨n, x, y, fr, g, l, m, p, d, c, i, rfl, hn, hp⟩ := memWrite_state h
  have off : s.offPeriph [a] → region s.romen a ≠ .periph := fun ho => ho a (List.mem_singleton.2 rfl)
  refine ⟨fun _ _ => rfl, fun d _ hi _ => by cases d <;> first | rfl | exact absurd rfl hi,
    fun _ ho => (hp (off ho)).2.2.2.2.2.2, fun _ => rfl, fun _ => rfl, ⟨rfl, rfl⟩, fun j hj => ?_,
    fun ho => ⟨(hp (off ho)).1, (hp (off ho)).2.1, (hp (off ho)).2.2.1, (hp (off ho)).2.2.2.2.2.1⟩,
    fun ho => ⟨(hp (off (State.offPeriph_append ho).2)).2.2.2.1, (hp (off (State.offPeriph_append ho).2)).2.2.2.2.1⟩,
    ⟨rfl, rfl, rfl, rfl, rfl, rfl, rfl, rfl, rfl⟩⟩
  rcases hn with rfl | rfl
  · rfl
  · exact Memory.byte_setWord_other _ _ _ _ (hj a (List.mem_singleton.2 rfl))

theorem memWrite_quiet {k : Access} {ag : BusAgent} {a v : Word} {s t : State} (h : memWrite k ag a v s = .ok () t) :
    s.Quiet t := by
  obtain ⟨n, x, y, fr, g, l, m, p, d, c, i, rfl, -, -⟩ := memWrite_state h
  exact ⟨rfl, rfl, rfl, rfl, rfl, rfl⟩

/-! ## Register writes -/

theorem State.keeps_wrF (s : State) (n : Fin 12) (v : Ext) (f : BitVec 16) (a w : List Word) :
    s.Keeps (s.wrF n v) [.r n] f a w := by
  have hr : ∀ m : Fin 12, Reg.r m ∉ [Reg.r n] → (s.wrF n v).r[m] = s.r[m] := by
    intro m hm
    simp only [List.mem_singleton, Reg.r.injEq] at hm
    have : n.val ≠ m.val := fun e => hm (Fin.ext e.symm)
    simp [this]
  refine ⟨hr, fun d _ _ hd => ?_, fun _ _ => rfl, fun _ => rfl, fun _ => rfl, ⟨rfl, rfl⟩,
    fun _ _ => rfl, fun _ => ⟨rfl, rfl, rfl, rfl⟩, fun _ => ⟨rfl, rfl⟩, ⟨rfl, rfl, rfl, rfl, rfl, rfl, rfl, rfl, rfl⟩⟩
  cases d with
  | r m =>
    have e := hr m hd
    simp only [State.rdI, e]
  | _ => rfl

theorem State.keeps_wrAr (s : State) (n : Fin 8) (v : Word) (f : BitVec 16) (a w : List Word) :
    s.Keeps (s.wrAr n v) [.ar n] f a w := by
  refine ⟨fun _ _ => rfl, fun d _ _ hd => ?_, fun _ _ => rfl, fun _ => rfl, fun _ => rfl, ⟨rfl, rfl⟩,
    fun _ _ => rfl, fun _ => ⟨rfl, rfl, rfl, rfl⟩, fun _ => ⟨rfl, rfl⟩, ⟨rfl, rfl, rfl, rfl, rfl, rfl, rfl, rfl, rfl⟩⟩
  cases d with
  | ar m =>
    simp only [List.mem_singleton, Reg.ar.injEq] at hd
    have : n.val ≠ m.val := fun e => hd (Fin.ext e.symm)
    simp [State.rdI, this]
  | _ => rfl

theorem State.keeps_wrI (s : State) (d : Reg) (v : Word) (f : BitVec 16) (a w : List Word) :
    s.Keeps (s.wrI d v) [d] f a w := by
  cases d with
  | r n => exact s.keeps_wrF n _ f a w
  | ar n => exact s.keeps_wrAr n v f a w
  | _ =>
    refine ⟨fun _ _ => rfl, fun e h1 h2 hd => ?_, fun hd _ => ?_, fun hd => ?_, fun hd => ?_, ⟨rfl, rfl⟩,
      fun _ _ => rfl, fun _ => ⟨rfl, rfl, rfl, rfl⟩, fun _ => ⟨rfl, rfl⟩,
      ⟨rfl, rfl, rfl, rfl, rfl, rfl, rfl, rfl, rfl⟩⟩
    · cases e <;> first | rfl | exact absurd rfl h1 | exact absurd rfl h2 | exact absurd (List.mem_singleton.2 rfl) hd
    · first | rfl | exact absurd (List.mem_singleton.2 rfl) hd
    · first | rfl | exact absurd (List.mem_singleton.2 rfl) hd
    · first | rfl | exact absurd (List.mem_singleton.2 rfl) hd

theorem State.quiet_wrI (s : State) (d : Reg) (v : Word) : s.Quiet (s.wrI d v) := by
  constructor <;> simp

theorem State.quiet_wrF (s : State) (n : Fin 12) (v : Ext) : s.Quiet (s.wrF n v) := by
  constructor <;> simp

theorem State.quiet_wrAr (s : State) (n : Fin 8) (v : Word) : s.Quiet (s.wrAr n v) := by
  constructor <;> simp

/-- A state that differs in ST alone, in the bits of `f`. -/
theorem State.keeps_st (s : State) (x : BitVec 16) (f : BitVec 16) (h : x &&& ~~~f = s.st &&& ~~~f) (a w : List Word) :
    s.Keeps { s with st := x } [] f a w where
  ext _ _ := rfl
  reg d h1 _ _ := by cases d <;> first | rfl | exact absurd rfl h1
  iif _ _ := rfl
  st _ := h
  cache _ := rfl
  expansion := ⟨rfl, rfl⟩
  bytes _ _ := rfl
  blocks _ := ⟨rfl, rfl, rfl, rfl⟩
  agents _ := ⟨rfl, rfl⟩
  inputs := ⟨rfl, rfl, rfl, rfl, rfl, rfl, rfl, rfl, rfl⟩

/-! ## Flags -/

/-- The bits of ST that a flag result can change: N, Z, V and UF always; C if it is computed; LV and LUF where they
latch a set V or UF. -/
def flagMask (f : FlagRes) : BitVec 16 :=
  0x1E#16 ||| (if f.c.isSome then 1#16 else 0#16) ||| (if f.v then 0x20#16 else 0#16) |||
    (if f.uf then 0x40#16 else 0#16)

/-- The bits of ST after the seven flags are replaced. -/
theorem withFlags_getLsbD (s : State) (f : BitVec 7) (i : Nat) :
    (s.withFlags f).st.getLsbD i = if i < 7 then f.getLsbD i else s.st.getLsbD i := by
  simp only [State.withFlags_st, BitVec.getLsbD_append]
  by_cases h : i < 7
  · simp [h]
  · simp only [h, if_false, BitVec.getLsbD_extractLsb']
    by_cases h2 : i - 7 < 9
    · have e : 7 + (i - 7) = i := by omega
      simp [h2, e]
    · rw [BitVec.getLsbD_of_ge s.st i (by omega)]
      simp [h2]

theorem packFlags_bits (luf lv uf n z v c : Bool) :
    (packFlags luf lv uf n z v c).getLsbD 0 = c ∧ (packFlags luf lv uf n z v c).getLsbD 1 = v ∧
    (packFlags luf lv uf n z v c).getLsbD 2 = z ∧ (packFlags luf lv uf n z v c).getLsbD 3 = n ∧
    (packFlags luf lv uf n z v c).getLsbD 4 = uf ∧ (packFlags luf lv uf n z v c).getLsbD 5 = lv ∧
    (packFlags luf lv uf n z v c).getLsbD 6 = luf := by
  revert luf lv uf n z v c; decide

/-- The bits of ST after a flag result. -/
theorem setFlags_bits (s : State) (f : FlagRes) :
    (s.setFlags f).stBit 0 = f.c.getD (s.stBit 0) ∧ (s.setFlags f).stBit 1 = f.v ∧
    (s.setFlags f).stBit 2 = f.z ∧ (s.setFlags f).stBit 3 = f.n ∧ (s.setFlags f).stBit 4 = f.uf ∧
    (s.setFlags f).stBit 5 = (s.stBit 5 || f.v) ∧ (s.setFlags f).stBit 6 = (s.stBit 6 || f.uf) ∧
    ∀ i, 7 ≤ i → (s.setFlags f).stBit i = s.stBit i := by
  obtain ⟨h0, h1, h2, h3, h4, h5, h6⟩ :=
    packFlags_bits (s.stBit 6 || f.uf) (s.stBit 5 || f.v) f.uf f.n f.z f.v (f.c.getD (s.stBit 0))
  refine ⟨?_, ?_, ?_, ?_, ?_, ?_, ?_, fun i hi => ?_⟩
  all_goals unfold State.setFlags; rw [State.stBit, withFlags_getLsbD]
  · exact h0
  · exact h1
  · exact h2
  · exact h3
  · exact h4
  · exact h5
  · exact h6
  · rw [if_neg (by omega)]; rfl

theorem flagMask_bits (f : FlagRes) :
    (flagMask f).getLsbD 0 = f.c.isSome ∧ (flagMask f).getLsbD 1 = true ∧ (flagMask f).getLsbD 2 = true ∧
    (flagMask f).getLsbD 3 = true ∧ (flagMask f).getLsbD 4 = true ∧ (flagMask f).getLsbD 5 = f.v ∧
    (flagMask f).getLsbD 6 = f.uf := by
  unfold flagMask
  cases f.c.isSome <;> cases f.v <;> cases f.uf <;> decide

theorem setFlags_mask (s : State) (f : FlagRes) :
    (s.setFlags f).st &&& ~~~flagMask f = s.st &&& ~~~flagMask f := by
  obtain ⟨b0, b1, b2, b3, b4, b5, b6, b7⟩ := setFlags_bits s f
  obtain ⟨m0, m1, m2, m3, m4, m5, m6⟩ := flagMask_bits f
  apply BitVec.eq_of_getLsbD_eq
  intro i hi
  simp only [BitVec.getLsbD_and, BitVec.getLsbD_not]
  simp only [State.stBit] at b0 b1 b2 b3 b4 b5 b6 b7
  by_cases h7 : 7 ≤ i
  · rw [b7 i h7]
  · have : i = 0 ∨ i = 1 ∨ i = 2 ∨ i = 3 ∨ i = 4 ∨ i = 5 ∨ i = 6 := by omega
    rcases this with rfl | rfl | rfl | rfl | rfl | rfl | rfl
    · rw [b0, m0]; cases f.c <;> simp
    · rw [m1]; simp
    · rw [m2]; simp
    · rw [m3]; simp
    · rw [m4]; simp
    · rw [b5, m5]; cases f.v <;> simp
    · rw [b6, m6]; cases f.uf <;> simp

theorem State.keeps_setFlags (s : State) (f : FlagRes) (a w : List Word) :
    s.Keeps (s.setFlags f) [] (flagMask f) a w :=
  s.keeps_st _ _ (setFlags_mask s f) a w

theorem State.quiet_setFlags (s : State) (f : FlagRes) : s.Quiet (s.setFlags f) := ⟨rfl, rfl, rfl, rfl, rfl, rfl⟩

theorem State.keeps_withFlags (s : State) (f : BitVec 7) (a w : List Word) :
    s.Keeps (s.withFlags f) [] 0x7F a w := by
  refine s.keeps_st _ _ ?_ a w
  apply BitVec.eq_of_getLsbD_eq
  intro i hi
  have e := withFlags_getLsbD s f i
  simp only [State.withFlags_st] at e
  simp only [BitVec.getLsbD_and, BitVec.getLsbD_not, e]
  by_cases h : i < 7
  · have : i = 0 ∨ i = 1 ∨ i = 2 ∨ i = 3 ∨ i = 4 ∨ i = 5 ∨ i = 6 := by omega
    rcases this with rfl | rfl | rfl | rfl | rfl | rfl | rfl <;> simp
  · rw [if_neg h]

/-- The gate of R47 depends on ST alone. -/
theorem flagsOn_congr {s t : State} (h : t.st = s.st) (d : Reg) : t.flagsOn d = s.flagsOn d := by
  cases d <;> simp only [State.flagsOn, State.stBit, h]

theorem State.keeps_putI (s : State) (d : Reg) (v : Word) (f : FlagRes) (a w : List Word) :
    s.Keeps (s.putI d v f) [d] (if s.flagsOn d then flagMask f else 0) a w := by
  unfold State.putI
  split
  · rename_i h
    exact ((s.keeps_wrI d v _ a w).trans ((s.wrI d v).keeps_setFlags f a w)).mono (by simp) (by simp) (by simp) (by simp)
  · exact s.keeps_wrI d v _ a w

theorem State.quiet_putI (s : State) (d : Reg) (v : Word) (f : FlagRes) : s.Quiet (s.putI d v f) := by
  unfold State.putI
  split
  · exact (s.quiet_wrI d v).trans (State.quiet_setFlags _ f)
  · exact s.quiet_wrI d v

theorem State.keeps_putF (s : State) (n : Fin 12) (v : Ext) (f : FlagRes) (a w : List Word) :
    s.Keeps (s.putF n v f) [.r n] (flagMask f) a w :=
  ((s.keeps_wrF n v _ a w).trans ((s.wrF n v).keeps_setFlags f a w)).mono (by simp) (by simp) (by simp) (by simp)

theorem State.quiet_putF (s : State) (n : Fin 12) (v : Ext) (f : FlagRes) : s.Quiet (s.putF n v f) :=
  (s.quiet_wrF n v).trans (State.quiet_setFlags _ f)

/-- A mask that holds every bit a flag result can change. -/
theorem flagMask_sub {f : FlagRes} {m : BitVec 16} (h : 0x1E#16 ||| m = m) (hc : f.c = none ∨ 1#16 ||| m = m)
    (hv : f.v = false ∨ 0x20#16 ||| m = m) (hu : f.uf = false ∨ 0x40#16 ||| m = m) : flagMask f ||| m = m := by
  have hc' : (if f.c.isSome then 1#16 else 0#16) ||| m = m := by
    rcases hc with hc | hc
    · simp [hc]
    · split <;> simp [hc]
  have hv' : (if f.v then 0x20#16 else 0#16) ||| m = m := by
    rcases hv with hv | hv
    · simp [hv]
    · split <;> simp [hv]
  have hu' : (if f.uf then 0x40#16 else 0#16) ||| m = m := by
    rcases hu with hu | hu
    · simp [hu]
    · split <;> simp [hu]
  unfold flagMask
  rw [BitVec.or_assoc, hu', BitVec.or_assoc, hv', BitVec.or_assoc, hc', h]

/-- The frame of an integer result behind the gate of R47. -/
theorem putI_frame {s t : State} {d : Reg} {v : Word} {f : FlagRes} {m : BitVec 16} (hst : t.st = s.st)
    (hm : flagMask f ||| m = m) :
    t.Keeps (t.putI d v f) [d] (if s.flagsOn d then m else 0) [] [] ∧ t.Quiet (t.putI d v f) := by
  refine ⟨(t.keeps_putI d v f [] []).mono (fun _ h => h) ?_ (fun _ h => h) (fun _ h => h), t.quiet_putI d v f⟩
  rw [flagsOn_congr hst]
  split
  · exact hm
  · simp

/-- The frame of a floating-point result. -/
theorem putF_frame {t : State} {d : Fin 12} {v : Ext} {f : FlagRes} {m : BitVec 16} (hm : flagMask f ||| m = m) :
    t.Keeps (t.putF d v f) [.r d] m [] [] ∧ t.Quiet (t.putF d v f) :=
  ⟨(t.keeps_putF d v f [] []).mono (fun _ h => h) hm (fun _ h => h) (fun _ h => h), t.quiet_putF d v f⟩

/-- The frame of a flag result. -/
theorem setFlags_frame {t : State} {f : FlagRes} {m : BitVec 16} (hm : flagMask f ||| m = m) :
    t.Keeps (t.setFlags f) [] m [] [] ∧ t.Quiet (t.setFlags f) :=
  ⟨(t.keeps_setFlags f [] []).mono (fun _ h => h) hm (fun _ h => h) (fun _ h => h), t.quiet_setFlags f⟩

/-! ## Stores -/

theorem store_keeps {a v : Word} {s t : State} (h : store a v s = .ok () t) (r : List Reg) (f : BitVec 16)
    (b : List Word) : s.Keeps t r f b [a] ∧ s.Quiet t := by
  unfold store at h
  split at h
  · cases h; exact ⟨State.Keeps.refl _ _ _ _ _, State.Quiet.refl _⟩
  · exact ⟨memWrite_keeps h _ _ _, memWrite_quiet h⟩

theorem dataWrite_latch {a v : Word} {s : State} {l : Option Latch} (h : dataWrite a v s = .stall l)
    (hn : region s.romen a ≠ .periph) : l = none := by
  cases l with
  | none => rfl
  | some l => exact absurd (memWrite_stall h).2 hn

theorem store_latch {a v : Word} {s : State} {l : Option Latch} (h : store a v s = .stall l)
    (hn : region s.romen a ≠ .periph) : l = none := by
  unfold store at h
  split at h
  · cases h
  · exact dataWrite_latch h hn

theorem ReadBy.romen {s t : State} {m : List Reg} {a : List Word} (h : ReadBy s t m a) : t.romen = s.romen :=
  h.fields.2.2.2.2.1

/-- Two open stores at one address change the word there and the counter of free values alone. -/
theorem storeOpen_keeps {a : Word} {s t : State} (h : storeOpen a s = .ok () t) (r : List Reg) (f : BitVec 16)
    (b : List Word) : s.Keeps t r f b [a] ∧ s.Quiet t := by
  obtain ⟨_, u, h1, h2⟩ := Res.bind_eq_ok h
  have k := store_keeps h1 r f b
  have k' := store_keeps h2 r f b
  have e : ∀ d : Reg, (drawWord (drawWord s).2).2.rdI d = s.rdI d := fun d => by cases d <;> rfl
  have d : s.Keeps (drawWord (drawWord s).2).2 r f b [a] :=
    { State.Keeps.refl s r f b [a] with reg := fun d _ _ _ => e d }
  have q : s.Quiet (drawWord (drawWord s).2).2 := ⟨rfl, rfl, rfl, rfl, rfl, rfl⟩
  exact ⟨((d.trans k.1).trans k'.1).mono (by simp) (by simp) (by simp) (by simp), (q.trans k.2).trans k'.2⟩

theorem storeOpen_latch {a : Word} {s : State} {l : Option Latch} (h : storeOpen a s = .stall l)
    (hn : region s.romen a ≠ .periph) : l = none := by
  rcases Res.bind_eq_stall h with h | ⟨_, u, h1, h2⟩
  · exact store_latch h hn
  · exact store_latch h2 (by rw [(store_keeps h1 [] 0 []).1.inputs.2.2.2.2.2.1]; exact hn)

/-! ## Whole instructions -/

/-- The frame of an instruction that reads its operands and has an execute phase. -/
theorem execute_keeps {α : Type} {s u : State} {src : Res α} {g : α → State → State} {m r : List Reg}
    {fl : BitVec 16} {a : List Word} (h : execute s src g = .next u)
    (hr : ∀ v t, src = .ok v t → ReadBy s t m a) (hw : Waits src)
    (hg : ∀ v t, src = .ok v t → ReadBy s t m a → t.Keeps (g v t) r fl [] [] ∧ t.Quiet (g v t)) :
    s.Keeps u (r ++ m) fl a [] ∧ s.Quiet u := by
  rcases execute_next h with ⟨v, t, h1, rfl⟩ | ⟨l, h1, rfl⟩
  · have rb := hr v t h1
    obtain ⟨k, q⟩ := hg v t h1 rb
    have ke : t.Keeps (t.exe (g v)) r fl [] [] := by
      unfold State.exe
      split
      · exact State.Keeps.refl _ _ _ _ _
      · exact k
    have qe : t.Quiet (t.exe (g v)) := by
      unfold State.exe
      split
      · exact State.Quiet.refl _
      · exact q
    exact ⟨(((rb.keeps fl []).trans ke).mono (by simp) (by simp) (by simp) (by simp)).after, (rb.quiet.trans qe).after⟩
  · exact ⟨s.keeps_waiting l _ _ _ _ fun _ => hw l h1, s.quiet_waiting l⟩

theorem finish_keeps {s u : State} {r : Res Unit} {m : List Reg} {fl : BitVec 16} {a w : List Word}
    (h : finish s r = .next u) (hk : ∀ t, r = .ok () t → s.Keeps t m fl a w)
    (hw : ∀ l, r = .stall l → s.offPeriph w → l = none) : s.Keeps u m fl a w := by
  rcases finish_next h with ⟨t, h1, rfl⟩ | ⟨l, h1, rfl⟩
  · exact (hk t h1).settled
  · exact s.keeps_waiting l _ _ _ _ (hw l h1)

theorem sequential_keeps {s u : State} {r : Res Unit} {m : List Reg} {fl : BitVec 16} {a w : List Word}
    (h : sequential s r = .next u) (hk : ∀ t, r = .ok () t → s.Keeps t m fl a w)
    (hw : ∀ l, r = .stall l → s.offPeriph w → l = none) : s.Keeps u m fl a w := by
  rcases sequential_next h with ⟨t, h1, rfl⟩ | ⟨l, h1, rfl⟩
  · exact (hk t h1).after
  · exact s.keeps_waiting l _ _ _ _ (hw l h1)

theorem sequential_quiet {s u : State} {r : Res Unit} (h : sequential s r = .next u)
    (hk : ∀ t, r = .ok () t → s.Quiet t) : s.Quiet u := by
  rcases sequential_next h with ⟨t, h1, rfl⟩ | ⟨l, h1, rfl⟩
  · exact (hk t h1).after
  · exact s.quiet_waiting l

end Sys2Proof.Machine
end

