-- ==== Sys2Proof/Laws/Status.lean ====
section
/-! SUPPORT. The bits of ST and IIF after single bits are set, and what taking an exception and returning from one do
to ST. -/

namespace Sys2Proof.Machine

theorem one_bit {n : Nat} (i j : Nat) (h : i < n) : (1#n <<< i).getLsbD j = decide (j = i) := by
  rw [BitVec.getLsbD_shiftLeft, BitVec.getLsbD_one]
  by_cases hj : j = i
  · subst hj; simp [h]; omega
  · have : ¬ (i ≤ j ∧ j - i = 0) := by omega
    simp [hj]; omega

theorem setSt_getLsbD (s : State) (i j : Nat) (b : Bool) (h : i < 16) :
    (s.setSt i b).st.getLsbD j = if j = i then b else s.st.getLsbD j := by
  unfold State.setSt
  by_cases hj : j = i
  · subst hj
    cases b <;> simp only [Bool.false_eq_true, if_false, if_true, BitVec.getLsbD_or, BitVec.getLsbD_and,
      BitVec.getLsbD_not, one_bit _ _ h, decide_true, Bool.not_true, Bool.and_false, Bool.or_true]
  · by_cases hw : j < 16
    · cases b <;> simp only [Bool.false_eq_true, if_false, if_true, BitVec.getLsbD_or, BitVec.getLsbD_and,
        BitVec.getLsbD_not, one_bit _ _ h, hj, hw, decide_true, decide_false, Bool.not_false, Bool.and_true,
        Bool.or_false]
    · rw [if_neg hj, BitVec.getLsbD_of_ge _ j (by omega), BitVec.getLsbD_of_ge s.st j (by omega)]

theorem setBit_getLsbD (w : Word) (i j : Nat) (b : Bool) (h : i < 32) :
    (setBit w i b).getLsbD j = if j = i then b else w.getLsbD j := by
  unfold setBit
  by_cases hj : j = i
  · subst hj
    cases b <;> simp only [Bool.false_eq_true, if_false, if_true, BitVec.getLsbD_or, BitVec.getLsbD_and,
      BitVec.getLsbD_not, one_bit _ _ h, decide_true, Bool.not_true, Bool.and_false, Bool.or_true]
  · by_cases hw : j < 32
    · cases b <;> simp only [Bool.false_eq_true, if_false, if_true, BitVec.getLsbD_or, BitVec.getLsbD_and,
        BitVec.getLsbD_not, one_bit _ _ h, hj, hw, decide_true, decide_false, Bool.not_false, Bool.and_true,
        Bool.or_false]
    · rw [if_neg hj, BitVec.getLsbD_of_ge _ j (by omega), BitVec.getLsbD_of_ge w j (by omega)]

theorem if_bit {n : Nat} (c : Bool) (x : BitVec n) (j : Nat) :
    (if c = true then x else 0#n).getLsbD j = (c && x.getLsbD j) := by cases c <;> simp

theorem enteredStatus_getLsbD (v : BitVec 16) (j : Nat) : (enteredStatus v).getLsbD j =
    if j = 10 then true else if j = 13 then false else if j = 14 then v.getLsbD 13
      else if j = 9 then v.getLsbD 10 else v.getLsbD j := by
  by_cases h : j < 16
  · unfold enteredStatus
    simp only [BitVec.getLsbD_or, BitVec.getLsbD_and, if_bit, BitVec.ofNat_eq_ofNat]
    interval_cases j <;> simp
  · rw [BitVec.getLsbD_of_ge _ _ (by omega), BitVec.getLsbD_of_ge v j (by omega)]
    have : j ≠ 10 ∧ j ≠ 13 ∧ j ≠ 14 ∧ j ≠ 9 := by omega
    simp [this]

theorem returnedStatus_getLsbD (v : BitVec 16) (j : Nat) : (returnedStatus v).getLsbD j =
    if j = 10 then v.getLsbD 9 else if j = 13 then v.getLsbD 14 else v.getLsbD j := by
  by_cases h : j < 16
  · unfold returnedStatus
    simp only [BitVec.getLsbD_or, BitVec.getLsbD_and, if_bit, BitVec.ofNat_eq_ofNat]
    interval_cases j <;> simp
  · rw [BitVec.getLsbD_of_ge _ _ (by omega), BitVec.getLsbD_of_ge v j (by omega)]
    have : j ≠ 10 ∧ j ≠ 13 := by omega
    simp [this]

theorem setSt_eq (s : State) (i : Nat) (b : Bool) : s.setSt i b = { s with st := (s.setSt i b).st } := rfl

/-- Taking an exception changes ST alone (R730). -/
theorem saveStatus_eq (s : State) : s.saveStatus = { s with st := enteredStatus s.st } := by
  have h : s.saveStatus.st = enteredStatus s.st := by
    apply BitVec.eq_of_getLsbD_eq
    intro j hj
    rw [enteredStatus_getLsbD]
    unfold State.saveStatus
    rw [setSt_getLsbD _ _ _ _ (by decide), setSt_getLsbD _ _ _ _ (by decide), setSt_getLsbD _ _ _ _ (by decide),
      setSt_getLsbD _ _ _ _ (by decide)]
    by_cases h10 : j = 10
    · simp [h10]
    · by_cases h13 : j = 13
      · simp [h13]
      · by_cases h14 : j = 14
        · subst h14; simp [State.stBit]
        · by_cases h9 : j = 9
          · subst h9; simp [State.stBit]
          · simp [h10, h13, h14, h9]
  rw [← h]
  simp [State.saveStatus, State.setSt]

/-- Returning from an exception changes ST alone (R520). -/
theorem restoreStatus_eq (s : State) : s.restoreStatus = { s with st := returnedStatus s.st } := by
  have h : s.restoreStatus.st = returnedStatus s.st := by
    apply BitVec.eq_of_getLsbD_eq
    intro j hj
    rw [returnedStatus_getLsbD]
    unfold State.restoreStatus
    rw [setSt_getLsbD _ _ _ _ (by decide), setSt_getLsbD _ _ _ _ (by decide)]
    by_cases h10 : j = 10
    · subst h10; simp [State.stBit]
    · by_cases h13 : j = 13
      · subst h13; simp [State.stBit]
      · simp [h10, h13]
  rw [← h]
  simp [State.restoreStatus, State.setSt]

end Sys2Proof.Machine
end

