-- ==== Sys2Proof/Laws/Boundary.lean ====
section
/-! SUPPORT. What the parts of a boundary change. -/

namespace Sys2Proof.Machine

theorem clearFlag_state (s : State) (b : Option Nat) : ∃ i, s.clearFlag b = { s with iif := i } := by
  cases b with
  | none => exact ⟨s.iif, rfl⟩
  | some n => exact ⟨_, rfl⟩

theorem latchChannel_state (now s : State) (c : Fin 6) :
    ∃ d i, latchChannel now s c = { s with dma := d, iif := i } := by
  unfold latchChannel
  dsimp only
  split <;> split <;> first
    | exact ⟨_, _, rfl⟩
    | (obtain ⟨i, e⟩ := clearFlag_state (s.setDma c _) _; rw [e]; exact ⟨_, _, rfl⟩)
    | (obtain ⟨i, e⟩ := clearFlag_state (s.setDma c _) _; rw [e]
       obtain ⟨i', e'⟩ := clearFlag_state { s.setDma c _ with iif := i } _; rw [e']; exact ⟨_, _, rfl⟩)

/-- A cleared flag: that bit of IIF is 0, every other as it was. -/
theorem clearFlag_iif (s : State) (b : Option Nat) (hb : ∀ k, b = some k → k < 32) (j : Nat) :
    (s.clearFlag b).iif.getLsbD j = (s.iif.getLsbD j && !decide (b = some j)) := by
  cases b with
  | none => simp [State.clearFlag]
  | some i =>
    simp only [State.clearFlag, State.setIif]
    rw [setBit_getLsbD _ _ _ _ (hb i rfl)]
    by_cases h : j = i
    · subst h; simp
    · have : ¬ i = j := fun e => h e.symm
      simp [h, this]

/-- A latched signal has its flag in IIF (R801). -/
theorem signalLatch_lt {s : State} {g : Signal} {k : Nat} (h : s.signalLatch g = some k) : k < 32 := by
  cases g with
  | none => cases h
  | icrdy => cases h
  | ocrdy => cases h
  | iiof x =>
    simp only [State.signalLatch] at h
    split at h
    · cases h
    · have := x.isLt; simp at h; omega
  | tim t => simp only [State.signalLatch, Option.some.injEq, tintBit] at h; split at h <;> omega

/-- What one channel latches, and the flags of IIF that it consumes (R801). -/
theorem latchChannel_eq (now s : State) (c : Fin 6) :
    let gotR := now.dma[c].waitsRead && now.signalOn (readSignal now.die c)
    let gotW := now.dma[c].waitsWrite && now.signalOn (writeSignal now.die c)
    ∃ i, latchChannel now s c = { s with
        iif := i
        dma := s.dma.set c { s.dma[c] with rl := now.dma[c].rl || gotR, wl := now.dma[c].wl || gotW } } ∧
      ∀ j, i.getLsbD j = (s.iif.getLsbD j &&
        !(gotR && decide (now.signalLatch (readSignal now.die c) = some j) ||
          gotW && decide (now.signalLatch (writeSignal now.die c) = some j))) := by
  intro gotR gotW
  let t := s.setDma c { s.dma[c] with rl := now.dma[c].rl || gotR, wl := now.dma[c].wl || gotW }
  have hi : t.iif = s.iif := rfl
  have clear : ∀ (u : State) (b : Option Nat), (∃ i, u = { t with iif := i }) → ∃ i, u.clearFlag b = { t with iif := i } := by
    rintro u b ⟨i, rfl⟩
    exact clearFlag_state { t with iif := i } b
  have key : latchChannel now s c =
      (let u := if gotR then t.clearFlag (now.signalLatch (readSignal now.die c)) else t
       if gotW then u.clearFlag (now.signalLatch (writeSignal now.die c)) else u) := rfl
  have shape : ∃ i, latchChannel now s c = { t with iif := i } := by
    rw [key]
    have h0 : ∃ i, t = { t with iif := i } := ⟨s.iif, rfl⟩
    cases gotR <;> cases gotW
    · exact h0
    · exact clear _ _ h0
    · exact clear _ _ h0
    · exact clear _ _ (clear _ _ h0)
  obtain ⟨i, e⟩ := shape
  refine ⟨i, e, fun j => ?_⟩
  have hij : i.getLsbD j = (latchChannel now s c).iif.getLsbD j := by rw [e]
  rw [hij, key]
  have hr : ∀ k, now.signalLatch (readSignal now.die c) = some k → k < 32 := fun _ h => signalLatch_lt h
  have hw : ∀ k, now.signalLatch (writeSignal now.die c) = some k → k < 32 := fun _ h => signalLatch_lt h
  cases gotR <;> cases gotW <;>
    simp only [clearFlag_iif _ _ hr, clearFlag_iif _ _ hw, hi, if_true, if_false, Bool.false_eq_true, Bool.false_and,
      Bool.true_and, Bool.or_false, Bool.false_or, Bool.not_or, Bool.and_assoc, Bool.not_false, Bool.and_true]

/-- The DMA latches at a boundary change the channels and the flags of IIF alone (R735). -/
theorem latchDma_state (s : State) : ∃ d i, latchDma s = { s with dma := d, iif := i } := by
  have h : ∀ (l : List (Fin 6)) (u : State), (∃ d i, u = { s with dma := d, iif := i }) →
      ∃ d i, l.foldl (latchChannel s) u = { s with dma := d, iif := i } := by
    intro l
    induction l with
    | nil => exact fun u hu => hu
    | cons c l ih =>
      intro u hu
      apply ih
      obtain ⟨d, i, rfl⟩ := hu
      obtain ⟨d', i', e⟩ := latchChannel_state s { s with dma := d, iif := i } c
      exact ⟨d', i', e⟩
  exact h _ s ⟨s.dma, s.iif, rfl⟩

/-- A boundary without events: the CPU's choice on the state as it stands. -/
theorem atBoundary_quiet {s : State} {l : List Boundary} (h : s.script = { events := [], defer := false } :: l) :
    atBoundary s =
      match (if s.irqBlocked then none else s.irqChoice) with
      | some k => (takeInterrupt k (s.irqLatch k) (latchDma s.opened)).bind fun _ u => .ok true u
      | none =>
        match s.boot with
        | some p => (agentStep (bootStep p (latchDma s.opened)) (latchDma s.opened)).bind fun _ u => .ok true u
        | none => if s.idle then .ok true (latchDma s.opened) else .ok false (latchDma s.opened).cpuStart := by
  obtain ⟨d, i, e⟩ := latchDma_state s.opened
  have hb : (latchDma s.opened).boot = s.boot := by rw [e]; rfl
  have hi : (latchDma s.opened).idle = s.idle := by rw [e]; rfl
  unfold atBoundary
  rw [show s.boundary = { events := [], defer := false } by rw [State.boundary, h]; rfl]
  simp only [applyEvents, Res.bind_ok, Bool.or_false]
  rw [hb, hi]
  rfl

/-! ## When a synchronised FIFO access is held (R801) -/

theorem region_periph {s : State} {a : Word} (h : 0x100000 ≤ a.toNat ∧ a.toNat < 0x100100) :
    region s.romen a = .periph := by
  unfold region
  simp only []
  split
  · omega
  · split
    · omega
    · rw [if_pos h.2]

theorem portAddr_range (x : Fin 6) :
    (0x100000 ≤ (portInAddr x).toNat ∧ (portInAddr x).toNat < 0x100100) ∧
    (0x100000 ≤ (portOutAddr x).toNat ∧ (portOutAddr x).toNat < 0x100100) := by
  revert x; decide

theorem portInAddr_inj {x y : Fin 6} (h : portInAddr x = portInAddr y) : x = y := by revert x y; decide

theorem portOutAddr_inj {x y : Fin 6} (h : portOutAddr x = portOutAddr y) : x = y := by revert x y; decide

theorem ram_ne_periph {s : State} {a b : Word} (h : region s.romen a = .ram0 ∨ region s.romen a = .ram1)
    (hb : region s.romen b = .periph) : a ≠ b := by
  rintro rfl; rw [hb] at h; simp at h

@[simp] theorem readHeld_unsynced (c : Fin 6) (a : Word) (s : State) : readHeld false c a s = false := by
  simp [readHeld]

@[simp] theorem writeHeld_unsynced (c : Fin 6) (a : Word) (s : State) : writeHeld false c a s = false := by
  simp [writeHeld]

theorem readHeld_ram {s : State} {a : Word} (sync : Bool) (c : Fin 6)
    (h : region s.romen a = .ram0 ∨ region s.romen a = .ram1) : readHeld sync c a s = false := by
  have (x : Fin 6) : (a == portInAddr x) = false := by
    simpa using ram_ne_periph h (region_periph (portAddr_range x).1)
  simp [readHeld, this]

theorem writeHeld_ram {s : State} {a : Word} (sync : Bool) (c : Fin 6)
    (h : region s.romen a = .ram0 ∨ region s.romen a = .ram1) : writeHeld sync c a s = false := by
  have (x : Fin 6) : (a == portOutAddr x) = false := by
    simpa using ram_ne_periph h (region_periph (portAddr_range x).2)
  simp [writeHeld, this]

/-- A read of an input port register is held where ICRDY synchronises it and the FIFO is empty, and only there. -/
theorem readHeld_port (sync : Bool) (c x : Fin 6) (s : State) :
    readHeld sync c (portInAddr x) s = (sync && (readSignal s.die c).isIcrdy && !s.ports[x].icrdy) := by
  have h : ([0, 1, 2, 3, 4, 5] : List (Fin 6)).any (fun y => portInAddr x == portInAddr y && !s.ports[y].icrdy) =
      !s.ports[x].icrdy := by
    rw [Bool.eq_iff_iff, List.any_eq_true]
    constructor
    · rintro ⟨y, -, hy⟩
      simp only [Bool.and_eq_true, beq_iff_eq] at hy
      rw [portInAddr_inj hy.1]; exact hy.2
    · exact fun h => ⟨x, by clear h; revert x; decide, by simpa using h⟩
  simp only [readHeld, h]

/-- A write to an output port register is held where OCRDY synchronises it, the FIFO is full and its word has not
been in the latch, and only there. -/
theorem writeHeld_port (sync : Bool) (c x : Fin 6) (s : State) :
    writeHeld sync c (portOutAddr x) s =
      (sync && (writeSignal s.die c).isOcrdy && !s.latch.has (.primary c) && !s.ports[x].ocrdy) := by
  have h : ([0, 1, 2, 3, 4, 5] : List (Fin 6)).any (fun y => portOutAddr x == portOutAddr y && !s.ports[y].ocrdy) =
      !s.ports[x].ocrdy := by
    rw [Bool.eq_iff_iff, List.any_eq_true]
    constructor
    · rintro ⟨y, -, hy⟩
      simp only [Bool.and_eq_true, beq_iff_eq] at hy
      rw [portOutAddr_inj hy.1]; exact hy.2
    · exact fun h => ⟨x, by clear h; revert x; decide, by simpa using h⟩
  simp only [writeHeld, h]

end Sys2Proof.Machine
end

