-- ==== Sys2Proof/Laws/Encoding.lean ====
section
/-! SUPPORT. What the field readers of the decoder give on the words that the encoder builds, and that each field's
reader undoes its writer (30_encoding.md). -/

namespace Sys2Proof.Laws

theorem extract_high {n m : Nat} (a : BitVec n) (b : BitVec m) (lo len : Nat) (h : m ≤ lo) :
    (a ++ b).extractLsb' lo len = a.extractLsb' (lo - m) len := by
  ext i hi
  have h1 : ¬ lo + i < m := by omega
  have h2 : lo + i - m = lo - m + i := by omega
  simp [BitVec.getLsbD_append, h1, h2]

theorem extract_low {n m : Nat} (a : BitVec n) (b : BitVec m) (lo len : Nat) (h : lo + len ≤ m) :
    (a ++ b).extractLsb' lo len = b.extractLsb' lo len := by
  ext i hi
  have h1 : lo + i < m := by omega
  simp [BitVec.getLsbD_append, h1]

theorem extract_all {m : Nat} (b : BitVec m) : b.extractLsb' 0 m = b := by
  ext i hi
  simp

theorem extract_extract {n : Nat} (b : BitVec n) (lo len lo' len' : Nat) (h : lo' + len' ≤ len) :
    (b.extractLsb' lo len).extractLsb' lo' len' = b.extractLsb' (lo + lo') len' := by
  ext i hi
  have h1 : lo' + i < len := by omega
  simp [h1, Nat.add_assoc]

/-! ## Codes and fields -/

theorem regOf_code (r : Reg) : regOf r.code = r := by
  cases r with
  | r n => revert n; decide
  | ar n => revert n; decide
  | _ => rfl

theorem regOf_extCode (n : Fin 12) : regOf (extCode n) = .r n := regOf_code (.r n)

theorem extOf_code (n : Fin 12) : extOf (extCode n) = .ok n := by
  unfold extOf
  rw [regOf_extCode]

theorem condOf_code (c : Cond) : condOf c.code = .ok c := by cases c <;> rfl

theorem xregOf_code (x : XReg) : xregOf x.code = .ok x := by cases x <;> rfl

theorem arBits_toFin (n : Fin 8) : (arBits n).toFin = n := rfl

theorem Index.of_hi_field (x : Index) : indexOf x.hi x.field = some x := by cases x <;> rfl

theorem Index.of_hi_one (x : Index) (h : x.implied = true) : indexOf x.hi 1#8 = some x := by
  cases x with
  | disp d => simp [Index.implied] at h; subst h; rfl
  | ir0 => rfl
  | ir1 => rfl

/-! ## Indirect fields -/

theorem mod_hi : ∀ (h : BitVec 2) (k : BitVec 1) (m s : Bool),
    (h ++ k ++ BitVec.ofBool m ++ BitVec.ofBool s).extractLsb' 3 2 = h := by decide

theorem mod_kind : ∀ (h : BitVec 2) (k : BitVec 1) (m s : Bool),
    (h ++ k ++ BitVec.ofBool m ++ BitVec.ofBool s).getLsbD 2 = k.getLsbD 0 := by decide

theorem mod_bit1 : ∀ (h : BitVec 2) (k : BitVec 1) (m s : Bool),
    (h ++ k ++ BitVec.ofBool m ++ BitVec.ofBool s).getLsbD 1 = m := by decide

theorem mod_bit0 : ∀ (h : BitVec 2) (k : BitVec 1) (m s : Bool),
    (h ++ k ++ BitVec.ofBool m ++ BitVec.ofBool s).getLsbD 0 = s := by decide

theorem indOf_pre (s m : Bool) (x : Index) (n : Fin 8) (d : BitVec 8) (h : indexOf x.hi d = some x) :
    indOf (x.hi ++ 0#1 ++ BitVec.ofBool m ++ BitVec.ofBool s) (arBits n) d = .ok (.pre s m x n) := by
  unfold indOf
  rw [mod_hi, h, mod_kind, mod_bit1, mod_bit0]
  rfl

theorem indOf_post (s c : Bool) (x : Index) (n : Fin 8) (d : BitVec 8) (h : indexOf x.hi d = some x) :
    indOf (x.hi ++ 1#1 ++ BitVec.ofBool c ++ BitVec.ofBool s) (arBits n) d = .ok (.post s c x n) := by
  unfold indOf
  rw [mod_hi, h, mod_kind, mod_bit1, mod_bit0]
  rfl

theorem indOf_plain (n : BitVec 3) (d : BitVec 8) : indOf 24#5 n d = .ok (.plain n.toFin) := by
  have a : (24#5 : BitVec 5).extractLsb' 3 2 = 3#2 := by decide
  have b : (24#5 : BitVec 5).extractLsb' 0 3 = 0#3 := by decide
  unfold indOf
  rw [a, b]
  rfl

theorem indOf_bitRev (n : BitVec 3) (d : BitVec 8) : indOf 25#5 n d = .ok (.bitRev n.toFin) := by
  have a : (25#5 : BitVec 5).extractLsb' 3 2 = 3#2 := by decide
  have b : (25#5 : BitVec 5).extractLsb' 0 3 = 1#3 := by decide
  unfold indOf
  rw [a, b]
  rfl

theorem ind16_field16 (i : Ind) : ind16 i.field16 = .ok i := by
  have a : i.field16.extractLsb' 11 5 = i.mod :=
    (extract_high _ _ _ _ (by decide)).trans <| (extract_high _ _ _ _ (by decide)).trans <| extract_all _
  have b : i.field16.extractLsb' 8 3 = arBits i.num :=
    (extract_high _ _ _ _ (by decide)).trans <| (extract_low _ _ _ _ (by decide)).trans <| extract_all _
  have c : i.field16.extractLsb' 0 8 = i.disp := (extract_low _ _ _ _ (by decide)).trans <| extract_all _
  unfold ind16
  rw [a, b, c]
  cases i with
  | pre s m x n => exact indOf_pre s m x n _ (Index.of_hi_field x)
  | post s k x n => exact indOf_post s k x n _ (Index.of_hi_field x)
  | plain n => exact indOf_plain _ _
  | bitRev n => exact indOf_bitRev _ _

theorem ind8_field8 (i : Ind) (h : i.wf8 = true) : ind8 i.field8 = .ok i := by
  have a : i.field8.extractLsb' 3 5 = i.mod := (extract_high _ _ _ _ (by decide)).trans <| extract_all _
  have b : i.field8.extractLsb' 0 3 = arBits i.num := (extract_low _ _ _ _ (by decide)).trans <| extract_all _
  unfold ind8
  rw [a, b]
  cases i with
  | pre s m x n => exact indOf_pre s m x n _ (Index.of_hi_one x h)
  | post s k x n => exact indOf_post s k x n _ (Index.of_hi_one x h)
  | plain n => exact indOf_plain _ _
  | bitRev n => exact indOf_bitRev _ _

theorem disp5_field (d : Disp5) : disp5 d.field = d := by
  have a : d.field.extractLsb' 3 5 = d.disp := (extract_high _ _ _ _ (by decide)).trans <| extract_all _
  have b : d.field.extractLsb' 0 3 = arBits d.n := (extract_low _ _ _ _ (by decide)).trans <| extract_all _
  unfold disp5
  rw [a, b]
  rfl

/-- The register code in the low bits of a field whose other bits are 0. -/
theorem low_code {n : Nat} (z : BitVec n) (c : BitVec 5) : (z ++ c).extractLsb' 0 5 = c :=
  (extract_low _ _ _ _ (by decide)).trans <| extract_all _

/-! ## The words -/

theorem wordG_top (hi : BitVec 9) (g : BitVec 2 × BitVec 16) (d : BitVec 5) : fld (wordG hi g d) 28 4 = (hi).extractLsb' 5 4 :=
  (extract_high _ _ _ _ (by decide)).trans <| (extract_high _ _ _ _ (by decide)).trans <| extract_high _ _ _ _ (by decide)

theorem wordG_op (hi : BitVec 9) (g : BitVec 2 × BitVec 16) (d : BitVec 5) : fld (wordG hi g d) 23 6 = (hi).extractLsb' 0 6 :=
  (extract_high _ _ _ _ (by decide)).trans <| (extract_high _ _ _ _ (by decide)).trans <| extract_high _ _ _ _ (by decide)

theorem wordG_g (hi : BitVec 9) (g : BitVec 2 × BitVec 16) (d : BitVec 5) : fld (wordG hi g d) 21 2 = g.1 :=
  (extract_high _ _ _ _ (by decide)).trans <| (extract_high _ _ _ _ (by decide)).trans <| (extract_low _ _ _ _ (by decide)).trans <| extract_all _

theorem wordG_dst (hi : BitVec 9) (g : BitVec 2 × BitVec 16) (d : BitVec 5) : fld (wordG hi g d) 16 5 = d :=
  (extract_high _ _ _ _ (by decide)).trans <| (extract_low _ _ _ _ (by decide)).trans <| extract_all _

theorem wordG_src (hi : BitVec 9) (g : BitVec 2 × BitVec 16) (d : BitVec 5) : fld (wordG hi g d) 0 16 = g.2 :=
  (extract_low _ _ _ _ (by decide)).trans <| extract_all _

theorem wordG_reg (hi : BitVec 9) (g : BitVec 2 × BitVec 16) (d : BitVec 5) : fld (wordG hi g d) 0 5 = (g.2).extractLsb' 0 5 :=
  extract_low _ _ _ _ (by decide)

theorem wordG_sel (hi : BitVec 9) (g : BitVec 2 × BitVec 16) (d : BitVec 5) : fld (wordG hi g d) 23 2 = (hi).extractLsb' 0 2 :=
  (extract_high _ _ _ _ (by decide)).trans <| (extract_high _ _ _ _ (by decide)).trans <| extract_high _ _ _ _ (by decide)

theorem wordG_bit (hi : BitVec 9) (g : BitVec 2 × BitVec 16) (d : BitVec 5) : fld (wordG hi g d) 23 1 = (hi).extractLsb' 0 1 :=
  (extract_high _ _ _ _ (by decide)).trans <| (extract_high _ _ _ _ (by decide)).trans <| extract_high _ _ _ _ (by decide)

theorem wordG_cond (hi : BitVec 9) (g : BitVec 2 × BitVec 16) (d : BitVec 5) : fld (wordG hi g d) 23 5 = (hi).extractLsb' 0 5 :=
  (extract_high _ _ _ _ (by decide)).trans <| (extract_high _ _ _ _ (by decide)).trans <| extract_high _ _ _ _ (by decide)

theorem wordG_mid (hi : BitVec 9) (g : BitVec 2 × BitVec 16) (d : BitVec 5) : fld (wordG hi g d) 24 4 = (hi).extractLsb' 1 4 :=
  (extract_high _ _ _ _ (by decide)).trans <| (extract_high _ _ _ _ (by decide)).trans <| extract_high _ _ _ _ (by decide)

theorem wordG_ctl (hi : BitVec 9) (g : BitVec 2 × BitVec 16) (d : BitVec 5) : fld (wordG hi g d) 26 2 = (hi).extractLsb' 3 2 :=
  (extract_high _ _ _ _ (by decide)).trans <| (extract_high _ _ _ _ (by decide)).trans <| extract_high _ _ _ _ (by decide)

theorem wordT_top (op : BitVec 5) (o : BitVec 1 × BitVec 2 × BitVec 8 × BitVec 8) (d : BitVec 5) : fld (wordT op o d) 29 3 = 1#3 :=
  (extract_high _ _ _ _ (by decide)).trans <| (extract_high _ _ _ _ (by decide)).trans <| (extract_high _ _ _ _ (by decide)).trans <| (extract_high _ _ _ _ (by decide)).trans <| (extract_high _ _ _ _ (by decide)).trans <| (extract_high _ _ _ _ (by decide)).trans <| extract_all _

theorem wordT_type (op : BitVec 5) (o : BitVec 1 × BitVec 2 × BitVec 8 × BitVec 8) (d : BitVec 5) : fld (wordT op o d) 28 1 = o.1 :=
  (extract_high _ _ _ _ (by decide)).trans <| (extract_high _ _ _ _ (by decide)).trans <| (extract_high _ _ _ _ (by decide)).trans <| (extract_high _ _ _ _ (by decide)).trans <| (extract_high _ _ _ _ (by decide)).trans <| (extract_low _ _ _ _ (by decide)).trans <| extract_all _

theorem wordT_op (op : BitVec 5) (o : BitVec 1 × BitVec 2 × BitVec 8 × BitVec 8) (d : BitVec 5) : fld (wordT op o d) 23 5 = op :=
  (extract_high _ _ _ _ (by decide)).trans <| (extract_high _ _ _ _ (by decide)).trans <| (extract_high _ _ _ _ (by decide)).trans <| (extract_high _ _ _ _ (by decide)).trans <| (extract_low _ _ _ _ (by decide)).trans <| extract_all _

theorem wordT_t (op : BitVec 5) (o : BitVec 1 × BitVec 2 × BitVec 8 × BitVec 8) (d : BitVec 5) : fld (wordT op o d) 21 2 = o.2.1 :=
  (extract_high _ _ _ _ (by decide)).trans <| (extract_high _ _ _ _ (by decide)).trans <| (extract_high _ _ _ _ (by decide)).trans <| (extract_low _ _ _ _ (by decide)).trans <| extract_all _

theorem wordT_dst (op : BitVec 5) (o : BitVec 1 × BitVec 2 × BitVec 8 × BitVec 8) (d : BitVec 5) : fld (wordT op o d) 16 5 = d :=
  (extract_high _ _ _ _ (by decide)).trans <| (extract_high _ _ _ _ (by decide)).trans <| (extract_low _ _ _ _ (by decide)).trans <| extract_all _

theorem wordT_src1 (op : BitVec 5) (o : BitVec 1 × BitVec 2 × BitVec 8 × BitVec 8) (d : BitVec 5) : fld (wordT op o d) 8 8 = o.2.2.1 :=
  (extract_high _ _ _ _ (by decide)).trans <| (extract_low _ _ _ _ (by decide)).trans <| extract_all _

theorem wordT_src2 (op : BitVec 5) (o : BitVec 1 × BitVec 2 × BitVec 8 × BitVec 8) (d : BitVec 5) : fld (wordT op o d) 0 8 = o.2.2.2 :=
  (extract_low _ _ _ _ (by decide)).trans <| extract_all _

theorem wordT_reg1 (op : BitVec 5) (o : BitVec 1 × BitVec 2 × BitVec 8 × BitVec 8) (d : BitVec 5) : fld (wordT op o d) 8 5 = (o.2.2.1).extractLsb' 0 5 :=
  (extract_high _ _ _ _ (by decide)).trans <| extract_low _ _ _ _ (by decide)

theorem wordT_reg2 (op : BitVec 5) (o : BitVec 1 × BitVec 2 × BitVec 8 × BitVec 8) (d : BitVec 5) : fld (wordT op o d) 0 5 = (o.2.2.2).extractLsb' 0 5 :=
  extract_low _ _ _ _ (by decide)

theorem wordB_top (hi : BitVec 6) (t : BTarget) (mid : BitVec 4) (c : Cond) : fld (wordB hi t mid c) 28 4 = (hi).extractLsb' 2 4 :=
  (extract_high _ _ _ _ (by decide)).trans <| (extract_high _ _ _ _ (by decide)).trans <| (extract_high _ _ _ _ (by decide)).trans <| extract_high _ _ _ _ (by decide)

theorem wordB_ctl (hi : BitVec 6) (t : BTarget) (mid : BitVec 4) (c : Cond) : fld (wordB hi t mid c) 26 2 = (hi).extractLsb' 0 2 :=
  (extract_high _ _ _ _ (by decide)).trans <| (extract_high _ _ _ _ (by decide)).trans <| (extract_high _ _ _ _ (by decide)).trans <| extract_high _ _ _ _ (by decide)

theorem wordB_b (hi : BitVec 6) (t : BTarget) (mid : BitVec 4) (c : Cond) : fld (wordB hi t mid c) 25 1 = t.enc.1 :=
  (extract_high _ _ _ _ (by decide)).trans <| (extract_high _ _ _ _ (by decide)).trans <| (extract_high _ _ _ _ (by decide)).trans <| (extract_low _ _ _ _ (by decide)).trans <| extract_all _

theorem wordB_mid (hi : BitVec 6) (t : BTarget) (mid : BitVec 4) (c : Cond) : fld (wordB hi t mid c) 21 4 = mid :=
  (extract_high _ _ _ _ (by decide)).trans <| (extract_high _ _ _ _ (by decide)).trans <| (extract_low _ _ _ _ (by decide)).trans <| extract_all _

theorem wordB_n (hi : BitVec 6) (t : BTarget) (mid : BitVec 4) (c : Cond) : fld (wordB hi t mid c) 22 3 = (mid).extractLsb' 1 3 :=
  (extract_high _ _ _ _ (by decide)).trans <| (extract_high _ _ _ _ (by decide)).trans <| extract_low _ _ _ _ (by decide)

theorem wordB_d (hi : BitVec 6) (t : BTarget) (mid : BitVec 4) (c : Cond) : fld (wordB hi t mid c) 21 1 = (mid).extractLsb' 0 1 :=
  (extract_high _ _ _ _ (by decide)).trans <| (extract_high _ _ _ _ (by decide)).trans <| extract_low _ _ _ _ (by decide)

theorem wordB_cond (hi : BitVec 6) (t : BTarget) (mid : BitVec 4) (c : Cond) : fld (wordB hi t mid c) 16 5 = c.code :=
  (extract_high _ _ _ _ (by decide)).trans <| (extract_low _ _ _ _ (by decide)).trans <| extract_all _

theorem wordB_disp (hi : BitVec 6) (t : BTarget) (mid : BitVec 4) (c : Cond) : fld (wordB hi t mid c) 0 16 = t.enc.2 :=
  (extract_low _ _ _ _ (by decide)).trans <| extract_all _

theorem wordB_reg (hi : BitVec 6) (t : BTarget) (mid : BitVec 4) (c : Cond) : fld (wordB hi t mid c) 0 5 = (t.enc.2).extractLsb' 0 5 :=
  extract_low _ _ _ _ (by decide)

theorem wordP_top (op : BitVec 5) (a b c : BitVec 3) (x y : Ind) : fld (wordP op a b c x y) 30 2 = 3#2 :=
  (extract_high _ _ _ _ (by decide)).trans <| (extract_high _ _ _ _ (by decide)).trans <| (extract_high _ _ _ _ (by decide)).trans <| (extract_high _ _ _ _ (by decide)).trans <| (extract_high _ _ _ _ (by decide)).trans <| (extract_high _ _ _ _ (by decide)).trans <| extract_all _

theorem wordP_op (op : BitVec 5) (a b c : BitVec 3) (x y : Ind) : fld (wordP op a b c x y) 25 5 = op :=
  (extract_high _ _ _ _ (by decide)).trans <| (extract_high _ _ _ _ (by decide)).trans <| (extract_high _ _ _ _ (by decide)).trans <| (extract_high _ _ _ _ (by decide)).trans <| (extract_high _ _ _ _ (by decide)).trans <| (extract_low _ _ _ _ (by decide)).trans <| extract_all _

theorem wordP_a (op : BitVec 5) (a b c : BitVec 3) (x y : Ind) : fld (wordP op a b c x y) 22 3 = a :=
  (extract_high _ _ _ _ (by decide)).trans <| (extract_high _ _ _ _ (by decide)).trans <| (extract_high _ _ _ _ (by decide)).trans <| (extract_high _ _ _ _ (by decide)).trans <| (extract_low _ _ _ _ (by decide)).trans <| extract_all _

theorem wordP_b (op : BitVec 5) (a b c : BitVec 3) (x y : Ind) : fld (wordP op a b c x y) 19 3 = b :=
  (extract_high _ _ _ _ (by decide)).trans <| (extract_high _ _ _ _ (by decide)).trans <| (extract_high _ _ _ _ (by decide)).trans <| (extract_low _ _ _ _ (by decide)).trans <| extract_all _

theorem wordP_c (op : BitVec 5) (a b c : BitVec 3) (x y : Ind) : fld (wordP op a b c x y) 16 3 = c :=
  (extract_high _ _ _ _ (by decide)).trans <| (extract_high _ _ _ _ (by decide)).trans <| (extract_low _ _ _ _ (by decide)).trans <| extract_all _

theorem wordP_x (op : BitVec 5) (a b c : BitVec 3) (x y : Ind) : fld (wordP op a b c x y) 8 8 = x.field8 :=
  (extract_high _ _ _ _ (by decide)).trans <| (extract_low _ _ _ _ (by decide)).trans <| extract_all _

theorem wordP_y (op : BitVec 5) (a b c : BitVec 3) (x y : Ind) : fld (wordP op a b c x y) 0 8 = y.field8 :=
  (extract_low _ _ _ _ (by decide)).trans <| extract_all _

theorem wordM_top (op : BitVec 2) (p : Fin 4) (d1 d2 : Fin 2) (a b : Fin 8) (x y : Ind) : fld (wordM op p d1 d2 a b x y) 28 4 = 8#4 :=
  (extract_high _ _ _ _ (by decide)).trans <| (extract_high _ _ _ _ (by decide)).trans <| (extract_high _ _ _ _ (by decide)).trans <| (extract_high _ _ _ _ (by decide)).trans <| (extract_high _ _ _ _ (by decide)).trans <| (extract_high _ _ _ _ (by decide)).trans <| (extract_high _ _ _ _ (by decide)).trans <| (extract_high _ _ _ _ (by decide)).trans <| extract_all _

theorem wordM_op (op : BitVec 2) (p : Fin 4) (d1 d2 : Fin 2) (a b : Fin 8) (x y : Ind) : fld (wordM op p d1 d2 a b x y) 26 2 = op :=
  (extract_high _ _ _ _ (by decide)).trans <| (extract_high _ _ _ _ (by decide)).trans <| (extract_high _ _ _ _ (by decide)).trans <| (extract_high _ _ _ _ (by decide)).trans <| (extract_high _ _ _ _ (by decide)).trans <| (extract_high _ _ _ _ (by decide)).trans <| (extract_high _ _ _ _ (by decide)).trans <| (extract_low _ _ _ _ (by decide)).trans <| extract_all _

theorem wordM_p (op : BitVec 2) (p : Fin 4) (d1 d2 : Fin 2) (a b : Fin 8) (x y : Ind) : fld (wordM op p d1 d2 a b x y) 24 2 = BitVec.ofFin (w := 2) p :=
  (extract_high _ _ _ _ (by decide)).trans <| (extract_high _ _ _ _ (by decide)).trans <| (extract_high _ _ _ _ (by decide)).trans <| (extract_high _ _ _ _ (by decide)).trans <| (extract_high _ _ _ _ (by decide)).trans <| (extract_high _ _ _ _ (by decide)).trans <| (extract_low _ _ _ _ (by decide)).trans <| extract_all _

theorem wordM_d1 (op : BitVec 2) (p : Fin 4) (d1 d2 : Fin 2) (a b : Fin 8) (x y : Ind) : fld (wordM op p d1 d2 a b x y) 23 1 = BitVec.ofFin (w := 1) d1 :=
  (extract_high _ _ _ _ (by decide)).trans <| (extract_high _ _ _ _ (by decide)).trans <| (extract_high _ _ _ _ (by decide)).trans <| (extract_high _ _ _ _ (by decide)).trans <| (extract_high _ _ _ _ (by decide)).trans <| (extract_low _ _ _ _ (by decide)).trans <| extract_all _

theorem wordM_d2 (op : BitVec 2) (p : Fin 4) (d1 d2 : Fin 2) (a b : Fin 8) (x y : Ind) : fld (wordM op p d1 d2 a b x y) 22 1 = BitVec.ofFin (w := 1) d2 :=
  (extract_high _ _ _ _ (by decide)).trans <| (extract_high _ _ _ _ (by decide)).trans <| (extract_high _ _ _ _ (by decide)).trans <| (extract_high _ _ _ _ (by decide)).trans <| (extract_low _ _ _ _ (by decide)).trans <| extract_all _

theorem wordM_a (op : BitVec 2) (p : Fin 4) (d1 d2 : Fin 2) (a b : Fin 8) (x y : Ind) : fld (wordM op p d1 d2 a b x y) 19 3 = arBits a :=
  (extract_high _ _ _ _ (by decide)).trans <| (extract_high _ _ _ _ (by decide)).trans <| (extract_high _ _ _ _ (by decide)).trans <| (extract_low _ _ _ _ (by decide)).trans <| extract_all _

theorem wordM_b (op : BitVec 2) (p : Fin 4) (d1 d2 : Fin 2) (a b : Fin 8) (x y : Ind) : fld (wordM op p d1 d2 a b x y) 16 3 = arBits b :=
  (extract_high _ _ _ _ (by decide)).trans <| (extract_high _ _ _ _ (by decide)).trans <| (extract_low _ _ _ _ (by decide)).trans <| extract_all _

theorem wordM_x (op : BitVec 2) (p : Fin 4) (d1 d2 : Fin 2) (a b : Fin 8) (x y : Ind) : fld (wordM op p d1 d2 a b x y) 8 8 = x.field8 :=
  (extract_high _ _ _ _ (by decide)).trans <| (extract_low _ _ _ _ (by decide)).trans <| extract_all _

theorem wordM_y (op : BitVec 2) (p : Fin 4) (d1 d2 : Fin 2) (a b : Fin 8) (x y : Ind) : fld (wordM op p d1 d2 a b x y) 0 8 = y.field8 :=
  (extract_low _ _ _ _ (by decide)).trans <| extract_all _

/-! ## The operands of the general format -/

theorem srcOf_enc (hi : BitVec 9) (s : Src) (d : BitVec 5) : srcOf (wordG hi s.enc d) = .ok s := by
  unfold srcOf
  rw [wordG_g, wordG_src, wordG_reg]
  cases s with
  | reg r => exact congrArg (fun x => Except.ok (Src.reg x)) ((congrArg regOf (low_code _ _)).trans (regOf_code r))
  | dir a => rfl
  | ind i => exact congrArg (Except.map Src.ind) (ind16_field16 i)
  | imm v => rfl

theorem fsrcOf_enc (hi : BitVec 9) (s : FSrc) (d : BitVec 5) : fsrcOf (wordG hi s.enc d) = .ok s := by
  unfold fsrcOf
  rw [wordG_g, wordG_src, wordG_reg]
  cases s with
  | reg r => exact congrArg (Except.map FSrc.reg) ((congrArg extOf (low_code _ _)).trans (extOf_code r))
  | dir a => rfl
  | ind i => exact congrArg (Except.map FSrc.ind) (ind16_field16 i)
  | imm v => rfl

theorem rsrcOf_enc (hi : BitVec 9) (s : RSrc) (d : BitVec 5) : rsrcOf (wordG hi s.enc d) = .ok s := by
  unfold rsrcOf
  rw [wordG_g, wordG_src, wordG_reg]
  cases s with
  | reg r => exact congrArg (fun x => Except.ok (RSrc.reg x)) ((congrArg regOf (low_code _ _)).trans (regOf_code r))
  | dir a => rfl
  | ind i => exact congrArg (Except.map RSrc.ind) (ind16_field16 i)

theorem frsrcOf_enc (hi : BitVec 9) (s : FRSrc) (d : BitVec 5) : frsrcOf (wordG hi s.enc d) = .ok s := by
  unfold frsrcOf
  rw [wordG_g, wordG_src, wordG_reg]
  cases s with
  | reg r => exact congrArg (Except.map FRSrc.reg) ((congrArg extOf (low_code _ _)).trans (extOf_code r))
  | dir a => rfl
  | ind i => exact congrArg (Except.map FRSrc.ind) (ind16_field16 i)

theorem memOf_enc (hi : BitVec 9) (s : Mem) (d : BitVec 5) : memOf (wordG hi s.enc d) = .ok s := by
  unfold memOf
  rw [wordG_g, wordG_src]
  cases s with
  | dir a => rfl
  | ind i => exact congrArg (Except.map Mem.ind) (ind16_field16 i)

theorem nopOf_enc (hi : BitVec 9) (s : NopSrc) (d : BitVec 5) : nopOf (wordG hi s.enc d) = .ok s := by
  unfold nopOf
  rw [wordG_g, wordG_src, wordG_reg]
  cases s with
  | reg r => exact congrArg (fun x => Except.ok (NopSrc.reg x)) ((congrArg regOf (low_code _ _)).trans (regOf_code r))
  | ind i => exact congrArg (Except.map NopSrc.ind) (ind16_field16 i)

end Sys2Proof.Laws
end

