-- ==== Sys2Proof/Laws/Float.lean ====
section
/-! SUPPORT. The floating-point format and `pack`: exponent and mantissa of a value, and what packing an exact value
gives. -/

namespace Sys2Proof.Machine

/-! ## Exponent and mantissa -/

theorem zero_expo {x : Ext} (h : fIsZero x = true) : expo x = -128 := by
  simp only [fIsZero, beq_iff_eq] at h
  rw [expo, h]; decide

theorem expo_bounds (x : Ext) : -128 ≤ expo x ∧ expo x ≤ 127 := by
  have h1 := BitVec.le_toInt (x.extractLsb' 32 8)
  have h2 := BitVec.toInt_lt (x := x.extractLsb' 32 8)
  unfold expo
  generalize x.extractLsb' 32 8 = y at *
  norm_num at h1 h2
  omega

theorem nonzero_expo {x : Ext} (h : fIsZero x = false) : -127 ≤ expo x ∧ expo x ≤ 127 := by
  obtain ⟨h1, h2⟩ := expo_bounds x
  refine ⟨?_, h2⟩
  by_contra hc
  have : expo x = -128 := by omega
  have h3 : x.extractLsb' 32 8 = 0x80#8 := by
    apply BitVec.eq_of_toInt_eq
    rw [← expo, this]; decide
  simp [fIsZero, h3] at h

/-- A mantissa has its implied bit (R232). -/
theorem mant_bounds (x : Ext) : (x.getLsbD 31 = false ∧ 2 ^ 31 ≤ mant x ∧ mant x < 2 ^ 32) ∨
    (x.getLsbD 31 = true ∧ -2 ^ 32 ≤ mant x ∧ mant x < -2 ^ 31) := by
  have h : x.toNat % 2 ^ 31 < 2 ^ 31 := Nat.mod_lt _ (by norm_num)
  unfold mant
  generalize x.toNat % 2 ^ 31 = k at *
  cases x.getLsbD 31
  · exact .inl ⟨rfl, by simp, by simp; omega⟩
  · exact .inr ⟨rfl, by simp, by simp; omega⟩

theorem mant_sign (x : Ext) : (mant x < 0 ↔ x.getLsbD 31 = true) ∧ mant x ≠ 0 := by
  rcases mant_bounds x with ⟨h, h1, h2⟩ | ⟨h, h1, h2⟩ <;> rw [h] <;>
    refine ⟨⟨fun h => ?_, fun h => ?_⟩, ?_⟩ <;> first | omega | rfl | cases h

theorem mkExt_field (e : Int) (m : Word) : (mkExt e m).extractLsb' 32 8 = BitVec.ofInt 8 e := by
  apply BitVec.eq_of_getLsbD_eq
  intro i hi
  rw [BitVec.getLsbD_extractLsb']
  simp only [mkExt, hi, decide_true, Bool.true_and]
  rw [BitVec.getLsbD_append]
  simp

theorem expo_mkExt {e : Int} (m : Word) (h : -128 ≤ e) (h' : e ≤ 127) : expo (mkExt e m) = e := by
  rw [expo, mkExt_field, BitVec.toInt_ofInt, Int.bmod_eq_of_le (by omega) (by omega)]

/-- The mantissa field of a mantissa value gives it back. -/
theorem mant_mkExt {m : Int} (e : Int) (h : (2 ^ 31 ≤ m ∧ m < 2 ^ 32) ∨ (-2 ^ 32 ≤ m ∧ m < -2 ^ 31)) :
    mant (mkExt e (manField m)) = m := by
  have hlow : (mkExt e (manField m)).toNat % 2 ^ 32 = (manField m).toNat := by
    rw [mkExt, BitVec.toNat_append]
    have := (manField m).isLt
    rw [Nat.or_mod_two_pow, Nat.shiftLeft_eq, Nat.mul_mod_left, Nat.zero_or, Nat.mod_eq_of_lt this]
  have hf : ((manField m).toNat : Int) = (m + 2 ^ 31) % 2 ^ 32 := by
    rw [manField, BitVec.toNat_ofInt, Int.toNat_of_nonneg (by omega)]
    norm_num
  have hbit : (mkExt e (manField m)).getLsbD 31 = decide (2 ^ 31 ≤ (manField m).toNat) := by
    have hlt := (manField m).isLt
    rw [mkExt, BitVec.getLsbD_append]
    simp only [show (31 : Nat) < 32 by decide, if_true]
    exact (BitVec.msb_eq_getLsbD_last _).symm.trans (BitVec.msb_eq_decide _)
  unfold mant
  rw [hbit]
  simp only [decide_eq_true_eq, Int.ofNat_eq_natCast]
  split <;> omega

/-! ## Packing -/

theorem bitLength_bounds {n : Nat} (h : 0 < n) : 2 ^ (bitLength n - 1) ≤ n ∧ n < 2 ^ bitLength n ∧ 0 < bitLength n := by
  unfold bitLength
  rw [if_neg (by omega)]
  exact ⟨by simpa using Nat.log2_self_le (by omega), Nat.lt_log2_self, by omega⟩

/-- The number of bits of a signed number that `pack` counts. -/
def signedBits (s : Int) : Nat := if 0 < s then bitLength s.toNat else bitLength (-s - 1).toNat

theorem signedBits_bounds {s : Int} (h : s ≠ 0) :
    (0 < s → 2 ^ (signedBits s - 1) ≤ s ∧ s < 2 ^ signedBits s ∧ 0 < signedBits s) ∧
    (s < 0 → -2 ^ signedBits s ≤ s ∧ (0 < signedBits s → s < -2 ^ (signedBits s - 1))) := by
  set n := signedBits s with hdef
  have pos : 0 < s → 2 ^ (n - 1) ≤ s ∧ s < 2 ^ n ∧ 0 < n := by
    intro hs
    obtain ⟨a, b, c⟩ := bitLength_bounds (n := s.toNat) (by omega)
    have e : n = bitLength s.toNat := if_pos hs
    rw [← e] at a b c
    refine ⟨?_, ?_, c⟩
    · calc (2 : Int) ^ (n - 1) = ((2 ^ (n - 1) : Nat) : Int) := by push_cast; rfl
        _ ≤ s := by omega
    · calc s < ((2 ^ n : Nat) : Int) := by omega
        _ = 2 ^ n := by push_cast; rfl
  have neg : s < 0 → -2 ^ n ≤ s ∧ (0 < n → s < -2 ^ (n - 1)) := by
    intro hs
    have e : n = bitLength (-s - 1).toNat := if_neg (by omega)
    by_cases h1 : s = -1
    · subst h1
      have : n = 0 := e
      rw [this]; exact ⟨by norm_num, fun h => absurd h (by omega)⟩
    · obtain ⟨a, b, c⟩ := bitLength_bounds (n := (-s - 1).toNat) (by omega)
      rw [← e] at a b c
      have a' : (2 : Int) ^ (n - 1) ≤ -s - 1 := by
        calc (2 : Int) ^ (n - 1) = ((2 ^ (n - 1) : Nat) : Int) := by push_cast; rfl
          _ ≤ _ := by omega
      have b' : -s - 1 < (2 : Int) ^ n := by
        calc -s - 1 < ((2 ^ n : Nat) : Int) := by omega
          _ = 2 ^ n := by push_cast; rfl
      exact ⟨by omega, fun _ => by omega⟩
  exact ⟨pos, neg⟩

/-- The number of bits that `pack` counts: the value is normal after a shift by 32 less that number. -/
theorem shift_normal {s : Int} (h : s ≠ 0) :
    let n : Nat := signedBits s
    (0 < s → 2 ^ 31 ≤ shiftInt s (32 - n) ∧ shiftInt s (32 - n) < 2 ^ 32) ∧
    (s < 0 → -2 ^ 32 ≤ shiftInt s (32 - n) ∧ shiftInt s (32 - n) < -2 ^ 31) := by
  intro n
  obtain ⟨pos, neg⟩ := signedBits_bounds h
  by_cases hn : (n : Int) ≤ 32
  · have e : shiftInt s (32 - n) = s * 2 ^ (32 - n) := by
      unfold shiftInt; rw [if_pos (by omega)]; congr 2; omega
    rw [e]
    have hp : (0 : Int) < 2 ^ (32 - n) := by positivity
    have full : (2 : Int) ^ n * 2 ^ (32 - n) = 2 ^ 32 := by rw [← pow_add]; congr 1; omega
    have half : 0 < n → (2 : Int) ^ (n - 1) * 2 ^ (32 - n) = 2 ^ 31 := by
      intro h0; rw [← pow_add]; congr 1; omega
    refine ⟨fun hs => ?_, fun hs => ?_⟩
    · obtain ⟨a, b, c⟩ := pos hs
      rw [← half c, ← full]
      exact ⟨mul_le_mul_of_nonneg_right a hp.le, mul_lt_mul_of_pos_right b hp⟩
    · obtain ⟨a, b⟩ := neg hs
      have a' := mul_le_mul_of_nonneg_right a hp.le
      rw [neg_mul, full] at a'
      refine ⟨a', ?_⟩
      by_cases h0 : 0 < n
      · have b' := mul_lt_mul_of_pos_right (b h0) hp
        rw [neg_mul, half h0] at b'; exact b'
      · have hn0 : n = 0 := by omega
        have h1 : s ≤ -1 := by omega
        have h2 := mul_le_mul_of_nonneg_right h1 hp.le
        rw [hn0] at h2 ⊢
        norm_num at h2 ⊢; omega
  · have e : shiftInt s (32 - n) = s / 2 ^ (n - 32) := by
      unfold shiftInt; rw [if_neg (by omega)]; congr 2; omega
    rw [e]
    have hp : (0 : Int) < 2 ^ (n - 32) := by positivity
    have full : (2 : Int) ^ n = 2 ^ 32 * 2 ^ (n - 32) := by rw [← pow_add]; congr 1; omega
    have half : (2 : Int) ^ (n - 1) = 2 ^ 31 * 2 ^ (n - 32) := by rw [← pow_add]; congr 1; omega
    refine ⟨fun hs => ?_, fun hs => ?_⟩
    · obtain ⟨a, b, -⟩ := pos hs
      exact ⟨Int.le_ediv_of_mul_le hp (by rw [← half]; exact a), Int.ediv_lt_of_lt_mul hp (by rw [← full]; exact b)⟩
    · obtain ⟨a, b⟩ := neg hs
      refine ⟨Int.le_ediv_of_mul_le hp (by rw [neg_mul, ← full]; exact a), Int.ediv_lt_of_lt_mul hp ?_⟩
      rw [neg_mul, ← half]; exact b (by omega)

/-- What `pack` gives for an exact value `s * 2 ^ (e - 31)` (R238, R248): zero; the largest value of its sign; zero
with underflow; or the normal value with the mantissa shifted, bits that do not fit dropped. -/
theorem pack_cases (s e : Int) :
    (s = 0 ∧ pack s e = .exact fZero) ∨
    (s ≠ 0 ∧ 127 < e - (32 - signedBits s) ∧
      pack s e = { r := if 0 < s then fMax else fMin, ovf := true, unf := false }) ∨
    (s ≠ 0 ∧ e - (32 - signedBits s) < -127 ∧ pack s e = { r := fZero, ovf := false, unf := true }) ∨
    (s ≠ 0 ∧ (pack s e).ovf = false ∧ (pack s e).unf = false ∧
      expo (pack s e).r = e - (32 - signedBits s) ∧ mant (pack s e).r = shiftInt s (32 - signedBits s) ∧
      fIsZero (pack s e).r = false ∧ ((pack s e).r.getLsbD 31 = true ↔ s < 0)) := by
  by_cases hs : s = 0
  · exact .inl ⟨hs, by simp [pack, hs]⟩
  right
  have hn := shift_normal hs
  set n : Nat := signedBits s with hdef
  obtain ⟨hp, hm⟩ := hn
  have hd : (if 0 < s then bitLength s.toNat else bitLength (-s - 1).toNat) = n := rfl
  unfold pack
  rw [if_neg hs]
  simp only [hd]
  split
  · rename_i h1; exact .inl ⟨hs, h1, rfl⟩
  right
  split
  · rename_i h1 h2; exact .inl ⟨hs, h2, rfl⟩
  right
  rename_i h1 h2
  have hx := expo_mkExt (e := e - (32 - n)) (manField (shiftInt s (32 - n))) (by omega) (by omega)
  have hr : (2 ^ 31 ≤ shiftInt s (32 - n) ∧ shiftInt s (32 - n) < 2 ^ 32) ∨
      (-2 ^ 32 ≤ shiftInt s (32 - n) ∧ shiftInt s (32 - n) < -2 ^ 31) := by
    rcases lt_or_gt_of_ne hs with h | h
    · exact .inr (hm h)
    · exact .inl (hp h)
  have hmant := mant_mkExt (e - (32 - n)) hr
  refine ⟨hs, rfl, rfl, hx, hmant, ?_, ?_⟩
  · cases hz : fIsZero (FRes.exact (mkExt (e - (32 - n)) (manField (shiftInt s (32 - n))))).r
    · rfl
    · have := zero_expo hz
      have hx' : expo (FRes.exact (mkExt (e - (32 - n)) (manField (shiftInt s (32 - n))))).r = e - (32 - n) := hx
      omega
  · rw [← (mant_sign _).1]
    show mant (mkExt _ _) < 0 ↔ s < 0
    rw [hmant]
    rcases lt_or_gt_of_ne hs with h | h
    · have := hm h; exact ⟨fun _ => h, fun _ => by omega⟩
    · have := hp h; exact ⟨fun _ => by omega, fun _ => by omega⟩

/-- A shift is the floor of the exact product. -/
theorem shiftInt_floor (s k : Int) : (shiftInt s k : ℚ) ≤ s * 2 ^ k ∧ (s : ℚ) * 2 ^ k < shiftInt s k + 1 := by
  unfold shiftInt
  split
  · rename_i h
    obtain ⟨m, rfl⟩ := Int.eq_ofNat_of_zero_le h
    simp
  · rename_i h
    obtain ⟨m, hm⟩ := Int.eq_ofNat_of_zero_le (a := -k) (by omega)
    have hk : k = -(m : ℤ) := by omega
    subst hk
    simp only [neg_neg, Int.toNat_natCast, zpow_neg, zpow_natCast]
    have hp : (0 : ℤ) < 2 ^ m := by positivity
    have hq : (0 : ℚ) < 2 ^ m := by positivity
    have h1 : s / 2 ^ m * 2 ^ m ≤ s := Int.ediv_mul_le s hp.ne'
    have h2 : s < (s / 2 ^ m + 1) * 2 ^ m := Int.lt_ediv_add_one_mul_self s hp
    rw [← div_eq_mul_inv, le_div_iff₀ hq, div_lt_iff₀ hq]
    exact ⟨by exact_mod_cast h1, by exact_mod_cast h2⟩

/-- Where the exact value of a normal result lies. -/
theorem value_bounds {s : Int} (h : s ≠ 0) (e : Int) :
    let x : Int := e - (32 - signedBits s)
    (0 < s → (2 : ℚ) ^ x ≤ s * 2 ^ (e - 31) ∧ (s : ℚ) * 2 ^ (e - 31) < 2 ^ (x + 1)) ∧
    (s < 0 → -(2 : ℚ) ^ (x + 1) ≤ s * 2 ^ (e - 31) ∧ (s : ℚ) * 2 ^ (e - 31) < -2 ^ x) := by
  intro x
  obtain ⟨pos, neg⟩ := signedBits_bounds h
  have hq : (0 : ℚ) < 2 ^ (e - 31) := by positivity
  have full : (2 : ℚ) ^ (x + 1) = 2 ^ signedBits s * 2 ^ (e - 31) := by
    rw [← zpow_natCast, ← zpow_add₀ (by norm_num)]; congr 1; omega
  have half : 0 < signedBits s → (2 : ℚ) ^ x = 2 ^ (signedBits s - 1) * 2 ^ (e - 31) := by
    intro h0
    rw [← zpow_natCast, ← zpow_add₀ (by norm_num)]; congr 1; omega
  refine ⟨fun hs => ?_, fun hs => ?_⟩
  · obtain ⟨a, b, c⟩ := pos hs
    rw [half c, full]
    exact ⟨mul_le_mul_of_nonneg_right (by exact_mod_cast a) hq.le, mul_lt_mul_of_pos_right (by exact_mod_cast b) hq⟩
  · obtain ⟨a, b⟩ := neg hs
    rw [full, ← neg_mul]
    refine ⟨mul_le_mul_of_nonneg_right (by exact_mod_cast a) hq.le, ?_⟩
    by_cases h0 : 0 < signedBits s
    · rw [half h0, ← neg_mul]
      exact mul_lt_mul_of_pos_right (by exact_mod_cast b h0) hq
    · have hx : x = e - 31 - 1 := by omega
      have h1 : (s : ℚ) ≤ -1 := by exact_mod_cast (by omega : s ≤ -1)
      rw [hx, zpow_sub_one₀ (by norm_num)]
      nlinarith

/-- `pack` gives the result of the exact value (R238, R248). -/
theorem pack_result (s e : Int) : ResultOf (s * 2 ^ (e - 31)) (pack s e) := by
  have mono : ∀ {a b : Int}, (2 : ℚ) ^ a < 2 ^ b → a < b := fun h => (zpow_lt_zpow_iff_right₀ (by norm_num)).1 h
  have hpow : ∀ k : Int, (0 : ℚ) < 2 ^ k := fun k => by positivity
  have e128 : (2 : ℚ) ^ 128 = 2 ^ (128 : ℤ) := by norm_cast
  by_cases hs : s = 0
  · subst hs
    have : pack 0 e = .exact fZero := by simp [pack]
    rw [this]
    simp only [Int.cast_zero, zero_mul]
    exact ⟨fun _ => rfl, fun h => absurd h (by norm_num), fun h => absurd h (by norm_num), fun h => absurd rfl h,
      fun h => by exfalso; rcases h with ⟨h, -⟩ | ⟨-, h⟩
                  · have := hpow (-127); linarith
                  · have := hpow (-127); linarith⟩
  obtain ⟨hp, hn⟩ := value_bounds hs e
  have hv : (s : ℚ) * 2 ^ (e - 31) ≠ 0 := mul_ne_zero (by exact_mod_cast hs) (hpow _).ne'
  set v : ℚ := s * 2 ^ (e - 31) with hvd
  set x : Int := e - (32 - signedBits s) with hx
  have sgn : (0 < s ∧ 0 < v) ∨ (s < 0 ∧ v < 0) := by
    rcases lt_or_gt_of_ne hs with h | h
    · exact .inr ⟨h, by have := (hn h).2; have := hpow x; linarith⟩
    · exact .inl ⟨h, by have := (hp h).1; have := hpow x; linarith⟩
  have big : 127 < x → pack s e = { r := if 0 < s then fMax else fMin, ovf := true, unf := false } := by
    intro h
    rcases pack_cases s e with h' | h' | h' | h' <;> first | exact absurd h'.1 hs | exact h'.2.2 | skip
    · omega
    · have := expo_bounds (pack s e).r; omega
  have low : x < -127 → pack s e = { r := fZero, ovf := false, unf := true } := by
    intro h
    rcases pack_cases s e with h' | h' | h' | h' <;> first | exact absurd h'.1 hs | exact h'.2.2 | skip
    · omega
    · have := (nonzero_expo h'.2.2.2.2.2.1).1; omega
  refine ⟨fun h => absurd h hv, fun h => ?_, fun h => ?_, fun _ h h' => ?_, fun h => ?_⟩
  · rcases sgn with ⟨a, b⟩ | ⟨a, b⟩
    · rw [e128] at h
      have := mono (h.trans_lt (hp a).2)
      rw [big (by omega), if_pos a]; rfl
    · have : (0 : ℚ) < 2 ^ 128 := by norm_num
      linarith
  · rcases sgn with ⟨a, b⟩ | ⟨a, b⟩
    · have : (0 : ℚ) < 2 ^ 128 := by norm_num
      linarith
    · rw [e128] at h
      have := mono (b := x + 1) (a := 128) (by have := (hn a).1; linarith)
      rw [big (by omega), if_neg (by omega)]; rfl
  · rcases sgn with ⟨a, b⟩ | ⟨a, b⟩
    · have := mono ((hp a).1.trans_lt h)
      rw [low this]; rfl
    · have := mono (b := -127) (a := x) (by have := (hn a).2; linarith)
      rw [low this]; rfl
  · have hb : -127 ≤ x ∧ x ≤ 127 := by
      rw [e128] at h
      rcases sgn with ⟨a, b⟩ | ⟨a, b⟩
      · rcases h with ⟨h1, h2⟩ | ⟨h1, h2⟩
        · have := mono (h1.trans_lt (hp a).2)
          have := mono ((hp a).1.trans_lt h2)
          omega
        · have := hpow (-127); linarith
      · rcases h with ⟨h1, h2⟩ | ⟨h1, h2⟩
        · have := hpow (-127); linarith
        · have := mono (b := x + 1) (a := -127) (by have := (hn a).1; linarith)
          have := mono (b := 128) (a := x) (by have := (hn a).2; linarith)
          omega
    rcases pack_cases s e with h' | h' | h' | ⟨-, h1, h2, h3, h4, h5, -⟩
    · exact absurd h'.1 hs
    · omega
    · omega
    · obtain ⟨f1, f2⟩ := shiftInt_floor s (32 - signedBits s)
      have key : (s : ℚ) * 2 ^ (32 - signedBits s : ℤ) * 2 ^ (x - 31) = v := by
        rw [hvd, mul_assoc, ← zpow_add₀ (by norm_num)]; congr 2; omega
      have hval : valueOf (pack s e).r = shiftInt s (32 - signedBits s) * 2 ^ (x - 31) := by
        rw [valueOf, if_neg (by rw [h3]; omega), h3, h4]
      refine ⟨h1, h2, by rw [h3]; omega, ?_, ?_⟩
      · rw [hval, ← key]; exact mul_le_mul_of_nonneg_right f1 (hpow _).le
      · rw [hval, h3, ← key]
        have := mul_lt_mul_of_pos_right f2 (hpow (x - 31))
        rw [add_mul, one_mul] at this; exact this

/-! ## Comparing -/

/-- Zero is the exponent -128 (R232). -/
theorem fIsZero_iff (a : Ext) : fIsZero a = decide (expo a = -128) := by
  cases h : fIsZero a
  · have := (nonzero_expo h).1; symm; rw [decide_eq_false_iff_not]; omega
  · rw [zero_expo h]; rfl

/-- An aligned addend is the floor of its exact shift (R241). -/
theorem addend_floor (x : Ext) (e : Int) : ((if expo x = -128 then 0 else ⌊(mant x : ℚ) * 2 ^ (expo x - e)⌋ : ℤ)) = shiftInt (addend x) (expo x - e) := by
  have h := shiftInt_floor (addend x) (expo x - e)
  unfold addend at *
  rw [fIsZero_iff] at *
  by_cases hz : expo x = -128
  · simp only [hz, if_true, decide_true] at h ⊢
    simp [shiftInt]
  · simp only [hz, if_false, decide_false, Bool.false_eq_true] at h ⊢
    exact Int.floor_eq_iff.2 ⟨h.1, h.2⟩

/-- FSub gives the result of the aligned difference (R241). -/
theorem alignedDiff_result (x y : Ext) : ResultOf (alignedDiff x y) (fSub x y) := by
  unfold alignedDiff fSub
  simp only [addend_floor]
  have := pack_result (shiftInt (addend x) (expo x - max (expo x) (expo y)) - shiftInt (addend y) (expo y - max (expo x) (expo y))) (max (expo x) (expo y))
  push_cast at this; exact this

/-- A value by its addend, which is 0 for a zero. -/
theorem value_addend (a : Ext) : valueOf a = addend a * 2 ^ (expo a - 31) := by
  unfold valueOf addend
  rw [fIsZero_iff]
  by_cases h : expo a = -128 <;> simp [h]

theorem shiftInt_zero (s : Int) : shiftInt s 0 = s := by simp [shiftInt]

/-- Aligning the smaller exponent keeps the order of the two values (R48). -/
theorem align_order {x y : Ext} (h : expo y ≤ expo x) :
    let n := shiftInt (addend y) (expo y - expo x)
    (addend x < n ↔ valueOf x < valueOf y) ∧ (n < addend x ↔ valueOf y < valueOf x) := by
  intro n
  have hp : (0 : ℚ) < 2 ^ (expo x - 31) := by positivity
  have hy : valueOf y = addend y * 2 ^ (expo y - expo x) * 2 ^ (expo x - 31) := by
    rw [value_addend, mul_assoc, ← zpow_add₀ (by norm_num)]; congr 2; omega
  rw [hy, value_addend, mul_lt_mul_iff_left₀ hp, mul_lt_mul_iff_left₀ hp]
  obtain ⟨f1, f2⟩ := shiftInt_floor (addend y) (expo y - expo x)
  by_cases he : expo y = expo x
  · have : n = addend y := by show shiftInt _ (expo y - expo x) = _; rw [he, sub_self]; exact shiftInt_zero _
    rw [this, he, sub_self]; simp
  · -- x has the larger exponent, so it is not zero
    have hx : fIsZero x = false := by
      rw [fIsZero_iff]; have := (expo_bounds y).1; simp; omega
    have ax : addend x = mant x := by simp [addend, hx]
    have hk : (2 : ℚ) ^ (expo y - expo x) ≤ 2 ^ (-1 : ℤ) := zpow_le_zpow_right₀ (by norm_num) (by omega)
    have hk0 : (0 : ℚ) < 2 ^ (expo y - expo x) := by positivity
    have by1 : (addend y : ℚ) * 2 ^ (expo y - expo x) < 2 ^ 31 ∧ -2 ^ 31 ≤ (addend y : ℚ) * 2 ^ (expo y - expo x) := by
      have hb : addend y < 2 ^ 32 ∧ -2 ^ 32 ≤ addend y := by
        unfold addend; split
        · constructor <;> norm_num
        · rcases mant_bounds y with h | h <;> constructor <;> omega
      have h1 : (addend y : ℚ) < 2 ^ 32 := by exact_mod_cast hb.1
      have h2 : -(2 : ℚ) ^ 32 ≤ addend y := by exact_mod_cast hb.2
      norm_num at hk h1 h2 ⊢
      constructor <;> nlinarith
    have fn : (n : ℚ) < 2 ^ 31 ∧ -2 ^ 31 ≤ n := by
      refine ⟨f1.trans_lt by1.1, ?_⟩
      have : (-2 ^ 31 : ℚ) < n + 1 := by_contra fun h => by have := by1.2; linarith
      have : (-2 ^ 31 : ℤ) < n + 1 := by exact_mod_cast this
      omega
    have fn1 : n < 2 ^ 31 := by exact_mod_cast fn.1
    rw [ax]
    rcases mant_bounds x with ⟨-, h1, h2⟩ | ⟨-, h1, h2⟩
    · have q : ((2 : ℚ) ^ 31) ≤ mant x := by exact_mod_cast h1
      constructor
      · exact ⟨fun h => by omega, fun h => by linarith⟩
      · exact ⟨fun h => by linarith, fun h => by omega⟩
    · have q : (mant x : ℚ) < -2 ^ 31 := by exact_mod_cast h2
      constructor
      · exact ⟨fun h => by linarith, fun h => by omega⟩
      · exact ⟨fun h => by omega, fun h => by linarith⟩

/-- What the flags of a floating-point comparison say (R48, R362). -/
theorem cmpfFlags_compare (x y : Ext) : CompareFlags x y (cmpfFlags x y) := by
  have key : (shiftInt (addend x) (expo x - max (expo x) (expo y)) - shiftInt (addend y) (expo y - max (expo x) (expo y)) < 0 ↔ valueOf x < valueOf y) ∧
      (0 < shiftInt (addend x) (expo x - max (expo x) (expo y)) - shiftInt (addend y) (expo y - max (expo x) (expo y)) ↔ valueOf y < valueOf x) := by
    rcases le_total (expo y) (expo x) with h | h
    · rw [max_eq_left h, sub_self, shiftInt_zero]
      obtain ⟨a, b⟩ := align_order h
      exact ⟨by rw [← a]; omega, by rw [← b]; omega⟩
    · rw [max_eq_right h, sub_self, shiftInt_zero]
      obtain ⟨a, b⟩ := align_order h
      exact ⟨by rw [← b]; omega, by rw [← a]; omega⟩
  refine ⟨?_, ?_, rfl, fSub x y, alignedDiff_result x y, rfl, rfl⟩
  · simp only [cmpfFlags, key.1]
  · simp only [cmpfFlags]
    congr 1
    apply propext
    constructor
    · intro h; exact le_antisymm (not_lt.1 fun h' => by have := key.2.2 h'; omega) (not_lt.1 fun h' => by have := key.1.2 h'; omega)
    · intro h
      have a := mt key.1.1 (by rw [h]; exact lt_irrefl _)
      have b := mt key.2.1 (by rw [h]; exact lt_irrefl _)
      omega

/-! ## FLOAT -/

/-- FLOAT is exact (R245): the integer has at most 32 significant bits. -/
theorem value_fFloat (i : Word) : valueOf (fFloat i) = i.toInt := by
  have b1 := BitVec.le_toInt i
  have b2 := BitVec.toInt_lt (x := i)
  norm_num at b1 b2
  by_cases h0 : i.toInt = 0
  · simp [fFloat, pack, h0, valueOf]; decide
  have c : signedBits i.toInt ≤ 31 := by
    by_contra hc
    have hp : (2 : Int) ^ 31 ≤ 2 ^ (signedBits i.toInt - 1) := pow_le_pow_right₀ (by norm_num) (by omega)
    obtain ⟨hpos, hneg⟩ := signedBits_bounds h0
    norm_num at hp
    rcases lt_or_gt_of_ne h0 with h | h
    · have := (hneg h).2 (by omega); omega
    · have := (hpos h).1; omega
  rcases pack_cases i.toInt 31 with ⟨h, -⟩ | ⟨-, h, -⟩ | ⟨-, h, -⟩ | ⟨-, -, -, he, hm, hz, -⟩
  · exact absurd h h0
  · omega
  · omega
  · unfold fFloat valueOf
    rw [fIsZero_iff] at hz
    rw [if_neg (by simpa using hz), he, hm]
    unfold shiftInt
    rw [if_pos (by omega)]
    push_cast
    rw [mul_assoc, ← zpow_natCast, ← zpow_add₀ (by norm_num)]
    have : (((32 - (signedBits i.toInt : ℤ)).toNat : ℤ)) + (31 - (32 - (signedBits i.toInt : ℤ)) - 31) = 0 := by omega
    rw [this]; simp

end Sys2Proof.Machine
end

