-- ==== Sys2Proof/Laws/Estimates.lean ====
section
/-! SUPPORT. The estimates RCPF and RSQRF: their mantissas in units of 2^-8 and how near they are to the exact values
(R246, R247). -/

namespace Sys2Proof.Machine

/-! ## Mantissas of eight fraction bits -/

/-- The mantissa is in the low 32 bits. -/
theorem mant_low (a : Ext) : mant (0#8 ++ a.extractLsb' 0 32) = mant a := by
  have h1 : (0#8 ++ a.extractLsb' 0 32).getLsbD 31 = a.getLsbD 31 := by
    rw [BitVec.getLsbD_append]; simp
  have h2 : (0#8 ++ a.extractLsb' 0 32).toNat % 2 ^ 31 = a.toNat % 2 ^ 31 := by
    rw [BitVec.toNat_append, BitVec.extractLsb'_toNat]; simp
  unfold mant
  rw [h1, h2]

/-- The size of the mantissa where the eight high fraction bits are 0, and where they are not. -/
theorem special_iff (a : Ext) : (a.extractLsb' 23 8 = 0 ↔ (mant a < 2 ^ 31 + 2 ^ 23 ∧ a.getLsbD 31 = false ∨
    mant a < -2 ^ 32 + 2 ^ 23 ∧ a.getLsbD 31 = true)) := by
  have h : a.extractLsb' 23 8 = 0 ↔ a.toNat % 2 ^ 31 < 2 ^ 23 := by
    rw [← BitVec.toNat_inj, BitVec.extractLsb'_toNat, Nat.shiftRight_eq_div_pow]
    simp; omega
  have hk : a.toNat % 2 ^ 31 < 2 ^ 31 := Nat.mod_lt _ (by norm_num)
  rw [h]
  unfold mant
  generalize a.toNat % 2 ^ 31 = k at *
  cases a.getLsbD 31 <;> simp <;> omega

/-- The test of the special mantissas (R246). -/
theorem eight_special (a : Ext) : eightZeros (a.extractLsb' 0 32) = decide (a.extractLsb' 23 8 = 0) := by
  have : (a.extractLsb' 0 32).extractLsb' 23 8 = a.extractLsb' 23 8 := by
    apply BitVec.eq_of_getLsbD_eq; intro i hi
    simp only [BitVec.getLsbD_extractLsb']; simp [show 23 + i < 32 by omega]
  simp only [eightZeros, this, beq_eq_decide]; rfl

/-- A mantissa of eight fraction bits has 23 low bits of 0. -/
theorem field_low (e q : Int) : (mkExt e (manField (q * 2 ^ 23))).extractLsb' 0 23 = 0 := by
  have h : (manField (q * 2 ^ 23)).toNat % 2 ^ 23 = 0 := by
    have : ((manField (q * 2 ^ 23)).toNat : Int) = (q * 2 ^ 23 + 2 ^ 31) % 2 ^ 32 := by
      rw [manField, BitVec.toNat_ofInt, Int.toNat_of_nonneg (by omega)]; norm_num
    omega
  rw [← BitVec.toNat_inj, BitVec.extractLsb'_toNat, mkExt, BitVec.toNat_append]
  simp only [Nat.shiftRight_zero]
  rw [Nat.or_mod_two_pow, h, Nat.shiftLeft_eq]
  simp; omega

/-- What a mantissa of eight fraction bits, `q / 2^8`, gives. -/
structure EightBits (q : Int) (e : Int) (r : Ext) : Prop where
  range : 256 ≤ q ∧ q ≤ 511 ∨ -512 ≤ q ∧ q ≤ -257
  value : r = mkExt e (manField (q * 2 ^ 23))

theorem EightBits.mant_eq {q e : Int} {r : Ext} (h : EightBits q e r) : mant r = q * 2 ^ 23 := by
  rw [h.value]; have := h.range; exact mant_mkExt e (by omega)

theorem EightBits.sign_eq {q e : Int} {r : Ext} (h : EightBits q e r) : r.getLsbD 31 = decide (q < 0) := by
  have := (mant_sign r).1
  rw [h.mant_eq] at this
  cases hb : r.getLsbD 31
  · rw [hb] at this; symm; rw [decide_eq_false_iff_not]; intro hq; exact absurd (this.1 (by omega)) (by simp)
  · rw [hb] at this; symm; rw [decide_eq_true_eq]; have := this.2 rfl; omega

theorem EightBits.manValue_eq {q e : Int} {r : Ext} (h : EightBits q e r) : manValue r = q / 2 ^ 8 := by
  rw [manValue, h.mant_eq]; push_cast; field_simp; ring

/-- RcpMan: the quotient in units of 2^-8. -/
theorem rcpMan_spec (a : Ext) (e : Int) : ∃ q : Int, EightBits q e (mkExt e (rcpMan (a.extractLsb' 0 32))) ∧
    (q < 0 ↔ a.getLsbD 31 = true) ∧
    (0 < mant a → (q - 1) * mant a ≤ 2 ^ 40 ∧ 2 ^ 40 ≤ (q + 1) * mant a) ∧
    (mant a < 0 → (q + 1) * mant a ≤ 2 ^ 40 ∧ 2 ^ 40 ≤ (q - 1) * mant a) ∧
    (a.extractLsb' 23 8 ≠ 0 →
      (0 < mant a → (q - 1) * mant a < 2 ^ 40 ∧ 2 ^ 40 < (q + 1) * mant a) ∧
      (mant a < 0 → (q + 1) * mant a < 2 ^ 40 ∧ 2 ^ 40 < (q - 1) * mant a)) ∧
    (a.extractLsb' 23 8 = 0 → q = if a.getLsbD 31 then -257 else 511) := by
  have hb : (a.extractLsb' 0 32).getLsbD 31 = a.getLsbD 31 := by simp
  unfold rcpMan
  rw [eight_special, hb, mant_low]
  have hs := special_iff a
  by_cases h : a.extractLsb' 23 8 = 0
  · simp only [h, decide_true, if_true]
    rw [h] at hs; simp only [true_iff] at hs
    rcases mant_bounds a with ⟨g, h1, h2⟩ | ⟨g, h1, h2⟩
    · rw [g] at hs ⊢
      refine ⟨511, ⟨by omega, rfl⟩, ?_⟩
      simp at hs ⊢
      omega
    · rw [g] at hs ⊢
      refine ⟨-257, ⟨by omega, rfl⟩, ?_⟩
      simp at hs ⊢
      omega
  · simp only [h, decide_false, Bool.false_eq_true, if_false]
    simp only [h, false_iff] at hs
    set up := Config.rcpUp (a.extractLsb' 0 32)
    rcases mant_bounds a with ⟨g, h1, h2⟩ | ⟨g, h1, h2⟩
    · rw [g] at hs ⊢
      simp only [if_pos (show 0 < mant a by omega)]
      have hm : 2 ^ 31 + 2 ^ 23 ≤ mant a := by simp at hs; omega
      generalize mant a = m at *
      have e1 := Int.mul_ediv_add_emod (2 ^ 40) m
      have e2 := Int.emod_nonneg (2 ^ 40) (show m ≠ 0 by omega)
      have e3 := Int.emod_lt_of_pos (2 ^ 40) (show 0 < m by omega)
      generalize hd : (2 ^ 40 : Int) / m = d at *
      generalize hr : (2 ^ 40 : Int) % m = r at *
      have d1 : 256 ≤ d := by by_contra hc; nlinarith
      have d2 : d ≤ 510 := by by_contra hc; nlinarith
      refine ⟨neighbour d (r == 0) up, ⟨?_, rfl⟩, ?_⟩
      · unfold neighbour; split <;> omega
      · unfold neighbour
        split
        · rename_i hu
          have hr0 : r ≠ 0 := by intro hz; rw [hz] at hu; simp at hu
          refine ⟨by simp; omega, fun _ => ⟨by nlinarith, by nlinarith⟩, fun h => by omega,
            fun _ => ⟨fun _ => ⟨by nlinarith [lt_of_le_of_ne e2 (Ne.symm hr0)], by nlinarith⟩, fun h => by omega⟩, fun h' => h'.elim⟩
        · refine ⟨by simp; omega, fun _ => ⟨by nlinarith, by nlinarith⟩, fun h => by omega,
            fun _ => ⟨fun _ => ⟨by nlinarith, by nlinarith⟩, fun h => by omega⟩, fun h' => h'.elim⟩
    · rw [g] at hs ⊢
      simp only [if_neg (show ¬ 0 < mant a by omega)]
      have hm : -2 ^ 32 + 2 ^ 23 ≤ mant a := by simp at hs; omega
      obtain ⟨m, hm'⟩ : ∃ m, mant a = -m := ⟨-mant a, by omega⟩
      rw [hm'] at h1 h2 hm ⊢
      simp only [neg_neg]
      have e1 := Int.mul_ediv_add_emod (-2 ^ 40) m
      have e2 := Int.emod_nonneg (-2 ^ 40) (show m ≠ 0 by omega)
      have e3 := Int.emod_lt_of_pos (-2 ^ 40) (show 0 < m by omega)
      have ex : ((2 ^ 40 : Int) % m == 0) = ((-2 ^ 40 : Int) % m == 0) := by
        have : (2 ^ 40 : Int) % m = 0 ↔ (-2 ^ 40 : Int) % m = 0 := by
          rw [← Int.dvd_iff_emod_eq_zero, ← Int.dvd_iff_emod_eq_zero, Int.dvd_neg]
        by_cases h0 : (2 ^ 40 : Int) % m = 0
        · rw [h0, this.1 h0]
        · rw [beq_eq_false_iff_ne.2 h0, beq_eq_false_iff_ne.2 (mt this.2 h0)]
      rw [ex]
      generalize hd : (-2 ^ 40 : Int) / m = d at *
      generalize hr : (-2 ^ 40 : Int) % m = r at *
      have d1 : d ≤ -257 := by by_contra hc; nlinarith
      have d2 : -512 ≤ d := by by_contra hc; nlinarith
      refine ⟨min (-257) (neighbour d (r == 0) up), ⟨?_, rfl⟩, ?_⟩
      · unfold neighbour; split <;> omega
      · unfold neighbour
        split
        · rename_i hu
          have hr0 : r ≠ 0 := by intro hz; rw [hz] at hu; simp at hu
          by_cases hd7 : d = -257
          · subst hd7
            simp only [show min (-257 : Int) (-257 + 1) = -257 by decide]
            refine ⟨by simp, fun h => by omega, fun _ => ⟨by omega, by omega⟩,
              fun _ => ⟨fun h => by omega, fun _ => ⟨by omega, by omega⟩⟩, fun h' => h'.elim⟩
          · rw [min_eq_right (by omega)]
            refine ⟨by simp; omega, fun h => by omega, fun _ => ⟨by nlinarith, by nlinarith⟩,
              fun _ => ⟨fun h => by omega, fun _ => ⟨by nlinarith, by nlinarith [lt_of_le_of_ne e2 (Ne.symm hr0)]⟩⟩, fun h' => h'.elim⟩
        · rw [min_eq_right (by omega)]
          refine ⟨by simp; omega, fun h => by omega, fun _ => ⟨by nlinarith, by nlinarith⟩,
            fun _ => ⟨fun h => by omega, fun _ => ⟨by nlinarith, by nlinarith⟩⟩, fun h' => h'.elim⟩

/-! ## The integer root, RSQRF -/

/-- Each binary digit keeps the root between its bounds. -/
theorem isqrtFrom_spec (k n : Nat) : ∀ r, r * r ≤ n → n < (r + 2 ^ k) * (r + 2 ^ k) →
    isqrtFrom k n r * isqrtFrom k n r ≤ n ∧ n < (isqrtFrom k n r + 1) * (isqrtFrom k n r + 1) := by
  induction k with
  | zero => intro r h1 h2; exact ⟨h1, h2⟩
  | succ k ih =>
    intro r h1 h2
    unfold isqrtFrom
    have e : r + 2 ^ (k + 1) = r + 2 ^ k + 2 ^ k := by rw [pow_succ]; omega
    split
    · rename_i h; exact ih _ h (by rw [← e]; exact h2)
    · rename_i h; exact ih _ h1 (by omega)

/-- The integer root of a quotient. -/
theorem isqrt_quotient {N m : Nat} (hm : 0 < m) (h : N / m < 2 ^ 20) :
    let q := isqrtFrom 10 (N / m) 0
    q * q * m ≤ N ∧ N < (q + 1) * (q + 1) * m := by
  intro q
  obtain ⟨h1, h2⟩ := isqrtFrom_spec 10 (N / m) 0 (by simp) (by simpa using h)
  change q * q ≤ N / m at h1
  change N / m < (q + 1) * (q + 1) at h2
  exact ⟨(Nat.le_div_iff_mul_le hm).1 h1, (Nat.div_lt_iff_lt_mul hm).1 h2⟩

/-- sqrt(c) / sqrt(m / 2^31) in units of 2^-8. -/
theorem root_units {c : ℝ} (hc : 0 ≤ c) (m : ℤ) :
    √c / √((m : ℝ) / 2 ^ 31) = √(c * 2 ^ 47 / m) / 2 ^ 8 := by
  have h2 : (2 ^ 8 : ℝ) = √(2 ^ 16) := by
    rw [show (2 ^ 16 : ℝ) = (2 ^ 8) ^ 2 by norm_num, Real.sqrt_sq (by norm_num)]
  rw [h2, ← Real.sqrt_div hc, ← Real.sqrt_div' _ (by norm_num : (0 : ℝ) ≤ 2 ^ 16)]
  congr 1
  by_cases h : (m : ℝ) = 0
  · simp [h]
  · field_simp

/-- A result that is the integer root of `c * 2^47 / m` or the next one is near the root. -/
theorem root_near {c : ℕ} {m Q : ℤ} {q : ℕ} (hm : 0 < m) (h1 : (q : ℤ) * q * m ≤ c * 2 ^ 47)
    (h2 : (c : ℤ) * 2 ^ 47 < (q + 1) * (q + 1) * m)
    (hQ : Q = q ∨ Q = q + 1 ∧ (q : ℤ) * q * m ≠ c * 2 ^ 47) :
    |(Q : ℝ) / 2 ^ 8 - √c / √((m : ℝ) / 2 ^ 31)| < 2 ^ (-8 : ℤ) := by
  rw [root_units (by positivity), ← sub_div, abs_div, abs_of_pos (by norm_num : (0 : ℝ) < 2 ^ 8)]
  have hm' : (0 : ℝ) < m := by exact_mod_cast hm
  have r1 : (q : ℝ) * q * m ≤ c * 2 ^ 47 := by exact_mod_cast h1
  have r2 : (c : ℝ) * 2 ^ 47 < (q + 1) * (q + 1) * m := by exact_mod_cast h2
  have s1 : (q : ℝ) ≤ √(c * 2 ^ 47 / m) := Real.le_sqrt_of_sq_le (by rw [le_div_iff₀ hm']; nlinarith)
  have s2 : √(c * 2 ^ 47 / m) < q + 1 := by
    rw [Real.sqrt_lt' (by positivity), div_lt_iff₀ hm']; nlinarith
  have key : |(Q : ℝ) - √(c * 2 ^ 47 / m)| < 1 := by
    rcases hQ with rfl | ⟨rfl, hne⟩
    · rw [abs_lt]; push_cast; constructor <;> linarith
    · have r3 : (q : ℝ) * q * m < c * 2 ^ 47 := by exact_mod_cast lt_of_le_of_ne h1 hne
      have s3 : (q : ℝ) < √(c * 2 ^ 47 / m) := Real.lt_sqrt_of_sq_lt (by rw [lt_div_iff₀ hm']; nlinarith)
      rw [abs_lt]; push_cast; constructor <;> linarith
  rw [div_lt_iff₀ (by norm_num : (0 : ℝ) < 2 ^ 8), show (2 : ℝ) ^ (-8 : ℤ) * 2 ^ 8 = 1 by norm_num]
  exact key

/-- RsqMan1: the root for an odd exponent, in units of 2^-8 (R247). -/
theorem rsqMan1_spec (a : Ext) (e : Int) (h : a.getLsbD 31 = false) :
    ∃ Q : Int, EightBits Q e (mkExt e (rsqMan1 (a.extractLsb' 0 32))) ∧ 0 < Q ∧
      |(Q : ℝ) / 2 ^ 8 - √2 / √((mant a : ℝ) / 2 ^ 31)| < 2 ^ (-8 : ℤ) := by
  rcases mant_bounds a with ⟨-, h1, h2⟩ | ⟨g, -⟩
  · obtain ⟨m, hm⟩ := Int.eq_ofNat_of_zero_le (a := mant a) (by omega)
    unfold rsqMan1
    rw [mant_low, hm]
    rw [hm] at h1 h2
    simp only [Int.toNat_natCast]
    obtain ⟨q1, q2⟩ := isqrt_quotient (N := 2 ^ 48) (m := m) (by omega)
      (by rw [Nat.div_lt_iff_lt_mul (by omega)]; omega)
    generalize isqrtFrom 10 (2 ^ 48 / m) 0 = q at *
    have b1 : 256 ≤ q := by by_contra hc; nlinarith [show q + 1 ≤ 256 by omega]
    have b2 : q ≤ 363 := by by_contra hc; nlinarith [show 364 ≤ q by omega]
    generalize Config.rsq1Up (a.extractLsb' 0 32) = up
    refine ⟨neighbour q (q * q * m == 2 ^ 48) up, ⟨by unfold neighbour; split <;> omega, rfl⟩,
      by unfold neighbour; split <;> omega, ?_⟩
    have hQ : neighbour (q : ℤ) (q * q * m == 2 ^ 48) up = q ∨
        neighbour (q : ℤ) (q * q * m == 2 ^ 48) up = q + 1 ∧ (q : ℤ) * q * (m : ℤ) ≠ (2 : ℕ) * 2 ^ 47 := by
      unfold neighbour
      split
      · rename_i hu
        refine .inr ⟨rfl, fun hz => ?_⟩
        have : q * q * m = 2 ^ 48 := by exact_mod_cast hz
        rw [this] at hu; simp at hu
      · exact .inl rfl
    have := root_near (c := 2) (m := m) (by omega) (by exact_mod_cast q1) (by exact_mod_cast q2) hQ
    simpa using this
  · rw [h] at g; cases g

/-- RsqMan0: the root for an even exponent, in units of 2^-8 (R247). -/
theorem rsqMan0_spec (a : Ext) (e : Int) (h : a.getLsbD 31 = false) :
    ∃ Q : Int, EightBits Q e (mkExt e (rsqMan0 (a.extractLsb' 0 32))) ∧ 0 < Q ∧
      |(Q : ℝ) / 2 ^ 8 - 2 / √((mant a : ℝ) / 2 ^ 31)| ≤ 2 ^ (-8 : ℤ) ∧
      (a.extractLsb' 23 8 ≠ 0 → |(Q : ℝ) / 2 ^ 8 - 2 / √((mant a : ℝ) / 2 ^ 31)| < 2 ^ (-8 : ℤ)) ∧
      (a.extractLsb' 23 8 = 0 → Q = 511) := by
  have e4 : (2 : ℝ) = √((4 : ℕ) : ℝ) := by
    rw [show ((4 : ℕ) : ℝ) = 2 ^ 2 by norm_num, Real.sqrt_sq (by norm_num)]
  rw [show (2 : ℝ) / √((mant a : ℝ) / 2 ^ 31) = √((4 : ℕ) : ℝ) / √((mant a : ℝ) / 2 ^ 31) by rw [← e4]]
  have hs := special_iff a
  rw [h] at hs
  rcases mant_bounds a with ⟨-, h1, h2⟩ | ⟨g, -⟩
  · unfold rsqMan0
    rw [eight_special, mant_low]
    by_cases hsp : a.extractLsb' 23 8 = 0
    · simp only [hsp, decide_true, if_true]
      have hb : mant a < 2 ^ 31 + 2 ^ 23 := by simpa using hs.1 hsp
      refine ⟨511, ⟨by omega, rfl⟩, by omega, ?_, fun hn => absurd rfl hn, fun _ => rfl⟩
      by_cases h0 : mant a = 2 ^ 31
      · rw [h0]; push_cast
        have : √(4 : ℝ) = 2 := by rw [show (4 : ℝ) = 2 ^ 2 by norm_num, Real.sqrt_sq (by norm_num)]
        rw [this]; norm_num
      · exact (root_near (c := 4) (m := mant a) (Q := 511) (q := 511) (by omega) (by omega) (by omega) (.inl rfl)).le
    · simp only [hsp, decide_false, Bool.false_eq_true, if_false]
      have hb : 2 ^ 31 + 2 ^ 23 ≤ mant a := by
        by_contra hc; exact hsp (hs.2 (.inl ⟨by omega, rfl⟩))
      obtain ⟨m, hm⟩ := Int.eq_ofNat_of_zero_le (a := mant a) (by omega)
      rw [hm] at h1 h2 hb ⊢
      simp only [Int.toNat_natCast]
      obtain ⟨q1, q2⟩ := isqrt_quotient (N := 2 ^ 49) (m := m) (by omega)
        (by rw [Nat.div_lt_iff_lt_mul (by omega)]; omega)
      generalize isqrtFrom 10 (2 ^ 49 / m) 0 = q at *
      have b1 : 256 ≤ q := by by_contra hc; nlinarith [show q + 1 ≤ 256 by omega]
      have b2 : q ≤ 511 := by by_contra hc; nlinarith [show 512 ≤ q by omega]
      generalize Config.rsq0Up (a.extractLsb' 0 32) = up
      have hQ : min 511 (neighbour (q : ℤ) (q * q * m == 2 ^ 49) up) = q ∨
          min 511 (neighbour (q : ℤ) (q * q * m == 2 ^ 49) up) = q + 1 ∧ (q : ℤ) * q * (m : ℤ) ≠ (4 : ℕ) * 2 ^ 47 := by
        unfold neighbour
        split
        · rename_i hu
          by_cases hq : q = 511
          · left; omega
          refine .inr ⟨by omega, fun hz => ?_⟩
          have : q * q * m = 2 ^ 49 := by zify; rw [hz]; norm_num
          rw [this] at hu; simp at hu
        · left; omega
      have near := root_near (c := 4) (m := m) (by omega) (by push_cast; zify at q1; omega)
        (by push_cast; zify at q2; omega) hQ
      refine ⟨min 511 (neighbour q (q * q * m == 2 ^ 49) up), ⟨by unfold neighbour; split <;> omega, rfl⟩,
        by unfold neighbour; split <;> omega, near.le, fun _ => near, fun h' => h'.elim⟩
  · rw [h] at g; cases g

/-! ## What the estimates give -/
/-- Bounds on the product with the operand are bounds on the distance from the quotient. -/
theorem rcp_near {q m : ℤ} (hm : m ≠ 0) :
    ((0 < m → (q - 1) * m ≤ 2 ^ 40 ∧ 2 ^ 40 ≤ (q + 1) * m) → (m < 0 → (q + 1) * m ≤ 2 ^ 40 ∧ 2 ^ 40 ≤ (q - 1) * m) →
      |(q : ℝ) / 2 ^ 8 - 2 / ((m : ℝ) / 2 ^ 31)| ≤ 2 ^ (-8 : ℤ)) ∧
    ((0 < m → (q - 1) * m < 2 ^ 40 ∧ 2 ^ 40 < (q + 1) * m) → (m < 0 → (q + 1) * m < 2 ^ 40 ∧ 2 ^ 40 < (q - 1) * m) →
      |(q : ℝ) / 2 ^ 8 - 2 / ((m : ℝ) / 2 ^ 31)| < 2 ^ (-8 : ℤ)) := by
  have hr : (m : ℝ) ≠ 0 := by exact_mod_cast hm
  have e : (q : ℝ) / 2 ^ 8 - 2 / ((m : ℝ) / 2 ^ 31) = (q - 2 ^ 40 / m) / 2 ^ 8 := by field_simp
  have p8 : (0 : ℝ) < 2 ^ 8 := by norm_num
  have one : (2 : ℝ) ^ (-8 : ℤ) * 2 ^ 8 = 1 := by norm_num
  rw [e, abs_div, abs_of_pos p8, div_le_iff₀ p8, div_lt_iff₀ p8, one, abs_le, abs_lt]
  rcases lt_or_gt_of_ne hm with h | h
  · have hn : (m : ℝ) < 0 := by exact_mod_cast h
    constructor
    · intro _ hh
      obtain ⟨a, b⟩ := hh h
      have a' : ((q : ℝ) + 1) * m ≤ 2 ^ 40 := by exact_mod_cast a
      have b' : (2 : ℝ) ^ 40 ≤ (q - 1) * m := by exact_mod_cast b
      have := (le_div_iff_of_neg hn).2 b'
      have := (div_le_iff_of_neg hn).2 a'
      constructor <;> linarith
    · intro _ hh
      obtain ⟨a, b⟩ := hh h
      have a' : ((q : ℝ) + 1) * m < 2 ^ 40 := by exact_mod_cast a
      have b' : (2 : ℝ) ^ 40 < (q - 1) * m := by exact_mod_cast b
      have := (lt_div_iff_of_neg hn).2 b'
      have := (div_lt_iff_of_neg hn).2 a'
      constructor <;> linarith
  · have hn : (0 : ℝ) < m := by exact_mod_cast h
    constructor
    · intro hh _
      obtain ⟨a, b⟩ := hh h
      have a' : ((q : ℝ) - 1) * m ≤ 2 ^ 40 := by exact_mod_cast a
      have b' : (2 : ℝ) ^ 40 ≤ (q + 1) * m := by exact_mod_cast b
      have := (le_div_iff₀ hn).2 a'
      have := (div_le_iff₀ hn).2 b'
      constructor <;> linarith
    · intro hh _
      obtain ⟨a, b⟩ := hh h
      have a' : ((q : ℝ) - 1) * m < 2 ^ 40 := by exact_mod_cast a
      have b' : (2 : ℝ) ^ 40 < (q + 1) * m := by exact_mod_cast b
      have := (lt_div_iff₀ hn).2 a'
      have := (div_lt_iff₀ hn).2 b'
      constructor <;> linarith

/-- The mantissa field of a value that was put together. -/
theorem field_special (e q : Int) : (mkExt e (manField (q * 2 ^ 23))).extractLsb' 0 32 = manField (q * 2 ^ 23) := by
  apply BitVec.eq_of_getLsbD_eq
  intro i hi
  rw [BitVec.getLsbD_extractLsb', mkExt, BitVec.getLsbD_append]
  simp [hi]

/-- Rcpf of a value that is neither zero nor out of range (R246). -/
theorem fRcp_spec (a : Ext) (hz : fIsZero a = false) (h127 : expo a ≠ 127) :
    let r := (fRcp a).1
    let special : Prop := a.extractLsb' 23 8 = 0
    let v : ℝ := manValue a
    expo r = -expo a - 1 ∧ r.getLsbD 31 = a.getLsbD 31 ∧
        r.extractLsb' 0 23 = 0 ∧ |(manValue r : ℝ) - 2 / v| ≤ 2 ^ (-8 : ℤ) ∧
        (¬ special → |(manValue r : ℝ) - 2 / v| < 2 ^ (-8 : ℤ)) ∧
        (special → r.extractLsb' 0 32 = if a.getLsbD 31 then 0xFF800000 else 0x7F800000) := by
  intro r special v
  obtain ⟨q, h, hs, hp, hn, hstrict, hsp⟩ := rcpMan_spec a (-expo a - 1)
  have hr : r = mkExt (-expo a - 1) (rcpMan (a.extractLsb' 0 32)) := by
    simp only [r, fRcp, hz, h127, if_false, Bool.false_eq_true]
  rw [← hr] at h
  have hv : v = (mant a : ℝ) / 2 ^ 31 := by simp [v, manValue]
  have hmr : (manValue r : ℝ) = (q : ℝ) / 2 ^ 8 := by rw [h.manValue_eq]; push_cast; rfl
  obtain ⟨n1, n2⟩ := rcp_near (q := q) (mant_sign a).2
  have b := nonzero_expo hz
  refine ⟨?_, ?_, ?_, ?_, ?_, ?_⟩
  · rw [hr, expo_mkExt _ (by omega) (by omega)]
  · rw [h.sign_eq]; cases hb : a.getLsbD 31
    · rw [hb] at hs; simp at hs; simp; exact hs
    · rw [hb] at hs; simp at hs; simp; exact hs
  · rw [h.value]; exact field_low _ _
  · rw [hmr, hv]; exact n1 hp hn
  · intro hns; rw [hmr, hv]; exact n2 (hstrict hns).1 (hstrict hns).2
  · intro hs'; rw [h.value, field_special, hsp hs']; split <;> rfl

/-- Rsqrf of a positive value (R247). -/
theorem fRsq_spec (a : Ext) (hz : fIsZero a = false) (hpos : a.getLsbD 31 = false) :
    let r := (fRsq a).1
    let special : Prop := a.extractLsb' 23 8 = 0
    let v : ℝ := manValue a
    expo r = -(expo a + 1) / 2 ∧ r.getLsbD 31 = false ∧ r.extractLsb' 0 23 = 0 ∧
        (expo a % 2 = 0 → |(manValue r : ℝ) - 2 / √v| ≤ 2 ^ (-8 : ℤ) ∧
          (¬ special → |(manValue r : ℝ) - 2 / √v| < 2 ^ (-8 : ℤ)) ∧ (special → r.extractLsb' 0 32 = 0x7F800000)) ∧
        (expo a % 2 = 1 → |(manValue r : ℝ) - √2 / √v| < 2 ^ (-8 : ℤ)) := by
  intro r special v
  have hv : v = (mant a : ℝ) / 2 ^ 31 := by simp [v, manValue]
  have b := nonzero_expo hz
  by_cases he : expo a % 2 = 0
  · obtain ⟨q, h, hq, n1, n2, hsp⟩ := rsqMan0_spec a (-(expo a + 1) / 2) hpos
    have hr : r = mkExt (-(expo a + 1) / 2) (rsqMan0 (a.extractLsb' 0 32)) := by
      simp only [r, fRsq, hz, he, if_true, if_false, Bool.false_eq_true]
    rw [← hr] at h
    have hmr : (manValue r : ℝ) = (q : ℝ) / 2 ^ 8 := by rw [h.manValue_eq]; push_cast; rfl
    refine ⟨by rw [hr, expo_mkExt _ (by omega) (by omega)], by rw [h.sign_eq]; simp; omega, by rw [h.value]; exact field_low _ _,
      fun _ => ⟨by rw [hmr, hv]; exact n1, fun hs => by rw [hmr, hv]; exact n2 hs, fun hs => ?_⟩, fun h1 => by omega⟩
    rw [h.value, field_special, hsp hs]; rfl
  · obtain ⟨q, h, hq, n1⟩ := rsqMan1_spec a (-(expo a + 1) / 2) hpos
    have hr : r = mkExt (-(expo a + 1) / 2) (rsqMan1 (a.extractLsb' 0 32)) := by
      simp only [r, fRsq, hz, he, if_false, Bool.false_eq_true]
    rw [← hr] at h
    have hmr : (manValue r : ℝ) = (q : ℝ) / 2 ^ 8 := by rw [h.manValue_eq]; push_cast; rfl
    exact ⟨by rw [hr, expo_mkExt _ (by omega) (by omega)], by rw [h.sign_eq]; simp; omega, by rw [h.value]; exact field_low _ _,
      fun h0 => absurd h0 he, fun _ => by rw [hmr, hv]; exact n1⟩

end Sys2Proof.Machine
end

