-- ==== Sys2Proof/Laws/Legal.lean ====
section
/-! SUPPORT. `State.Legal` and the updates of one part of the state: registers, flags, status, peripherals. -/

namespace Sys2Proof.Machine

/-! ## Results whose state has a property -/

/-- Wherever the operation is done, the state after it has the property. -/
def Res.Leads {α : Type} (x : Res α) (P : State → Prop) : Prop := ∀ a t, x = .ok a t → P t

theorem Res.Leads.ok {α : Type} {P : State → Prop} {a : α} {s : State} (h : P s) : (Res.ok a s).Leads P := by
  intro b t e; cases e; exact h

theorem Res.Leads.stall {α : Type} {P : State → Prop} {l : Option Latch} : (Res.stall (α := α) l).Leads P := by
  intro b t e; cases e

theorem Res.Leads.stop {α : Type} {P : State → Prop} {x : Refusal} : (Res.stop (α := α) x).Leads P := by
  intro b t e; cases e

theorem Res.Leads.refuse {α : Type} {P : State → Prop} {r : Refusal} : (refuse (α := α) r).Leads P := Res.Leads.stop

theorem Res.Leads.bind {α β : Type} {P Q : State → Prop} {x : Res α} {f : α → State → Res β} (hx : x.Leads P)
    (hf : ∀ a t, P t → (f a t).Leads Q) : (x.bind f).Leads Q := by
  intro b u h
  obtain ⟨a, t, h1, h2⟩ := Res.bind_eq_ok h
  exact hf a t (hx a t h1) b u h2

/-! ## Parts of the state -/

theorem State.Legal.setTimer {s : State} (h : s.Legal) (t : Fin 2) {m : Timer} (hm : timerOk m = true) :
    (s.setTimer t m).Legal :=
  ⟨h.mem, h.st, h.iif, h.ivtp, h.tvtp, h.gmicr, h.lmicr, h.lru, h.delay, fun x => by
    show timerOk ((s.timers.set t m)[x]) = true
    by_cases e : t = x
    · subst e; simpa using hm
    · rw [Fin.getElem_fin, Vector.getElem_set_ne _ _ (fun e' => e (Fin.ext e'))]; exact h.timers x,
    h.ports, h.dma⟩

theorem State.Legal.setPort {s : State} (h : s.Legal) (x : Fin 6) {p : Port} (hp : portOk p = true) :
    (s.setPort x p).Legal :=
  ⟨h.mem, h.st, h.iif, h.ivtp, h.tvtp, h.gmicr, h.lmicr, h.lru, h.delay, h.timers, fun y => by
    show portOk ((s.ports.set x p)[y]) = true
    by_cases e : x = y
    · subst e; simpa using hp
    · rw [Fin.getElem_fin, Vector.getElem_set_ne _ _ (fun e' => e (Fin.ext e'))]; exact h.ports y, h.dma⟩

theorem State.Legal.setDma {s : State} (h : s.Legal) (c : Fin 6) {d : Dma} (hd : dmaOk d = true) :
    (s.setDma c d).Legal :=
  ⟨h.mem, h.st, h.iif, h.ivtp, h.tvtp, h.gmicr, h.lmicr, h.lru, h.delay, h.timers, h.ports, fun y => by
    show dmaOk ((s.dma.set c d)[y]) = true
    by_cases e : c = y
    · subst e; simpa using hd
    · rw [Fin.getElem_fin, Vector.getElem_set_ne _ _ (fun e' => e (Fin.ext e'))]; exact h.dma y⟩

theorem State.Legal.withMem {s : State} (h : s.Legal) {m : Memory} (hm : Memory.wf m = true) :
    State.Legal { s with mem := m } :=
  ⟨hm, h.st, h.iif, h.ivtp, h.tvtp, h.gmicr, h.lmicr, h.lru, h.delay, h.timers, h.ports, h.dma⟩

theorem State.Legal.setWord {s : State} (h : s.Legal) (a v : Word) :
    State.Legal { s with mem := Memory.setWord s.mem a v } := h.withMem (Memory.wf_setWord _ _ _ h.mem)

/-- A mask of bits that are all 0: said bit by bit. -/
theorem mask_zero {n : Nat} {w m : BitVec n} : w &&& m = 0#n ↔ ∀ i, m.getLsbD i = true → w.getLsbD i = false := by
  constructor
  · intro h i hi
    have := congrArg (fun z => z.getLsbD i) h
    simpa [hi] using this
  · intro h
    apply BitVec.eq_of_getLsbD_eq
    intro i _
    cases hi : m.getLsbD i
    · simp [hi]
    · simp [hi, h i hi]

/-- The reserved bits 23-17 of IIF (R55). -/
theorem iif_reserved {i : Nat} (h : (0x00FE0000#32).getLsbD i = true) : 17 ≤ i ∧ i ≤ 23 := by
  by_cases hi : i < 32
  · interval_cases i <;> first | omega | (revert h; decide)
  · rw [BitVec.getLsbD_of_ge _ _ (by omega)] at h; cases h

theorem State.Legal.withIif {s : State} (h : s.Legal) {w : Word} (hw : w &&& 0x00FE0000#32 = 0) :
    State.Legal { s with iif := w } :=
  ⟨h.mem, h.st, hw, h.ivtp, h.tvtp, h.gmicr, h.lmicr, h.lru, h.delay, h.timers, h.ports, h.dma⟩

theorem State.Legal.setIif {s : State} (h : s.Legal) {i : Nat} (b : Bool) (hi : i < 17 ∨ 24 ≤ i ∧ i < 32) :
    (s.setIif i b).Legal := by
  refine h.withIif ?_
  have h' := mask_zero.1 h.iif
  refine mask_zero.2 fun j hj => ?_
  have := iif_reserved hj
  rw [setBit_getLsbD _ _ _ _ (by omega), if_neg (by omega)]
  exact h' j hj

theorem State.Legal.clearFlag {s : State} (h : s.Legal) {b : Option Nat}
    (hb : ∀ i, b = some i → i < 17 ∨ 24 ≤ i ∧ i < 32) : (s.clearFlag b).Legal := by
  cases b with
  | none => exact h
  | some i => exact h.setIif false (hb i rfl)

theorem State.Legal.withSt {s : State} (h : s.Legal) {v : BitVec 16} (hv : v.getLsbD 12 = false) :
    State.Legal { s with st := v } :=
  ⟨h.mem, hv, h.iif, h.ivtp, h.tvtp, h.gmicr, h.lmicr, h.lru, h.delay, h.timers, h.ports, h.dma⟩

theorem State.Legal.setSt {s : State} (h : s.Legal) {i : Nat} (b : Bool) (hi : i < 16) (h12 : i ≠ 12) :
    (s.setSt i b).Legal := by
  refine h.withSt ?_
  have e := setSt_getLsbD s i 12 b hi
  rw [if_neg (by omega)] at e
  exact e.trans h.st

theorem State.Legal.withFlags {s : State} (h : s.Legal) (f : BitVec 7) : (s.withFlags f).Legal := by
  refine h.withSt ?_
  have := withFlags_getLsbD s f 12
  simp only [show ¬ 12 < 7 by decide, if_false] at this
  exact this.trans h.st

theorem State.Legal.setFlags {s : State} (h : s.Legal) (f : FlagRes) : (s.setFlags f).Legal := h.withFlags _

theorem State.Legal.saveStatus {s : State} (h : s.Legal) : s.saveStatus.Legal := by
  rw [saveStatus_eq]
  refine h.withSt ?_
  rw [enteredStatus_getLsbD]
  exact h.st

theorem State.Legal.restoreStatus {s : State} (h : s.Legal) : s.restoreStatus.Legal := by
  rw [restoreStatus_eq]
  refine h.withSt ?_
  rw [returnedStatus_getLsbD]
  exact h.st

theorem State.Legal.withDelay {s : State} (h : s.Legal) {d : Option Delay} (hd : delayOk d = true) :
    State.Legal { s with delay := d } :=
  ⟨h.mem, h.st, h.iif, h.ivtp, h.tvtp, h.gmicr, h.lmicr, h.lru, hd, h.timers, h.ports, h.dma⟩

theorem State.Legal.jump {s : State} (h : s.Legal) (p : Word) : (s.jump p).Legal :=
  ⟨h.mem, h.st, h.iif, h.ivtp, h.tvtp, h.gmicr, h.lmicr, h.lru, h.delay, h.timers, h.ports, h.dma⟩

theorem State.Legal.delayed {s : State} (h : s.Legal) (p : Option Word) (b : Bool) (k : SlotKind) :
    (s.delayed p b k).Legal := h.withDelay (by rfl)

theorem State.Legal.waiting {s : State} (h : s.Legal) (l : Option Latch) : (s.waiting l).Legal :=
  ⟨h.mem, h.st, h.iif, h.ivtp, h.tvtp, h.gmicr, h.lmicr, h.lru, h.delay, h.timers, h.ports, h.dma⟩

theorem State.Legal.settled {s : State} (h : s.Legal) : s.settled.Legal :=
  ⟨h.mem, h.st, h.iif, h.ivtp, h.tvtp, h.gmicr, h.lmicr, h.lru, h.delay, h.timers, h.ports, h.dma⟩

/-- Pins, the count of free values, the script and the latch are not among the fields of `Legal`. -/
theorem State.Legal.outside {s : State} (h : s.Legal) (p : Pins) (n : Nat) (l : BusLatch) (b : Option BootPhase)
    (x : List Boundary) : State.Legal { s with pins := p, free := n, latch := l, boot := b, script := x } :=
  ⟨h.mem, h.st, h.iif, h.ivtp, h.tvtp, h.gmicr, h.lmicr, h.lru, h.delay, h.timers, h.ports, h.dma⟩

/-! ## Registers -/

theorem State.Legal.wrIif {s : State} (h : s.Legal) (v : Word) : (s.wrIif v).Legal := by
  have h' := mask_zero.1 h.iif
  refine h.withIif (mask_zero.2 fun j hj => ?_)
  have hj' := iif_reserved hj
  have keep : ∀ (x : Fin 4) (w : Word), w.getLsbD j = false → (keepInput s.iif v x w).getLsbD j = false := by
    intro x w hw
    unfold keepInput
    split
    · rw [setBit_getLsbD _ _ _ _ (by omega), if_neg (by omega)]; exact hw
    · exact hw
  refine keep 0 _ (keep 1 _ (keep 2 _ (keep 3 _ ?_)))
  simp only [BitVec.getLsbD_or, BitVec.getLsbD_and, h' j hj]
  obtain ⟨h1, h2⟩ := hj'
  interval_cases j <;> simp

theorem Cache.clear_lru (c : Cache) : c.clear.lru = c.lru := rfl

theorem State.Legal.wrSt {s : State} (h : s.Legal) (v : Word) : (s.wrSt v).Legal := by
  refine ⟨h.mem, ?_, h.iif, h.ivtp, h.tvtp, h.gmicr, h.lmicr, ?_, h.delay, h.timers, h.ports, h.dma⟩
  · show (v.extractLsb' 0 16 &&& 0xEFFF#16).getLsbD 12 = false
    rw [BitVec.getLsbD_and]; simp
  · show (if v.getLsbD 12 then s.cache.clear else s.cache).lru.Perm [0, 1, 2, 3]
    split <;> exact h.lru

theorem State.Legal.wrF {s : State} (h : s.Legal) (n : Fin 12) (v : Ext) : (s.wrF n v).Legal :=
  ⟨h.mem, h.st, h.iif, h.ivtp, h.tvtp, h.gmicr, h.lmicr, h.lru, h.delay, h.timers, h.ports, h.dma⟩

theorem State.Legal.wrAr {s : State} (h : s.Legal) (n : Fin 8) (v : Word) : (s.wrAr n v).Legal :=
  ⟨h.mem, h.st, h.iif, h.ivtp, h.tvtp, h.gmicr, h.lmicr, h.lru, h.delay, h.timers, h.ports, h.dma⟩

theorem State.Legal.wrI {s : State} (h : s.Legal) (d : Reg) (v : Word) : (s.wrI d v).Legal := by
  cases d with
  | st => exact h.wrSt v
  | iif => exact h.wrIif v
  | _ => exact ⟨h.mem, h.st, h.iif, h.ivtp, h.tvtp, h.gmicr, h.lmicr, h.lru, h.delay, h.timers, h.ports, h.dma⟩

theorem aligned_mask (v : Word) : v &&& 0xFFFFFE00#32 &&& 0x1FF#32 = 0 := by
  rw [BitVec.and_assoc, show (0xFFFFFE00#32 &&& 0x1FF#32) = 0#32 by decide]; simp

theorem State.Legal.wrX {s : State} (h : s.Legal) (x : XReg) (v : Word) : (s.wrX x v).Legal := by
  cases x with
  | ivtp => exact ⟨h.mem, h.st, h.iif, aligned_mask v, h.tvtp, h.gmicr, h.lmicr, h.lru, h.delay, h.timers, h.ports, h.dma⟩
  | tvtp => exact ⟨h.mem, h.st, h.iif, h.ivtp, aligned_mask v, h.gmicr, h.lmicr, h.lru, h.delay, h.timers, h.ports, h.dma⟩

theorem State.Legal.putI {s : State} (h : s.Legal) (d : Reg) (v : Word) (f : FlagRes) : (s.putI d v f).Legal := by
  unfold State.putI
  split
  · exact (h.wrI d v).setFlags f
  · exact h.wrI d v

theorem State.Legal.putF {s : State} (h : s.Legal) (n : Fin 12) (v : Ext) (f : FlagRes) : (s.putF n v f).Legal :=
  (h.wrF n v).setFlags f

theorem State.Legal.exe {s : State} (h : s.Legal) {f : State → State} (hf : s.Legal → (f s).Legal) : (s.exe f).Legal := by
  unfold State.exe
  split
  · exact h
  · exact hf h

end Sys2Proof.Machine
end

