-- ==== Sys2Proof/Laws/LegalAccess.lean ====
section
/-! SUPPORT. Every access keeps `State.Legal`: the registers of the peripheral space, the external interfaces, the
cache, and the operands read through them. -/

namespace Sys2Proof.Machine

/-! ## Timers -/

theorem timerOk_of_ctl {m m' : Timer} (h : timerOk m = true) (e : m'.ctl = m.ctl) : timerOk m' = true := by
  unfold timerOk at *
  rw [e]; exact h

theorem timerEvent_legal {s : State} (h : s.Legal) (t : Fin 2) : (timerEvent t s).Legal := by
  unfold timerEvent
  dsimp only
  have ht : tintBit t < 17 ∨ 24 ≤ tintBit t ∧ tintBit t < 32 := by unfold tintBit; split <;> omega
  have h1 : ∀ b : Bool, (s.setTimer t { s.timers[t] with tstat := b }).Legal := fun b =>
    h.setTimer t (timerOk_of_ctl (m := s.timers[t]) (h.timers t) rfl)
  generalize (if s.timers[t].cp then !s.timers[t].tstat else true) = b
  split
  · exact (h1 b).setIif true ht
  · exact h1 b

/-- Clearing GO keeps the R/W bits (R771). -/
theorem clear_go {w : Word} (h : (w &&& 0x7C7#32 == w) = true) : (setBit w 6 false &&& 0x7C7#32 == setBit w 6 false) = true := by
  simp only [beq_iff_eq] at h ⊢
  unfold setBit
  simp only [Bool.false_eq_true, if_false]
  rw [BitVec.and_assoc, BitVec.and_comm _ 0x7C7#32, ← BitVec.and_assoc, h]

theorem timerTick_legal {s : State} (h : s.Legal) (t : Fin 2) : (timerTick t s).Legal := by
  unfold timerTick
  dsimp only
  split
  · exact h
  split
  · exact h.setTimer t (clear_go (h.timers t))
  split
  · split
    · exact h
    · exact timerEvent_legal h t
  split
  · refine timerEvent_legal (h.setTimer t ?_) t
    exact timerOk_of_ctl (m := s.timers[t]) (h.timers t) rfl
  · exact h.setTimer t (timerOk_of_ctl (h.timers t) rfl)

theorem timerH1_legal {s : State} (h : s.Legal) (t : Fin 2) : (timerH1 t s).Legal := by
  unfold timerH1
  split
  · exact h
  have h1 : (endPulse t s).Legal := by
    unfold endPulse
    dsimp only
    split
    · exact h.setTimer t (timerOk_of_ctl (h.timers t) rfl)
    · exact h
  have h2 : (fastClock t (endPulse t s)).Legal := by
    unfold fastClock
    dsimp only
    split
    · exact timerEvent_legal h1 t
    · exact h1
  dsimp only
  have h3 := h2.setTimer t (timerOk_of_ctl (m' := { (fastClock t (endPulse t s)).timers[t] with
    half := !(fastClock t (endPulse t s)).timers[t].half }) (h2.timers t) rfl)
  split
  · exact timerTick_legal h3 t
  · exact h3

theorem timerCtlWrite_legal {s : State} (h : s.Legal) (t : Fin 2) (v : Word) : (timerCtlWrite t v s).Legal := by
  unfold timerCtlWrite
  dsimp only
  have h1 : (s.setTimer t { s.timers[t] with ctl := v &&& 0x7C7#32 }).Legal := by
    refine h.setTimer t ?_
    simp only [timerOk, beq_iff_eq]
    rw [BitVec.and_assoc, BitVec.and_self]
  split
  · exact timerTick_legal h1 t
  · exact h1

theorem timerWrite_legal {s : State} (h : s.Legal) (t : Fin 2) (off : Nat) (v : Word) : (timerWrite t off v s).Legal := by
  unfold timerWrite
  split
  · exact timerCtlWrite_legal h t v
  split
  · exact h.setTimer t (timerOk_of_ctl (h.timers t) rfl)
  split
  · exact h.setTimer t (timerOk_of_ctl (h.timers t) rfl)
  · exact h

theorem tclkEvent_legal {s : State} (h : s.Legal) (t : Fin 2) (level : Bool) : (tclkEvent t level s).Legal := by
  unfold tclkEvent
  dsimp only
  split
  · split
    · exact timerTick_legal (h.outside _ _ _ _ _) t
    · exact h.outside _ _ _ _ _
  · split
    · exact timerTick_legal (h.outside _ _ _ _ _) t
    · exact h.outside _ _ _ _ _

/-! ## Communication ports -/

theorem portOk_iff (p : Port) : portOk p = true ↔ p.inq.length ≤ 8 ∧ p.outq.length ≤ 8 := by simp [portOk]

theorem cpcrWrite_legal {s : State} (h : s.Legal) (x : Fin 6) (v : Word) : (cpcrWrite x v s).Legal :=
  h.setPort x (h.ports x)

theorem portRead_leads {s : State} (h : s.Legal) (x : Fin 6) : (portRead x s).Leads State.Legal := by
  unfold portRead
  split
  · exact .stall
  · rename_i w t e
    refine .ok (h.setPort x ?_)
    have := (portOk_iff _).1 (h.ports x)
    rw [e] at this
    exact (portOk_iff _).2 ⟨by simpa using Nat.le_of_succ_le this.1, this.2⟩

theorem append_out {s : State} (h : s.Legal) (x : Fin 6) (w : Word) (hl : s.ports[x].outq.length < 8) :
    (s.setPort x { s.ports[x] with outq := s.ports[x].outq ++ [w] }).Legal := by
  refine h.setPort x ((portOk_iff _).2 ⟨((portOk_iff _).1 (h.ports x)).1, ?_⟩)
  simp only [List.length_append, List.length_singleton]
  omega

theorem portWrite_leads {s : State} (h : s.Legal) (ag : BusAgent) (x : Fin 6) (w : Word) :
    (portWrite ag x w s).Leads State.Legal := by
  unfold portWrite
  dsimp only
  split
  · exact .ok (append_out h x w ‹_›)
  · exact .stall

theorem drainLatch_legal {s : State} (h : s.Legal) : (drainLatch s).Legal := by
  unfold drainLatch
  split
  · exact h
  dsimp only
  split
  · rename_i l _ hc
    exact (append_out h l.port l.word hc).outside _ _ _ _ _
  · exact h

/-! ## The registers of the DMA channels -/

theorem dmaOk_iff (d : Dma) : dmaOk d = true ↔
    d.ctl &&& 0x43FFFFFF#32 = d.ctl ∧ codesOk d.ctl = true ∧ autoOk d.auto = true ∧ autoOk d.aauto = true := by
  simp [dmaOk, and_assoc]

/-- Only the control word and the progress of an autoinitialization count for `dmaOk`. -/
theorem dmaOk_of_same {d d' : Dma} (h : dmaOk d = true) (e1 : d'.ctl = d.ctl) (e2 : d'.auto = d.auto ∨ d'.auto = none)
    (e3 : d'.aauto = d.aauto ∨ d'.aauto = none) : dmaOk d' = true := by
  obtain ⟨h1, h2, h3, h4⟩ := (dmaOk_iff d).1 h
  refine (dmaOk_iff d').2 ⟨by rw [e1]; exact h1, by rw [e1]; exact h2, ?_, ?_⟩
  · rcases e2 with e | e <;> rw [e]
    · exact h3
    · rfl
  · rcases e3 with e | e <;> rw [e]
    · exact h4
    · rfl

theorem applyStart_ok {d : Dma} (h : dmaOk d = true) : dmaOk d.applyStart = true := by
  have two : ∀ (x : Dma), dmaOk x = true → dmaOk (if x.auxStart = 0 then
      { x with atmp := none, aauto := none, wl := if x.split then false else x.wl } else x) = true := by
    intro x hx
    split
    · exact dmaOk_of_same (d := x) hx rfl (.inl rfl) (.inr rfl)
    · exact hx
  unfold Dma.applyStart
  apply two
  split
  · exact dmaOk_of_same (d := d) h rfl (.inr rfl) (.inl rfl)
  · exact h

/-- The fields DMA PRI and COM PORT of a word, by their bits. -/
theorem codesOk_of_bits {v w : Word} (h : codesOk w = true) (h0 : v.extractLsb' 0 2 = w.extractLsb' 0 2)
    (h1 : v.extractLsb' 15 3 = w.extractLsb' 15 3) : codesOk v = true := by
  unfold codesOk at *
  rw [h0, h1]; exact h

theorem field_eq {v w : Word} {a n : Nat} (h : ∀ i, i < n → v.getLsbD (a + i) = w.getLsbD (a + i)) :
    v.extractLsb' a n = w.extractLsb' a n := by
  apply BitVec.eq_of_getLsbD_eq
  intro i hi
  simp only [BitVec.getLsbD_extractLsb', hi, decide_true, Bool.true_and]
  exact h i hi

theorem ctlReserved_codes {c : Fin 6} {v : Word} (h : ctlReserved c v = false) : codesOk v = true := by
  unfold ctlReserved at h
  simp only [Bool.or_eq_false_iff, decide_eq_false_iff_not, beq_eq_false_iff_ne] at h
  obtain ⟨⟨⟨h1, h2⟩, -⟩, -⟩ := h
  simp only [codesOk, Bool.and_eq_true, bne_iff_ne, decide_eq_true_eq]
  exact ⟨h1, by omega⟩

theorem dmaWriteCtl_leads {s : State} (h : s.Legal) (c : Fin 6) (v : Word) :
    (dmaWriteCtl c v s).Leads State.Legal := by
  unfold dmaWriteCtl
  split
  · exact .refuse
  rename_i hr
  obtain ⟨h1, h2, h3, h4⟩ := (dmaOk_iff _).1 (h.dma c)
  have hv := ctlReserved_codes (Bool.eq_false_iff.2 hr)
  have key : dmaOk { s.dma[c] with ctl := (v &&& 0x43CFFFFF#32) ||| (s.dma[c].ctl &&& 0x300000#32) } = true := by
    refine (dmaOk_iff _).2 ⟨?_, ?_, h3, h4⟩
    · apply BitVec.eq_of_getLsbD_eq
      intro i hi
      simp only [BitVec.getLsbD_and, BitVec.getLsbD_or]
      interval_cases i <;> simp
    · refine codesOk_of_bits hv (field_eq fun i hi => ?_) (field_eq fun i hi => ?_) <;>
        simp only [BitVec.getLsbD_and, BitVec.getLsbD_or] <;> interval_cases i <;> simp
  exact .ok ((h.setDma c (applyStart_ok key)).outside _ _ _ _ _)

theorem dmaRead_legal {s : State} (h : s.Legal) (c : Fin 6) (off : Nat) : (dmaRead c off s).2.Legal := by
  unfold dmaRead
  dsimp only
  split <;> first | exact h | exact h.outside _ _ _ _ _ | skip
  obtain ⟨h1, h2, h3, h4⟩ := (dmaOk_iff _).1 (h.dma c)
  refine h.setDma c ((dmaOk_iff _).2 ⟨?_, ?_, h3, h4⟩)
  · show s.dma[c].ctl &&& 0xFFCFFFFF#32 &&& 0x43FFFFFF#32 = s.dma[c].ctl &&& 0xFFCFFFFF#32
    rw [BitVec.and_assoc, BitVec.and_comm 0xFFCFFFFF#32, ← BitVec.and_assoc, h1]
  · refine codesOk_of_bits h2 (field_eq fun i hi => ?_) (field_eq fun i hi => ?_) <;>
      simp only [BitVec.getLsbD_and] <;> interval_cases i <;> simp

theorem dmaWrite_leads {s : State} (h : s.Legal) (c : Fin 6) (off : Nat) (v : Word) :
    (dmaWrite c off v s).Leads State.Legal := by
  unfold dmaWrite
  dsimp only
  split
  · exact dmaWriteCtl_leads h c v
  all_goals first
    | exact .ok (h.setDma c (dmaOk_of_same (h.dma c) rfl (.inl rfl) (.inl rfl)))
    | exact .ok h

/-! ## The peripheral space -/

theorem draw_legal {s : State} (h : s.Legal) : (drawWord s).2.Legal := h.outside _ _ _ _ _

theorem ofPair_leads {x : Word × State} (h : x.2.Legal) : (Res.ofPair x).Leads State.Legal := .ok h

theorem micrRead_leads {s : State} (h : s.Legal) (off : Nat) : (micrRead off s).Leads State.Legal := by
  unfold micrRead
  split
  · exact .ok h
  split
  · exact .ok h
  · exact ofPair_leads (draw_legal h)

theorem timerRead_leads {s : State} (h : s.Legal) (t : Fin 2) (off : Nat) : (timerRead t off s).Leads State.Legal := by
  unfold timerRead
  split
  · exact .ok h
  split
  · exact .ok h
  split
  · exact .ok h
  · exact ofPair_leads (draw_legal h)

theorem portBlockRead_leads {s : State} (h : s.Legal) (x : Fin 6) (off : Nat) :
    (portBlockRead x off s).Leads State.Legal := by
  unfold portBlockRead
  split
  · exact ofPair_leads (h.outside _ _ _ _ _)
  split
  · exact portRead_leads h x
  · exact ofPair_leads (draw_legal h)

theorem periphRead_leads {s : State} (h : s.Legal) (a : Word) : (periphRead a s).Leads State.Legal := by
  unfold periphRead
  dsimp only
  split
  · exact .stall
  split
  all_goals first
    | exact micrRead_leads h _
    | exact timerRead_leads h _ _
    | exact portBlockRead_leads h _ _
    | exact ofPair_leads (dmaRead_legal h _ _)
    | exact ofPair_leads (draw_legal h)

theorem micrStore_mask (v : Word) : micrStore v &&& 0xC000000F#32 = 0 := by
  unfold micrStore
  rw [BitVec.and_assoc, show (0x3FFFFFF0#32 &&& 0xC000000F#32) = 0#32 by decide]; simp

theorem micrWrite_legal {s : State} (h : s.Legal) (off : Nat) (v : Word) : (micrWrite off v s).Legal := by
  unfold micrWrite
  split
  · exact ⟨h.mem, h.st, h.iif, h.ivtp, h.tvtp, micrStore_mask v, h.lmicr, h.lru, h.delay, h.timers, h.ports, h.dma⟩
  split
  · exact ⟨h.mem, h.st, h.iif, h.ivtp, h.tvtp, h.gmicr, micrStore_mask v, h.lru, h.delay, h.timers, h.ports, h.dma⟩
  · exact h

theorem portBlockWrite_leads {s : State} (h : s.Legal) (ag : BusAgent) (x : Fin 6) (off : Nat) (v : Word) :
    (portBlockWrite ag x off v s).Leads State.Legal := by
  unfold portBlockWrite
  split
  · exact .ok (cpcrWrite_legal h x v)
  split
  · exact portWrite_leads h ag x v
  · exact .ok h

theorem periphWrite_leads {s : State} (h : s.Legal) (ag : BusAgent) (a v : Word) :
    (periphWrite ag a v s).Leads State.Legal := by
  unfold periphWrite
  dsimp only
  split
  · exact .ok (h.outside _ _ _ _ _)
  split
  · exact .stall
  split
  all_goals first
    | exact .ok (micrWrite_legal h _ v)
    | exact .ok h
    | exact .ok (timerWrite_legal h _ _ v)
    | exact portBlockWrite_leads h ag _ _ v
    | exact dmaWrite_leads h _ _ v

/-! ## Data accesses and the cache -/

theorem extRead_legal {s : State} (h : s.Legal) (k : Access) (g : Bool) (a : Word) : (extRead k g a s).2.Legal := by
  obtain ⟨x, y, f, e⟩ := extRead_state k g a s
  rw [e]
  exact h.outside _ _ _ _ _

theorem memRead_leads {s : State} (h : s.Legal) (k : Access) (a : Word) : (memRead k a s).Leads State.Legal := by
  unfold memRead
  split
  all_goals first
    | exact .ok h
    | exact periphRead_leads h a
    | exact ofPair_leads (extRead_legal h _ _ _)
    | exact .stop

theorem dataRead_leads {s : State} (h : s.Legal) (a : Word) : (dataRead a s).Leads State.Legal := memRead_leads h _ _

theorem extWrite_legal {s : State} (h : s.Legal) (k : Access) (g : Bool) (a v : Word) : (extWrite k g a v s).Legal := by
  obtain ⟨n, x, y, f, e, hn⟩ := extWrite_state k g a v s
  rw [e]
  have h1 : Memory.wf n = true := by
    rcases hn with rfl | rfl
    · exact h.mem
    · exact Memory.wf_setWord _ _ _ h.mem
  exact (h.withMem h1).outside _ _ _ _ _

theorem memWrite_leads {s : State} (h : s.Legal) (k : Access) (ag : BusAgent) (a v : Word) :
    (memWrite k ag a v s).Leads State.Legal := by
  unfold memWrite
  split
  all_goals first
    | exact .ok (h.setWord a v)
    | exact .ok h
    | exact periphWrite_leads h ag a v
    | exact .ok (extWrite_legal h _ _ _ _)
    | exact .stop

theorem dataWrite_leads {s : State} (h : s.Legal) (a v : Word) : (dataWrite a v s).Leads State.Legal :=
  memWrite_leads h _ _ _ _

/-- `touch` keeps the LRU stack a permutation of the segments (R132). -/
theorem touch_lru {c : Cache} (h : c.lru.Perm [0, 1, 2, 3]) (g : Fin 4) : (c.touch g).lru.Perm [0, 1, 2, 3] := by
  have hn : c.lru.Nodup := h.nodup_iff.2 (by decide)
  have hm : g ∈ c.lru := h.mem_iff.2 (by revert g; decide)
  refine List.Perm.trans ?_ h
  show (g :: c.lru.filter fun x => x != g).Perm c.lru
  have e : (c.lru.filter fun x => x != g) = c.lru.erase g := (hn.erase_eq_filter g).symm
  rw [e]
  exact (List.perm_cons_erase hm).symm

theorem State.Legal.withCache {s : State} (h : s.Legal) {c : Cache} (hc : c.lru.Perm [0, 1, 2, 3]) :
    State.Legal { s with cache := c } :=
  ⟨h.mem, h.st, h.iif, h.ivtp, h.tvtp, h.gmicr, h.lmicr, hc, h.delay, h.timers, h.ports, h.dma⟩

theorem cacheFetch_leads {s : State} (h : s.Legal) (g : Bool) (a : Word) : (cacheFetch g a s).Leads State.Legal := by
  have he := extRead_legal h .program g a
  unfold cacheFetch
  dsimp only
  split
  · exact ofPair_leads he
  split
  · split
    · refine .ok ?_
      split
      · exact h
      · exact h.withCache (touch_lru h.lru _)
    · refine .ok ?_
      split
      · exact he
      · exact he.withCache (touch_lru (c := Cache.setSeg _ _ _) he.lru _)
  · refine .ok ?_
    split
    · exact he
    · exact he.withCache (touch_lru (c := Cache.setSeg _ _ _) he.lru _)

theorem instrFetch_leads {s : State} (h : s.Legal) (a : Word) : (instrFetch a s).Leads State.Legal := by
  unfold instrFetch
  split
  all_goals first
    | exact .ok h
    | exact cacheFetch_leads h _ a
    | exact .stop

/-! ## The stack and the exceptions -/

theorem push_leads {s : State} (h : s.Legal) (v : Word) : (push v s).Leads State.Legal :=
  dataWrite_leads (h.wrI .sp (s.sp + 1)) _ _

theorem pop_leads {s : State} (h : s.Legal) : (pop s).Leads State.Legal :=
  (dataRead_leads h _).bind fun _ t ht => .ok (ht.wrI .sp (t.sp - 1))

theorem enterException_leads {s : State} (h : s.Legal) (ret vector : Word) :
    (enterException ret vector s).Leads State.Legal :=
  (push_leads h.saveStatus ret).bind fun _ _ ht => (dataRead_leads ht _).bind fun _ _ hu => .ok (hu.jump _)

theorem leaveException_leads {s : State} (h : s.Legal) : (leaveException s).Leads State.Legal :=
  (pop_leads h).bind fun _ _ ht => .ok ht.restoreStatus

/-! ## Operands -/

theorem indUpdate_legal {s : State} (h : s.Legal) (i : Ind) (b : State) : (indUpdate i b s).Legal := by
  unfold indUpdate
  split
  · exact h.wrAr _ _
  · exact h

theorem indEval_leads {s : State} (h : s.Legal) (i : Ind) : (indEval i s).Leads State.Legal :=
  .ok (indUpdate_legal h i s)

theorem indEval2_leads {s : State} (h : s.Legal) (i j : Ind) : (indEval2 i j s).Leads State.Legal :=
  .ok (indUpdate_legal (by split; exacts [h, indUpdate_legal h j s]) i s)

theorem memEval_leads {s : State} (h : s.Legal) (m : Mem) : (memEval m s).Leads State.Legal := by
  unfold memEval
  split
  · exact .ok h
  · exact indEval_leads h _

theorem indRead_leads {s : State} (h : s.Legal) (i : Ind) : (indRead i s).Leads State.Legal :=
  (indEval_leads h i).bind fun _ _ ht => dataRead_leads ht _

theorem srcMem_leads {s : State} (h : s.Legal) (m : Mem) : (srcMem m s).Leads State.Legal :=
  (memEval_leads h m).bind fun _ _ ht => dataRead_leads ht _

theorem srcI_leads {s : State} (h : s.Legal) (x : Src) : (srcI x s).Leads State.Legal := by
  unfold srcI
  split <;> first | exact .ok h | exact dataRead_leads h _ | exact indRead_leads h _

theorem srcU_leads {s : State} (h : s.Legal) (x : Src) : (srcU x s).Leads State.Legal := by
  unfold srcU
  split <;> first | exact .ok h | exact dataRead_leads h _ | exact indRead_leads h _

theorem srcR_leads {s : State} (h : s.Legal) (x : RSrc) : (srcR x s).Leads State.Legal := by
  unfold srcR
  split <;> first | exact .ok h | exact dataRead_leads h _ | exact indRead_leads h _

theorem asFloat_leads {x : Res Word} (h : x.Leads State.Legal) : (asFloat x).Leads State.Legal :=
  h.bind fun _ _ ht => .ok ht

theorem srcF_leads {s : State} (h : s.Legal) (x : FSrc) : (srcF x s).Leads State.Legal := by
  unfold srcF
  split <;> first | exact .ok h | exact asFloat_leads (dataRead_leads h _) | exact asFloat_leads (indRead_leads h _)

theorem srcFR_leads {s : State} (h : s.Legal) (x : FRSrc) : (srcFR x s).Leads State.Legal := by
  unfold srcFR
  split <;> first | exact .ok h | exact asFloat_leads (dataRead_leads h _) | exact asFloat_leads (indRead_leads h _)

theorem srcMan_leads {s : State} (h : s.Legal) (x : FSrc) : (srcMan x s).Leads State.Legal := by
  unfold srcMan
  split <;> first | exact .ok h | exact dataRead_leads h _ | exact indRead_leads h _

theorem indRead2_leads {s : State} (h : s.Legal) (i j : Ind) : (indRead2 i j s).Leads State.Legal :=
  (indEval2_leads h i j).bind fun _ _ ht => (dataRead_leads ht _).bind fun _ _ hu => (dataRead_leads hu _).bind
    fun _ _ hv => .ok hv

theorem read2_leads {s : State} (h : s.Legal) (a b : Word) : (read2 a b s).Leads State.Legal :=
  (dataRead_leads h _).bind fun _ _ hu => (dataRead_leads hu _).bind fun _ _ hv => .ok hv

theorem src3_leads {s : State} (h : s.Legal) (o : Ops3) : (src3 o s).Leads State.Legal := by
  unfold src3
  split
  all_goals first
    | exact .ok h
    | exact indRead2_leads h _ _
    | exact read2_leads h _ _
    | exact (indRead_leads h _).bind fun _ _ ht => .ok ht
    | exact (dataRead_leads h _).bind fun _ _ ht => .ok ht

theorem asFloat2_leads {x : Res (Word × Word)} (h : x.Leads State.Legal) : (asFloat2 x).Leads State.Legal :=
  h.bind fun _ _ ht => .ok ht

theorem src3F_leads {s : State} (h : s.Legal) (o : FOps3) : (src3F o s).Leads State.Legal := by
  unfold src3F
  split
  all_goals first
    | exact .ok h
    | exact asFloat2_leads (indRead2_leads h _ _)
    | exact asFloat2_leads (read2_leads h _ _)
    | exact (asFloat_leads (indRead_leads h _)).bind fun _ _ ht => .ok ht
    | exact (asFloat_leads (dataRead_leads h _)).bind fun _ _ ht => .ok ht
    | exact (indRead_leads h _).bind fun _ _ ht => .ok ht
    | exact (dataRead_leads h _).bind fun _ _ ht => .ok ht

theorem store_leads {s : State} (h : s.Legal) (a v : Word) : (store a v s).Leads State.Legal := by
  unfold store
  split
  · exact .ok h
  · exact dataWrite_leads h a v

theorem storeOpen_leads {s : State} (h : s.Legal) (a : Word) : (storeOpen a s).Leads State.Legal :=
  (store_leads (draw_legal (draw_legal h)) a _).bind fun _ _ hu => store_leads hu a _

end Sys2Proof.Machine
end

