-- ==== Sys2Proof/Laws/LegalAgents.lean ====
section
/-! SUPPORT. The agents that are not the CPU keep `State.Legal`: the DMA channels, the events of a boundary, reset, the
boot loader and the boundary itself; and so does what follows an instruction. -/

namespace Sys2Proof.Machine

/-! ## Bits of a DMA control word -/

theorem setBit_codes {w : Word} {i : Nat} (b : Bool) (h : codesOk w = true) (hi : 18 ≤ i) (hi' : i < 32) :
    codesOk (setBit w i b) = true := by
  refine codesOk_of_bits h (field_eq fun j hj => ?_) (field_eq fun j hj => ?_) <;>
    rw [setBit_getLsbD _ _ _ _ hi', if_neg (by omega)]

theorem setBit_ctl {w : Word} {i : Nat} (b : Bool) (h : w &&& 0x43FFFFFF#32 = w) (hi : i < 26) :
    setBit w i b &&& 0x43FFFFFF#32 = setBit w i b := by
  apply BitVec.eq_of_getLsbD_eq
  intro j hj
  have := congrArg (fun z => z.getLsbD j) h
  simp only [BitVec.getLsbD_and] at this ⊢
  rw [setBit_getLsbD _ _ _ _ (by omega)]
  by_cases e : j = i
  · subst e
    have : (0x43FFFFFF#32).getLsbD j = true := by interval_cases j <;> rfl
    rw [this, Bool.and_true]
  · rw [if_neg e]; exact this

theorem dmaOk_setBit {d : Dma} (h : dmaOk d = true) (i : Nat) (b : Bool) (hi : 18 ≤ i) (hi' : i < 26) :
    dmaOk { d with ctl := setBit d.ctl i b } = true := by
  obtain ⟨h1, h2, h3, h4⟩ := (dmaOk_iff d).1 h
  exact (dmaOk_iff _).2 ⟨setBit_ctl b h1 hi', setBit_codes b h2 hi (by omega), h3, h4⟩

theorem halt_ok {d : Dma} (h : dmaOk d = true) : dmaOk d.halt = true :=
  dmaOk_setBit (dmaOk_setBit h 23 true (by omega) (by omega)) 22 false (by omega) (by omega)

theorem auxHalt_ok {d : Dma} (h : dmaOk d = true) : dmaOk d.auxHalt = true :=
  dmaOk_setBit (dmaOk_setBit h 25 true (by omega) (by omega)) 24 false (by omega) (by omega)

/-! ## Steps of a channel -/

theorem dmaInt_legal {s : State} (h : s.Legal) (c : Fin 6) (b : Bool) : (dmaInt c b s).Legal := by
  unfold dmaInt
  split
  · exact h.setIif true (.inr (by have := c.isLt; omega))
  · exact h

theorem blockEnd_legal {s : State} (h : s.Legal) (c : Fin 6) : (blockEnd c s).Legal := by
  unfold blockEnd
  dsimp only
  have hd := dmaOk_setBit (h.dma c) 20 true (by omega) (by omega)
  refine dmaInt_legal (h.setDma c ?_) c _
  split
  · exact halt_ok hd
  · exact hd

theorem auxBlockEnd_legal {s : State} (h : s.Legal) (c : Fin 6) : (auxBlockEnd c s).Legal := by
  unfold auxBlockEnd
  dsimp only
  have hd := dmaOk_setBit (h.dma c) 21 true (by omega) (by omega)
  refine dmaInt_legal (h.setDma c ?_) c _
  split
  · exact auxHalt_ok hd
  · exact hd

theorem countDown_legal {s : State} (h : s.Legal) (c : Fin 6) : (countDown c s).Legal := by
  unfold countDown
  dsimp only
  have h1 : (s.setDma c { s.dma[c] with cnt := s.dma[c].cnt - 1 }).Legal :=
    h.setDma c (dmaOk_of_same (d := s.dma[c]) (h.dma c) rfl (.inl rfl) (.inl rfl))
  split
  · exact blockEnd_legal h1 c
  · exact h1

theorem dmaReadStep_leads {s : State} (h : s.Legal) (c : Fin 6) : (dmaReadStep c s).Leads State.Legal := by
  refine (memRead_leads h _ _).bind fun _ t ht => .ok (ht.setDma c ?_)
  exact dmaOk_of_same (d := t.dma[c]) (ht.dma c) rfl (.inr rfl) (.inl rfl)

theorem dmaStore_leads {s : State} (h : s.Legal) (ag : BusAgent) (a v : Word) :
    (dmaStore ag a v s).Leads State.Legal := by
  unfold dmaStore
  split
  · exact .ok (h.outside _ _ _ _ _)
  split
  · exact .stall
  · exact memWrite_leads h _ _ _ _

theorem dmaWriteStep_leads {s : State} (h : s.Legal) (c : Fin 6) (w : Word) : (dmaWriteStep c w s).Leads State.Legal := by
  refine (dmaStore_leads h _ _ _).bind fun _ t ht => .ok (countDown_legal (ht.setDma c ?_) c)
  exact dmaOk_of_same (d := t.dma[c]) (ht.dma c) rfl (.inl rfl) (.inl rfl)

theorem primaryWriteStep_leads {s : State} (h : s.Legal) (c : Fin 6) (w : Word) :
    (primaryWriteStep c w s).Leads State.Legal := by
  refine (dmaStore_leads h _ _ _).bind fun _ t ht => .ok (countDown_legal (ht.setDma c ?_) c)
  exact dmaOk_of_same (d := t.dma[c]) (ht.dma c) rfl (.inl rfl) (.inl rfl)

theorem auxReadStep_leads {s : State} (h : s.Legal) (c : Fin 6) : (auxReadStep c s).Leads State.Legal := by
  refine (memRead_leads h _ _).bind fun _ t ht => .ok (ht.setDma c ?_)
  exact dmaOk_of_same (d := t.dma[c]) (ht.dma c) rfl (.inl rfl) (.inr rfl)

theorem auxWriteStep_leads {s : State} (h : s.Legal) (c : Fin 6) (w : Word) : (auxWriteStep c w s).Leads State.Legal := by
  refine (dmaStore_leads h _ _ _).bind fun _ t ht => .ok ?_
  have h1 := ht.setDma c (d := { t.dma[c] with
    atmp := none, dst := dmaNext t.dma[c].dst t.dma[c].didx (t.dma[c].ctl.getLsbD 13), acnt := t.dma[c].acnt - 1 })
    (dmaOk_of_same (d := t.dma[c]) (ht.dma c) rfl (.inl rfl) (.inl rfl))
  split
  · exact auxBlockEnd_legal h1 c
  · exact h1

/-! ## Autoinitialization -/

/-- A control word is loaded as a whole or field by field: DMA PRI and COM PORT come whole from the old word or from
the new one (R807). -/
theorem mix_codes {v w m : Word} (hv : codesOk v = true) (hw : codesOk w = true)
    (h0 : m.extractLsb' 0 2 = 0#2 ∨ m.extractLsb' 0 2 = 3#2) (h1 : m.extractLsb' 15 3 = 0#3 ∨ m.extractLsb' 15 3 = 7#3) :
    codesOk ((v &&& m) ||| (w &&& ~~~m)) = true := by
  have part : ∀ a n, a + n ≤ 32 → ((v &&& m) ||| (w &&& ~~~m)).extractLsb' a n =
      (v.extractLsb' a n &&& m.extractLsb' a n) ||| (w.extractLsb' a n &&& ~~~ m.extractLsb' a n) := by
    intro a n hn
    apply BitVec.eq_of_getLsbD_eq
    intro i hi
    simp only [BitVec.getLsbD_extractLsb', BitVec.getLsbD_or, BitVec.getLsbD_and, BitVec.getLsbD_not, hi, decide_true,
      Bool.true_and, show a + i < 32 by omega]
  unfold codesOk at *
  simp only [Bool.and_eq_true, bne_iff_ne, decide_eq_true_eq] at *
  rw [part 0 2 (by omega), part 15 3 (by omega)]
  have all2 : ∀ x : BitVec 2, x &&& 3#2 = x ∧ x &&& 0#2 = 0 ∧ x &&& ~~~3#2 = 0 ∧ x &&& ~~~0#2 = x := by decide
  have all3 : ∀ x : BitVec 3, x &&& 7#3 = x ∧ x &&& 0#3 = 0 ∧ x &&& ~~~7#3 = 0 ∧ x &&& ~~~0#3 = x := by decide
  refine ⟨?_, ?_⟩
  · rcases h0 with h0 | h0 <;> rw [h0]
    · rw [(all2 _).2.1, (all2 _).2.2.2]; simpa using hw.1
    · rw [(all2 _).1, (all2 _).2.2.1]; simpa using hv.1
  · rcases h1 with h1 | h1 <;> rw [h1]
    · rw [(all3 _).2.1, (all3 _).2.2.2]; simpa using hw.2
    · rw [(all3 _).1, (all3 _).2.2.1]; simpa using hv.2

theorem applyCtl_ok {d : Dma} (h : dmaOk d = true) {v : Word} (hv : codesOk v = true) (split aux : Bool) :
    dmaOk (d.applyCtl (autoMask split aux) v) = true := by
  obtain ⟨h1, h2, h3, h4⟩ := (dmaOk_iff d).1 h
  unfold Dma.applyCtl
  refine applyStart_ok ((dmaOk_iff _).2 ⟨?_, ?_, h3, h4⟩)
  · have hm : autoMask split aux &&& 0x43FFFFFF#32 = autoMask split aux := by
      revert split aux; decide
    show ((v &&& _) ||| (d.ctl &&& _)) &&& _ = _
    unfold autoCtl
    rw [BitVec.and_or_distrib_right, BitVec.and_assoc, hm, BitVec.and_assoc, BitVec.and_comm (~~~_) 0x43FFFFFF#32,
      ← BitVec.and_assoc d.ctl, h1]
  · refine mix_codes hv h2 ?_ ?_
    · revert split aux; decide
    · revert split aux; decide

theorem load_ok {d : Dma} (h : dmaOk d = true) (r : DmaReg) (v : Word) : dmaOk (d.load r v) = true := by
  cases r <;> exact dmaOk_of_same (d := d) h rfl (.inl rfl) (.inl rfl)

/-- The control word that an autoinitialization carries holds no reserved code. -/
theorem advance_codes {c : Fin 6} {x : Bool} {d : Dma} {a : Autoinit} {r : DmaReg} {v : Word} {b : Bool}
    (ha : codesOk a.ctl = true) (h : autoRefusal c x d r v = none) :
    codesOk (a.advance r (autoCtl (autoBits d.split x) v d.ctl) b).ctl = true := by
  unfold Autoinit.advance
  dsimp only
  split
  · rename_i e
    subst e
    unfold autoRefusal at h
    simp only at h
    split at h
    · cases h
    split at h
    · cases h
    · exact ctlReserved_codes (Bool.eq_false_iff.2 ‹_›)
  · exact ha

theorem autoCtl_ok {d : Dma} (h : dmaOk d = true) (a : Option Autoinit) (ha : autoOk a = true) (p : Word) :
    codesOk (a.getD { count := 0, ptr := p, ctl := d.ctl }).ctl = true := by
  cases a with
  | none => exact ((dmaOk_iff d).1 h).2.1
  | some a => exact ha

theorem markerOk {a : Autoinit} (p : Prop) [Decidable p] (h : codesOk a.ctl = true) :
    autoOk (if p then some { a with count := 7 } else none) = true := by
  split
  · exact h
  · rfl

theorem autoinitStep_leads {s : State} (h : s.Legal) (c : Fin 6) : (autoinitStep c s).Leads State.Legal := by
  have hd := h.dma c
  have ha := autoCtl_ok hd s.dma[c].auto ((dmaOk_iff _).1 hd).2.2.1 s.dma[c].lnk
  unfold autoinitStep
  split
  · exact .stall
  refine (memRead_leads h _ _).bind fun v t ht => ?_
  dsimp only
  split
  · exact .refuse
  rename_i hr
  have hv := advance_codes (b := s.dma[c].ctl.getLsbD 8) ha hr
  have hl := load_ok (ht.dma c) ((autoRow s.dma[c].split).getD
    (s.dma[c].auto.getD { count := 0, ptr := s.dma[c].lnk, ctl := s.dma[c].ctl }).count .ctl) v
  generalize Autoinit.advance _ _ _ _ = a at *
  generalize (autoRow s.dma[c].split).getD _ DmaReg.ctl = reg at *
  obtain ⟨h1, h2, h3, h4⟩ := (dmaOk_iff _).1 hl
  split
  · exact .ok (ht.setDma c ((dmaOk_iff _).2 ⟨h1, h2, hv, h4⟩))
  · refine .ok (ht.setDma c ?_)
    have := applyCtl_ok (d := { t.dma[c].load reg v with
      auto := some a
      rl := if s.dma[c].autoSyncRead then false else (t.dma[c].load reg v).rl
      wl := if s.dma[c].autoSyncWrite && !s.dma[c].split then false else (t.dma[c].load reg v).wl })
      ((dmaOk_iff _).2 ⟨h1, h2, hv, h4⟩) hv s.dma[c].split false
    obtain ⟨g1, g2, g3, g4⟩ := (dmaOk_iff _).1 this
    exact (dmaOk_iff _).2 ⟨g1, g2, markerOk _ hv, g4⟩

theorem auxAutoinitStep_leads {s : State} (h : s.Legal) (c : Fin 6) : (auxAutoinitStep c s).Leads State.Legal := by
  have hd := h.dma c
  have ha := autoCtl_ok hd s.dma[c].aauto ((dmaOk_iff _).1 hd).2.2.2 s.dma[c].alnk
  unfold auxAutoinitStep
  split
  · exact .stall
  refine (memRead_leads h _ _).bind fun v t ht => ?_
  dsimp only
  split
  · exact .refuse
  rename_i hr
  have hv := advance_codes (b := s.dma[c].ctl.getLsbD 9) ha hr
  have hl := load_ok (ht.dma c) (auxRow.getD
    (s.dma[c].aauto.getD { count := 0, ptr := s.dma[c].alnk, ctl := s.dma[c].ctl }).count .ctl) v
  generalize Autoinit.advance _ _ _ _ = a at *
  generalize auxRow.getD _ DmaReg.ctl = reg at *
  obtain ⟨h1, h2, h3, h4⟩ := (dmaOk_iff _).1 hl
  split
  · exact .ok (ht.setDma c ((dmaOk_iff _).2 ⟨h1, h2, h3, hv⟩))
  · refine .ok (ht.setDma c ?_)
    have := applyCtl_ok (d := { t.dma[c].load reg v with
      aauto := some a
      wl := if s.dma[c].autoSyncWrite then false else (t.dma[c].load reg v).wl })
      ((dmaOk_iff _).2 ⟨h1, h2, h3, hv⟩) hv s.dma[c].split true
    obtain ⟨g1, g2, g3, g4⟩ := (dmaOk_iff _).1 this
    exact (dmaOk_iff _).2 ⟨g1, g2, g3, markerOk _ hv⟩

theorem dmaStep_leads {s : State} (h : s.Legal) (c : Fin 6) : (dmaStep c s).Leads State.Legal := by
  unfold dmaStep
  dsimp only
  split
  · exact .ok h
  split
  · split
    · exact primaryWriteStep_leads h c _
    split
    · exact dmaWriteStep_leads h c _
    · exact .ok h
  · split
    · split
      · exact autoinitStep_leads h c
      · exact .ok h
    split
    · exact dmaReadStep_leads h c
    · exact .ok h

theorem dmaAuxStep_leads {s : State} (h : s.Legal) (c : Fin 6) : (dmaAuxStep c s).Leads State.Legal := by
  unfold dmaAuxStep
  dsimp only
  split
  · exact .ok h
  split
  · exact auxWriteStep_leads h c _
  · split
    · split
      · exact auxAutoinitStep_leads h c
      · exact .ok h
    split
    · exact auxReadStep_leads h c
    · exact .ok h

/-! ## The latches at a boundary -/

theorem signalLatch_range (s : State) (g : Signal) (i : Nat) (h : s.signalLatch g = some i) :
    i < 17 ∨ 24 ≤ i ∧ i < 32 := by
  unfold State.signalLatch at h
  split at h <;> try cases h
  · rename_i x
    have := x.isLt
    split at h <;> cases h
    omega
  · rename_i t
    unfold tintBit
    split <;> omega

theorem latchChannel_legal {now s : State} (h : s.Legal) (c : Fin 6) : (latchChannel now s c).Legal := by
  unfold latchChannel
  dsimp only
  have h1 := h.setDma c (d := { s.dma[c] with
    rl := now.dma[c].rl || (now.dma[c].waitsRead && now.signalOn (readSignal now.die c)),
    wl := now.dma[c].wl || (now.dma[c].waitsWrite && now.signalOn (writeSignal now.die c)) })
    (dmaOk_of_same (d := s.dma[c]) (h.dma c) rfl (.inl rfl) (.inl rfl))
  split <;> split
  · exact (h1.clearFlag (signalLatch_range now _)).clearFlag (signalLatch_range now _)
  · exact h1.clearFlag (signalLatch_range now _)
  · exact h1.clearFlag (signalLatch_range now _)
  · exact h1

theorem latchDma_legal {s : State} (h : s.Legal) : (latchDma s).Legal := by
  have key : ∀ (l : List (Fin 6)) (u : State), u.Legal → (l.foldl (latchChannel s) u).Legal := by
    intro l
    induction l with
    | nil => exact fun u hu => hu
    | cons c l ih => exact fun u hu => ih _ (latchChannel_legal hu c)
  exact key _ s h

/-! ## Reset and the boot loader -/

theorem anyWords_wf (a : Word) (b : Nat) {m : Memory} (h : Memory.wf m = true) (n : Nat) :
    Memory.wf (anyWords a b n m) = true := by
  induction n with
  | zero => exact h
  | succ n ih => exact Memory.wf_setWord _ _ _ ih

theorem resetState_legal {s : State} (h : s.Legal) : (resetState s).Legal := by
  have hm := anyWords_wf 0x2FF800#32 (s.free + 256) h.mem 2048
  generalize e : anyWords 0x2FF800#32 (s.free + 256) 2048 s.mem = m at hm
  have e' : (resetState s).mem = m := by simp only [resetState]; exact e
  have g : (0x3E39FFF0#32 &&& 0xC000000F#32) = 0#32 := by decide
  have z : (0#32 &&& 0x00FE0000#32) = 0#32 ∧ (0#32 &&& 0x1FF#32) = 0#32 := by decide
  refine ⟨by rw [e']; exact hm, (by decide : (0#16).getLsbD 12 = false), z.1, z.2, z.2, g, g, List.Perm.refl _, rfl, ?_, ?_, ?_⟩
  · have : ∀ t : Fin 2, timerOk State.reset.timers[t] = true := by decide
    exact this
  · have : ∀ x : Fin 6, portOk State.reset.ports[x] = true := by decide
    exact this
  · intro c
    show dmaOk ((Vector.ofFn fun c => Dma.warm (s.free + 128) c.val)[c]) = true
    rw [Fin.getElem_fin, Vector.getElem_ofFn]
    exact (dmaOk_iff _).2 ⟨(by decide : (0#32 &&& 0x43FFFFFF#32) = 0#32), (by decide : codesOk 0#32 = true), rfl, rfl⟩

theorem resetEvent_leads {s : State} (h : s.Legal) : (resetEvent s).Leads State.Legal :=
  (dataRead_leads (resetState_legal h) _).bind fun _ _ ht => .ok
    ⟨ht.mem, ht.st, ht.iif, ht.ivtp, ht.tvtp, ht.gmicr, ht.lmicr, ht.lru, ht.delay, ht.timers, ht.ports, ht.dma⟩

theorem bootGo_leads {s : State} (h : s.Legal) (p : BootPhase) : (bootGo p s).Leads State.Legal :=
  .ok (h.outside _ _ _ _ _)

theorem bootWord_leads {s : State} (h : s.Legal) (src : BootSource) : (bootWord src s).Leads State.Legal := by
  unfold bootWord
  split
  · split
    · exact (dataRead_leads h _).bind fun _ _ ht => .ok ht
    · exact .stall
  · split
    · exact (dataRead_leads h _).bind fun _ _ ht => .ok ht
    split
    · exact (dataRead_leads h _).bind fun _ _ ht => (dataRead_leads ht _).bind fun _ _ hu => .ok hu
    · exact (dataRead_leads h _).bind fun _ _ ht => (dataRead_leads ht _).bind fun _ _ hu =>
        (dataRead_leads hu _).bind fun _ _ hv => (dataRead_leads hv _).bind fun _ _ hw => .ok hw

theorem driveIack_legal {s : State} (h : s.Legal) (a : Word) (b : Bool) : (s.driveIack a b).Legal := by
  unfold State.driveIack
  split
  · exact h.outside _ _ _ _ _
  · exact h

theorem iackRead_leads {s : State} (h : s.Legal) (a : Word) : (iackRead a s).Leads State.Legal :=
  (dataRead_leads (driveIack_legal h a false) a).bind fun _ _ hu => .ok (driveIack_legal hu a true)

theorem bootEnd_legal {s : State} (h : s.Legal) (src : BootSource) (a entry last : Word) :
    (bootEnd src a entry last s).Legal := by
  have h1 : (match src with
    | .memory _ next => s.wrI (.ar 1) next
    | .port x => (s.wrI (.ar 1) (5 - BitVec.ofNat 32 x.val)).wrI (.ar 3)
        (0x100040#32 + BitVec.ofNat 32 (16 * x.val))).Legal := by
    split
    · exact h.wrI _ _
    · exact (h.wrI _ _).wrI _ _
  have h2 := ((((h1.wrI (.ar 0) last).wrI (.ar 2) a).wrI (.r 0) 1).wrI (.r 9) entry).wrI (.r 10)
    (Config.freeWord (s.free + 0))
  refine State.Legal.jump (State.Legal.setSt (State.Legal.setSt (State.Legal.setSt (State.Legal.setSt ?_ false ?_ ?_)
    false ?_ ?_) false ?_ ?_) false ?_ ?_) entry
  any_goals decide
  exact ⟨Memory.wf_setWord _ _ _ h2.mem, h2.st, h2.iif, h2.ivtp, h2.tvtp, h2.gmicr, h2.lmicr, h2.lru, h2.delay, h2.timers,
    h2.ports, h2.dma⟩

theorem bootStep_leads {s : State} (h : s.Legal) (p : BootPhase) : (bootStep p s).Leads State.Legal := by
  unfold bootStep
  split
  · split
    · exact .refuse
    · exact bootGo_leads (h.wrI .sp 0x2FFFF0#32) _
  · split
    · exact bootGo_leads h _
    · exact .refuse
    · split
      · exact bootGo_leads h _
      · exact .ok h
  · refine (dataRead_leads h _).bind fun _ _ ht => ?_
    split
    · exact bootGo_leads (ht.wrI _ _) _
    split
    · exact bootGo_leads (ht.wrI _ _) _
    · exact bootGo_leads (ht.wrI _ _) _
  · exact (bootWord_leads h _).bind fun _ _ ht => (dataWrite_leads ht _ _).bind fun _ _ hu => bootGo_leads hu _
  · exact (bootWord_leads h _).bind fun _ _ ht => (dataWrite_leads ht _ _).bind fun _ _ hu => bootGo_leads hu _
  · refine (bootWord_leads h _).bind fun _ _ ht => ?_
    split
    · split
      · exact bootGo_leads ht _
      · exact .refuse
    · refine bootGo_leads ?_ _
      split
      · exact ht.setSt true (by decide) (by decide)
      · exact ht
  · exact (bootWord_leads h _).bind fun _ _ ht => bootGo_leads ht _
  · refine (bootWord_leads h _).bind fun _ _ ht => (dataWrite_leads ht _ _).bind fun _ _ hu => ?_
    split
    · exact bootGo_leads hu _
    · exact bootGo_leads hu _
  · exact (bootWord_leads h _).bind fun _ _ ht => bootGo_leads (ht.wrX .ivtp _) _
  · exact (bootWord_leads h _).bind fun _ _ ht => bootGo_leads (ht.wrX .tvtp _) _
  · refine (bootWord_leads ?_ _).bind fun _ _ ht => (iackRead_leads ht _).bind
      fun _ _ hv => .ok (bootEnd_legal hv _ _ _ _)
    unfold bootTest
    split
    · exact ((h.outside _ _ _ _ _).wrI _ _).setSt _ (by decide) (by decide)
    · exact h.setSt false (by decide) (by decide)

/-! ## Events and the boundary -/

theorem agentStep_leads {r : Res Unit} {s : State} (h : s.Legal) (hr : r.Leads State.Legal) :
    (agentStep r s).Leads State.Legal := by
  unfold agentStep
  split
  · exact .ok (hr _ _ rfl)
  · exact .ok (h.outside _ _ _ _ _)
  · exact .stop

theorem applyEvent_leads {s : State} (h : s.Legal) (e : Event) : (applyEvent e s).Leads State.Legal := by
  unfold applyEvent
  split
  · exact resetEvent_leads h
  · refine .ok ?_
    unfold nmiEvent
    dsimp only
    split
    · exact (h.outside { s.pins with nmi := _ } s.free s.latch s.boot s.script).setIif true (.inl (by omega))
    · exact h.outside _ _ _ _ _
  · rename_i x level
    refine .ok ?_
    unfold iiofEvent
    dsimp only
    split
    · exact (h.outside { s.pins with iiof := s.pins.iiof.set x level } s.free s.latch s.boot s.script).setIif true
        (.inl (by have := x.isLt; omega))
    · exact h.outside _ _ _ _ _
  · exact .ok (tclkEvent_legal h _ _)
  · exact .ok (timerH1_legal h _)
  · rename_i x w
    refine .ok ?_
    unfold portDeliver
    dsimp only
    split
    · rename_i hc
      simp only [Bool.and_eq_true, decide_eq_true_eq] at hc
      refine h.setPort x ((portOk_iff _).2 ⟨?_, ((portOk_iff _).1 (h.ports x)).2⟩)
      simp only [List.length_append, List.length_singleton]
      omega
    · exact h
  · rename_i x
    refine .ok ?_
    unfold portAccept
    dsimp only
    split
    · exact h
    · rename_i w t e
      split
      · refine drainLatch_legal (h.setPort x ?_)
        have := (portOk_iff _).1 (h.ports x)
        rw [e] at this
        exact (portOk_iff _).2 ⟨this.1, by simpa using Nat.le_of_succ_le this.2⟩
      · exact h
  · refine .ok ?_
    unfold portTakeToken
    dsimp only
    split
    · exact h.setPort _ (h.ports _)
    · exact h
  · refine .ok ?_
    unfold portGiveToken
    dsimp only
    split
    · exact h.setPort _ (h.ports _)
    · exact h
  · refine .ok ?_
    unfold masterWrite
    split
    · exact h.setWord _ _
    · exact h
  · refine .ok ?_
    unfold busPinsEvent
    split <;> exact h.outside _ _ _ _ _
  · exact agentStep_leads h (dmaStep_leads h _)
  · exact agentStep_leads h (dmaAuxStep_leads h _)

theorem applyEvents_leads (l : List Event) {s : State} (h : s.Legal) : (applyEvents l s).Leads State.Legal := by
  induction l generalizing s with
  | nil => exact .ok h
  | cons e l ih => exact (applyEvent_leads h e).bind fun _ _ ht => ih ht

theorem irqLatch_range (s : State) (k : Nat) (hk : k ≤ 43) (i : Nat) (h : s.irqLatch k = some i) :
    i < 17 ∨ 24 ≤ i ∧ i < 32 := by
  unfold State.irqLatch at h
  split at h
  · cases h; omega
  split at h
  · cases h; omega
  split at h
  · split at h <;> cases h
    omega
  split at h
  · cases h
  split at h <;> cases h <;> omega

theorem irqChoice_le {s : State} {k : Nat} (h : s.irqChoice = some k) : k ≤ 43 := by
  have hm := List.mem_of_find?_eq_some h
  have : ∀ j ∈ irqTable, j ≤ 43 := by decide
  exact this k hm

theorem takeInterrupt_leads {s : State} (h : s.Legal) (k : Nat) {b : Option Nat}
    (hb : ∀ i, b = some i → i < 17 ∨ 24 ≤ i ∧ i < 32) : (takeInterrupt k b s).Leads State.Legal := by
  have he := enterException_leads (h.clearFlag hb) s.pc (s.ivtp + BitVec.ofNat 32 k)
  unfold takeInterrupt
  split
  · rename_i a t e
    refine .ok ?_
    have ht := he _ _ e
    exact ⟨ht.mem, ht.st, ht.iif, ht.ivtp, ht.tvtp, ht.gmicr, ht.lmicr, ht.lru, ht.delay, ht.timers, ht.ports, ht.dma⟩
  · dsimp only
    refine agentStep_leads ?_ .stall
    split
    · exact h.setIif true (hb _ rfl)
    · exact h
  · exact .stop

theorem atBoundary_leads {s : State} (h : s.Legal) : (atBoundary s).Leads State.Legal := by
  unfold atBoundary
  refine (applyEvents_leads _ (h.outside { s.pins with stat := 15, lstat := 15 } s.free s.latch s.boot
    s.script.tail)).bind fun _ t ht => ?_
  dsimp only
  have hu := latchDma_legal ht
  split
  · rename_i k e
    refine (takeInterrupt_leads hu k ?_).bind fun _ _ hv => .ok hv
    split at e
    · cases e
    · exact irqLatch_range t k (irqChoice_le e)
  · split
    · exact (agentStep_leads hu (bootStep_leads hu _)).bind fun _ _ hv => .ok hv
    · split
      · exact .ok hu
      · unfold State.cpuStart
        split
        · exact .ok hu
        · exact .ok (hu.outside _ _ _ _ _)

/-! ## Instructions -/

/-- The outcome is no next state, or a legal one. -/
def LegalOutcome (x : Host.Outcome State Fault Refusal) : Prop := ∀ t, x = .next t → t.Legal

theorem finish_legal {s : State} (h : s.Legal) {r : Res Unit} (hr : r.Leads State.Legal) : LegalOutcome (finish s r) := by
  intro t e
  rcases finish_next e with ⟨u, h1, rfl⟩ | ⟨l, -, rfl⟩
  · exact (hr _ _ h1).settled
  · exact h.waiting l

theorem sequential_legal {s : State} (h : s.Legal) {r : Res Unit} (hr : r.Leads State.Legal) :
    LegalOutcome (sequential s r) :=
  finish_legal h (hr.bind fun _ _ hu => .ok
    ⟨hu.mem, hu.st, hu.iif, hu.ivtp, hu.tvtp, hu.gmicr, hu.lmicr, hu.lru, hu.delay, hu.timers, hu.ports, hu.dma⟩)

theorem execute_legal {α : Type} {s : State} (h : s.Legal) {src : Res α} {f : α → State → State}
    (hr : src.Leads State.Legal) (hf : ∀ a t, t.Legal → (f a t).Legal) : LegalOutcome (execute s src f) :=
  sequential_legal h (hr.bind fun a _ ht => .ok (ht.exe fun hs => hf a _ hs))

theorem endSlot_legal {before s : State} (hb : before.Legal) (h : s.Legal) : (endSlot before s).Legal := by
  have hd := hb.delay
  unfold endSlot
  split
  · exact h
  · rename_i d e
    rw [e] at hd
    simp only [delayOk, Bool.and_eq_true, decide_eq_true_eq] at hd
    split
    · split
      · exact (h.jump _).withDelay rfl
      · exact h.withDelay rfl
    · refine h.withDelay ?_
      simp only [delayOk, Bool.and_eq_true, decide_eq_true_eq]
      omega

theorem retire_legal {before s : State} (hb : before.Legal) (h : s.Legal) : LegalOutcome (retire before s) := by
  have count : ∀ (u : State) (n : Nat), u.Legal → State.Legal { u with unflushed := n } := fun u _ hu =>
    ⟨hu.mem, hu.st, hu.iif, hu.ivtp, hu.tvtp, hu.gmicr, hu.lmicr, hu.lru, hu.delay, hu.timers, hu.ports, hu.dma⟩
  have h8 : (s.setSt 8 false).Legal := h.setSt false (by decide) (by decide)
  intro t e
  unfold retire at e
  split at e
  · cases e; exact h
  split at e
  · cases e
    refine count _ _ ?_
    unfold endSingle
    split
    · exact ⟨h.mem, h.st, h.iif, h.ivtp, h.tvtp, h.gmicr, h.lmicr, h.lru, h.delay, h.timers, h.ports, h.dma⟩
    split
    · exact ⟨h8.mem, h8.st, h8.iif, h8.ivtp, h8.tvtp, h8.gmicr, h8.lmicr, h8.lru, h8.delay, h8.timers, h8.ports, h8.dma⟩
    · exact ⟨h.mem, h.st, h.iif, h.ivtp, h.tvtp, h.gmicr, h.lmicr, h.lru, h.delay, h.timers, h.ports, h.dma⟩
  split at e
  · cases e
  · cases e
    refine endSlot_legal hb (count _ _ ?_)
    split
    · unfold endBlock
      split
      · exact ⟨h8.mem, h8.st, h8.iif, h8.ivtp, h8.tvtp, h8.gmicr, h8.lmicr, h8.lru, h8.delay, h8.timers, h8.ports, h8.dma⟩
      · exact ⟨h.mem, h.st, h.iif, h.ivtp, h.tvtp, h.gmicr, h.lmicr, h.lru, h.delay, h.timers, h.ports, h.dma⟩
    · exact h

end Sys2Proof.Machine
end

