-- ==== Sys2Proof/Laws/Results.lean ====
section
/-! SUPPORT. The arithmetic of Machine/Alu.lean as arithmetic on wide words. -/

namespace Sys2Proof.Machine

/-! ## Words and their integers -/

theorem low_eq_ofInt {n : Nat} (w : BitVec n) (h : 32 ≤ n) : w.extractLsb' 0 32 = BitVec.ofInt 32 w.toInt := by
  apply BitVec.eq_of_toInt_eq
  rw [← BitVec.setWidth_eq_extractLsb' h, ← BitVec.signExtend_eq_setWidth_of_le w h, BitVec.toInt_signExtend,
    BitVec.toInt_ofInt, Nat.min_eq_left h]

theorem overflows_iff (r : Int) : overflows r = true ↔ ¬ (-(2 ^ 31) ≤ r ∧ r < 2 ^ 31) := by
  unfold overflows
  simp only [Bool.or_eq_true, decide_eq_true_eq]
  omega

theorem overflows_eq {n : Nat} (w : BitVec n) (h : 32 ≤ n) :
    ((w.extractLsb' 0 32).signExtend n != w) = overflows w.toInt := by
  rw [Bool.eq_iff_iff, overflows_iff, bne_iff_ne, Ne, not_iff_not, low_eq_ofInt w h, ← BitVec.toInt_inj,
    BitVec.toInt_signExtend_of_le h, BitVec.toInt_ofInt]
  constructor
  · intro e
    have h1 := Int.le_bmod (x := w.toInt) (m := 2 ^ 32) (by decide)
    have h2 := Int.bmod_lt (x := w.toInt) (m := 2 ^ 32) (by decide)
    rw [e] at h1 h2
    constructor
    · simpa using h1
    · simpa using h2
  · rintro ⟨h1, h2⟩
    exact Int.bmod_eq_of_le (by simpa using h1) (by simpa using h2)

theorem bitAs_toInt {n : Nat} (h : 1 < n) (b : Bool) : (bitAs n b).toInt = b.toNat := by
  have hn : (bitAs n b).toNat = b.toNat := by
    unfold bitAs
    rw [BitVec.toNat_setWidth, BitVec.toNat_ofBool]
    apply Nat.mod_eq_of_lt
    have : 2 ^ 1 < 2 ^ n := Nat.pow_lt_pow_right (by decide) h
    cases b <;> simp; omega
  rw [BitVec.toInt_eq_toNat_of_lt, hn]
  rw [hn]
  have : 2 ^ 2 ≤ 2 ^ n := Nat.pow_le_pow_right (by decide) h
  cases b <;> simp; omega

theorem word_bounds (x : Word) : -2147483648 ≤ x.toInt ∧ x.toInt < 2147483648 :=
  ⟨by simpa using BitVec.le_toInt x, by simpa using BitVec.toInt_lt (x := x)⟩

theorem bit_bounds (b : Bool) : (0 : Int) ≤ b.toNat ∧ (b.toNat : Int) ≤ 1 := by cases b <;> simp

/-- A 34-bit result is the signed result of its integer. -/
theorem narrow_eq (ovm : Bool) (w : BitVec 34) (c : Option Bool) : narrow ovm w c = intRes ovm w.toInt c := by
  have hv : (if ovm && ((w.extractLsb' 0 32).signExtend 34 != w) then
      (if w.msb then 0x80000000#32 else 0x7FFFFFFF#32) else w.extractLsb' 0 32) = satI ovm w.toInt := by
    rw [overflows_eq w (by decide)]
    unfold satI
    by_cases ho : (ovm && overflows w.toInt) = true
    · rw [if_pos ho, if_pos ho, BitVec.msb_eq_toInt]
      have h2 : overflows w.toInt = true := by simp only [Bool.and_eq_true] at ho; exact ho.2
      rw [overflows_iff] at h2
      by_cases hp : 0 < w.toInt
      · rw [if_pos hp, if_neg (by simp; omega)]
      · rw [if_neg hp, if_pos (by simp; omega)]
    · rw [if_neg ho, if_neg ho, low_eq_ofInt w (by decide)]
  unfold narrow intRes
  dsimp only
  rw [hv, overflows_eq w (by decide)]

theorem aluAdd_wide (ovm : Bool) (x y : Word) (c : Bool) : aluAdd ovm x y c = wideSum ovm x y c := by
  have hx := word_bounds x
  have hy := word_bounds y
  have hc := bit_bounds c
  have e : (x.signExtend 34 + y.signExtend 34 + bitAs 34 c).toInt = x.toInt + y.toInt + c.toNat := by
    rw [BitVec.toInt_add, BitVec.toInt_add, BitVec.toInt_signExtend_of_le (by decide),
      BitVec.toInt_signExtend_of_le (by decide), bitAs_toInt (by decide)]
    rw [Int.bmod_eq_of_le (n := x.toInt + y.toInt) (by norm_num; omega) (by norm_num; omega),
      Int.bmod_eq_of_le (by norm_num; omega) (by norm_num; omega)]
  have hm : (x.setWidth 33 + y.setWidth 33 + bitAs 33 c).msb = decide (2 ^ 32 ≤ x.toNat + y.toNat + c.toNat) := by
    have : (x.setWidth 33 + y.setWidth 33 + bitAs 33 c).toNat = x.toNat + y.toNat + c.toNat := by
      have h3 : (bitAs 33 c).toNat = c.toNat := by cases c <;> decide
      have := x.isLt; have := y.isLt
      simp only [BitVec.toNat_add, BitVec.toNat_setWidth, h3]
      have : c.toNat ≤ 1 := Bool.toNat_le c
      omega
    rw [BitVec.msb_eq_decide, this]
  rw [wideSum, narrow_eq, e, hm]
  rfl

theorem aluSub_wide (ovm : Bool) (x y : Word) (b : Bool) : aluSub ovm x y b = wideDiff ovm x y b := by
  have hx := word_bounds x
  have hy := word_bounds y
  have hc := bit_bounds b
  have e : (x.signExtend 34 - y.signExtend 34 - bitAs 34 b).toInt = x.toInt - y.toInt - b.toNat := by
    rw [BitVec.toInt_sub, BitVec.toInt_sub, BitVec.toInt_signExtend_of_le (by decide),
      BitVec.toInt_signExtend_of_le (by decide), bitAs_toInt (by decide)]
    rw [Int.bmod_eq_of_le (n := x.toInt - y.toInt) (by norm_num; omega) (by norm_num; omega),
      Int.bmod_eq_of_le (by norm_num; omega) (by norm_num; omega)]
  have hm : (x.setWidth 33 - y.setWidth 33 - bitAs 33 b).msb = decide (x.toNat < y.toNat + b.toNat) := by
    have h3 : (bitAs 33 b).toNat = b.toNat := by cases b <;> decide
    have := x.isLt; have := y.isLt
    have : b.toNat ≤ 1 := Bool.toNat_le b
    rw [BitVec.msb_eq_decide, Bool.eq_iff_iff]
    simp only [BitVec.toNat_sub, BitVec.toNat_setWidth, h3, decide_eq_true_eq]
    omega
  rw [wideDiff, narrow_eq, e, hm]
  rfl

/-! ## Products -/

theorem wideProduct_toInt (x y : Word) : (wideProduct x y).toInt = x.toInt * y.toInt := by
  obtain ⟨h1, h2⟩ := word_bounds x
  obtain ⟨h3, h4⟩ := word_bounds y
  have hb : |x.toInt * y.toInt| ≤ 2147483648 * 2147483648 := by
    rw [abs_mul]
    exact mul_le_mul (abs_le.2 ⟨by omega, by omega⟩) (abs_le.2 ⟨by omega, by omega⟩) (abs_nonneg _) (by norm_num)
  obtain ⟨h5, h6⟩ := abs_le.1 hb
  rw [wideProduct, BitVec.toInt_mul, BitVec.toInt_signExtend_of_le (by decide),
    BitVec.toInt_signExtend_of_le (by decide), Int.bmod_eq_of_le] <;> norm_num at * <;> omega

theorem wideProduct_ofInt (x y : Word) : wideProduct x y = BitVec.ofInt 64 (x.toInt * y.toInt) := by
  rw [← wideProduct_toInt, BitVec.ofInt_toInt]

/-- A 64-bit word is the sign extension of its low half where its high half repeats the sign. -/
theorem high_sign (p : BitVec 64) :
    (p.extractLsb' 32 32 != (if (p.extractLsb' 0 32).msb then 0xFFFFFFFF#32 else 0#32)) =
      ((p.extractLsb' 0 32).signExtend 64 != p) := by
  have e : (p.extractLsb' 0 32).signExtend 64 =
      (if (p.extractLsb' 0 32).msb then 0xFFFFFFFF#32 else 0#32) ++ p.extractLsb' 0 32 := by
    rw [BitVec.signExtend_eq_append_of_le (by decide)]
    split <;> rfl
  have hp : p = p.extractLsb' 32 32 ++ p.extractLsb' 0 32 := by
    rw [BitVec.extractLsb'_append_extractLsb'_eq_extractLsb' (by decide)]
    simp
  rw [Bool.eq_iff_iff, bne_iff_ne, bne_iff_ne, Ne, Ne, not_iff_not, e]
  constructor
  · intro h
    rw [← h]
    exact hp.symm
  · intro h
    have h2 : ((if (p.extractLsb' 0 32).msb then 0xFFFFFFFF#32 else 0#32) ++ p.extractLsb' 0 32).extractLsb' 32 32 =
        p.extractLsb' 32 32 := by rw [h]
    rw [← h2, BitVec.extractLsb'_append_eq_left]

theorem aluMpy_low (ovm : Bool) (x y : Word) : aluMpy ovm x y = lowProduct ovm x y := by
  have e := wideProduct_toInt x y
  unfold aluMpy lowProduct intRes
  dsimp only
  rw [high_sign, overflows_eq _ (by decide), e]
  have hv : (if ovm && overflows (x.toInt * y.toInt) then
      (if (wideProduct x y).msb then 0x80000000#32 else 0x7FFFFFFF#32) else (wideProduct x y).extractLsb' 0 32) =
      satI ovm (x.toInt * y.toInt) := by
    unfold satI
    by_cases ho : (ovm && overflows (x.toInt * y.toInt)) = true
    · rw [if_pos ho, if_pos ho, BitVec.msb_eq_toInt, e]
      have h2 : overflows (x.toInt * y.toInt) = true := by simp only [Bool.and_eq_true] at ho; exact ho.2
      rw [overflows_iff] at h2
      by_cases hp : 0 < x.toInt * y.toInt
      · rw [if_pos hp, if_neg (by simpa using hp.le)]
      · rw [if_neg hp, if_pos]
        have : x.toInt * y.toInt ≠ 0 := fun h0 => h2 (by rw [h0]; decide)
        simp only [decide_eq_true_eq]
        omega
    · rw [if_neg ho, if_neg ho, low_eq_ofInt _ (by decide), e]
  rw [hv]

theorem aluMpySh_high (x y : Word) : aluMpySh x y = highProduct x y := by
  unfold aluMpySh highProduct
  rw [wideProduct_ofInt]

theorem aluMpyUh_high (x y : Word) : aluMpyUh x y = highUnsigned x y := by
  have e : BitVec.ofNat 64 (x.toNat * y.toNat) = x.setWidth 64 * y.setWidth 64 := by
    apply BitVec.eq_of_toNat_eq
    have hx := x.isLt
    have hy := y.isLt
    simp only [BitVec.toNat_ofNat, BitVec.toNat_mul, BitVec.toNat_setWidth]
    rw [Nat.mod_eq_of_lt (a := x.toNat) (by omega), Nat.mod_eq_of_lt (a := y.toNat) (by omega)]
  unfold aluMpyUh highUnsigned
  dsimp only
  rw [e]

/-! ## Shifts and rotates -/

theorem shiftCount_bounds (c : Word) : -64 ≤ shiftCount c ∧ shiftCount c < 64 :=
  ⟨BitVec.le_toInt (c.extractLsb' 0 7), BitVec.toInt_lt (x := c.extractLsb' 0 7)⟩

theorem shifted_eq (v : Word) (ovf out : Bool) : shiftRes v ovf out = shifted v ovf out := rfl

theorem shiftLeft_toInt (d : Word) (k : Nat) (h : k < 64) :
    ((d.signExtend 128 : BitVec 128) <<< k).toInt = d.toInt * 2 ^ k := by
  obtain ⟨h1, h2⟩ := word_bounds d
  have h3 : (0 : Int) < 2 ^ k := by positivity
  have h4 : (2 : Int) ^ k ≤ 2 ^ 63 := pow_le_pow_right₀ (by norm_num) (by omega)
  have hb : |d.toInt * 2 ^ k| ≤ 2147483648 * 2 ^ 63 := by
    rw [abs_mul, abs_of_pos h3]
    exact mul_le_mul (abs_le.2 ⟨by omega, by omega⟩) h4 h3.le (by norm_num)
  obtain ⟨h5, h6⟩ := abs_le.1 hb
  have e : ((d.signExtend 128 : BitVec 128) <<< k) = BitVec.ofInt 128 (d.toInt * 2 ^ k) := by
    rw [BitVec.shiftLeft_eq_mul_twoPow]
    rw [BitVec.ofInt_mul, ← BitVec.toInt_signExtend_of_le (x := d) (v := 128) (by decide), BitVec.ofInt_toInt]
    congr 1
    apply BitVec.eq_of_toNat_eq
    rw [BitVec.toNat_twoPow]
    have : ((2 : Int) ^ k) = ((2 ^ k : Nat) : Int) := by push_cast; rfl
    rw [this, BitVec.ofInt_natCast, BitVec.toNat_ofNat]
  rw [e, BitVec.toInt_ofInt, Int.bmod_eq_of_le] <;> norm_num at * <;> omega

theorem aluAsh_wide (d c : Word) : aluAsh d c = arithShift d c := by
  obtain ⟨h1, h2⟩ := shiftCount_bounds c
  unfold aluAsh arithShift
  simp only [← shiftCount.eq_1]
  by_cases hp : 0 < shiftCount c
  · rw [if_pos hp, if_pos hp]
    have e := shiftLeft_toInt d (shiftCount c).toNat (by omega)
    rw [shifted_eq, overflows_eq _ (by decide), low_eq_ofInt _ (by decide), e]
    congr 1
    rw [BitVec.getLsbD_shiftLeft, BitVec.getLsbD_signExtend]
    by_cases h32 : (shiftCount c).toNat ≤ 32
    · have h3 : 32 - (shiftCount c).toNat < 32 := by omega
      have h4 : shiftCount c ≤ 32 := by omega
      have h5 : 32 - (shiftCount c).toNat < 128 := by omega
      have h6 : ¬ (32 < (shiftCount c).toNat) := by omega
      simp [h3, h4, h5, h6]
    · have h4 : ¬ (shiftCount c ≤ 32) := by omega
      have h6 : 32 < (shiftCount c).toNat := by omega
      simp [h4, h6]
  · rw [if_neg hp, if_neg hp]
    by_cases hn : shiftCount c < 0
    · rw [if_pos hn, if_pos hn, shifted_eq]
      have hk : (-shiftCount c).toNat ≤ 64 := by omega
      have hk1 : 1 ≤ (-shiftCount c).toNat := by omega
      generalize (-shiftCount c).toNat = n at hk hk1
      congr 1
      · apply BitVec.eq_of_toInt_eq
        rw [← BitVec.ofInt_toInt (x := d.sshiftRight n), BitVec.toInt_sshiftRight, Int.shiftRight_eq_div_pow]
        push_cast
        rfl
      · rw [BitVec.getLsbD_signExtend]
        by_cases h3 : n ≤ 32
        · have h5 : n - 1 < 32 := by omega
          have h6 : n - 1 < 128 := by omega
          simp [h3, h5, h6]
        · have h5 : ¬ (n - 1 < 32) := by omega
          have h6 : n - 1 < 128 := by omega
          simp [h3, h5, h6]
    · rw [if_neg hn, if_neg hn, shifted_eq]

theorem aluLsh_wide (d c : Word) : aluLsh d c = logicalShift d c := by
  obtain ⟨h1, h2⟩ := shiftCount_bounds c
  unfold aluLsh logicalShift
  simp only [← shiftCount.eq_1]
  by_cases hp : 0 < shiftCount c
  · rw [if_pos hp, if_pos hp, shifted_eq]
    congr 1
    by_cases h32 : shiftCount c ≤ 32
    · rw [if_pos h32, if_pos h32, BitVec.getLsbD_shiftLeft, BitVec.getLsbD_setWidth]
      have h5 : 32 - (shiftCount c).toNat < 64 := by omega
      have h6 : ¬ (32 < (shiftCount c).toNat) := by omega
      simp [h5, h6]
    · rw [if_neg h32, if_neg h32]
  · rw [if_neg hp, if_neg hp]
    by_cases hn : shiftCount c < 0
    · rw [if_pos hn, if_pos hn, shifted_eq]
      congr 1
      by_cases h3 : (-shiftCount c).toNat ≤ 32
      · simp [h3]
      · rw [BitVec.getLsbD_of_ge d _ (by omega)]
        simp
    · rw [if_neg hn, if_neg hn, shifted_eq]

theorem rol_eq (d : Word) (b : Bool) : d.extractLsb' 0 31 ++ BitVec.ofBool b = (d <<< 1) ||| bitAs 32 b := by
  apply BitVec.eq_of_getLsbD_eq
  intro i hi
  simp only [BitVec.getLsbD_append, BitVec.getLsbD_or, BitVec.getLsbD_shiftLeft, bitAs, BitVec.getLsbD_setWidth,
    BitVec.getLsbD_extractLsb']
  by_cases h0 : i = 0
  · subst h0; simp
  · have h1 : ¬ i < 1 := by omega
    have h2 : i - 1 < 31 := by omega
    simp [h0, h1, h2, hi]

theorem ror_eq (d : Word) (b : Bool) : BitVec.ofBool b ++ d.extractLsb' 1 31 = (d >>> 1) ||| (bitAs 32 b <<< 31) := by
  apply BitVec.eq_of_getLsbD_eq
  intro i hi
  simp only [BitVec.getLsbD_append, BitVec.getLsbD_or, BitVec.getLsbD_shiftLeft, bitAs, BitVec.getLsbD_setWidth,
    BitVec.getLsbD_extractLsb', BitVec.getLsbD_ushiftRight]
  by_cases h0 : i = 31
  · subst h0; simp
  · have h2 : i < 31 := by omega
    simp [h2, hi]

theorem rol_rotate (d : Word) : d.extractLsb' 0 31 ++ BitVec.ofBool d.msb = d.rotateLeft 1 := by
  apply BitVec.eq_of_getLsbD_eq
  intro i hi
  have hi : i < 32 := hi
  rw [BitVec.getLsbD_rotateLeft_of_le (by decide), BitVec.getLsbD_append, BitVec.getLsbD_extractLsb',
    BitVec.msb_eq_getLsbD_last]
  by_cases h0 : i = 0
  · subst h0; simp
  · have h1 : ¬ i < 1 := by omega
    have h2 : i - 1 < 31 := by omega
    simp [h1, h2, hi]

theorem ror_rotate (d : Word) : BitVec.ofBool (d.getLsbD 0) ++ d.extractLsb' 1 31 = d.rotateRight 1 := by
  apply BitVec.eq_of_getLsbD_eq
  intro i hi
  have hi : i < 32 := hi
  rw [BitVec.getLsbD_rotateRight, BitVec.getLsbD_append, BitVec.getLsbD_extractLsb']
  by_cases h0 : i = 31
  · subst h0; simp
  · have h1 : i < 31 := by omega
    simp [h1]

/-! ## The other integer results -/

theorem aluAbs_eq (ovm : Bool) (a : Word) : aluAbs ovm a = absResult ovm a := by
  obtain ⟨h1, h2⟩ := word_bounds a
  have hv : satI ovm (Int.ofNat a.toInt.natAbs) = (if a = 0x80000000#32 then
      (if ovm then 0x7FFFFFFF#32 else 0x80000000#32) else if a.msb then -a else a) ∧
      overflows (Int.ofNat a.toInt.natAbs) = (a == 0x80000000#32) := by
    by_cases h : a = 0x80000000#32
    · subst h
      cases ovm <;> decide
    · have hne : a.toInt ≠ -2147483648 := fun e => h (BitVec.eq_of_toInt_eq (by rw [e]; decide))
      have ho : overflows (Int.ofNat a.toInt.natAbs) = false := by
        rw [← Bool.not_eq_true, overflows_iff, not_not, Int.ofNat_eq_natCast]
        omega
      refine ⟨?_, by rw [ho]; simp [h]⟩
      rw [if_neg h, satI, ho, Bool.and_false, if_neg (by decide)]
      rw [BitVec.msb_eq_toInt]
      by_cases hn : a.toInt < 0
      · rw [if_pos (by simpa using hn)]
        have : Int.ofNat a.toInt.natAbs = -a.toInt := by rw [Int.ofNat_eq_natCast]; omega
        rw [this, BitVec.ofInt_neg, BitVec.ofInt_toInt]
      · rw [if_neg (by simpa using hn)]
        have : Int.ofNat a.toInt.natAbs = a.toInt := by rw [Int.ofNat_eq_natCast]; omega
        rw [this, BitVec.ofInt_toInt]
  unfold aluAbs absResult
  dsimp only
  rw [hv.1, hv.2]

theorem cmpFlags_eq (x y : Word) : cmpFlags x y =
    { n := x.slt y, z := x == y, v := x.ssubOverflow y, uf := false, c := some (x.ult y) } := by
  unfold cmpFlags
  have h : overflows (x.toInt - y.toInt) = x.ssubOverflow y := by
    rw [Bool.eq_iff_iff, overflows_iff, BitVec.ssubOverflow]
    simp only [Bool.or_eq_true, decide_eq_true_eq]
    norm_num
    omega
  rw [h]
  rfl

theorem subcStep_eq (d a : Word) : subcStep d a = if a ≤ d then 2 * (d - a) + 1 else 2 * d := by
  have h2 : ∀ z : Word, z <<< 1 = 2 * z := by
    intro z
    rw [BitVec.shiftLeft_eq_mul_twoPow, BitVec.mul_comm]
    rfl
  unfold subcStep
  simp only [BitVec.le_def]
  split
  · rw [← h2]
    show _ = (d - a) <<< 1 + 1#32
    rw [BitVec.add_eq_or_of_and_eq_zero]
    apply BitVec.eq_of_getLsbD_eq
    intro i hi
    rw [BitVec.getLsbD_and, BitVec.getLsbD_one, BitVec.getLsbD_shiftLeft]
    by_cases h0 : i = 0
    · subst h0; simp
    · simp [h0]
  · exact h2 d

end Sys2Proof.Machine
end

