-- ==== Sys2Proof/Tests/Slice0.lean ====
section
/-! SUPPORT. Tests: ill-formed terms, words, worked examples of spec/95_test_vectors.md, and for every statement
with hypotheses a state and operands that meet them. -/

namespace Sys2Proof.Tests

open Sys2Proof Sys2Proof.Machine

/-! ## Ill-formed instructions: one for each check of WellFormed -/

/-- LDA into a register that is no address register (R310). -/
theorem test_wf_lda : (Instr.lda (.imm 1) (.r 0)).wf = false ∧ (Instr.lda (.imm 1) .sp).wf = true := by decide

/-- A three-operand type 1 field has no displacement but 1 (R164, R199). -/
theorem test_wf_three : (Instr.addi3 (.ir (.pre false false (.disp 2) 1) (.r 0)) (.r 1)).wf = false ∧
    (Instr.cmpi3 (.ri (.r 0) (.post false false (.disp 0) 1))).wf = false ∧
    (Instr.addf3 (.ii (.plain 1) (.post true true (.disp 9) 2)) 1).wf = false ∧
    (Instr.cmpf3 (.ir (.pre true true (.disp 255) 7) 3)).wf = false ∧
    (Instr.addi3 (.ir (.pre false false (.disp 1) 1) (.r 0)) (.r 1)).wf = true := by decide

/-- The indirect fields of a parallel instruction have no displacement but 1 (R167, R199). -/
theorem test_wf_parallel : (Instr.stfStf 0 1 (.pre false false (.disp 3) 1) (.plain 2)).wf = false ∧
    (Instr.ldiLdi 0 1 (.plain 2) (.post false false (.disp 0) 1)).wf = false ∧
    (Instr.absfStf 0 1 (.plain 2) (.pre true false (.disp 4) 1)).wf = false ∧
    (Instr.addi3Sti 0 1 2 (.post true true (.disp 5) 3) (.plain 4)).wf = false ∧
    (Instr.mpyf3Addf3 0 0 0 1 2 (.plain 3) (.pre false true (.disp 6) 4)).wf = false := by decide

/-! ## Words, written out from the table's bits and the operand fields -/

/-- Words of the formats: general (opcode_table.json; R162 to R169). -/
theorem test_decode_1 : ∀ p ∈ ([
    (0x00870002, .absi (.reg (.r 2)) (.r 7)),
    (0x012C1234, .addc (.dir 0x1234) (.ar 4)),
    (0x02511901, .addi (.ind (.pre true true (.disp 1) 1)) .ir0),
    (0x02F68001, .and (.imm 0x8001) .die),
    (0x0300001B, .andn (.reg .rc) (.r 0)),
    (0x03A5258B, .ash (.dir 0x258B) (.r 5)),
    (0x04CA5400, .cmpi (.ind (.pre false true .ir0 4)) (.ar 2)),
    (0x086FA346, .ldi (.imm 0xA346) (.ar 7)),
    (0x09990014, .lsh (.reg .sp) .rs),
    (0x0ABE38E2, .mpyi (.dir 0x38E2) (.r 10)),
    (0x0B438F00, .negb (.ind (.pre true false .ir1 7)) (.r 3)),
    (0x0C68C68B, .negi (.imm 0xC68B) (.ar 0)),
    (0x0D92000D, .not (.reg (.ar 5)) .ir1),
    (0x10374C39, .or (.dir 0x4C39) .iie),
    (0x16DCC200, .subb (.ind (.plain 2)) (.r 8)),
    (0x1761E9D0, .subc (.imm 0xE9D0) (.r 1))] : List (Nat × Instr)), decodeTableWord 32 p.1 = some p.2 := by decide

/-- Words of the formats: general (opcode_table.json; R162 to R169). -/
theorem test_decode_2 : ∀ p ∈ ([
    (0x180B0006, .subi (.reg (.r 6)) (.ar 3)),
    (0x18B05F90, .subrb (.dir 0x5F90) .dp),
    (0x19D52D26, .subri (.ind (.post true false (.disp 38) 5)) .st),
    (0x1A7A0D15, .tstb (.imm 0x0D15) .re),
    (0x1A84001F, .xor (.reg (.r 11)) (.r 4)),
    (0x1DA972E7, .mpyshi (.dir 0x72E7) (.ar 1)),
    (0x1E4E6000, .mpyuhi (.ind (.post false false .ir0 0)) (.ar 6)),
    (0x1EF3305A, .lda (.imm 0x305A) .bk),
    (0x05810013, .float (.reg .bk) 1),
    (0x001F0006, .absf (.reg 6) 11),
    (0x01A4863E, .addf (.dir 0x863E) 4),
    (0x045D9B00, .cmpf (.ind (.pre true true .ir1 3)) 9),
    (0x06E2539F, .lde (.imm 0x539F) 2),
    (0x07000007, .ldf (.reg 7) 0),
    (0x09259995, .ldm (.dir 0x9995) 5),
    (0x0A5E064B, .mpyf (.ind (.pre false false (.disp 75) 6)) 10)] : List (Nat × Instr)), decodeTableWord 32 p.1 = some p.2 := by decide

/-- Words of the formats: general (opcode_table.json; R162 to R169). -/
theorem test_decode_3 : ∀ p ∈ ([
    (0x0BE376E4, .negf (.imm 0x76E4) 3),
    (0x0D01001C, .norm (.reg 8) 1),
    (0x1126ACEC, .rnd (.dir 0xACEC) 6),
    (0x17DF3970, .subf (.ind (.post true true (.disp 112) 1)) 11),
    (0x19649A29, .subrf (.imm 0x9A29) 4),
    (0x0518001D, .fix (.reg 9) .iif),
    (0x1B870002, .toieee (.reg 2) 7),
    (0x1CA0C043, .rcpf (.dir 0xC043) 0),
    (0x1D457400, .rsqrf (.ind (.post false true .ir0 4)) 5),
    (0x1C3ED39A, .frieee (.dir 0xD39A) 10),
    (0x07C3AF00, .ldfi (.ind (.post true false .ir1 7)) 3),
    (0x08BDE6F1, .ldii (.dir 0xE6F1) (.r 9)),
    (0x16421295, .sigi (.ind (.pre false true (.disp 149) 2)) (.r 2)),
    (0x143CFA48, .stf 8 (.dir 0xFA48)),
    (0x14C14D00, .stfi 1 (.ind (.pre true false .ir0 5))),
    (0x15A70D9F, .stii (.r 7) (.dir 0x0D9F))] : List (Nat × Instr)), decodeTableWord 32 p.1 = some p.2 := by decide

/-- Words of the formats: general (opcode_table.json; R162 to R169). -/
theorem test_decode_4 : ∀ p ∈ ([
    (0x152C9ABC, .stiDir (.ar 4) 0x9ABC),
    (0x15518000, .stiInd .ir0 (.pre false false .ir1 0)),
    (0x1515ABCD, .stikDir 0x15 0xABCD),
    (0x1575BB00, .stikInd 0x15 (.post true true .ir1 3)),
    (0x06000000, .idle),
    (0x0CC026BA, .nop (.ind (.post false false (.disp 186) 6))),
    (0x1B405900, .iack (.ind (.pre true true .ir0 1))),
    (0x0E360000, .pop .die),
    (0x0EA60000, .popf 6),
    (0x0F3B0000, .push .rc),
    (0x0FBF0000, .pushf 11),
    (0x11E00001, .rol (.r 0)),
    (0x12650001, .rolc (.r 5)),
    (0x12EAFFFF, .ror (.ar 2)),
    (0x136FFFFF, .rorc (.ar 7)),
    (0x13BB20F6, .rpts (.dir 0x20F6))] : List (Nat × Instr)), decodeTableWord 32 p.1 = some p.2 := by decide

/-- Words of the formats: general, conditional load, expansion register, byte/half-word (opcode_table.json; R162 to R169). -/
theorem test_decode_5 : ∀ p ∈ ([
    (0x1F70BCDE, .ldpk 0xBCDE),
    (0x1FF4CDEF, .ldhi 0xCDEF .sp),
    (0x4024344D, .ldfcond .u (.dir 0x344D) 4),
    (0x50D99400, .ldicond .lo (.ind (.pre false true .ir1 4)) .rs),
    (0x761E0000, .ldep .ivtp (.r 10)),
    (0x76810003, .ldpe (.r 3) .tvtp),
    (0xB08D0008, .lb 1 (.reg (.ar 0)) (.ar 5)),
    (0xB33247A4, .lbu 2 (.dir 0x47A4) .ir1),
    (0xB5D7CF00, .lwl 3 (.ind (.bitRev 7)) .iie),
    (0xB601001C, .lwr 0 (.reg (.r 8)) (.r 1)),
    (0xB8A65AFB, .mb 1 (.dir 0x5AFB) (.r 6)),
    (0xBACB32DF, .lh 1 (.ind (.post false true (.disp 223) 2)) (.ar 3)),
    (0xBB150010, .lhu 0 (.reg .dp) .st),
    (0xBCBA6E52, .mh 1 (.dir 0x6E52) .re)] : List (Nat × Instr)), decodeTableWord 32 p.1 = some p.2 := by decide

/-- Words of the formats: three-operand (opcode_table.json; R162 to R169). -/
theorem test_decode_6 : ∀ p ∈ ([
    (0x20091F04, .addc3 (.rr (.r 11) (.r 4)) (.ar 1)),
    (0x21331D0E, .addi3 (.ir (.pre true true (.disp 1) 5) (.ar 6)) .bk),
    (0x21DD1850, .and3 (.ri .iif (.pre false true .ir0 0)) (.r 9)),
    (0x22628BC6, .andn3 (.ii (.pre true false .ir1 3) (.plain 6)) (.r 2)),
    (0x328C0780, .ash3 (.rk (.r 7) 0x80) (.ar 4)),
    (0x34361118, .lsh3 (.rd .ir0 ⟨3, 0⟩) .die),
    (0x355B51AB, .mpyi3 (.dk ⟨10, 1⟩ 0xAB) .rc),
    (0x35E08AC3, .or3 (.dd ⟨17, 2⟩ ⟨24, 3⟩) (.r 0)),
    (0x260F050A, .subb3 (.rr (.r 5) (.ar 2)) (.ar 7)),
    (0x27392914, .subi3 (.ir (.post true false (.disp 1) 1) .sp) .rs),
    (0x28431E64, .xor3 (.ri (.r 10) (.post false false .ir0 4)) (.r 3)),
    (0x28E89F02, .mpyshi3 (.ii (.pre true true .ir1 7) (.pre false false (.disp 1) 2)) (.ar 0)),
    (0x39120DD6, .mpyuhi3 (.rk (.ar 5) 0xD6) .ir1),
    (0x33A017FC, .cmpi3 (.rd .iie ⟨31, 4⟩)),
    (0x37C03501, .tstb3 (.dk ⟨6, 5⟩ 0x01)),
    (0x20871D02, .addf3 (.rr 9 2) 7)] : List (Nat × Instr)), decodeTableWord 32 p.1 = some p.2 := by decide

/-- Words of the formats: three-operand, conditional branch (opcode_table.json; R162 to R169). -/
theorem test_decode_7 : ∀ p ∈ ([
    (0x24A53D00, .mpyf3 (.ir (.post true true (.disp 1) 5) 0) 5),
    (0x26C31E70, .subf3 (.ri 10 (.post false true .ir0 0)) 3),
    (0x2360AB16, .cmpf3 (.ii (.post true false .ir1 3) (.pre false true (.disp 1) 6))),
    (0x6802001C, .bcond .ls (.reg (.r 8))),
    (0x6A23FF00, .bcondD .hi (.rel 0xFF00)),
    (0x68640001, .bcondAT .hs (.reg (.r 1))),
    (0x6AA50011, .bcondAF .eq (.rel 0x0011)),
    (0x70060006, .callcond .ne (.reg (.r 6))),
    (0x72270122, .lajcond .lt (.rel 0x0122)),
    (0x6C88000B, .dbcond 2 .le (.reg (.ar 3))),
    (0x6F690233, .dbcondD 5 .gt (.rel 0x0233))] : List (Nat × Instr)), decodeTableWord 32 p.1 = some p.2 := by decide

/-- Words of the formats: 24-bit, register, trap, return, parallel (two stores) (opcode_table.json; R162 to R169). -/
theorem test_decode_8 : ∀ p ∈ ([
    (0x60812345, .br 0x812345),
    (0x61847AE0, .brd 0x847AE0),
    (0x6287D27B, .call 0x87D27B),
    (0x638B2A16, .laj 0x8B2A16),
    (0x648E81B1, .rptbRel 0x8E81B1),
    (0x6591D94C, .rptbdRel 0x91D94C),
    (0x79000010, .rptbReg .dp),
    (0x79800015, .rptbdReg .st),
    (0x66000000, .swi),
    (0x740A0155, .trapcond .ge 0x155),
    (0x748C0184, .latcond .nv 0x184),
    (0x780D0000, .reticond .v),
    (0x782E0000, .reticondD .nuf),
    (0x788F0000, .retscond .uf),
    (0xC0034984, .stfStf 0 3 (.pre true false .ir0 1) (.pre false false .ir1 4)),
    (0xC381BF22, .stiSti 6 1 (.post true true .ir1 7) (.post false false (.disp 1) 2))] : List (Nat × Instr)), decodeTableWord 32 p.1 = some p.2 := by decide

/-- Words of the formats: parallel (two loads) (opcode_table.json; R162 to R169). -/
theorem test_decode_9 : ∀ p ∈ ([
    (0xC5075D90, .ldfLdf 4 7 (.pre true true .ir0 5) (.pre false true .ir1 0)),
    (0xC685CB36, .ldiLdi 2 5 (.bitRev 3) (.post false true (.disp 1) 6))] : List (Nat × Instr)), decodeTableWord 32 p.1 = some p.2 := by decide

/-- Words of the formats: parallel (operation with store) (opcode_table.json; R162 to R169). -/
theorem test_decode_10 : ∀ p ∈ ([
    (0xC80369A4, .absfStf 0 3 (.post true false .ir0 1) (.post false false .ir1 4)),
    (0xCB810F42, .absiSti 6 1 (.pre true false (.disp 1) 7) (.pre false false .ir0 2)),
    (0xD5077DB0, .fixSti 4 7 (.post true true .ir0 5) (.post false true .ir1 0)),
    (0xD6851B56, .floatStf 2 5 (.pre true true (.disp 1) 3) (.pre false true .ir0 6)),
    (0xD80389C4, .ldfStf 0 3 (.pre true false .ir1 1) (.plain 4)),
    (0xDB812F62, .ldiSti 6 1 (.post true false (.disp 1) 7) (.post false false .ir0 2)),
    (0xE3079D00, .negfStf 4 7 (.pre true true .ir1 5) (.pre false false (.disp 1) 0)),
    (0xE4853B76, .negiSti 2 5 (.post true true (.disp 1) 3) (.post false true .ir0 6)),
    (0xE603A914, .notSti 0 3 (.post true false .ir1 1) (.pre false true (.disp 1) 4)),
    (0xF1814F82, .toieeeStf 6 1 (.pre true false .ir0 7) (.pre false false .ir1 2)),
    (0xF307BD20, .frieeeStf 4 7 (.post true true .ir1 5) (.post false false (.disp 1) 0)),
    (0xCCA85B96, .addf3Stf 2 5 0 (.pre true true .ir0 3) (.pre false true .ir1 6)),
    (0xCEF1C934, .addi3Sti 3 6 1 (.bitRev 1) (.post false true (.disp 1) 4)),
    (0xD13A6FA2, .and3Sti 4 7 2 (.post true false .ir0 7) (.post false false .ir1 2)),
    (0xD3430D40, .ash3Sti 5 0 3 (.pre true false (.disp 1) 5) (.pre false false .ir0 0)),
    (0xDD8C7BB6, .lsh3Sti 6 1 4 (.post true true .ir0 3) (.post false true .ir1 6))] : List (Nat × Instr)), decodeTableWord 32 p.1 = some p.2 := by decide

/-- Words of the formats: parallel (operation with store), parallel (multiply with ALU operation) (opcode_table.json; R162 to R169). -/
theorem test_decode_11 : ∀ p ∈ ([
    (0xDFD51954, .mpyf3Stf 7 2 5 (.pre true true (.disp 1) 1) (.pre false true .ir0 4)),
    (0xE01E8FC2, .mpyi3Sti 0 3 6 (.pre true false .ir1 7) (.plain 2)),
    (0xE8672D60, .or3Sti 1 4 7 (.post true false (.disp 1) 5) (.post false false .ir0 0)),
    (0xEAA89B06, .subf3Stf 2 5 0 (.pre true true .ir1 3) (.pre false false (.disp 1) 6)),
    (0xECF13974, .subi3Sti 3 6 1 (.post true true (.disp 1) 1) (.post false true .ir0 4)),
    (0xEF3AAF12, .xor3Sti 4 7 2 (.post true false .ir1 7) (.pre false true (.disp 1) 2)),
    (0x82684D80, .mpyf3Addf3 2 0 1 5 0 (.pre true false .ir0 5) (.pre false false .ir1 0)),
    (0x875EBB26, .mpyf3Subf3 3 0 1 3 6 (.post true true .ir1 3) (.post false false (.disp 1) 6)),
    (0x884C5994, .mpyi3Addi3 0 0 1 1 4 (.pre true true .ir0 1) (.pre false true .ir1 4)),
    (0x8D7ACF32, .mpyi3Subi3 1 0 1 7 2 (.bitRev 7) (.post false true (.disp 1) 2))] : List (Nat × Instr)), decodeTableWord 32 p.1 = some p.2 := by decide

/-- Words that are no instruction: an unused operation code, a G field, a `mod` field, a condition, a register and an
expansion register that the instruction does not have (R163, R198, R200, R303, R312, U6). -/
theorem test_decode_refused : ∀ p ∈ ([(0x10800000, none), (0xFFFFFFFF, none), (0xB0600000, none), (0x0840D000, none),
    (0x680B0001, none), (0x0187000C, none), (0x7600_0002, none)] : List (Nat × Option Instr)),
    decodeTableWord 32 p.1 = p.2 := by decide

/-! ## Worked examples of the source (spec/95_test_vectors.md A2) -/

/-- A machine at 1000h. -/
def base : State := { State.reset with pc := 0x1000 }

/-- With registers. -/
def regs (l : List (Reg × Word)) (s : State) : State := l.foldl (fun s p => s.wrI p.1 p.2) s

/-- With extended-precision registers. -/
def exts (l : List (Fin 12 × Ext)) (s : State) : State := l.foldl (fun s p => s.wrF p.1 p.2) s

/-- With words in memory. -/
def words (l : List (Word × Word)) (s : State) : State :=
  { s with mem := l.foldl (fun m p => Memory.setWord m p.1 p.2) s.mem }

/-- What an observation of the state after an instruction gives. -/
def ran {α : Type} (i : Instr) (s : State) (f : State → α) : Option α :=
  match exec i s with
  | .next t => some (f t)
  | .fault _ => none
  | .refused _ => none

theorem test_lb : ran (.lb 2 (.reg (.r 1)) (.r 2)) (regs [(.r 1, 0x00AB0000)] base)
    (fun t => t.rdI (.r 2)) = some 0xFFFFFFAB#32 := by decide

theorem test_lbu : ran (.lbu 2 (.reg (.r 1)) (.r 2)) (regs [(.r 1, 0x00AB0000)] base)
    (fun t => t.rdI (.r 2)) = some 0xAB#32 := by decide

theorem test_lhu : ran (.lhu 0 (.reg (.r 1)) (.r 2)) (regs [(.r 1, 0xABCDEF12)] base)
    (fun t => t.rdI (.r 2)) = some 0xEF12#32 := by decide

theorem test_lwl : ran (.lwl 2 (.reg (.r 1)) (.r 2)) (regs [(.r 1, 0xABCDEF12), (.r 2, 0x12345678)] base)
    (fun t => t.rdI (.r 2)) = some 0xEF125678#32 := by decide

theorem test_lwr : ran (.lwr 1 (.reg (.ar 1)) (.r 2)) (regs [(.ar 1, 0xABCDEF12), (.r 2, 0x12345678)] base)
    (fun t => t.rdI (.r 2)) = some 0x12ABCDEF#32 := by decide

theorem test_mb : ran (.mb 2 (.reg (.ar 1)) (.ar 2)) (regs [(.ar 1, 0xABCDEF12), (.ar 2, 0x12345678)] base)
    (fun t => t.ar[2]) = some 0x12125678#32 := by decide

theorem test_mh : ran (.mh 1 (.reg (.ar 1)) (.ar 2)) (regs [(.ar 1, 0xABCDEF12), (.ar 2, 0x12345678)] base)
    (fun t => t.ar[2]) = some 0xEF125678#32 := by decide

theorem test_ldf_short : ran (.ldf (.imm 0x2200) 0) base
    (fun t => t.r[0]) = some 0x0220000000#40 := by decide

theorem test_ldfcond : ran (.ldfcond .eq (.reg 3) 5) (exts [(3, 0x2CFF2CD500), (5, 0x5F0000003E)] ({ base with st := 0x4 }))
    (fun t => (t.r[5], t.st)) = some (0x2CFF2CD500#40, 0x4#16) := by decide

theorem test_ldi : ran (.ldi (.ind (.pre true false .ir0 1)) (.r 5)) (regs [(.ar 1, 0x2C), (.ir0, 0x5)] (words [(0x27, 0x26)] base))
    (fun t => (t.rdI (.r 5), t.ar[1], t.st)) = some (0x26#32, 0x2C#32, 0x0#16) := by decide

theorem test_ldicond : ran (.ldicond .eq (.reg (.r 4)) (.r 6)) (regs [(.r 4, 0x27C), (.r 6, 0xFE2)] base)
    (fun t => t.rdI (.r 6)) = some 0xFE2#32 := by decide

theorem test_popf : ran (.popf 4) (regs [(.sp, 0x80984A)] (exts [(4, 0x025D2E0123)] (words [(0x80984A, 0x5F2C1302)] base)))
    (fun t => (t.r[4], t.sp, t.st)) = some (0x5F2C130200#40, 0x809849#32, 0x0#16) := by decide

theorem test_pushf : ran (.pushf 2) (regs [(.sp, 0x809801)] (exts [(2, 0x025C128081)] base))
    (fun t => (t.sp, Memory.word t.mem 0x809802)) = some (0x809802#32, 0x025C1280#32) := by decide

theorem test_absi : ran (.absi (.ind (.plain 1)) (.r 3)) (regs [(.ar 1, 0x20)] (words [(0x20, 0xFFFFFFCB)] base))
    (fun t => (t.rdI (.r 3), t.ar[1])) = some (0x35#32, 0x20#32) := by decide

theorem test_addc : ran (.addc (.reg (.r 1)) (.r 5)) (regs [(.r 1, 0xFFFF5C25), (.r 5, 0xFFFF019E)] ({ base with st := 0x1 }))
    (fun t => t.rdI (.r 5)) = some 0xFFFE5DC4#32 := by decide

theorem test_addf : ran (.addf (.ind (.post false false .ir1 4)) 5) (regs [(.ar 4, 0x809800), (.ir1, 0x12B)] (exts [(5, 0x0579800000)] (words [(0x809800, 0x086B2800)] base)))
    (fun t => (t.r[5], t.ar[4], t.st)) = some (0x09052C0000#40, 0x80992B#32, 0x0#16) := by decide

theorem test_addi : ran (.addi (.reg (.r 3)) (.r 7)) (regs [(.r 3, 0xFFFFFFCB), (.r 7, 0x35)] base)
    (fun t => (t.rdI (.r 7), t.st)) = some (0x0#32, 0x5#16) := by decide

theorem test_and : ran (.and (.reg (.r 1)) (.r 2)) (regs [(.r 1, 0x80), (.r 2, 0x0AFF)] ({ base with st := 0x1 }))
    (fun t => (t.rdI (.r 2), t.st)) = some (0x80#32, 0x1#16) := by decide

theorem test_andn : ran (.andn (.dir 0x980C) (.r 2)) (regs [(.dp, 0x80), (.r 2, 0x0C2F)] (words [(0x80980C, 0x0A02)] base))
    (fun t => (t.rdI (.r 2), t.st)) = some (0x042D#32, 0x0#16) := by decide

theorem test_ash_left : ran (.ash (.reg (.r 1)) (.r 3)) (regs [(.r 1, 0x10), (.r 3, 0x000AE000)] base)
    (fun t => (t.rdI (.r 3), t.st)) = some (0xE0000000#32, 0x2A#16) := by decide

theorem test_ash_right : ran (.ash (.dir 0x98C3) (.r 5)) (regs [(.dp, 0x80), (.r 5, 0xAEC00001)] (words [(0x8098C3, 0xFFE8)] base))
    (fun t => (t.rdI (.r 5), t.st)) = some (0xFFFFFFAE#32, 0x9#16) := by decide

theorem test_cmpf : ran (.cmpf (.ind (.pre false false (.disp 1) 4)) 6) (regs [(.ar 4, 0x8098F2)] (exts [(6, 0x070C800000)] (words [(0x8098F3, 0x070C8000)] base)))
    (fun t => (t.st, t.r[6])) = some (0x4#16, 0x070C800000#40) := by decide

theorem test_cmpi : ran (.cmpi (.reg (.r 3)) (.r 7)) (regs [(.r 3, 0x898), (.r 7, 0x3E8)] base)
    (fun t => (t.st, t.rdI (.r 7))) = some (0x9#16, 0x3E8#32) := by decide

theorem test_fix : ran (.fix (.reg 1) (.r 2)) (exts [(1, 0x0A28200000)] base)
    (fun t => (t.rdI (.r 2), t.st)) = some (0x541#32, 0x0#16) := by decide

theorem test_float : ran (.float (.ind (.pre false true (.disp 2) 2)) 5) (regs [(.ar 2, 0x809800)] (words [(0x809802, 0x0AE)] base))
    (fun t => (t.ar[2], t.r[5], t.st)) = some (0x809802#32, 0x072E000000#40, 0x0#16) := by decide

theorem test_lsh_left : ran (.lsh (.reg (.r 4)) (.r 7)) (regs [(.r 4, 0x18), (.r 7, 0x02AC)] base)
    (fun t => (t.rdI (.r 7), t.st)) = some (0xAC000000#32, 0x8#16) := by decide

theorem test_lsh_right : ran (.lsh (.ind (.pre true false .ir1 5)) (.r 5)) (regs [(.ar 5, 0x809908), (.ir1, 0x4), (.r 5, 0x12C00000)] (words [(0x809904, 0xFFFFFFF4)] base))
    (fun t => (t.rdI (.r 5), t.st)) = some (0x00012C00#32, 0x0#16) := by decide

theorem test_mpyf : ran (.mpyf (.reg 0) 2) (exts [(0, 0x070C800000), (2, 0x034C200000)] base)
    (fun t => (t.r[2], t.st)) = some (0x0A600F2000#40, 0x0#16) := by decide

theorem test_negb : ran (.negb (.reg (.r 5)) (.r 7)) (regs [(.r 5, 0xFFFFFFCB)] ({ base with st := 0x1 }))
    (fun t => (t.rdI (.r 7), t.st)) = some (0x34#32, 0x1#16) := by decide

theorem test_negf : ran (.negf (.ind (.pre false true (.disp 2) 3)) 1) (regs [(.ar 3, 0x809800)] (exts [(1, 0x057B400025)] (words [(0x809802, 0x070C8000)] base)))
    (fun t => (t.ar[3], t.r[1], t.st)) = some (0x809802#32, 0x07F3800000#40, 0x8#16) := by decide

theorem test_norm : ran (.norm (.reg 1) 2) (exts [(1, 0x0400003AF5)] base)
    (fun t => (t.r[2], t.st)) = some (0xF26BD40000#40, 0x0#16) := by decide

theorem test_rnd : ran (.rnd (.reg 5) 2) (exts [(5, 0x0733C16EEF)] base)
    (fun t => (t.r[2], t.st)) = some (0x0733C16F00#40, 0x0#16) := by decide

theorem test_rol : ran (.rol (.r 3)) (regs [(.r 3, 0x80025CD4)] base)
    (fun t => (t.rdI (.r 3), t.st)) = some (0x0004B9A9#32, 0x1#16) := by decide

theorem test_rolc : ran (.rolc (.r 3)) (regs [(.r 3, 0x420)] ({ base with st := 0x1 }))
    (fun t => (t.rdI (.r 3), t.st)) = some (0x841#32, 0x0#16) := by decide

theorem test_subc : ran (.subc (.dir 0x98C5) (.r 1)) (regs [(.dp, 0x80), (.r 1, 0x4F6)] (words [(0x8098C5, 0x492)] base))
    (fun t => t.rdI (.r 1)) = some 0x0C9#32 := by decide

theorem test_subrf : ran (.subrf (.dir 0x9905) 5) (regs [(.dp, 0x80)] (exts [(5, 0x057B400000)] (words [(0x809905, 0x0733C000)] base)))
    (fun t => (t.r[5], t.st)) = some (0x0669E00000#40, 0x0#16) := by decide

theorem test_addf3 : ran (.addf3 (.dd ⟨2, 1⟩ ⟨8, 1⟩) 4) (regs [(.ar 1, 0x2FF820)] (words [(0x2FF822, 0x0700F000), (0x2FF828, 0x034C2000)] base))
    (fun t => (t.r[4], t.ar[1], t.st)) = some (0x070DB20000#40, 0x2FF820#32, 0x0#16) := by decide

theorem test_callcond : ran (.callcond .ne (.reg (.r 5))) (regs [(.sp, 0x809835), (.r 5, 0x789)] base)
    (fun t => (t.pc, t.sp, Memory.word t.mem 0x809836)) = some (0x789#32, 0x809836#32, 0x1001#32) := by decide

theorem test_dbcond : ran (.dbcond 3 .lt (.reg (.r 2))) (regs [(.ar 3, 0x12), (.r 2, 0x9F)] ({ base with st := 0x8 }))
    (fun t => (t.pc, t.ar[3])) = some (0x9F#32, 0x11#32) := by decide

theorem test_retscond : ran (.retscond .ge) (regs [(.sp, 0x80983C)] (words [(0x80983C, 0x456)] base))
    (fun t => (t.pc, t.sp)) = some (0x456#32, 0x80983B#32) := by decide

theorem test_rpts : ran (.rpts (.reg (.ar 5))) (regs [(.ar 5, 0x0FF)] base)
    (fun t => (t.pc, t.st, t.rs, t.re, t.rc)) = some (0x1001#32, 0x100#16, 0x1001#32, 0x1001#32, 0x0FF#32) := by decide

theorem test_ldfi : ran (.ldfi (.ind (.pre false false (.disp 1) 2)) 7) (regs [(.ar 2, 0x8098F1)] (words [(0x8098F2, 0x0584C000)] base))
    (fun t => (t.r[7], t.ar[2], t.st)) = some (0x0584C00000#40, 0x8098F1#32, 0x8#16) := by decide

theorem test_absf_stf : ran (.absfStf 4 4 (.pre true false (.disp 1) 7) (.pre false true .ir1 3)) (regs [(.ar 3, 0x809800), (.ir1, 0x0AF), (.ar 7, 0x8098C5)] (exts [(4, 0x0733C00000)] (words [(0x8098AF, 0x058B4000)] base)))
    (fun t => (t.ar[3], t.r[4], t.ar[7], Memory.word t.mem 0x8098C4)) = some (0x8098AF#32, 0x0574C00000#40, 0x8098C5#32, 0x0733C000#32) := by decide

theorem test_ash3_sti : ran (.ash3Sti 0 1 5 (.plain 2) (.post false false .ir1 6)) (regs [(.ar 6, 0x809900), (.ir1, 0x8C), (.r 1, 0xFFE8), (.r 5, 0x35), (.ar 2, 0x8098A2)] (words [(0x809900, 0xAE000000)] base))
    (fun t => (t.ar[6], t.rdI (.r 0), Memory.word t.mem 0x8098A2, t.st)) = some (0x80998C#32, 0xFFFFFFAE#32, 0x35#32, 0x8#16) := by decide

theorem test_ldf_ldf : ran (.ldfLdf 3 7 (.post false false (.disp 1) 7) (.pre true true .ir0 1)) (regs [(.ar 1, 0x80985F), (.ir0, 0x8), (.ar 7, 0x80988A)] (words [(0x809857, 0x070C8000), (0x80988A, 0x057B4000)] base))
    (fun t => (t.ar[1], t.r[7], t.ar[7], t.r[3])) = some (0x809857#32, 0x070C800000#40, 0x80988B#32, 0x057B400000#40) := by decide

theorem test_mpyf3_stf : ran (.mpyf3Stf 0 7 3 (.post true false .ir0 0) (.pre true false (.disp 1) 2)) (regs [(.ar 2, 0x80982B), (.ar 0, 0x809860), (.ir0, 0x8)] (exts [(7, 0x057B400000), (3, 0x086B280000)] (words [(0x80982A, 0x070C8000)] base)))
    (fun t => (t.r[0], t.ar[0], Memory.word t.mem 0x809860, t.st)) = some (0x0D09E4A000#40, 0x809858#32, 0x086B2800#32, 0x0#16) := by decide

theorem test_negi_sti : ran (.negiSti 2 2 (.post false false (.disp 1) 1) (.pre true false (.disp 1) 3)) (regs [(.ar 3, 0x80982F), (.r 2, 0x19), (.ar 1, 0x8098A5)] (words [(0x80982E, 0x0DC)] base))
    (fun t => (t.rdI (.r 2), t.ar[1], Memory.word t.mem 0x8098A5, t.st)) = some (0xFFFFFF24#32, 0x8098A6#32, 0x19#32, 0x9#16) := by decide

theorem test_stf_stf : ran (.stfStf 4 3 (.pre false true (.disp 1) 5) (.post true false (.disp 1) 3)) (regs [(.ar 3, 0x809835), (.ar 5, 0x8099D2)] (exts [(4, 0x070C800000), (3, 0x0733C00000)] base))
    (fun t => (t.ar[3], t.ar[5], Memory.word t.mem 0x809835, Memory.word t.mem 0x8099D3)) = some (0x809834#32, 0x8099D3#32, 0x070C8000#32, 0x0733C000#32) := by decide

theorem test_subf3_stf : ran (.subf3Stf 0 1 7 (.pre false false .ir0 5) (.pre true false .ir1 4)) (regs [(.ar 4, 0x8098B8), (.ir1, 0x8), (.ar 5, 0x809850), (.ir0, 0x10)] (exts [(1, 0x057B400000), (7, 0x0733C00000)] (words [(0x8098B0, 0x070C8000)] base)))
    (fun t => (t.r[0], Memory.word t.mem 0x809860, t.st)) = some (0x061B600000#40, 0x0733C000#32, 0x0#16) := by decide

theorem test_mpyf3_subf3 : ran (.mpyf3Subf3 1 0 0 5 7 (.pre false true .ir1 7) (.post true false (.disp 1) 3)) (regs [(.ar 7, 0x809904), (.ir1, 0x8), (.ar 3, 0x8098B2)] (exts [(5, 0x034C000000), (7, 0x0733C00000)] (words [(0x80990C, 0x01110000), (0x8098B2, 0x070C8000)] base)))
    (fun t => (t.ar[7], t.r[0], t.ar[3], t.r[2], t.st)) = some (0x80990C#32, 0x0467180000#40, 0x8098B1#32, 0x05E3000000#40, 0x0#16) := by decide

theorem test_mpyi3_subi3 : ran (.mpyi3Subi3 3 0 0 2 4 (.pre false true (.disp 1) 0) (.post true false .ir1 5)) (regs [(.r 2, 0x32), (.ar 0, 0x8098E3), (.ar 5, 0x8099FC), (.ir1, 0x0C), (.r 4, 0x7D0)] (words [(0x8098E4, 0x62), (0x8099FC, 0x4B0)] base))
    (fun t => (t.rdI (.r 2), t.ar[0], t.rdI (.r 0), t.ar[5], t.st)) = some (0x320#32, 0x8098E4#32, 0x1324#32, 0x8099F0#32, 0x0#16) := by decide


/-! ## States and operands that meet the hypotheses of the statements -/

/-- A machine with its program, stack, vectors and data in the on-chip RAM: AR0 points at the word 7, AR1 at
12.75, SP at the word 2FFB00h. -/
def demo : State :=
  words [(0x2FF800, 0x02020001), (0x2FF980, 7), (0x2FF988, 0x034C0000), (0x2FF990, 0x2FFB00), (0x2FFA00, 0x2FFB00),
      (0x2FFA01, 0x2FFB10)]
    (regs [(.ar 0, 0x2FF980), (.ar 1, 0x2FF988), (.ar 2, 0x2FF9A0), (.sp, 0x2FF990), (.r 1, 5), (.dp, 0x2F)]
      { base with pc := 0x2FF800, ivtp := 0x2FFA00, tvtp := 0x2FFA00 })

/-- A boundary of the script at which nothing happens. -/
def calm : Boundary := { events := [], defer := false }

/-- The same machine before such a boundary. -/
def armed : State := { demo with script := [calm] }

/-- The same machine with interfaces that have made no access in the step, as the boundary leaves it. -/
def opened (s : State) : State := { s with script := [], pins := { s.pins with stat := 15, lstat := 15 } }

theorem demo_legal : demo.Legal := by constructor <;> decide

theorem witness_DecodeEncode : (Instr.ldicond .lt (.imm 0xFFFF) .rc).wf = true ∧
    (Instr.addi3 (.ii (.plain 1) (.post true true (.disp 1) 7)) .st).wf = true ∧ (Instr.lda (.imm 1) .sp).wf = true ∧
    ∃ i, decode 0x02020001 = .ok i := ⟨rfl, rfl, rfl, _, rfl⟩

theorem witness_StepRunsDecoded : (∃ u v w i, atBoundary demo = .ok false u ∧ fetchWord u = .ok w v ∧
    decode w = .ok i ∧ placement i { v with ir := w } = none) ∧
    demo.stBit 8 = false ∧ demo.delay = none ∧ demo.stalled = false := ⟨⟨_, _, _, _, rfl, rfl, rfl, rfl⟩, rfl, rfl, rfl⟩

theorem witness_QuietBoundary : armed.script = calm :: [] ∧ armed.irqChoice = none ∧ armed.boot = none ∧
    armed.idle = false ∧ ({ armed with stalled := true } : State).irqBlocked = true := by decide

/-- A boundary with two events, which latch NMI and time, and that postpones the interrupt. -/
theorem witness_QuietBoundary_events : ∃ (s t : State) (b : Boundary) (l : List Boundary), s.script = b :: l ∧
    b.events = [.nmiPin false, .h1 0] ∧
    applyEvents b.events { s with script := l, pins := { s.pins with stat := 15, lstat := 15 } } = .ok () t ∧
    t.irqChoice = some 1 ∧ b.defer = true ∧ t.boot = none ∧ t.idle = false :=
  ⟨{ armed with script := [{ events := [.nmiPin false, .h1 0], defer := true }], pins := { armed.pins with nmi := true } },
    _, _, _, rfl, rfl, rfl, by decide, rfl, rfl, rfl⟩

theorem witness_StepKeepsLegal : demo.Legal ∧ ∃ t, step demo = .next t := ⟨demo_legal, _, rfl⟩

theorem witness_ResetWrites : (∃ t, resetEvent demo = .ok () t) ∧
    (∃ t, resetEvent { demo with resetloc := 1 } = .ok () t) ∧ (∃ t, resetEvent { demo with resetloc := 2 } = .ok () t) ∧
    ∃ t, resetEvent { demo with resetloc := 3, romen := true } = .ok () t :=
  ⟨⟨_, rfl⟩, ⟨_, rfl⟩, ⟨_, rfl⟩, _, rfl⟩

/-- The boot loader: a step of it, a pin pattern, the words of a memory and of port 5, and every word of the stream. -/
theorem witness_ResetWrites_boot :
    (∃ t, bootStep .start (latchDma (opened { armed with boot := some .start })) = .ok () t) ∧
    demo.pins.iiof[0] = true ∧ demo.pins.iiof[3] = true ∧ demo.pins.iiof[2] = true ∧ demo.pins.iiof[1] = true ∧
    (∀ x : Fin 6, demo.ports[x].inq = []) ∧
    ({ demo with ports := demo.ports.set 5 { demo.ports[5] with inq := [7] } } : State).ports[5].inq = 7 :: [] ∧
    demo.latch.waiting = none ∧
    (∃ v t, dataRead 0x300000 demo = .ok v t ∧ ∃ x u, dataRead 0x300001 t = .ok x u ∧ ∃ y m, dataRead 0x300002 u = .ok y m ∧
      ∃ z n, dataRead 0x300003 m = .ok z n) ∧
    (∃ t, bootWord (.memory 32 0x2FF980) demo = .ok (7, .memory 32 0x2FF981) t ∧
      (∃ u, dataWrite 0x100000 7 t = .ok () u) ∧ (∃ u, dataWrite 0x100004 7 t = .ok () u) ∧
      ∃ u, dataWrite 0x2FFFFF 7 t = .ok () u) ∧
    (∃ n t, bootWord (.memory 32 0x2FF981) demo = .ok (0, n) t) ∧
    ∃ v n t w u, bootWord (.memory 8 0x2FF980) (bootTest (.memory 8 0x2FF980) demo) = .ok (v, n) t ∧
      dataRead v (t.driveIack v false) = .ok w u :=
  ⟨⟨_, rfl⟩, rfl, rfl, rfl, rfl, by decide, rfl, rfl, ⟨_, _, rfl, _, _, rfl, _, _, rfl, _, _, rfl⟩,
    ⟨_, rfl, ⟨_, rfl⟩, ⟨_, rfl⟩, _, rfl⟩, ⟨_, _, rfl⟩, _, _, _, _, _, rfl, rfl⟩

theorem witness_RegisterAndImmediateSources : (∃ w t, srcMem (.dir 0xF980) demo = .ok w t) ∧
    ∃ w t, srcMem (.ind (.pre false true (.disp 255) 7)) demo = .ok w t := ⟨⟨_, _, rfl⟩, _, _, rfl⟩

/-- Steps of 0, of 5 and of the whole block from the first and the last element; a block of 0 or above 65535 words, a
step above the block and an index outside it. -/
theorem witness_CircularAndBitReversed : circDefined 6 0x100 0 = true ∧ circDefined 6 0x105 5 = true ∧
    circDefined 6 0x105 6 = true ∧ circDefined 0xFFFF 0xFFFE 0xFFFF = true ∧ circDefined 0 0x100 0 = false ∧
    circDefined 0x10000 0 1 = false ∧ circDefined 6 0x100 7 = false ∧ circDefined 6 0x106 1 = false := by decide

/-- The first and last addresses of the on-chip RAM, of the ROM and of the reserved ranges. -/
theorem witness_DataAccess : Memory.wf demo.mem = true ∧ region false 0x2FF800 = .ram0 ∧ region false 0x2FFBFF = .ram0 ∧
    region false 0x2FFC00 = .ram1 ∧ region false 0x2FFFFF = .ram1 ∧ region true 0 = .rom ∧ region true 0xFFF = .rom ∧
    region true 0x1000 = .reserved ∧ region true 0xFFFFF = .reserved ∧ region false 0x100100 = .reserved ∧
    region false 0x2FF7FF = .reserved := by decide

/-- The first and the last address of each row of R101, with ROMEN = 1 and 0. -/
theorem witness_DataAccess_map : ([0, 0xFFF, 0x1000, 0xFFFFF, 0x100000, 0x1000FF, 0x100100, 0x1FFFFF, 0x200000, 0x2FF7FF] : List Word).map
      (fun a => (region true a, region false a)) =
    [(.rom, .localBus), (.rom, .localBus), (.reserved, .localBus), (.reserved, .localBus), (.periph, .periph), (.periph, .periph),
      (.reserved, .reserved), (.reserved, .reserved), (.reserved, .reserved), (.reserved, .reserved)] ∧
    ([0x2FF800, 0x2FFBFF, 0x2FFC00, 0x2FFFFF, 0x300000, 0x7FFFFFFF, 0x80000000, 0xFFFFFFFF] : List Word).map (region true) =
      [.ram0, .ram0, .ram1, .ram1, .localBus, .localBus, .globalBus, .globalBus] := by decide

/-- The first and last external addresses, with the smallest and the largest STRB ACTIVE code, over enabled and over
disabled pins. -/
theorem witness_ExternalAccess : region false 0x80000000 = .globalBus ∧ region true 0xFFFFFFFF = .globalBus ∧
    region false 0 = .localBus ∧ region true 0x7FFFFFFF = .localBus ∧ region true 0x300000 = .localBus ∧
    (demo.gmicr.extractLsb' 24 5).toNat = 30 ∧ ((0x0F000000 : Word).extractLsb' 24 5).toNat = 15 ∧
    demo.pins.globalBus = { ce0 := false, ce1 := false, de := false, ae := false } ∧
    (busPinsEvent false { ce0 := true, ce1 := false, de := true, ae := false } demo).pins.localBus.de = true := by decide

theorem witness_CacheHoldsFetchedWord : (∃ w t, cacheFetch true 0x80000000 { demo with st := 0x0400 } = .ok w t) ∧
    (∃ w t, cacheFetch true 0x80000000 { demo with st := 0x0C00 } = .ok w t) ∧
    ∃ w t, cacheFetch false 0x7FFFFFFF { demo with st := 0x0800 } = .ok w t := ⟨⟨_, _, rfl⟩, ⟨_, _, rfl⟩, _, _, rfl⟩

theorem witness_RegisterWrite : Reg.st ≠ .iif ∧ Reg.r 11 ≠ .iif ∧ (0x1000 : Word).getLsbD 12 = true := by decide

theorem witness_IifWrite : demo.iif &&& 0x00FE0000 = 0 := by decide

theorem witness_FlagGate : (∃ n, Reg.r 11 = .r n) ∧ (({ demo with st := 0x8000 } : State).stBit 15 = true ∧ Reg.rc ≠ .st) ∧
    ¬ ((∃ n, Reg.rc = .r n) ∨ (demo.stBit 15 = true ∧ Reg.rc ≠ .st)) := by decide

theorem witness_Conditions : (11 : BitVec 5) = 11 ∧ 21 ≤ (21 : BitVec 5).toNat ∧ 21 ≤ (31 : BitVec 5).toNat := by decide

/-- Every form of an integer source, read outside an annulled slot. -/
theorem witness_IntegerAddSubtract : demo.annulled = false ∧ (∃ a t, srcI (.reg (.r 1)) demo = .ok a t) ∧
    (∃ a t, srcI (.imm 0x8000) demo = .ok a t) ∧ (∃ a t, srcI (.dir 0xF980) demo = .ok a t) ∧
    ∃ a t, srcI (.ind (.pre false true (.disp 8) 0)) demo = .ok a t :=
  ⟨rfl, ⟨_, _, rfl⟩, ⟨_, _, rfl⟩, ⟨_, _, rfl⟩, _, _, rfl⟩

/-- Counts of a shift at the ends of their range (R361). -/
theorem witness_MultiplyShiftRotate : demo.annulled = false ∧ srcI (.imm 63) demo = .ok 63 demo ∧
    srcI (.imm 0x40) demo = .ok 0x40 demo := ⟨rfl, rfl, rfl⟩

theorem witness_LogicalOperations : demo.annulled = false ∧ srcU (.imm 0xFFFF) demo = .ok 0xFFFF demo ∧
    ∃ a t, srcU (.ind (.bitRev 0)) demo = .ok a t := ⟨rfl, rfl, _, _, rfl⟩

/-- The most negative number against the largest one. -/
theorem witness_CompareOrders : (regs [(.r 1, 0x80000000), (.r 2, 0x7FFFFFFF)] demo).annulled = false ∧
    ∃ t, srcI (.reg (.r 1)) (regs [(.r 1, 0x80000000), (.r 2, 0x7FFFFFFF)] demo) = .ok 0x80000000 t := ⟨rfl, _, rfl⟩

/-- A zero, a positive and a negative number. -/
theorem witness_FloatArithmetic : expo 0x8000000000 = -128 ∧ expo 0x0080000000 ≠ -128 ∧
    (0x0080000000 : Ext).getLsbD 31 = true ∧ (0x0000000000 : Ext).getLsbD 31 = false ∧ demo.annulled = false ∧ (∃ a t, srcF (.reg 11) demo = .ok a t) ∧
    (∃ a t, srcF (.imm 0x8000) demo = .ok a t) ∧ ∃ a t, srcF (.ind (.plain 1)) demo = .ok a t :=
  ⟨rfl, by decide, rfl, rfl, rfl, ⟨_, _, rfl⟩, ⟨_, _, rfl⟩, _, _, rfl⟩

/-- Equal operands, and zero against 1.0 in either order. -/
theorem witness_FloatCompare : demo.annulled = false ∧
    (∃ t, srcF (.reg 0) (exts [(0, 0x0000000000), (1, 0x0000000000)] demo) = .ok 0 t) ∧
    (exts [(0, 0), (1, 0)] demo).rdF 1 = 0 ∧ fIsZero 0x8000000000 = true ∧ fIsZero 0 = false ∧
    ∃ t, srcF (.reg 0) (exts [(0, 0x0280000000), (1, 0x0140000000)] demo) = .ok 0x0280000000 t ∧
      (exts [(0, 0x0280000000), (1, 0x0140000000)] demo).rdF 1 = 0x0140000000 :=
  ⟨rfl, ⟨_, rfl⟩, rfl, rfl, rfl, _, rfl, rfl⟩

/-- IEEE exponents of 0, 1, 254 and 255; the exponents -127 and -126, and the most negative number. -/
theorem witness_Conversions : ((0x807FFFFF : Word).extractLsb' 23 8).toNat = 0 ∧
    ((0x00800000 : Word).extractLsb' 23 8).toNat = 1 ∧ ((0xFF7FFFFF : Word).extractLsb' 23 8).toNat = 254 ∧
    ((0xFF800000 : Word).extractLsb' 23 8).toNat = 255 ∧ expo 0x8100000000 = -127 ∧ expo 0x8200000000 = -126 ∧
    (0x7F800000FF : Ext).extractLsb' 8 32 = 0x7F800000 ∧ demo.annulled = false ∧ (∃ a t, srcI (.reg (.r 1)) demo = .ok a t) ∧
    (∃ a t, srcF (.ind (.plain 1)) demo = .ok a t) ∧ (∃ a t, srcMem (.ind (.plain 1)) demo = .ok a t) ∧
    ∃ a t, srcFR (.reg 1) demo = .ok a t :=
  ⟨rfl, rfl, rfl, rfl, rfl, rfl, rfl, rfl, ⟨_, _, rfl⟩, ⟨_, _, rfl⟩, ⟨_, _, rfl⟩, _, _, rfl⟩

/-- Zero, and the exponents 30 and 31. -/
theorem witness_FixRoundsDown : fIsZero 0x8000000000 = true ∧ fIsZero 0x1E7FFFFFFF = false ∧ expo 0x1E7FFFFFFF = 30 ∧
    expo 0x1F00000000 = 31 := by decide

/-- A product that fits, one that overflows and one that underflows. -/
theorem witness_FloatProductTruncates : fIsZero 0x070C800000 = false ∧ fIsZero 0x034C200000 = false ∧
    (fMul 0x070C800000 0x034C200000).ovf = false ∧ (fMul 0x070C800000 0x034C200000).unf = false ∧
    (fMul 0x7F7FFFFFFF 0x0100000000).ovf = true ∧ (fMul 0x8100000000 0x8100000000).unf = true := by decide

/-- Zero, the exponents 126 and 127, a negative value. -/
theorem witness_Estimates : demo.annulled = false ∧ (∃ a t, srcFR (.reg 0) demo = .ok a t) ∧ fIsZero 0x8000000000 = true ∧
    expo 0x7F00000000 = 127 ∧ expo 0x7E00000000 = 126 ∧ (0x0080000000 : Ext).getLsbD 31 = true ∧
    fIsZero 0x0080000000 = false := ⟨rfl, ⟨_, _, rfl⟩, rfl, rfl, rfl, rfl, rfl⟩

/-- A special and an ordinary mantissa, with an even and an odd exponent, and a negative special one. -/
theorem witness_Estimates_mantissas : (0x0000000000 : Ext).extractLsb' 23 8 = 0 ∧ (0x0100000000 : Ext).extractLsb' 23 8 = 0 ∧
    (0x0040000000 : Ext).extractLsb' 23 8 ≠ 0 ∧ (0x0140000000 : Ext).extractLsb' 23 8 ≠ 0 ∧
    (0x0080000000 : Ext).extractLsb' 23 8 = 0 ∧ fIsZero 0x0040000000 = false ∧ expo 0x0040000000 = 0 ∧
    expo 0x0140000000 = 1 := by decide

theorem witness_Loads : demo.annulled = false ∧ (∃ a t, srcI (.dir 0xF980) demo = .ok a t) ∧
    (∃ a t, srcF (.imm 0x2200) demo = .ok a t) ∧ (∃ w t, srcMem (.ind (.plain 1)) demo = .ok w t) ∧
    (∃ n, Reg.ar 7 = .ar n) ∧ Reg.sp ∈ [Reg.ir0, .ir1, .dp, .bk, .sp] :=
  ⟨rfl, ⟨_, _, rfl⟩, ⟨_, _, rfl⟩, ⟨_, _, rfl⟩, ⟨_, rfl⟩, by decide⟩

theorem witness_HighAndPageLoads : demo.annulled = false := rfl

theorem witness_ExpansionLoads : demo.annulled = false ∧ 2 ≤ (2 : BitVec 5).toNat ∧ 2 ≤ (31 : BitVec 5).toNat := by decide

theorem witness_ByteAndHalfLoads : demo.annulled = false ∧ (∃ w t, srcR (.reg .st) demo = .ok w t) ∧
    ∃ w t, srcR (.ind (.plain 0)) demo = .ok w t := ⟨rfl, ⟨_, _, rfl⟩, _, _, rfl⟩

theorem witness_StackInstructions : demo.annulled = false ∧
    (∃ t, dataWrite (demo.sp + 1) (demo.rdI (.r 1)) { demo with sp := demo.sp + 1 } = .ok () t) ∧
    (∃ t, dataWrite (demo.sp + 1) (demo.r[1].extractLsb' 8 32) { demo with sp := demo.sp + 1 } = .ok () t) ∧
    ∃ v t, dataRead demo.sp demo = .ok v t := ⟨rfl, ⟨_, rfl⟩, ⟨_, rfl⟩, _, _, rfl⟩

theorem witness_StoreInstructions : demo.annulled = false ∧
    (∃ a t u, memEval (.ind (.post true false (.disp 255) 0)) demo = .ok a t ∧ dataWrite a (demo.rdI (.r 1)) t = .ok () u) ∧
    ∃ a t u, memEval (.dir 0xF800) demo = .ok a t ∧ dataWrite a ((0x10 : BitVec 5).signExtend 32) t = .ok () u :=
  ⟨rfl, ⟨_, _, _, rfl, rfl⟩, _, _, _, rfl, rfl⟩

/-- The displacements 0 and 31, and two operands that modify one register. -/
theorem witness_ThreeOperandSources :
    (∃ x t y u, dataRead (demo.ar[0] + (0 : BitVec 5).setWidth 32) demo = .ok x t ∧
      dataRead (demo.ar[1] + (31 : BitVec 5).setWidth 32) t = .ok y u) ∧
    (∃ x t, srcMem (.ind (.post false false (.disp 1) 0)) demo = .ok x t) ∧
    ∃ hi lo p q x y t u, memEval (.ind (.post false false (.disp 1) 0)) demo = .ok p hi ∧
      memEval (.ind (.pre true true .ir0 0)) demo = .ok q lo ∧
      dataRead p (demo.moveBoth (.post false false (.disp 1) 0) hi lo) = .ok x t ∧ dataRead q t = .ok y u :=
  ⟨⟨_, _, _, _, rfl, rfl⟩, ⟨_, _, rfl⟩, _, _, _, _, _, _, _, _, rfl, rfl, rfl, rfl⟩

/-- src1 names AR0 without modifying it, so the update of src2 is lost (R166). -/
theorem test_lost_update : ran (.addi3 (.ii (.plain 0) (.post false false (.disp 1) 0)) (.r 1)) demo
    (fun t => t.ar[0] == demo.ar[0]) = some true := by decide

theorem witness_ThreeOperand : demo.annulled = false ∧ (∃ x y t, src3 (.rk (.r 1) 0x80) demo = .ok (x, y) t) ∧
    (∃ x y t, src3 (.ii (.plain 0) (.plain 1)) demo = .ok (x, y) t) ∧
    ∃ x y t, src3F (.dd ⟨0, 1⟩ ⟨31, 1⟩) demo = .ok (x, y) t :=
  ⟨rfl, ⟨_, _, _, rfl⟩, ⟨_, _, _, rfl⟩, _, _, _, rfl⟩

/-- An external and an on-chip address. -/
theorem witness_Interlocked : demo.annulled = false ∧
    (∃ t w u, memEval (.ind (.plain 3)) { demo with ar := demo.ar.set 3 0x80000000 } = .ok 0x80000000 t ∧
      dataRead 0x80000000 { t with pins := { t.pins with lock := false } } = .ok w u ∧
      (∃ x y, memRead .sigi 0x80000000 { t with pins := { t.pins with lock := false } } = .ok x y) ∧
      (∃ v, dataWrite 0x80000000 5 t = .ok () v) ∧ region t.romen 0x80000000 = .globalBus) ∧
    ∃ a t w u, memEval (.ind (.plain 0)) demo = .ok a t ∧ dataRead a t = .ok w u :=
  ⟨rfl, ⟨_, _, _, rfl, rfl, ⟨_, _, rfl⟩, ⟨_, rfl⟩, rfl⟩, _, _, _, _, rfl, rfl⟩

/-- Three, two and one slot left, with and without a target. -/
theorem witness_DelaySlots : demo.stBit 8 = false ∧ demo.stalled = false ∧
    (∃ d : Delay, ({ demo with delay := some ⟨some 5, 3, false, .branch⟩ } : State).delay = some d ∧ 2 ≤ d.left) ∧
    (∃ d : Delay, ({ demo with delay := some ⟨none, 2, true, .branch⟩ } : State).delay = some d ∧ 2 ≤ d.left) ∧
    (∃ d : Delay, ({ demo with delay := some ⟨none, 1, false, .rptbd⟩ } : State).delay = some d ∧ d.left ≤ 1 ∧
      d.target = none) ∧
    ∃ d : Delay, ({ demo with delay := some ⟨some 5, 1, false, .latTaken⟩ } : State).delay = some d ∧ d.left ≤ 1 ∧
      d.target = some 5 :=
  ⟨rfl, rfl, ⟨_, rfl, by decide⟩, ⟨_, rfl, by decide⟩, ⟨_, rfl, by decide, rfl⟩, _, rfl, by decide, rfl⟩

/-- A slot at the end of a repeat block, and one elsewhere; RC with another round and with none. -/
theorem witness_DelaySlots_blockEnd : ∃ (before s : State) (d e : Delay), before.delay = some d ∧
    ({ before with delay := some e } : State).delay = some e ∧ d.target = none ∧ d.kind = .branch ∧ e.target = some 5 ∧
    e.kind ≠ .rptbd ∧ before.sFlag = false ∧ s.sFlag = false ∧ s.stalled = false ∧ s.unflushed = 0 ∧
    before.stBit 8 = true ∧ s.stBit 8 = true ∧ before.re = before.pc ∧ s.re = before.pc ∧
    (0 ≤ ({ s with rc := 1 }.rc - 1).toInt) ∧ ¬ 0 ≤ ({ s with rc := 0 }.rc - 1).toInt ∧
    ({ s with re := 9 } : State).re ≠ before.pc :=
  ⟨{ demo with st := demo.st ||| 0x100, re := demo.pc, delay := some ⟨none, 1, true, .branch⟩ },
    { demo with st := demo.st ||| 0x100, re := demo.pc }, ⟨none, 1, true, .branch⟩, ⟨some 5, 2, false, .branch⟩, rfl, rfl, rfl,
    rfl, rfl, by decide, rfl, rfl, rfl, rfl, rfl, rfl, rfl, rfl, by decide, by decide, by decide⟩

theorem witness_CallsAndLinks : demo.cond .u = true ∧ demo.cond .eq = false ∧
    ∃ t, dataWrite (demo.sp + 1) (demo.pc + 1) { demo with sp := demo.sp + 1 } = .ok () t := ⟨rfl, rfl, _, rfl⟩

/-- The traps 0 and 511. -/
theorem witness_TrapsTaken : demo.cond .u = true ∧ demo.cond .eq = false ∧
    (∃ t, dataWrite (demo.sp + 1) (demo.pc + 1) { demo with st := enteredStatus demo.st, sp := demo.sp + 1 } = .ok () t ∧
      (∃ v u, dataRead (demo.tvtp + (0 : BitVec 9).setWidth 32) t = .ok v u) ∧
      ∃ v u, dataRead (demo.tvtp + (511 : BitVec 9).setWidth 32) t = .ok v u) ∧
    ∃ v u, dataRead (demo.tvtp + (511 : BitVec 9).setWidth 32)
      ({ demo with st := enteredStatus demo.st }.wrI (.r 11) (demo.pc + 4)) = .ok v u ∧
    ∃ d : Delay, ({ demo with delay := some ⟨some 5, 1, false, .latTaken⟩ } : State).delay = some d ∧ d.kind = .latTaken :=
  ⟨rfl, rfl, ⟨_, rfl, ⟨_, _, rfl⟩, _, _, rfl⟩, _, _, rfl, _, rfl, rfl⟩

theorem witness_Returns : demo.cond .u = true ∧ demo.cond .eq = false ∧ ∃ v t, dataRead demo.sp demo = .ok v t :=
  ⟨rfl, rfl, _, _, rfl⟩

theorem witness_RepeatStarts : ∃ v t, srcU (.imm 0xFFFF) demo = .ok v t := ⟨_, _, rfl⟩

/-- The end of a block with RC at 0 and at 1, and a repeated instruction. -/
theorem witness_Repeats : ({ demo with st := 0x100, re := demo.pc } : State).stBit 8 = true ∧
    ({ demo with st := 0x100, re := demo.pc } : State).sFlag = false ∧ demo.unflushed = 0 ∧ demo.stalled = false ∧
    demo.delay = none ∧ ({ demo with rc := 1 } : State).rc - 1 = 0 ∧ (demo.rc - 1).toInt = -1 ∧
    ({ demo with st := 0x100, sFlag := true } : State).sFlag = true := by decide

theorem witness_IdleNopIack : ({ armed with idle := true } : State).script = calm :: [] ∧
    ({ armed with idle := true } : State).irqChoice = none ∧ (∃ v t, srcMem (.ind (.plain 0)) demo = .ok v t) ∧
    (∃ a t v u, memEval (.dir 0xF980) demo = .ok a t ∧ dataRead a t = .ok v u) ∧
    ∃ v u, dataRead 0x80000000 { demo with pins := { demo.pins with iack := false } } = .ok v u :=
  ⟨rfl, rfl, ⟨_, _, rfl⟩, ⟨_, _, _, _, rfl, rfl⟩, _, _, rfl⟩

theorem witness_TwoLoadsTwoStores : demo.annulled = false ∧ (0 : Fin 8) ≠ 7 ∧
    (∃ hi lo p t u, memEval (.ind (.plain 0)) demo = .ok p hi ∧ memEval (.ind (.bitRev 0)) demo = .ok p lo ∧
      dataWrite p (Config.freeWord demo.free) { demo.moveBoth (.plain 0) hi lo with free := demo.free + 2 } = .ok () t ∧
      dataWrite p (Config.freeWord (demo.free + 1)) t = .ok () u) ∧
    ∃ hi lo p q, memEval (.ind (.plain 0)) demo = .ok p hi ∧ memEval (.ind (.post true false (.disp 1) 1)) demo = .ok q lo ∧
      p ≠ q ∧ (∃ x t y u, dataRead q (demo.moveBoth (.plain 0) hi lo) = .ok x t ∧ dataRead p t = .ok y u) ∧
      (∃ t u, dataWrite p (demo.rdI (.r (low 2))) (demo.moveBoth (.plain 0) hi lo) = .ok () t ∧
        dataWrite q (demo.rdI (.r (low 1))) t = .ok () u) ∧
      ∃ t u, dataWrite p (demo.r[low 2].extractLsb' 8 32) (demo.moveBoth (.plain 0) hi lo) = .ok () t ∧
        dataWrite q (demo.r[low 1].extractLsb' 8 32) t = .ok () u :=
  ⟨rfl, by decide, ⟨_, _, _, _, _, rfl, rfl, rfl, rfl⟩, _, _, _, _, rfl, rfl, by decide, ⟨_, _, _, _, rfl, rfl⟩,
    ⟨_, _, rfl, rfl⟩, _, _, rfl, rfl⟩

/-- The step of such a pair: the word of bits 15-8 lies behind AR0, that of bits 7-0 behind AR1 (R112, R868). -/
theorem test_two_stores : ran (.stiSti 1 2 (.plain 0) (.plain 1)) (regs [(.r 1, 0x11), (.r 2, 0x22)] demo)
    (fun t => (Memory.word t.mem 0x2FF980, Memory.word t.mem 0x2FF988)) = some (0x22#32, 0x11#32) := by decide

/-- Different operands, and both at one address. -/
theorem witness_OperationWithStore : demo.annulled = false ∧
    (∃ hi lo p q w t u v, memEval (.ind (.plain 0)) demo = .ok p hi ∧ memEval (.ind (.post true false (.disp 1) 1)) demo = .ok q lo ∧
      dataRead q (demo.moveBoth (.plain 0) hi lo) = .ok w t ∧ dataWrite p (demo.rdI (.r (low 1))) t = .ok () u ∧
      dataWrite p (demo.r[low 1].extractLsb' 8 32) t = .ok () v) ∧
    ∃ hi lo p w t u, memEval (.ind (.plain 0)) demo = .ok p hi ∧ memEval (.ind (.plain 0)) demo = .ok p lo ∧
      dataRead p (demo.moveBoth (.plain 0) hi lo) = .ok w t ∧ dataWrite p (demo.rdI (.r (low 1))) t = .ok () u :=
  ⟨rfl, ⟨_, _, _, _, _, _, _, _, rfl, rfl, rfl, rfl, rfl⟩, _, _, _, _, _, _, rfl, rfl, rfl, rfl⟩

theorem witness_MultiplyPairs : demo.annulled = false ∧
    ∃ hi lo p q x y t u, memEval (.ind (.plain 0)) demo = .ok p hi ∧ memEval (.ind (.post false false .ir1 0)) demo = .ok q lo ∧
      dataRead p (demo.moveBoth (.plain 0) hi lo) = .ok x t ∧ dataRead q t = .ok y u :=
  ⟨rfl, _, _, _, _, _, _, _, _, rfl, rfl, rfl, rfl⟩

/-- A machine in the first annulled slot. -/
def cancelled : State := { demo with delay := some ⟨none, 3, true, .branch⟩ }

theorem witness_AnnulledSlot : cancelled.annulled = true ∧ Reg.sp.isAddress = true ∧
    (∃ a t, srcI (.ind (.post false false (.disp 1) 0)) cancelled = .ok a t) ∧ (∃ a t, srcU (.imm 1) cancelled = .ok a t) ∧
    (∃ a t, srcF (.reg 1) cancelled = .ok a t) ∧ (∃ a t, srcR (.ind (.plain 0)) cancelled = .ok a t) ∧
    (∃ a t, srcFR (.dir 0xF980) cancelled = .ok a t) ∧ (∃ a t, srcMem (.ind (.bitRev 1)) cancelled = .ok a t) ∧
    (∃ x y t, src3 (.rr .sp .st) cancelled = .ok (x, y) t) ∧ (∃ x y t, src3F (.ii (.plain 0) (.plain 1)) cancelled = .ok (x, y) t) ∧
    (∃ a t, memEval (.ind (.plain 0)) cancelled = .ok a t ∧ (∃ w u, dataRead a (t.driveLock a false) = .ok w u) ∧
      (∃ w u, memRead .sigi a (t.driveLock a false) = .ok w u) ∧ ∃ w u, dataRead a (t.driveIack a false) = .ok w u) ∧
    (∃ w t, dataRead cancelled.sp cancelled = .ok w t) ∧
    ∃ hi lo p q, memEval (.ind (.plain 0)) cancelled = .ok p hi ∧ memEval (.ind (.plain 1)) cancelled = .ok q lo ∧
      (∃ x t y u, dataRead q (cancelled.moveBoth (.plain 0) hi lo) = .ok x t ∧ dataRead p t = .ok y u) ∧
      ∃ x t y u, dataRead p (cancelled.moveBoth (.plain 0) hi lo) = .ok x t ∧ dataRead q t = .ok y u :=
  ⟨rfl, rfl, ⟨_, _, rfl⟩, ⟨_, _, rfl⟩, ⟨_, _, rfl⟩, ⟨_, _, rfl⟩, ⟨_, _, rfl⟩, ⟨_, _, rfl⟩, ⟨_, _, _, rfl⟩, ⟨_, _, _, rfl⟩,
    ⟨_, _, rfl, ⟨_, _, rfl⟩, ⟨_, _, rfl⟩, _, _, rfl⟩, ⟨_, _, rfl⟩, _, _, _, _, rfl, rfl, ⟨_, _, _, _, rfl, rfl⟩, _, _, _, _,
    rfl, rfl⟩

theorem witness_FrameComputing : (∃ u, exec (.addi (.ind (.post false false (.disp 1) 0)) .rc) demo = .next u) ∧
    (∃ u, exec (.cmpi (.imm 1) .st) demo = .next u) ∧ (∃ u, exec (.float (.dir 0xF980) 11) demo = .next u) ∧
    (∃ u, exec (.addf (.ind (.plain 1)) 0) demo = .next u) ∧ (∃ u, exec (.cmpf (.imm 0) 0) demo = .next u) ∧
    (∃ u, exec (.fix (.reg 0) .iif) demo = .next u) ∧ (∃ u, exec (.mb 3 (.reg .st) .st) demo = .next u) ∧
    (∃ u, exec (.rcpf (.reg 1) 1) demo = .next u) ∧ (∃ u, exec (.frieee (.ind (.plain 1)) 1) demo = .next u) ∧
    (∃ u, exec (.addi3 (.dd ⟨0, 0⟩ ⟨31, 1⟩) (.ar 0)) demo = .next u) ∧ (∃ u, exec (.tstb3 (.rr .st .iif)) demo = .next u) ∧
    (∃ u, exec (.mpyf3 (.ii (.plain 0) (.plain 1)) 8) demo = .next u) ∧ (∃ u, exec (.cmpf3 (.rr 0 1)) demo = .next u) ∧
    (∃ u, exec (.ror .sp) demo = .next u) ∧ (∃ u, exec (.ldpk 1) demo = .next u) ∧ (∃ u, exec (.pop .sp) demo = .next u) ∧
    (∃ u, exec (.popf 11) demo = .next u) ∧ (∃ u, exec (.ldiLdi 0 7 (.plain 0) (.plain 0)) demo = .next u) ∧
    ∃ u, exec (.mpyi3Addi3 3 1 1 7 0 (.plain 0) (.plain 1)) demo = .next u :=
  ⟨⟨_, rfl⟩, ⟨_, rfl⟩, ⟨_, rfl⟩, ⟨_, rfl⟩, ⟨_, rfl⟩, ⟨_, rfl⟩, ⟨_, rfl⟩, ⟨_, rfl⟩, ⟨_, rfl⟩, ⟨_, rfl⟩, ⟨_, rfl⟩,
    ⟨_, rfl⟩, ⟨_, rfl⟩, ⟨_, rfl⟩, ⟨_, rfl⟩, ⟨_, rfl⟩, ⟨_, rfl⟩, ⟨_, rfl⟩, _, rfl⟩

theorem witness_FrameStoring : (∃ u, exec (.stf 11 (.dir 0xF980)) demo = .next u) ∧
    (∃ u, exec (.stikInd 0x10 (.post false false (.disp 255) 0)) demo = .next u) ∧
    (∃ u, exec (.stii .st (.ind (.plain 0))) demo = .next u) ∧ (∃ u, exec (.pushf 0) demo = .next u) ∧
    (∃ u, exec (.addi3Sti 0 0 0 (.plain 0) (.plain 0)) demo = .next u) ∧
    ∃ u, exec (.stfStf 0 0 (.plain 0) (.plain 1)) demo = .next u :=
  ⟨⟨_, rfl⟩, ⟨_, rfl⟩, ⟨_, rfl⟩, ⟨_, rfl⟩, ⟨_, rfl⟩, _, rfl⟩

theorem witness_FrameControl : (∃ u, exec (.bcondAT .eq (.rel 0xFFFF)) demo = .next u) ∧
    (∃ u, exec (.dbcond 0 .u (.reg (.ar 0))) demo = .next u) ∧ (∃ u, exec (.lajcond .u (.reg (.r 11))) demo = .next u) ∧
    (∃ u, exec (.callcond .u (.rel 1)) demo = .next u) ∧ (∃ u, exec (.trapcond .u 511) demo = .next u) ∧
    (∃ u, exec (.latcond .u 0) demo = .next u) ∧ (∃ u, exec (.reticondD .u) demo = .next u) ∧
    (∃ u, exec (.retscond .u) demo = .next u) ∧ (∃ u, exec (.rptbdReg .re) demo = .next u) ∧
    (∃ u, exec (.rpts (.ind (.plain 0))) demo = .next u) ∧ (∃ u, exec .idle demo = .next u) ∧
    (∃ u, exec (.nop (.ind (.bitRev 0))) demo = .next u) ∧ (∃ u, exec (.iack (.ind (.plain 0))) demo = .next u) ∧
    (∃ u, exec (.sigi (.ind (.plain 0)) .st) demo = .next u) ∧ ∃ u, exec (.ldfi (.dir 0xF988) 11) demo = .next u :=
  ⟨⟨_, rfl⟩, ⟨_, rfl⟩, ⟨_, rfl⟩, ⟨_, rfl⟩, ⟨_, rfl⟩, ⟨_, rfl⟩, ⟨_, rfl⟩, ⟨_, rfl⟩, ⟨_, rfl⟩, ⟨_, rfl⟩, ⟨_, rfl⟩,
    ⟨_, rfl⟩, ⟨_, rfl⟩, ⟨_, rfl⟩, _, rfl⟩

/-- NMI without GIE, and TINT1, the last of the sources, with GIE. -/
theorem witness_InterruptTaken : ({ armed with iif := 0x10000 } : State).irqChoice = some 1 ∧
    ({ armed with iif := 0x80000000, iie := 0x80000000, st := 0x2000 } : State).irqChoice = some 43 ∧
    ({ armed with iif := 0x80000000, iie := 0x80000000, st := 0 } : State).irqChoice = none ∧
    armed.irqBlocked = false ∧ armed.script = calm :: [] ∧
    ∃ t v w, dataWrite (demo.sp + 1) demo.pc { (latchDma (opened { armed with iif := 0x10000 })).clearFlag (some 16) with
        st := enteredStatus demo.st, sp := demo.sp + 1 } = .ok () t ∧
      dataRead (demo.ivtp + BitVec.ofNat 32 1) t = .ok v w := ⟨rfl, rfl, rfl, rfl, rfl, _, _, _, rfl, rfl⟩

theorem witness_ReturnsUndoEntries : Memory.wf demo.mem = true ∧ region demo.romen (demo.sp + 1) = .ram0 ∧
    region demo.romen (demo.tvtp + (0 : BitVec 9).setWidth 32) = .ram0 ∧
    demo.tvtp + (0 : BitVec 9).setWidth 32 ≠ demo.sp + 1 ∧
    Memory.word demo.mem (demo.tvtp + (0 : BitVec 9).setWidth 32) = 0x2FFB00 := by decide

/-- An output FIFO of seven and of eight words, an empty and a full input FIFO; control words that are written and that
are refused, at the ends of the fields; a word that waits in the latch for a port that can accept one. -/
theorem witness_PeripheralRegisters : demo.latch = { waiting := none, sent := [] } ∧ demo.ports[0].outq.length < 8 ∧
    ((Port.mk [] [1, 2, 3, 4, 5, 6, 7] false false true).outq.length < 8) ∧
    8 ≤ (Port.mk [] [1, 2, 3, 4, 5, 6, 7, 8] false false true).outq.length ∧ demo.ports[5].inq = [] ∧
    (Port.mk [9, 8, 7, 6, 5, 4, 3, 2] [] false false true).inq = 9 :: [8, 7, 6, 5, 4, 3, 2] ∧
    demo.dma[0].ctl.extractLsb' 26 4 = 0 ∧
    (∀ v ∈ ([0x43C2C003, 0x03028001, 0x00C00000, 0] : List Word), v.extractLsb' 0 2 ≠ 2 ∧
      (v.extractLsb' 15 3).toNat < 6 ∧ v.getLsbD 31 = false) ∧
    (∀ v ∈ ([2, 0x30000, 0x80000000] : List Word), ¬ (v.extractLsb' 0 2 ≠ 2 ∧ (v.extractLsb' 15 3).toNat < 6 ∧
      v.getLsbD 31 = false)) ∧
    region demo.romen 0x100000 = .periph ∧ region demo.romen 0x1000FF = .periph ∧
    ∃ (s : State) (l : Latch), s.latch = { waiting := some l, sent := [] } ∧ s.ports[l.port].token = true ∧
      s.ports[l.port].och = false ∧ s.ports[l.port].outq = 1 :: [2, 3, 4, 5, 6, 7, 8] ∧ l.agent = .cpu :=
  ⟨rfl, by decide, by decide, by decide, rfl, rfl, rfl, by simp, by simp, rfl, rfl,
    { demo with
      latch := { waiting := some ⟨0, 9, .cpu⟩, sent := [] }
      ports := demo.ports.set 0 { demo.ports[0] with outq := [1, 2, 3, 4, 5, 6, 7, 8] } }, ⟨0, 9, .cpu⟩, by decide⟩

/-- Periods of 1 and of 5, and ticks 0 and 4; a timer that is held and one that is started. -/
theorem witness_TimerPeriod : (∃ s : State, s.timers[0].counter = 0 ∧ s.timers[0].period = 5 ∧
    s.timers[0].ctl.getLsbD 7 = true ∧ s.timers[0].ctl.getLsbD 6 = false ∧ s.timers[1].counter = 0 ∧
    s.timers[1].period = 1 ∧ s.timers[1].ctl.getLsbD 7 = true ∧ s.timers[1].ctl.getLsbD 6 = false ∧ 0 < 5 ∧ 4 < 5) ∧
    demo.latch = { waiting := none, sent := [] } ∧ demo.timers[0].ctl &&& 0x7C7 = demo.timers[0].ctl ∧
    demo.timers[0].ctl.getLsbD 7 = false ∧
    ∃ m : Timer, m.ctl &&& 0x7C7 = m.ctl ∧ m.ctl.getLsbD 7 = true ∧ m.ctl.getLsbD 6 = true :=
  ⟨⟨{ demo with timers := #v[⟨0x3C1 &&& 0x1BF, 0, 5, false, false⟩, ⟨0x2C1 &&& 0x1BF, 0, 1, false, false⟩] }, by decide⟩,
    rfl, by decide, by decide, ⟨0x7C7, 3, 5, true, false⟩, by decide⟩

/-- Timers that are not held: both at counter = period = 0, in pulse and in clock mode, and one that counts. -/
theorem witness_TimerPeriod_cycles : ∀ m ∈ [Timer.mk 0x280 0 0 true false, ⟨0x380, 0, 0, false, true⟩, ⟨0x380, 0xFFFFFFFF, 0, false, false⟩],
    ({ demo with timers := demo.timers.set 1 m } : State).timers[(1 : Fin 2)].ctl.getLsbD 7 = true ∧
    m.ctl.getLsbD 6 = false ∧ m.ctl.getLsbD 9 = true ∧ (m.counter = 0 ∨ m.counter + 1 = m.period) := by decide

/-- Counts of 1 and of 2, with and without TCC. -/
theorem witness_DmaUnit : ∃ s : State, ∀ c ∈ [(0 : Fin 6), 5], (s.dma[c].ctl.extractLsb' 22 2 = 3 ∧
    s.dma[c].ctl.extractLsb' 12 3 = 0 ∧ s.dma[c].ctl.extractLsb' 6 2 = 0 ∧ s.dma[c].tmp = none ∧ s.dma[c].auto = none ∧
    s.dma[c].cnt ≠ 0 ∧ region s.romen s.dma[c].src = .ram0 ∧ region s.romen s.dma[c].dst = .ram1 ∧
    s.dma[c].cnt = (if c = 0 then 1 else 2)) :=
  ⟨{ demo with
      dma := (demo.dma.set 0 { Dma.reset with ctl := 0x00C40007, src := 0x2FF800, dst := 0x2FFC00, cnt := 1 }).set
        5 { Dma.reset with ctl := 0x00C00003, src := 0x2FFBFF, dst := 0x2FFFFF, cnt := 2 } }, by decide⟩

/-- A machine with a given DMA channel 1. -/
def channel (d : Dma) : State := { demo with dma := demo.dma.set 1 d }

/-- A synchronised channel before its read and before its write, with and without its latch. -/
theorem witness_DmaUnit_sync : ∀ b : Bool,
    (let d := (channel { Dma.reset with ctl := 0x00C000C0, src := 0x2FF980, dst := 0x2FFFFF, cnt := 2, rl := b }).dma[1]
     d.active = true ∧ d.auto = none ∧ d.cnt ≠ 0 ∧ d.tmp = none ∧ d.ctl.getLsbD 6 = true ∧ d.rl = b ∧
       d.ctl.getLsbD 12 = false ∧ region demo.romen d.src = .ram0) ∧
    (let d := (channel { Dma.reset with ctl := 0x00800080, dst := 0x2FFFFF, cnt := 2, wl := b, tmp := some 5 }).dma[1]
     d.active = true ∧ d.ctl.getLsbD 14 = false ∧ d.ctl.getLsbD 7 = true ∧ d.tmp = some 5 ∧ d.wl = b ∧ d.ctl.getLsbD 13 = false ∧
       region demo.romen d.dst = .ram1 ∧ d.cnt ≠ 1 ∧ demo.latch = { waiting := none, sent := [] }) := by decide

/-- Channel 1 with its latches set, ICRDY1 and OCRDY1 its signals, before a read of an empty FIFO and of one with a
word, and before a write to a full FIFO and to one that takes a word. -/
theorem witness_DmaUnit_fifo :
    (let d := (channel { Dma.reset with ctl := 0x00C000C0, src := 0x100051, cnt := 2, rl := true }).dma[1]
     d.ctl.extractLsb' 22 2 = 3 ∧ d.ctl.getLsbD 14 = false ∧ d.ctl.getLsbD 6 = true ∧ d.rl = true ∧
       readSignal 0x50 1 = .icrdy 1 ∧ d.ctl.getLsbD 12 = false ∧ d.src = 0x100041 + BitVec.ofNat 32 (16 * 1) ∧
       d.tmp = none ∧ d.auto = none ∧ d.cnt ≠ 0) ∧
    (let d := (channel { Dma.reset with ctl := 0x00C000C0, dst := 0x100052, cnt := 2, wl := true, tmp := some 5 }).dma[1]
     d.ctl.extractLsb' 22 2 = 3 ∧ d.ctl.getLsbD 14 = false ∧ d.ctl.getLsbD 7 = true ∧ d.wl = true ∧
       writeSignal 0x50 1 = .ocrdy 1 ∧ d.ctl.getLsbD 13 = false ∧ d.dst = 0x100042 + BitVec.ofNat 32 (16 * 1) ∧
       d.tmp = some 5 ∧ d.cnt ≠ 1) ∧
    demo.latch = { waiting := none, sent := [] } ∧ demo.ports[1].inq = [] ∧
    (Port.mk [9] [1, 2, 3, 4, 5, 6, 7, 8] false false true).inq = 9 :: [] ∧
    8 ≤ (Port.mk [9] [1, 2, 3, 4, 5, 6, 7, 8] false false true).outq.length ∧ demo.ports[1].outq.length < 8 := by decide

/-- A split channel on port 5: each half with a word to read or to write, its FIFO at its ends. -/
theorem witness_DmaUnit_split :
    let d := (channel { Dma.reset with ctl := 0x03C2C080, dst := 0x2FF800, cnt := 2, acnt := 2, tmp := some 3 }).dma[1]
    d.ctl.getLsbD 14 = true ∧ (d.ctl.extractLsb' 15 3).toNat = 5 ∧ d.ctl.extractLsb' 22 2 = 3 ∧ d.tmp = some 3 ∧
    d.cnt ≠ 1 ∧ d.ctl.extractLsb' 24 2 = 3 ∧ d.atmp = none ∧ d.aauto = none ∧ d.acnt ≠ 0 ∧ d.ctl.getLsbD 7 = true ∧
    d.wl = false ∧ { d with wl := true }.wl = true ∧ { d with atmp := some 4 }.atmp = some 4 ∧ d.ctl.getLsbD 13 = false ∧
    d.acnt ≠ 1 ∧ region demo.romen d.dst = .ram0 ∧ demo.ports[5].outq.length < 8 ∧
    8 ≤ (Port.mk [] [1, 2, 3, 4, 5, 6, 7, 8] false false true).outq.length ∧ demo.ports[5].inq = [] ∧
    (Port.mk [1] [] false false true).inq = 1 :: [] := by decide

/-- Autoinitialization from the words behind 2FFBFEh: a control word that counts, one with other bits 11-8, one with a
reserved code. -/
theorem witness_DmaUnit_auto :
    (let d := (channel { Dma.reset with ctl := 0x00C00008, lnk := 0x2FFBFE }).dma[1]
     d.ctl.extractLsb' 22 2 = 3 ∧ d.ctl.getLsbD 3 = true ∧ d.ctl.getLsbD 6 = false ∧ d.ctl.getLsbD 7 = false ∧
       d.ctl.getLsbD 8 = false ∧ d.ctl.getLsbD 14 = false ∧ d.cnt = 0 ∧ d.tmp = none ∧ d.auto = none ∧
       (∀ k < 7, region demo.romen (d.lnk + BitVec.ofNat 32 k) = .ram0 ∨ region demo.romen (d.lnk + BitVec.ofNat 32 k) = .ram1) ∧
       demo.latch.waiting = none) ∧
    (∀ p ∈ ([(0x43C00008, true, false), (0x01C2800B, true, true), (0x03C00002, false, true), (0x03C00108, true, true)] :
        List (Word × Bool × Bool)),
      ((p.1.extractLsb' 8 4 = (0x00C00008 : Word).extractLsb' 8 4) ↔ p.1 ≠ 0x03C00108) ∧
      ((p.1.extractLsb' 0 2 = 2) ↔ p.2.1 = false) ∧ ((p.1.getLsbD 30 = true) ↔ p.2.2 = false)) ∧
    (0x01C2800B : Word).extractLsb' 22 2 = 3 ∧ (0x01C2800B : Word).extractLsb' 24 2 ≠ 0 ∧
    ((0x01C2800B : Word).extractLsb' 15 3).toNat < 6 ∧
    ∃ s : State, Memory.word s.mem (0x2FFBFE + 3) ≠ 0 ∧ Memory.word s.mem 0x2FFBFE = 0x01C2800B :=
  ⟨by decide, by simp, rfl, by decide, by decide, words [(0x2FFBFE, 0x01C2800B), (0x2FFC01, 9)] demo, by decide⟩

theorem witness_WholeMachineRules : (∃ u, exec (.ldpe (.r 1) .tvtp) demo = .next u) ∧
    (∃ u, exec (.addi (.imm 1) (.r 0)) { demo with st := 0x60 } = .next u) ∧ intDst (.addi (.imm 1) (.r 0)) ≠ some .st ∧
    (∃ u, exec .idle demo = .next u) ∧ ∃ u, exec (.reticond .u) demo = .next u :=
  ⟨⟨_, rfl⟩, ⟨_, rfl⟩, by decide, ⟨_, rfl⟩, _, rfl⟩

/-- The last instruction of a block, one that RPTS repeats, the fourth from the end, a block end too soon. -/
theorem witness_Stops : (∃ e, decode 0xFFFFFFFF = .error e) ∧
    region false 0x100000 = .periph ∧ region true 0x1000FF = .periph ∧ region true 0x1000 = .reserved ∧
    region false 0x2FF7FF = .reserved ∧ demo.delay = none ∧ Reg.r 1 ∉ [Reg.ar 0, .ar 1, .ar 2, .ar 3, .ar 4, .ar 5, .ar 6,
      .ar 7, .dp, .ir0, .ir1, .bk, .sp] ∧
    ({ demo with st := 0x100, sFlag := true } : State).stBit 8 = true ∧
    ({ demo with st := 0x100, re := 0x2FF800 } : State).pc = ({ demo with st := 0x100, re := 0x2FF800 } : State).re ∧
    (let s : State := { demo with st := 0x100, rs := 0x2FF800, re := 0x2FF803 }
     s.sFlag = false ∧ s.rs.toNat ≤ s.pc.toNat ∧ s.pc.toNat ≤ s.re.toNat ∧ s.re.toNat < s.pc.toNat + 4) ∧
    (let s : State := { demo with st := 0x100, re := demo.pc, unflushed := 1 }
     s.stalled = false ∧ s.stBit 8 = true ∧ s.re = demo.pc ∧ s.unflushed ≠ 0 ∧ s.sFlag = false) := by
  refine ⟨⟨_, rfl⟩, ?_⟩
  decide

end Sys2Proof.Tests
end

/-! The step as the chain boundary, fetch, decoding, placement, meaning, and what follows an instruction where no
repetition and no slot is active (00_scope.md R7). -/

namespace Sys2Proof.Machine

/-! ## The links of a step: what each of its functions does where the one before it succeeds -/

theorem runInstr_of_placed {i : Instr} {s : State} (hplace : placement i s = none) :
    runInstr i s = retireOutcome s (exec i s) := by
  rw [runInstr, hplace]

theorem runWord_of_decoded {w : Word} {i : Instr} (hdec : decode w = .ok i) (s : State) :
    runWord w s = runInstr i { s with ir := w } := by
  rw [runWord, hdec]

theorem runNext_of_fetched {u v : State} {w : Word} (hfetch : fetchWord u = .ok w v) : runNext u = runWord w v := by
  rw [runNext, hfetch]

theorem step_of_executes {s u : State} (hbound : atBoundary s = .ok false u) : step s = runNext u := by
  rw [step, advance, hbound]

/-- Where every link succeeds, the step is the meaning of the decoded instruction and what follows it (R7, R109,
R160). -/
theorem step_eq_retireOutcome_exec {s u v : State} {w : Word} {i : Instr} (hbound : atBoundary s = .ok false u)
    (hfetch : fetchWord u = .ok w v) (hdec : decode w = .ok i) (hplace : placement i { v with ir := w } = none) :
    step s = retireOutcome { v with ir := w } (exec i { v with ir := w }) :=
  calc step s = runNext u := step_of_executes hbound
    _ = runWord w v := runNext_of_fetched hfetch
    _ = runInstr i { v with ir := w } := runWord_of_decoded hdec v
    _ = retireOutcome { v with ir := w } (exec i { v with ir := w }) := runInstr_of_placed hplace

/-! ## What follows an instruction outside the repeat modes and the slots -/

/-- Without RM after the instruction it ends no block (R531). -/
theorem State.atBlockEnd_of_rm_clear (before : State) {s : State} (hrm : s.stBit 8 = false) :
    State.atBlockEnd before s = false := by
  simp [State.atBlockEnd, hrm]

theorem endSlot_of_no_delay {before : State} (hdelay : before.delay = none) (s : State) : endSlot before s = s := by
  rw [endSlot, hdelay]

/-- With RM clear before and after a completed instruction only the slots and the count of R862 follow it. -/
theorem retire_of_rm_clear {before s : State} (hrmBefore : before.stBit 8 = false) (hstalled : s.stalled = false)
    (hrm : s.stBit 8 = false) : retire before s = .next (endSlot before { s with unflushed := s.unflushed - 1 }) := by
  simp [retire, hstalled, hrmBefore, State.atBlockEnd_of_rm_clear before hrm]

@[simp] theorem retireOutcome_next (before s : State) : retireOutcome before (.next s) = retire before s := rfl

/-- Settles O3, from the links of a step in their order and from what `retire` leaves of the repeat modes and slots
where RM is clear and no slot is left to run. -/
theorem stepRunsDecoded : Obligations.StepRunsDecoded := by
  refine ⟨fun s u v w i hbound hfetch hdec hplace => step_eq_retireOutcome_exec hbound hfetch hdec hplace, ?_⟩
  intro before s hrmBefore hdelay hstalled hrm
  rw [retireOutcome_next, retire_of_rm_clear hrmBefore hstalled hrm, endSlot_of_no_delay hdelay]

end Sys2Proof.Machine

/-! What an instruction can do to the state, said once: a chain of updates, each of them named, where the updates that
R41, R60 and R720 reserve to some instructions say so. Every rule that all instructions keep is then a rule that every
update keeps. -/

namespace Sys2Proof.Machine

/-- One update of the state on the way through instruction `i`. -/
inductive Update (i : Instr) : State → State → Prop where
  /-- Operands were read and their addressing modes carried out. -/
  | read {s t : State} {moved : List Reg} {reads : List Word} (hread : ReadBy s t moved reads)
      (hlegal : s.Legal → t.Legal) : Update i s t
  | write {s t : State} {a v : Word} (hwrite : dataWrite a v s = .ok () t) : Update i s t
  /-- ST is written as a destination alone. -/
  | reg (s : State) (d : Reg) (v : Word) (hst : d = .st → intDst i = some .st) : Update i s (s.wrI d v)
  | ext (s : State) (n : Fin 12) (v : Ext) : Update i s (s.wrF n v)
  | flags (s : State) (f : FlagRes) : Update i s (s.setFlags f)
  /-- RSQRF of a negative number writes open flags (R413). -/
  | openFlags (s : State) (f : BitVec 7) (hrsqrf : ∃ a b, i = .rsqrf a b) : Update i s (s.withFlags f)
  | expansion (s : State) (x : XReg) (v : Word) (hldpe : ∃ a b, i = .ldpe a b) : Update i s (s.wrX x v)
  /-- A trap saves the status (R720). -/
  | save (s : State) (htrap : ∃ c n, i = .trapcond c n ∨ i = .latcond c n) : Update i s s.saveStatus
  /-- A return from an exception restores the status (R732). -/
  | restore (s : State) (hreti : ∃ c, i = .reticond c ∨ i = .reticondD c) : Update i s s.restoreStatus
  /-- IDLE sets GIE (R509). -/
  | enable (s : State) (hidle : i = .idle) : Update i s (s.setSt 13 true)
  /-- A repeat instruction sets RM (R523, R525). -/
  | repeatMode (s : State) : Update i s (s.setSt 8 true)
  /-- The sequencing state, the output pins, the latch and the count of free values. -/
  | control (s : State) (pc rs re rc : Word) (sFlag idle held stalled : Bool) (unflushed free : Nat)
      (delay : Option Delay) (latch : BusLatch) (pins : Pins) (hdelay : delay = s.delay ∨ delayOk delay = true) :
      Update i s { s with
        pc := pc, rs := rs, re := re, rc := rc, sFlag := sFlag, idle := idle, held := held, stalled := stalled,
        unflushed := unflushed, free := free, delay := delay, latch := latch, pins := pins }

/-- A chain of updates. -/
abbrev Updates (i : Instr) : State → State → Prop := Relation.ReflTransGen (Update i)

/-- Where the outcome is a next state, a chain of updates leads to it. -/
def Runs (i : Instr) (s : State) (x : Host.Outcome State Fault Refusal) : Prop := ∀ u, x = .next u → Updates i s u

section

variable {i : Instr} {s t : State}

/-! ## Chains of the named updates -/

theorem Updates.read (h : Updates i s t) {u : State} {m : List Reg} {a : List Word} (hread : ReadBy t u m a)
    (hlegal : t.Legal → u.Legal) : Updates i s u := h.tail (.read hread hlegal)

theorem Updates.reg (h : Updates i s t) (d : Reg) (v : Word) (hst : d = .st → intDst i = some .st) :
    Updates i s (t.wrI d v) := h.tail (.reg t d v hst)

theorem Updates.ar (h : Updates i s t) (n : Fin 8) (v : Word) : Updates i s (t.wrAr n v) :=
  h.reg (.ar n) v nofun

theorem Updates.sp (h : Updates i s t) (v : Word) : Updates i s { t with sp := v } := h.reg .sp v nofun

theorem Updates.ext (h : Updates i s t) (n : Fin 12) (v : Ext) : Updates i s (t.wrF n v) := h.tail (.ext t n v)

theorem Updates.flags (h : Updates i s t) (f : FlagRes) : Updates i s (t.setFlags f) := h.tail (.flags t f)

theorem Updates.putI (h : Updates i s t) (d : Reg) (v : Word) (f : FlagRes) (hst : d = .st → intDst i = some .st) :
    Updates i s (t.putI d v f) := by
  unfold State.putI
  split
  · exact (h.reg d v hst).flags f
  · exact h.reg d v hst

theorem Updates.putF (h : Updates i s t) (n : Fin 12) (v : Ext) (f : FlagRes) : Updates i s (t.putF n v f) :=
  (h.ext n v).flags f

theorem Updates.after (h : Updates i s t) : Updates i s (s.after t) :=
  h.tail (.control t _ _ _ _ _ _ _ _ _ _ _ _ _ (.inl rfl))

theorem Updates.settled (h : Updates i s t) : Updates i s t.settled :=
  h.tail (.control t _ _ _ _ _ _ _ _ _ _ _ _ _ (.inl rfl))

theorem Updates.waiting (i : Instr) (s : State) (l : Option Latch) : Updates i s (s.waiting l) :=
  .single (.control s _ _ _ _ _ _ _ _ _ _ _ _ _ (.inl rfl))

theorem Updates.jump (h : Updates i s t) (p : Word) : Updates i s (t.jump p) :=
  h.tail (.control t _ _ _ _ _ _ _ _ _ _ _ _ _ (.inl rfl))

theorem Updates.withFree (h : Updates i s t) (n : Nat) : Updates i s { t with free := n } :=
  h.tail (.control t _ _ _ _ _ _ _ _ _ _ _ _ _ (.inl rfl))

theorem Updates.withPins (h : Updates i s t) (p : Pins) : Updates i s { t with pins := p } :=
  h.tail (.control t _ _ _ _ _ _ _ _ _ _ _ _ _ (.inl rfl))

theorem Updates.delayed (h : Updates i s t) (p : Option Word) (b : Bool) (k : SlotKind) :
    Updates i s (t.delayed p b k) := h.tail (.control t _ _ _ _ _ _ _ _ _ _ _ _ _ (.inr rfl))

theorem Updates.startBlock (h : Updates i s t) (a b : Word) : Updates i s (t.startBlock a b) :=
  (h.tail (.repeatMode t)).tail (.control _ _ _ _ _ _ _ _ _ _ _ _ _ _ (.inl rfl))

theorem Updates.startSingle (h : Updates i s t) (a n : Word) : Updates i s (t.startSingle a n) :=
  (h.tail (.repeatMode t)).tail (.control _ _ _ _ _ _ _ _ _ _ _ _ _ _ (.inl rfl))

theorem Updates.link (h : Updates i s t) (v : Word) : Updates i s (t.link v) := h.reg (.r 11) v nofun

theorem Updates.driveLock (h : Updates i s t) (a : Word) (b : Bool) : Updates i s (t.driveLock a b) := by
  unfold State.driveLock
  split
  · exact h.withPins _
  · exact h.withPins _
  · exact h

theorem Updates.driveIack (h : Updates i s t) (a : Word) (b : Bool) : Updates i s (t.driveIack a b) := by
  unfold State.driveIack
  split
  · exact h.withPins _
  · exact h

theorem Updates.exe (h : Updates i s t) {f : State → State} (hf : Updates i s (f t)) : Updates i s (t.exe f) := by
  unfold State.exe
  split
  · exact h
  · exact hf

/-! ## Operands, accesses and the stack -/

theorem memRead_updates (h : Updates i s t) (k : Access) (a : Word) : (memRead k a t).Leads (Updates i s) :=
  fun _ _ e => h.read (memRead_readBy e) fun hl => memRead_leads hl k a _ _ e

theorem dataRead_updates (h : Updates i s t) (a : Word) : (dataRead a t).Leads (Updates i s) :=
  memRead_updates h .data a

theorem dataWrite_updates (h : Updates i s t) (a v : Word) : (dataWrite a v t).Leads (Updates i s) :=
  fun _ _ e => h.tail (.write e)

theorem store_updates (h : Updates i s t) (a v : Word) : (store a v t).Leads (Updates i s) := by
  unfold store
  split
  · exact .ok h
  · exact dataWrite_updates h a v

theorem storeOpen_updates (h : Updates i s t) (a : Word) : (storeOpen a t).Leads (Updates i s) :=
  (store_updates ((h.withFree _).withFree _) a _).bind fun _ _ hu => store_updates hu a _

theorem push_updates (h : Updates i s t) (v : Word) : (push v t).Leads (Updates i s) :=
  dataWrite_updates (h.sp _) _ v

theorem pop_updates (h : Updates i s t) : (pop t).Leads (Updates i s) :=
  (dataRead_updates h _).bind fun _ _ hu => .ok (hu.sp _)

theorem srcI_updates (x : Src) : (srcI x s).Leads (Updates i s) :=
  fun _ _ e => Updates.read .refl (srcI_readBy e) fun hl => srcI_leads hl x _ _ e

theorem srcU_updates (x : Src) : (srcU x s).Leads (Updates i s) :=
  fun _ _ e => Updates.read .refl (srcU_readBy e) fun hl => srcU_leads hl x _ _ e

theorem srcF_updates (x : FSrc) : (srcF x s).Leads (Updates i s) :=
  fun _ _ e => Updates.read .refl (srcF_readBy e) fun hl => srcF_leads hl x _ _ e

theorem srcR_updates (x : RSrc) : (srcR x s).Leads (Updates i s) :=
  fun _ _ e => Updates.read .refl (srcR_readBy e) fun hl => srcR_leads hl x _ _ e

theorem srcFR_updates (x : FRSrc) : (srcFR x s).Leads (Updates i s) :=
  fun _ _ e => Updates.read .refl (srcFR_readBy e) fun hl => srcFR_leads hl x _ _ e

theorem srcMan_updates (x : FSrc) : (srcMan x s).Leads (Updates i s) :=
  fun _ _ e => Updates.read .refl (srcMan_readBy e) fun hl => srcMan_leads hl x _ _ e

theorem srcMem_updates (m : Mem) : (srcMem m s).Leads (Updates i s) :=
  fun _ _ e => Updates.read .refl (srcMem_readBy e) fun hl => srcMem_leads hl m _ _ e

theorem src3_updates (o : Ops3) : (src3 o s).Leads (Updates i s) :=
  fun _ _ e => Updates.read .refl (src3_readBy e) fun hl => src3_leads hl o _ _ e

theorem src3F_updates (o : FOps3) : (src3F o s).Leads (Updates i s) :=
  fun _ _ e => Updates.read .refl (src3F_readBy e) fun hl => src3F_leads hl o _ _ e

theorem memEval_updates (m : Mem) : (memEval m s).Leads (Updates i s) :=
  fun _ _ e => Updates.read .refl (memEval_readBy e).2 fun hl => memEval_leads hl m _ _ e

theorem indEval2_updates (a b : Ind) : (indEval2 a b s).Leads (Updates i s) :=
  fun _ _ e => Updates.read .refl (indEval2_readBy e) fun hl => indEval2_leads hl a b _ _ e

theorem indRead_updates (a : Ind) : (indRead a s).Leads (Updates i s) :=
  fun _ _ e => Updates.read .refl (indRead_readBy e) fun hl => indRead_leads hl a _ _ e

theorem indRead2_updates (a b : Ind) : (indRead2 a b s).Leads (Updates i s) :=
  fun _ _ e => Updates.read .refl (indRead2_readBy e) fun hl => indRead2_leads hl a b _ _ e

theorem asFloat_updates {x : Res Word} (h : x.Leads (Updates i s)) : (asFloat x).Leads (Updates i s) :=
  h.bind fun _ _ ht => .ok ht

theorem asFloat2_updates {x : Res (Word × Word)} (h : x.Leads (Updates i s)) : (asFloat2 x).Leads (Updates i s) :=
  h.bind fun _ _ ht => .ok ht

theorem lockedRead_updates (m : Mem) : (lockedRead m s).Leads (Updates i s) :=
  (memEval_updates m).bind fun _ _ ht => dataRead_updates (ht.driveLock _ false) _

theorem signalRead_updates (m : Mem) : (signalRead m s).Leads (Updates i s) :=
  (memEval_updates m).bind fun _ _ ht => (memRead_updates (ht.driveLock _ false) .sigi _).bind
    fun _ _ hu => .ok (hu.driveLock _ true)

theorem iackRead_updates (h : Updates i s t) (a : Word) : (iackRead a t).Leads (Updates i s) :=
  (dataRead_updates (h.driveIack a false) a).bind fun _ _ hu => .ok (hu.driveIack a true)

theorem pushValue_updates (v : Word) : (pushValue v s).Leads (Updates i s) :=
  store_updates (Updates.sp .refl _) _ v

theorem enterException_updates (htrap : ∃ c n, i = .trapcond c n ∨ i = .latcond c n) (ret vector : Word) :
    (enterException ret vector s).Leads (Updates i s) :=
  (push_updates (.single (.save s htrap)) ret).bind fun _ _ ht =>
    (dataRead_updates ht vector).bind fun _ _ hu => .ok (hu.jump _)

theorem leaveException_updates (hreti : ∃ c, i = .reticond c ∨ i = .reticondD c) :
    (leaveException s).Leads (Updates i s) :=
  (pop_updates .refl).bind fun _ t ht => .ok (ht.tail (.restore t hreti))

/-! ## How an instruction ends -/

theorem refused_runs (x : Refusal) : Runs i s (.refused x) := fun _ h => by cases h

theorem finish_runs {r : Res Unit} (hr : r.Leads (Updates i s)) : Runs i s (finish s r) := by
  intro u h
  rcases finish_next h with ⟨t, e, rfl⟩ | ⟨l, -, rfl⟩
  · exact (hr _ _ e).settled
  · exact .waiting i s l

theorem sequential_runs {r : Res Unit} (hr : r.Leads (Updates i s)) : Runs i s (sequential s r) := by
  intro u h
  rcases sequential_next h with ⟨t, e, rfl⟩ | ⟨l, -, rfl⟩
  · exact (hr _ _ e).after
  · exact .waiting i s l

theorem execute_runs {α : Type} {src : Res α} {f : α → State → State} (hr : src.Leads (Updates i s))
    (hf : ∀ a t, Updates i s t → Updates i s (f a t)) : Runs i s (execute s src f) :=
  sequential_runs (hr.bind fun a _ ht => .ok (ht.exe (hf a _ ht)))

theorem ite_runs {c : Prop} [Decidable c] {x y : Host.Outcome State Fault Refusal} (hx : Runs i s x)
    (hy : Runs i s y) : Runs i s (if c then x else y) := by
  split
  · exact hx
  · exact hy

/-! ## The shared forms of the meanings -/

theorem opI_runs {src : Res Word} {dst : Reg} {f : Word → IRes} (hdst : intDst i = some dst)
    (hr : src.Leads (Updates i s)) : Runs i s (opI s src dst f) :=
  execute_runs hr fun _ _ ht => ht.putI _ _ _ fun e => e ▸ hdst

/-- An integer operation on the value of its own destination. -/
theorem opSelf_runs {dst : Reg} {f : Word → IRes} (hdst : intDst i = some dst) :
    Runs i s (opI s (.ok (s.rdI dst) s) dst f) := opI_runs hdst (.ok .refl)

theorem opF_runs {src : Res Ext} {dst : Fin 12} {f : Ext → EFRes} (hr : src.Leads (Updates i s)) :
    Runs i s (opF s src dst f) :=
  execute_runs hr fun _ _ ht => ht.putF _ _ _

theorem opCmp_runs {α : Type} {src : Res α} {f : α → FlagRes} (hr : src.Leads (Updates i s)) :
    Runs i s (opCmp s src f) :=
  execute_runs hr fun _ _ ht => ht.flags _

theorem loadI_runs {src : Res Word} {dst : Reg} {f : Word → Word} (hdst : intDst i = some dst)
    (hr : src.Leads (Updates i s)) : Runs i s (loadI s src dst f) :=
  execute_runs hr fun _ _ ht => ht.putI _ _ _ fun e => e ▸ hdst

theorem loadF_runs {src : Res Ext} {dst : Fin 12} (hr : src.Leads (Updates i s)) : Runs i s (loadF s src dst) :=
  execute_runs hr fun _ _ ht => ht.putF _ _ _

/-- An integer result that is written without flags. -/
theorem writeI_runs {α : Type} {src : Res α} {dst : Reg} {f : α → Word} (hdst : intDst i = some dst)
    (hr : src.Leads (Updates i s)) : Runs i s (execute s src fun a t => t.wrI dst (f a)) :=
  execute_runs hr fun _ _ ht => ht.reg _ _ fun e => e ▸ hdst

/-- A value at hand, which is written into a register without flags. -/
theorem moveI_runs {dst : Reg} {v : Word} (hdst : intDst i = some dst) :
    Runs i s (execute s (.ok v s) fun v t => t.wrI dst v) := writeI_runs hdst (.ok .refl)

theorem opI3_runs {ops : Ops3} {dst : Reg} {f : Word × Word → IRes} (hdst : intDst i = some dst) :
    Runs i s (opI3 s ops dst f) :=
  execute_runs (src3_updates ops) fun _ _ ht => ht.putI _ _ _ fun e => e ▸ hdst

theorem opF3_runs {ops : FOps3} {dst : Fin 12} {f : Ext × Ext → EFRes} : Runs i s (opF3 s ops dst f) :=
  execute_runs (src3F_updates ops) fun _ _ ht => ht.putF _ _ _

theorem storeTo_runs {dst : Mem} {v : Word} : Runs i s (storeTo s dst v) :=
  sequential_runs ((memEval_updates dst).bind fun _ _ ht => store_updates ht _ v)

theorem unlockStore_runs {dst : Mem} {v : Word} : Runs i s (unlockStore s dst v) :=
  sequential_runs ((memEval_updates dst).bind fun _ _ ht => (store_updates ht _ v).bind
    fun _ _ hu => .ok (hu.exe (hu.driveLock _ true)))

theorem withStore_runs {dst2 src2 : Ind} {v : Word} {f : Word → State → State}
    (hf : ∀ w t, Updates i s t → Updates i s (f w t)) : Runs i s (withStore s dst2 src2 v f) :=
  sequential_runs ((indEval2_updates dst2 src2).bind fun _ _ ht => (dataRead_updates ht _).bind
    fun w _ hu => (store_updates hu _ v).bind fun _ _ hx => .ok (hx.exe (hf w _ hx)))

theorem opSti_runs {dst1 src3 : Fin 8} {dst2 src2 : Ind} {f : Word → IRes} :
    Runs i s (opSti s dst1 src3 dst2 src2 f) :=
  withStore_runs fun _ _ ht => ht.putI _ _ _ nofun

theorem opStf_runs {dst1 src3 : Fin 8} {dst2 src2 : Ind} {f : Word → EFRes} :
    Runs i s (opStf s dst1 src3 dst2 src2 f) :=
  withStore_runs fun _ _ ht => ht.putF _ _ _

theorem loadBoth_runs {dst2 dst1 : Fin 8} {src2 src1 : Ind} {f : Word → Word → State → State}
    (hf : ∀ x y t, Updates i s t → Updates i s (f x y t)) : Runs i s (loadBoth s dst2 dst1 src2 src1 f) :=
  ite_runs (refused_runs _) (sequential_runs ((indEval2_updates src2 src1).bind fun _ _ ht =>
    (dataRead_updates ht _).bind fun x _ hu => (dataRead_updates hu _).bind
      fun y _ hw => .ok (hw.exe (hf x y _ hw))))

theorem storeBoth_runs {dst1 dst2 : Ind} {v1 v2 : Word} : Runs i s (storeBoth s dst1 dst2 v1 v2) := by
  refine sequential_runs ((indEval2_updates (i := i) dst1 dst2).bind fun p t ht => ?_)
  split
  · exact storeOpen_updates ht _
  · exact (store_updates ht _ v1).bind fun _ _ hu => store_updates hu _ v2

theorem pairF_runs {p : Fin 4} {d1 d2 : Fin 2} {src1 src2 : Fin 8} {src3 src4 : Ind} {g : Ext → Ext → FRes} :
    Runs i s (pairF s p d1 d2 src1 src2 src3 src4 g) :=
  execute_runs (asFloat2_updates (indRead2_updates _ _)) fun _ _ ht => ((ht.ext _ _).ext _ _).flags _

theorem pairI_runs {p : Fin 4} {d1 d2 : Fin 2} {src1 src2 : Fin 8} {src3 src4 : Ind} {g : Word → Word → IRes} :
    Runs i s (pairI s p d1 d2 src1 src2 src3 src4 g) :=
  execute_runs (indRead2_updates _ _) fun _ _ ht =>
    ((ht.reg (.r _) _ nofun).reg (.r _) _ nofun).flags _

/-- An instruction that changes the sequencing state and goes on. -/
theorem plain_runs (ht : Updates i s t) : Runs i s (sequential s (.ok () t)) := sequential_runs (.ok ht)

theorem jumpTo_runs {p : Word} : Runs i s (jumpTo s p) := finish_runs (.ok (Updates.jump .refl p))

theorem fallThrough_runs : Runs i s (fallThrough s) := plain_runs .refl

theorem delayedIf_runs {c : Bool} {p : Word} {b : Bool} : Runs i s (delayedIf s c p b) :=
  plain_runs (Updates.delayed .refl _ _ _)

theorem notTaken_runs : Runs i s (notTaken s) := plain_runs (Updates.delayed .refl _ _ _)

theorem callTo_runs {p : Word} : Runs i s (callTo s p) :=
  finish_runs ((push_updates .refl _).bind fun _ _ ht => .ok (ht.jump p))

theorem execRsqrf_runs (src : FRSrc) (dst : Fin 12) : Runs (.rsqrf src dst) s (execRsqrf src dst s) := by
  refine execute_runs (srcFR_updates src) fun a t ht => ?_
  split
  · exact Updates.withFree ((ht.ext dst _).tail (.openFlags _ _ ⟨src, dst, rfl⟩)) _
  · exact ht.putF _ _ _

theorem execDbcond_runs (n : Fin 8) (c : Cond) (p : BTarget) : Runs (.dbcond n c p) s (execDbcond n c p s) := by
  refine finish_runs (.ok ?_)
  split
  · exact (Updates.ar .refl n _).jump _
  · exact (Updates.ar .refl n _).tail (.control _ _ _ _ _ _ _ _ _ _ _ _ _ _ (.inl rfl))

theorem execNop_runs (src : NopSrc) : Runs (.nop src) s (execNop src s) := by
  cases src with
  | reg _ => exact fallThrough_runs
  | ind a => exact sequential_runs ((indRead_updates a).bind fun _ _ ht => .ok ht)

end

/-! ## Every instruction -/

/-- Whatever an instruction does is a chain of the named updates. -/
theorem exec_runs (i : Instr) (s : State) : Runs i s (exec i s) := by
  unfold exec
  cases i with
  | absi src dst | addc src dst | addi src dst | ash src dst | lsh src dst | mpyi src dst | negb src dst
  | negi src dst | subb src dst | subi src dst | subrb src dst | subri src dst | mpyshi src dst | mpyuhi src dst =>
    exact opI_runs rfl (srcI_updates src)
  | and src dst | andn src dst | not src dst | or src dst | xor src dst => exact opI_runs rfl (srcU_updates src)
  | rol dst | rolc dst | ror dst | rorc dst => exact opSelf_runs rfl
  | fix src dst => exact execute_runs (srcF_updates src) fun _ _ ht => ht.putI _ _ _ fun e => e ▸ rfl
  | cmpi src dst => exact opCmp_runs (srcI_updates src)
  | tstb src dst => exact opCmp_runs (srcU_updates src)
  | cmpf src dst => exact opCmp_runs (srcF_updates src)
  | cmpi3 ops | tstb3 ops => exact opCmp_runs (src3_updates ops)
  | cmpf3 ops => exact opCmp_runs (src3F_updates ops)
  | ldi src dst => exact loadI_runs rfl (srcI_updates src)
  | lb b src dst | lbu b src dst | lwl b src dst | lwr b src dst | mb b src dst | lh b src dst | lhu b src dst
  | mh b src dst => exact loadI_runs rfl (srcR_updates src)
  | ldii src dst => exact loadI_runs rfl (lockedRead_updates src)
  | sigi src dst => exact loadI_runs rfl (signalRead_updates src)
  | pop dst => exact loadI_runs rfl (pop_updates .refl)
  | subc src dst => exact writeI_runs rfl (srcU_updates src)
  | ldhi k dst | ldep x dst => exact moveI_runs rfl
  | ldicond c src dst =>
    refine execute_runs (srcI_updates src) fun a t ht => ?_
    split
    · exact ht.reg _ _ fun e => e ▸ rfl
    · exact ht
  | lda src dst =>
    exact ite_runs (sequential_runs ((srcI_updates src).bind fun _ _ ht => .ok (ht.reg _ _ fun e => e ▸ rfl)))
      (refused_runs _)
  | ldpk k => exact plain_runs (Updates.reg .refl .dp _ nofun)
  | ldpe src x => exact execute_runs (src := .ok (s.rdI src) s) (.ok .refl) fun _ t ht => ht.tail (.expansion t x _ ⟨src, x, rfl⟩)
  | absf src dst | addf src dst | mpyf src dst | negf src dst | norm src dst | rnd src dst | subf src dst
  | subrf src dst => exact opF_runs (srcF_updates src)
  | rcpf src dst | toieee src dst => exact opF_runs (srcFR_updates src)
  | rsqrf src dst => exact execRsqrf_runs src dst
  | float src dst => exact execute_runs (srcI_updates src) fun _ _ ht => ht.putF _ _ _
  | frieee src dst => exact execute_runs (srcMem_updates src) fun _ _ ht => ht.putF _ _ _
  | ldf src dst => exact loadF_runs (srcF_updates src)
  | ldfi src dst => exact loadF_runs (asFloat_updates (lockedRead_updates src))
  | popf dst => exact loadF_runs (asFloat_updates (pop_updates .refl))
  | lde src dst => exact execute_runs (srcF_updates src) fun _ _ ht => ht.ext _ _
  | ldm src dst => exact execute_runs (srcMan_updates src) fun _ _ ht => ht.ext _ _
  | ldfcond c src dst =>
    refine execute_runs (srcF_updates src) fun a t ht => ?_
    split
    · exact ht.ext _ _
    · exact ht
  | addc3 ops dst | addi3 ops dst | and3 ops dst | andn3 ops dst | ash3 ops dst | lsh3 ops dst | mpyi3 ops dst
  | or3 ops dst | subb3 ops dst | subi3 ops dst | xor3 ops dst | mpyshi3 ops dst | mpyuhi3 ops dst =>
    exact opI3_runs rfl
  | addf3 ops dst | mpyf3 ops dst | subf3 ops dst => exact opF3_runs
  | stf _ _ | stiDir _ _ | stiInd _ _ | stikDir _ _ | stikInd _ _ => exact storeTo_runs
  | stfi _ _ | stii _ _ => exact unlockStore_runs
  | push _ | pushf _ => exact sequential_runs (pushValue_updates _)
  | stfStf _ _ _ _ | stiSti _ _ _ _ => exact storeBoth_runs
  | ldfLdf _ _ _ _ => exact loadBoth_runs fun _ _ _ ht => (ht.ext _ _).ext _ _
  | ldiLdi _ _ _ _ => exact loadBoth_runs fun _ _ _ ht => (ht.reg (.r _) _ nofun).reg (.r _) _ nofun
  | ldfStf _ _ _ _ => exact withStore_runs fun _ _ ht => ht.ext _ _
  | ldiSti _ _ _ _ => exact withStore_runs fun _ _ ht => ht.reg (.r _) _ nofun
  | absiSti _ _ _ _ | fixSti _ _ _ _ | negiSti _ _ _ _ | notSti _ _ _ _ | addi3Sti _ _ _ _ _ | and3Sti _ _ _ _ _
  | ash3Sti _ _ _ _ _ | lsh3Sti _ _ _ _ _ | mpyi3Sti _ _ _ _ _ | or3Sti _ _ _ _ _ | subi3Sti _ _ _ _ _
  | xor3Sti _ _ _ _ _ => exact opSti_runs
  | absfStf _ _ _ _ | floatStf _ _ _ _ | negfStf _ _ _ _ | toieeeStf _ _ _ _ | frieeeStf _ _ _ _
  | addf3Stf _ _ _ _ _ | mpyf3Stf _ _ _ _ _ | subf3Stf _ _ _ _ _ => exact opStf_runs
  | mpyf3Addf3 _ _ _ _ _ _ _ | mpyf3Subf3 _ _ _ _ _ _ _ => exact pairF_runs
  | mpyi3Addi3 _ _ _ _ _ _ _ | mpyi3Subi3 _ _ _ _ _ _ _ => exact pairI_runs
  | idle => exact plain_runs ((Relation.ReflTransGen.single (.enable s rfl)).tail
      (.control _ _ _ _ _ _ _ _ _ _ _ _ _ _ (.inl rfl)))
  | nop src => exact execNop_runs src
  | iack src => exact sequential_runs ((memEval_updates src).bind fun _ _ ht => iackRead_updates ht _)
  | bcond c p => exact ite_runs jumpTo_runs fallThrough_runs
  | br d => exact jumpTo_runs
  | bcondD _ _ | bcondAT _ _ | bcondAF _ _ | brd _ => exact delayedIf_runs
  | dbcond n c p => exact execDbcond_runs n c p
  | dbcondD n c p => exact plain_runs ((Updates.ar .refl n _).delayed _ _ _)
  | call d => exact callTo_runs
  | callcond c p => exact ite_runs callTo_runs fallThrough_runs
  | laj d => exact plain_runs ((Updates.link .refl _).delayed _ _ _)
  | lajcond c p => exact ite_runs (plain_runs ((Updates.link .refl _).delayed _ _ _)) notTaken_runs
  | trapcond c n => exact ite_runs (finish_runs (enterException_updates ⟨c, n, .inl rfl⟩ _ _)) fallThrough_runs
  | latcond c n =>
    exact ite_runs (sequential_runs ((dataRead_updates
      (Updates.link (.single (.save s ⟨c, n, .inr rfl⟩)) _) _).bind fun _ _ ht => .ok (ht.delayed _ _ _))) notTaken_runs
  | reticond c =>
    exact ite_runs (finish_runs ((leaveException_updates ⟨c, .inl rfl⟩).bind fun _ _ ht => .ok (ht.jump _)))
      fallThrough_runs
  | reticondD c =>
    exact ite_runs (sequential_runs ((leaveException_updates ⟨c, .inr rfl⟩).bind
      fun _ _ ht => .ok (ht.delayed _ _ _))) notTaken_runs
  | retscond c =>
    exact ite_runs (finish_runs ((pop_updates .refl).bind fun _ _ ht => .ok (ht.jump _))) fallThrough_runs
  | rptbRel _ | rptbReg _ => exact finish_runs (.ok ((Updates.startBlock .refl _ _).jump _))
  | rptbdRel _ | rptbdReg _ => exact plain_runs ((Updates.startBlock .refl _ _).delayed _ _ _)
  | rpts src => exact finish_runs ((srcU_updates src).bind fun _ _ ht => .ok ((ht.startSingle _ _).jump _))
  | swi => exact refused_runs _

end Sys2Proof.Machine

/-! Every step keeps a legal state legal, from the updates of an instruction and the laws of the boundary (10_state.md,
20_memory.md, 61_peripherals.md). -/

namespace Sys2Proof.Machine

theorem Update.legal {i : Instr} {s t : State} (h : Update i s t) (hs : s.Legal) : t.Legal := by
  cases h with
  | read _ hlegal => exact hlegal hs
  | write hwrite => exact dataWrite_leads hs _ _ _ _ hwrite
  | reg d v => exact hs.wrI d v
  | ext n v => exact hs.wrF n v
  | flags f => exact hs.setFlags f
  | openFlags f => exact hs.withFlags f
  | expansion x v => exact hs.wrX x v
  | save => exact hs.saveStatus
  | restore => exact hs.restoreStatus
  | enable => exact hs.setSt true (by decide) (by decide)
  | repeatMode => exact hs.setSt true (by decide) (by decide)
  | control pc rs re rc sFlag idle held stalled unflushed free delay latch pins hdelay =>
    have hd : delayOk delay = true := by
      rcases hdelay with rfl | hd
      · exact hs.delay
      · exact hd
    exact ⟨hs.mem, hs.st, hs.iif, hs.ivtp, hs.tvtp, hs.gmicr, hs.lmicr, hs.lru, hd, hs.timers, hs.ports, hs.dma⟩

/-- A rule that every update keeps is kept by a chain of them. -/
theorem Updates.keep {i : Instr} {s t : State} {P : State → Prop} (h : Updates i s t)
    (hP : ∀ u v, Update i u v → P u → P v) (hs : P s) : P t := by
  induction h with
  | refl => exact hs
  | tail _ hstep ih => exact hP _ _ hstep ih

theorem exec_legal {s : State} (hs : s.Legal) (i : Instr) : LegalOutcome (exec i s) :=
  fun u hu => (exec_runs i s u hu).keep (fun _ _ hstep => hstep.legal) hs

theorem LegalOutcome.next {s : State} (hs : s.Legal) : LegalOutcome (.next s) := by
  intro t ht; cases ht; exact hs

theorem LegalOutcome.fault (f : Fault) : LegalOutcome (.fault f) := by
  intro t ht; cases ht

theorem LegalOutcome.refused (r : Refusal) : LegalOutcome (.refused r) := by
  intro t ht; cases ht

theorem retireOutcome_legal {before : State} {x : Host.Outcome State Fault Refusal} (hb : before.Legal)
    (hx : LegalOutcome x) : LegalOutcome (retireOutcome before x) := by
  cases x with
  | next s => exact retire_legal hb (hx s rfl)
  | fault f => exact .fault f
  | refused r => exact .refused r

theorem runInstr_legal {s : State} (hs : s.Legal) (i : Instr) : LegalOutcome (runInstr i s) := by
  unfold runInstr
  split
  · exact .refused _
  · exact retireOutcome_legal hs (exec_legal hs i)

theorem State.Legal.withIr {s : State} (hs : s.Legal) (w : Word) : State.Legal { s with ir := w } :=
  ⟨hs.mem, hs.st, hs.iif, hs.ivtp, hs.tvtp, hs.gmicr, hs.lmicr, hs.lru, hs.delay, hs.timers, hs.ports, hs.dma⟩

theorem runWord_legal {s : State} (hs : s.Legal) (w : Word) : LegalOutcome (runWord w s) := by
  unfold runWord
  split
  · exact .refused _
  · exact runInstr_legal (hs.withIr w) _

theorem fetchWord_leads {s : State} (hs : s.Legal) : (fetchWord s).Leads State.Legal := by
  unfold fetchWord
  split
  · exact .ok hs
  · exact instrFetch_leads hs s.pc

theorem runNext_legal {s : State} (hs : s.Legal) : LegalOutcome (runNext s) := by
  unfold runNext
  split
  next w t hfetch => exact runWord_legal (fetchWord_leads hs _ _ hfetch) w
  next => exact .next hs
  next => exact .refused _

theorem step_legal {s : State} (hs : s.Legal) : LegalOutcome (step s) := by
  unfold step advance
  split
  next t hbound => exact .next (atBoundary_leads hs _ _ hbound)
  next t hbound => exact runNext_legal (atBoundary_leads hs _ _ hbound)
  next => exact .next hs
  next => exact .refused _

/-- Settles O5: the boundary, the fetch and every update of an instruction keep each part of `State.Legal`. -/
theorem stepKeepsLegal : Obligations.StepKeepsLegal := fun _ t hs ht => step_legal hs t ht

end Sys2Proof.Machine

/-! What no instruction does, update by update (R41, R45, R60, R70). -/

namespace Sys2Proof.Machine

/-- The expansion registers change by LDPE alone (R60). -/
theorem Update.expansion_kept {i : Instr} {s t : State} (h : Update i s t) (hi : ∀ src x, i ≠ .ldpe src x) :
    t.ivtp = s.ivtp ∧ t.tvtp = s.tvtp := by
  cases h with
  | read hread => exact (hread.keeps 0 []).expansion
  | write hwrite => exact (memWrite_keeps hwrite [] 0 []).expansion
  | reg d v => exact ⟨s.wrI_ivtp d v, s.wrI_tvtp d v⟩
  | expansion x v hldpe => obtain ⟨a, b, e⟩ := hldpe; exact absurd e (hi a b)
  | save => exact ⟨s.saveStatus_ivtp, s.saveStatus_tvtp⟩
  | restore => exact ⟨s.restoreStatus_ivtp, s.restoreStatus_tvtp⟩
  | ext | flags | openFlags | enable | repeatMode | control => exact ⟨rfl, rfl⟩

/-- The strap pins do not change (R70). -/
theorem Update.straps_kept {i : Instr} {s t : State} (h : Update i s t) :
    t.romen = s.romen ∧ t.resetloc = s.resetloc := by
  cases h with
  | read hread =>
    obtain ⟨-, -, -, -, -, hromen, hresetloc, -, -⟩ := (hread.keeps 0 []).inputs
    exact ⟨hromen, hresetloc⟩
  | write hwrite =>
    obtain ⟨-, -, -, -, -, hromen, hresetloc, -, -⟩ := (memWrite_keeps hwrite [] 0 []).inputs
    exact ⟨hromen, hresetloc⟩
  | reg d v => exact ⟨s.wrI_romen d v, s.wrI_resetloc d v⟩
  | expansion x v => exact ⟨s.wrX_romen x v, s.wrX_resetloc x v⟩
  | save => exact ⟨s.saveStatus_romen, s.saveStatus_resetloc⟩
  | restore => exact ⟨s.restoreStatus_romen, s.restoreStatus_resetloc⟩
  | ext | flags | openFlags | enable | repeatMode | control => exact ⟨rfl, rfl⟩

theorem wrI_stBit (s : State) {d : Reg} (v : Word) (hd : d ≠ .st) (j : Nat) : (s.wrI d v).stBit j = s.stBit j := by
  cases d with
  | st => exact absurd rfl hd
  | _ => rfl

theorem saveStatus_stBit (s : State) (j : Nat) : s.saveStatus.stBit j =
    if j = 10 then true else if j = 13 then false else if j = 14 then s.stBit 13 else if j = 9 then s.stBit 10
      else s.stBit j := by
  rw [saveStatus_eq]
  exact enteredStatus_getLsbD s.st j

theorem restoreStatus_stBit (s : State) (j : Nat) : s.restoreStatus.stBit j =
    if j = 10 then s.stBit 9 else if j = 13 then s.stBit 14 else s.stBit j := by
  rw [restoreStatus_eq]
  exact returnedStatus_getLsbD s.st j

theorem setSt_stBit (s : State) (k : Nat) (b : Bool) (j : Nat) (hk : k < 16) :
    (s.setSt k b).stBit j = if j = k then b else s.stBit j := setSt_getLsbD s k j b hk

theorem setFlags_stBit_high (s : State) (f : FlagRes) {j : Nat} (hj : 7 ≤ j) :
    (s.setFlags f).stBit j = s.stBit j := (setFlags_bits s f).2.2.2.2.2.2.2 j hj

theorem withFlags_stBit_high (s : State) (f : BitVec 7) {j : Nat} (hj : 7 ≤ j) :
    (s.withFlags f).stBit j = s.stBit j := by
  rw [State.stBit, withFlags_getLsbD, if_neg (by omega)]
  rfl

/-- Every update but a write of ST leaves a bit of ST above the flags that is no status bit of an exception or IDLE. -/
theorem Update.stBit_high {i : Instr} {s t : State} (h : Update i s t) (hst : intDst i ≠ some .st) {j : Nat}
    (hj : 7 ≤ j) (h8 : j ≠ 8) (hsave : (∀ c n, i ≠ .trapcond c n ∧ i ≠ .latcond c n) ∨ j ∉ [9, 10, 13, 14])
    (hrestore : (∀ c, i ≠ .reticond c ∧ i ≠ .reticondD c) ∨ j ∉ [10, 13]) (hidle : i ≠ .idle ∨ j ≠ 13) :
    t.stBit j = s.stBit j := by
  cases h with
  | read hread => rw [State.stBit, hread.fields.1, State.stBit]
  | write hwrite => rw [State.stBit, (memWrite_fields hwrite).2.2.1, State.stBit]
  | reg d v hd => exact wrI_stBit s v (fun e => hst (hd e)) j
  | flags f => exact setFlags_stBit_high s f hj
  | openFlags f => exact withFlags_stBit_high s f hj
  | expansion x v => cases x <;> rfl
  | save htrap =>
    obtain ⟨c, n, e⟩ := htrap
    rcases hsave with hi | hj'
    · exact absurd e (not_or.2 (hi c n))
    · simp only [List.mem_cons, List.not_mem_nil, or_false, not_or] at hj'
      obtain ⟨h9, h10, h13, h14⟩ := hj'
      rw [saveStatus_stBit, if_neg h10, if_neg h13, if_neg h14, if_neg h9]
  | restore hreti =>
    obtain ⟨c, e⟩ := hreti
    rcases hrestore with hi | hj'
    · exact absurd e (not_or.2 (hi c))
    · simp only [List.mem_cons, List.not_mem_nil, or_false, not_or] at hj'
      rw [restoreStatus_stBit, if_neg hj'.1, if_neg hj'.2]
  | enable e =>
    rcases hidle with hi | hj'
    · exact absurd e hi
    · rw [setSt_stBit _ _ _ _ (by decide), if_neg hj']
  | repeatMode => rw [setSt_stBit _ _ _ _ (by decide), if_neg h8]
  | ext | control => rfl

/-- LV and LUF, once set, stay set but by a write of ST and by RSQRF (R41). -/
theorem Update.sticky {i : Instr} {s t : State} (h : Update i s t) (hst : intDst i ≠ some .st)
    (hi : ∀ a b, i ≠ .rsqrf a b) {j : Nat} (hj : j = 5 ∨ j = 6) (hset : s.stBit j = true) : t.stBit j = true := by
  have hlow : j < 7 := by omega
  cases h with
  | read hread => rw [State.stBit, hread.fields.1]; exact hset
  | write hwrite => rw [State.stBit, (memWrite_fields hwrite).2.2.1]; exact hset
  | reg d v hd => rw [wrI_stBit s v (fun e => hst (hd e))]; exact hset
  | flags f =>
    obtain ⟨-, -, -, -, -, hlv, hluf, -⟩ := setFlags_bits s f
    rcases hj with rfl | rfl
    · rw [hlv, hset, Bool.true_or]
    · rw [hluf, hset, Bool.true_or]
  | openFlags f hrsqrf => obtain ⟨a, b, e⟩ := hrsqrf; exact absurd e (hi a b)
  | expansion x v => cases x <;> exact hset
  | save => rw [saveStatus_stBit, if_neg (by omega), if_neg (by omega), if_neg (by omega), if_neg (by omega)]; exact hset
  | restore => rw [restoreStatus_stBit, if_neg (by omega), if_neg (by omega)]; exact hset
  | enable => rw [setSt_stBit _ _ _ _ (by decide), if_neg (by omega)]; exact hset
  | repeatMode => rw [setSt_stBit _ _ _ _ (by decide), if_neg (by omega)]; exact hset
  | ext | control => exact hset

/-- A bit of ST that every update of an instruction leaves is as it was after the instruction. -/
theorem Updates.stBit_kept {i : Instr} {s u : State} (h : Updates i s u) {j : Nat}
    (hj : ∀ v w, Update i v w → w.stBit j = v.stBit j) : u.stBit j = s.stBit j :=
  h.keep (P := fun v => v.stBit j = s.stBit j) (fun v w hstep hv => (hj v w hstep).trans hv) rfl

/-- Settles O58, from the one list of updates that an instruction is made of. -/
theorem wholeMachineRules : Obligations.WholeMachineRules := by
  intro i s u hexec
  have hchain := exec_runs i s u hexec
  refine ⟨fun hi => ?_, fun hst hi => ⟨?_, ?_⟩, fun hst htrap => ⟨?_, ?_, fun hreti => ⟨?_, fun hidle => ?_⟩⟩, ?_⟩
  · exact hchain.keep (P := fun v => v.ivtp = s.ivtp ∧ v.tvtp = s.tvtp)
      (fun v w hstep hv => ⟨(hstep.expansion_kept hi).1.trans hv.1, (hstep.expansion_kept hi).2.trans hv.2⟩) ⟨rfl, rfl⟩
  · exact hchain.keep fun _ _ hstep => hstep.sticky hst hi (.inl rfl)
  · exact hchain.keep fun _ _ hstep => hstep.sticky hst hi (.inr rfl)
  · exact hchain.stBit_kept fun _ _ hstep =>
      hstep.stBit_high hst (by decide) (by decide) (.inl htrap) (.inr (by decide)) (.inr (by decide))
  · exact hchain.stBit_kept fun _ _ hstep =>
      hstep.stBit_high hst (by decide) (by decide) (.inl htrap) (.inr (by decide)) (.inr (by decide))
  · exact hchain.stBit_kept fun _ _ hstep =>
      hstep.stBit_high hst (by decide) (by decide) (.inl htrap) (.inl hreti) (.inr (by decide))
  · exact hchain.stBit_kept fun _ _ hstep =>
      hstep.stBit_high hst (by decide) (by decide) (.inl htrap) (.inl hreti) (.inl hidle)
  · exact hchain.keep (P := fun v => v.romen = s.romen ∧ v.resetloc = s.resetloc)
      (fun v w hstep hv => ⟨hstep.straps_kept.1.trans hv.1, hstep.straps_kept.2.trans hv.2⟩) ⟨rfl, rfl⟩

end Sys2Proof.Machine

/-! The registers and the flags as an instruction writes them (10_state.md R20 to R58), and what the comparisons and the
stack instructions make of them. -/

namespace Sys2Proof.Machine

/-! ## A register reads as it was written -/

theorem low_half (v : Word) : (v.extractLsb' 0 16).setWidth 32 = v &&& 0xFFFF#32 := by
  apply BitVec.eq_of_getLsbD_eq
  intro i hi
  have hmask : (0xFFFF#32).getLsbD i = decide (i < 16) := by interval_cases i <;> rfl
  rw [BitVec.getLsbD_and, hmask, BitVec.getLsbD_setWidth, BitVec.getLsbD_extractLsb']
  simp [hi, Bool.and_comm]

theorem State.wrI_r_same (s : State) (n : Fin 12) (v : Word) :
    (s.wrI (.r n) v).r[n] = s.r[n].extractLsb' 32 8 ++ v := by
  simp [State.wrI, State.wrF]

/-- A register but IIF reads as it was written, but for the bits that it does not store (R20 to R28, R49). -/
theorem State.rdI_wrI (s : State) {d : Reg} (v : Word) (hd : d ≠ .iif) :
    (s.wrI d v).rdI d = (if d = .dp then v &&& 0xFFFF else if d = .st then
      Config.stId ++ 0#1 ++ (v.extractLsb' 0 16 &&& 0xEFFF) else v) := by
  cases d with
  | r n =>
    rw [State.rdI, State.wrI_r_same, BitVec.extractLsb'_append_eq_right]
    rfl
  | ar n => simp [State.rdI, State.wrI, State.wrAr]
  | dp => exact low_half v
  | iif => exact absurd rfl hd
  | _ => rfl

/-- A write of ST with bit 12 set clears every P flag, another leaves them (R49). -/
theorem State.wrSt_present (s : State) (v : Word) (g : Fin 4) :
    (s.wrSt v).cache.segs[g].p = if v.getLsbD 12 then 0 else s.cache.segs[g].p := by
  show (if v.getLsbD 12 then s.cache.clear else s.cache).segs[g].p = _
  split
  · simp [Cache.clear]
  · rfl

/-- Settles O14, register by register. -/
theorem registerWrite : Obligations.RegisterWrite := by
  intro s d v hd
  refine ⟨s.rdI_wrI v hd, ?_, ?_, s.keeps_wrI d v 0 [] []⟩
  · rintro n rfl
    rw [State.wrI_r_same, BitVec.extractLsb'_append_eq_left]
  · rintro rfl g
    exact s.wrSt_present v g

/-! ## IIF -/

/-- A bit of IIF after the write of one pin's FLAG bit was dropped (R58). -/
theorem keepInput_getLsbD (old v w : Word) (x : Fin 4) (j : Nat) : (keepInput old v x w).getLsbD j =
    if j = 4 * x.val + 2 ∧ iifFunc v x = false ∧ iifType v x = false then old.getLsbD j else w.getLsbD j := by
  have hx := x.isLt
  unfold keepInput
  by_cases hin : iifFunc v x = false ∧ iifType v x = false
  · rw [if_pos (by simp [hin]), setBit_getLsbD _ _ _ _ (by omega)]
    by_cases hj : j = 4 * x.val + 2
    · rw [if_pos hj, if_pos ⟨hj, hin⟩, hj]
    · rw [if_neg hj, if_neg fun h => hj h.1]
  · rw [if_neg (by simpa using hin), if_neg fun h => hin h.2]

/-- The FLAG bits of IIF (R55). -/
def isFlagBit (j : Nat) : Prop := ∃ x : Fin 4, j = 4 * x.val + 2

/-- What a write of IIF stores outside the FLAG bits: the writable bits as written, the others as they were (R58). -/
theorem State.wrIif_getLsbD (s : State) (v : Word) {j : Nat} (hj : ¬ isFlagBit j) :
    (s.wrIif v).iif.getLsbD j =
      (v.getLsbD j && (0xFF00FFFF#32).getLsbD j || s.iif.getLsbD j && (0x10000#32).getLsbD j) := by
  have hne : ∀ x : Fin 4, j ≠ 4 * x.val + 2 := fun x e => hj ⟨x, e⟩
  show (keepInput s.iif v 0 _).getLsbD j = _
  rw [keepInput_getLsbD, if_neg fun h => hne 0 h.1, keepInput_getLsbD, if_neg fun h => hne 1 h.1, keepInput_getLsbD,
    if_neg fun h => hne 2 h.1, keepInput_getLsbD, if_neg fun h => hne 3 h.1, BitVec.getLsbD_or, BitVec.getLsbD_and,
    BitVec.getLsbD_and]

/-- The stored FLAG bit of a pin that the new value makes no input is the one written (R58). -/
theorem State.wrIif_flag (s : State) (v : Word) {x : Fin 4} (hx : ¬ (iifFunc v x = false ∧ iifType v x = false)) :
    (s.wrIif v).iif.getLsbD (4 * x.val + 2) = v.getLsbD (4 * x.val + 2) := by
  show (keepInput s.iif v 0 _).getLsbD _ = _
  simp only [keepInput_getLsbD, BitVec.getLsbD_or, BitVec.getLsbD_and]
  fin_cases x <;> simp_all

/-- A read of IIF shows the FLAG bits of the pins and every other bit as stored (R56, R57). -/
theorem State.rdIif_getLsbD (s : State) {j : Nat} (hj : ¬ isFlagBit j) : s.rdIif.getLsbD j = s.iif.getLsbD j := by
  have hne : ∀ x : Fin 4, j ≠ 4 * x.val + 2 := fun x e => hj ⟨x, e⟩
  have h2 : j ≠ 2 := hne 0
  have h6 : j ≠ 6 := hne 1
  have h10 : j ≠ 10 := hne 2
  have h14 : j ≠ 14 := hne 3
  unfold State.rdIif
  rw [setBit_getLsbD _ _ _ _ (by decide), if_neg h14, setBit_getLsbD _ _ _ _ (by decide), if_neg h10,
    setBit_getLsbD _ _ _ _ (by decide), if_neg h6, setBit_getLsbD _ _ _ _ (by decide), if_neg h2]

theorem State.rdIif_flag (s : State) (x : Fin 4) : s.rdIif.getLsbD (4 * x.val + 2) = s.iifFlag x := by
  unfold State.rdIif
  rw [setBit_getLsbD _ _ _ _ (by decide), setBit_getLsbD _ _ _ _ (by decide), setBit_getLsbD _ _ _ _ (by decide),
    setBit_getLsbD _ _ _ _ (by decide)]
  fin_cases x <;> simp

/-- The FUNC and TYPE bits are writable (R58). -/
theorem State.wrIif_pinBits (s : State) (v : Word) (x : Fin 4) :
    iifFunc (s.wrIif v).iif x = iifFunc v x ∧ iifType (s.wrIif v).iif x = iifType v x := by
  have hf : ¬ isFlagBit (4 * x.val) := by rintro ⟨y, hy⟩; omega
  have ht : ¬ isFlagBit (4 * x.val + 1) := by rintro ⟨y, hy⟩; omega
  unfold iifFunc iifType
  rw [s.wrIif_getLsbD v hf, s.wrIif_getLsbD v ht]
  fin_cases x <;> simp

/-- The bits of IIF that a write sets as written, the FLAG bits of the pins aside (R55, R58). -/
theorem iif_writable {j : Nat} (h : (0xFF00BBBB#32).getLsbD j = true) :
    ¬ isFlagBit j ∧ (0xFF00FFFF#32).getLsbD j = true ∧ (0x10000#32).getLsbD j = false := by
  have hj : j < 32 := by
    by_contra hge
    rw [BitVec.getLsbD_of_ge _ _ (by omega)] at h
    cases h
  refine ⟨?_, ?_⟩
  · rintro ⟨x, rfl⟩
    revert h
    fin_cases x <;> decide
  · revert h
    interval_cases j <;> decide

/-- The reserved bits of IIF are neither written nor flags of pins (R55, R58). -/
theorem iif_reserved_kept {j : Nat} (h : (0x00FE0000#32).getLsbD j = true) :
    ¬ isFlagBit j ∧ (0xFF00FFFF#32).getLsbD j = false := by
  obtain ⟨hlo, hhi⟩ := iif_reserved h
  refine ⟨?_, by interval_cases j <;> decide⟩
  rintro ⟨x, rfl⟩
  omega

/-- Settles O15, bit by bit: the FLAG bits apart from all others. -/
theorem iifWrite : Obligations.IifWrite := by
  intro s v hs
  have hzero := mask_zero.1 hs
  refine ⟨?_, mask_zero.2 fun j hj => ?_, ?_, fun x => ?_⟩
  · show (s.wrIif v).iif.getLsbD 16 = _
    rw [s.wrIif_getLsbD v (by rintro ⟨x, hx⟩; omega)]
    simp
  · obtain ⟨hflag, hmask⟩ := iif_reserved_kept hj
    show (s.wrIif v).rdIif.getLsbD j = false
    rw [State.rdIif_getLsbD _ hflag, s.wrIif_getLsbD v hflag, hmask, hzero j hj]
    simp
  · apply BitVec.eq_of_getLsbD_eq
    intro j _
    show ((s.wrIif v).rdIif &&& _).getLsbD j = _
    rw [BitVec.getLsbD_and, BitVec.getLsbD_and]
    cases hj : (0xFF00BBBB#32).getLsbD j
    · simp
    · obtain ⟨hflag, hon, hoff⟩ := iif_writable hj
      rw [State.rdIif_getLsbD _ hflag, s.wrIif_getLsbD v hflag, hon, hoff]
      simp
  · obtain ⟨hfunc, htype⟩ := s.wrIif_pinBits v x
    show (s.wrIif v).rdIif.getLsbD (4 * x.val + 2) = _
    rw [State.rdIif_flag, State.iifFlag, hfunc, htype, s.wrIif_pins v]
    have hkeep := s.wrIif_flag v (x := x)
    show _ = (if iifFunc v x = false ∧ iifType v x = false then _ else if iifFunc v x = true ∧ iifType v x = true
      then _ else _)
    cases hf : iifFunc v x <;> cases ht : iifType v x <;> simp_all

/-! ## The gate of the condition flags -/

theorem State.flagsOn_iff (s : State) (d : Reg) :
    s.flagsOn d = true ↔ (∃ n, d = .r n) ∨ (s.stBit 15 = true ∧ d ≠ .st) := by
  cases d <;> simp [State.flagsOn]

/-- A flag result leaves what every register but ST reads. -/
theorem State.rdI_setFlags (s : State) (f : FlagRes) {d : Reg} (hd : d ≠ .st) : (s.setFlags f).rdI d = s.rdI d := by
  cases d with
  | st => exact absurd rfl hd
  | _ => rfl

/-- Settles O16, by the two branches of the gate. -/
theorem flagGate : Obligations.FlagGate := by
  intro s d v f
  dsimp only
  rw [← s.flagsOn_iff d]
  refine ⟨fun hon => ?_, fun hoff => by rw [State.putI, if_neg hoff]⟩
  have hd : d ≠ .st := by rintro rfl; cases hon
  have hbit := wrI_stBit s v hd
  obtain ⟨hc, hv, hz, hn, huf, hlv, hluf, hhigh⟩ := setFlags_bits (s.wrI d v) f
  rw [hbit] at hc hlv hluf
  rw [State.putI, if_pos hon]
  exact ⟨hn, hz, hv, huf, hlv, hluf, hc, fun i hi => (hhigh i hi).trans (hbit i), State.rdI_setFlags _ f hd⟩

/-! ## Comparisons -/

theorem slt_or_eq (x y : Word) : (x.slt y || x == y) = x.sle y := by
  rw [Bool.eq_iff_iff]
  simp only [Bool.or_eq_true, BitVec.slt, BitVec.sle, decide_eq_true_eq, beq_iff_eq, ← BitVec.toInt_inj]
  omega

theorem ult_or_eq (x y : Word) : (x.ult y || x == y) = x.ule y := by
  rw [Bool.eq_iff_iff]
  simp only [Bool.or_eq_true, BitVec.ult, BitVec.ule, decide_eq_true_eq, beq_iff_eq, ← BitVec.toNat_inj]
  omega

/-- Settles O21: the flags of the comparison are the orders (`cmpFlags_eq`), and the conditions read them back. -/
theorem compareOrders : Obligations.CompareOrders := by
  intro src dst s t a hsrc hlive
  have ht : t.annulled = false := (srcI_readBy hsrc).annulled.trans hlive
  refine ⟨t.setFlags (cmpFlags (s.rdI dst) a), execute_live hsrc ht, by rw [cmpFlags_eq], ?_⟩
  obtain ⟨hc, -, hz, hn, -⟩ := setFlags_bits t (cmpFlags (s.rdI dst) a)
  rw [cmpFlags_eq] at hc hz hn ⊢
  simp only [State.cond, hc, hz, hn, Option.getD_some, slt_or_eq, ult_or_eq, and_self]

theorem valueOf_zero {x : Ext} (h : fIsZero x = true) : valueOf x = 0 := by
  rw [valueOf, if_pos (zero_expo h)]

/-- A number that is not zero has the sign of its mantissa (R232). -/
theorem valueOf_sign {x : Ext} (h : fIsZero x = false) : valueOf x ≠ 0 ∧ (valueOf x < 0 ↔ x.getLsbD 31 = true) := by
  have hexpo : expo x ≠ -128 := by have := (nonzero_expo h).1; omega
  obtain ⟨hneg, hne⟩ := mant_sign x
  have hpow : (0 : ℚ) < 2 ^ (expo x - 31) := by positivity
  rw [valueOf, if_neg hexpo]
  refine ⟨mul_ne_zero (by exact_mod_cast hne) hpow.ne', ?_⟩
  rw [← hneg, mul_neg_iff]
  constructor
  · rintro (⟨-, hlt⟩ | ⟨hlt, -⟩)
    · exact absurd hlt hpow.asymm
    · exact_mod_cast hlt
  · exact fun hlt => .inr ⟨by exact_mod_cast hlt, hpow⟩

/-- Settles O23: the flags compare the two numbers (`cmpfFlags_compare`), so the cases with equal or zero operands are
those of the numbers. -/
theorem floatCompare : Obligations.FloatCompare := by
  intro src dst s t a hsrc hlive
  have ht : t.annulled = false := (srcF_readBy hsrc).annulled.trans hlive
  have hcmp := cmpfFlags_compare (s.rdF dst) a
  refine ⟨cmpfFlags (s.rdF dst) a, execute_live hsrc ht, hcmp, fun heq => ?_, fun hx ha => ?_, fun hx ha => ?_⟩ <;>
    rw [hcmp.n, hcmp.z]
  · rw [heq]
    simp
  · obtain ⟨hne, hneg⟩ := valueOf_sign ha
    rw [valueOf_zero hx]
    refine ⟨by simpa using hne.symm, ?_⟩
    rw [Bool.eq_iff_iff, decide_eq_true_eq, Bool.not_eq_true', ← Bool.not_eq_true, ← hneg, not_lt]
    exact ⟨le_of_lt, fun hle => lt_of_le_of_ne hle hne.symm⟩
  · obtain ⟨hne, hneg⟩ := valueOf_sign hx
    rw [valueOf_zero ha]
    exact ⟨by simpa using hne, by rw [Bool.eq_iff_iff, decide_eq_true_eq, hneg]⟩

/-! ## The stack instructions -/

theorem store_live {s : State} (h : s.annulled = false) (a v : Word) : store a v s = dataWrite a v s := by
  simp [store, h]

/-- A pop that reads its word (R27). -/
theorem pop_ok {s t : State} {v : Word} (h : dataRead s.sp s = .ok v t) : pop s = .ok v { t with sp := s.sp - 1 } := by
  have hsp : t.sp = s.sp := (dataRead_readBy h).fields.2.2.2.2.2.2.1
  rw [pop, h, Res.bind_ok, hsp]

/-- The flags of a word that is loaded as a floating-point number (R235, R249). -/
theorem floatFlags_single (v : Word) : floatFlags (.exact (singleToExt v)) =
    { n := v.getLsbD 23, z := v.extractLsb' 24 8 == 0x80, v := false, uf := false, c := none } := by
  have hn : fN (singleToExt v) = v.getLsbD 23 := by
    rw [fN, singleToExt, BitVec.getLsbD_append, if_neg (by decide)]
  have hz : (singleToExt v).extractLsb' 32 8 = v.extractLsb' 24 8 := by
    apply BitVec.eq_of_getLsbD_eq
    intro i hi
    have hge : ¬ 32 + i < 8 := by omega
    have hsub : 32 + i - 8 = 24 + i := by omega
    simp only [singleToExt, BitVec.getLsbD_extractLsb', BitVec.getLsbD_append, hge, if_false, hsub]
  simp only [floatFlags, FRes.exact, hn, fIsZero, hz, BitVec.ofNat_eq_ofNat]

/-- Settles O32: the store and the read are the data accesses at the stack pointer. -/
theorem stackInstructions : Obligations.StackInstructions := by
  intro s t hlive
  have hpush : State.annulled { s with sp := s.sp + 1 } = false := hlive
  refine ⟨fun src hw => sequential_ok ?_, fun src hw => sequential_ok ?_, fun v hr => ?_⟩
  · exact (store_live hpush _ _).trans hw
  · exact (store_live hpush _ _).trans hw
  · have ht : State.annulled { t with sp := s.sp - 1 } = false := (dataRead_readBy hr).annulled.trans hlive
    refine ⟨fun dst => execute_live (pop_ok hr) ht, fun dst => ?_⟩
    have hsrc : asFloat (pop s) = .ok (singleToExt v) { t with sp := s.sp - 1 } := by rw [pop_ok hr]; rfl
    rw [← floatFlags_single]
    exact execute_live hsrc ht

end Sys2Proof.Machine

/-! The frames of the instructions that compute into registers (R41, R47, R170, R351, R451, R560): one rule for an
operand, one for each shared form of a meaning, and one for each flag result. -/

namespace Sys2Proof.Machine

/-! ## Flag results by the bits that they can change -/

/-- Every flag but LUF and UF's latch: V and C are computed, UF is 0. -/
theorem flagMask_carry {f : FlagRes} (hu : f.uf = false) : flagMask f ||| 0x3F#16 = 0x3F#16 :=
  flagMask_sub (by decide) (.inr (by decide)) (.inr (by decide)) (.inl hu)

/-- V is computed, C stays, UF is 0. -/
theorem flagMask_overflow {f : FlagRes} (hc : f.c = none) (hu : f.uf = false) : flagMask f ||| 0x3E#16 = 0x3E#16 :=
  flagMask_sub (by decide) (.inl hc) (.inr (by decide)) (.inl hu)

/-- C is computed, V and UF are 0. -/
theorem flagMask_shift {f : FlagRes} (hv : f.v = false) (hu : f.uf = false) : flagMask f ||| 0x1F#16 = 0x1F#16 :=
  flagMask_sub (by decide) (.inr (by decide)) (.inl hv) (.inl hu)

/-- C stays, V and UF are 0. -/
theorem flagMask_plain {f : FlagRes} (hc : f.c = none) (hv : f.v = false) (hu : f.uf = false) :
    flagMask f ||| 0x1E#16 = 0x1E#16 :=
  flagMask_sub (by decide) (.inl hc) (.inl hv) (.inl hu)

/-- V and UF are computed, C stays. -/
theorem flagMask_float {f : FlagRes} (hc : f.c = none) : flagMask f ||| 0x7E#16 = 0x7E#16 :=
  flagMask_sub (by decide) (.inl hc) (.inr (by decide)) (.inr (by decide))

/-- UF is computed, C stays, V is 0. -/
theorem flagMask_underflow {f : FlagRes} (hc : f.c = none) (hv : f.v = false) : flagMask f ||| 0x5E#16 = 0x5E#16 :=
  flagMask_sub (by decide) (.inl hc) (.inl hv) (.inr (by decide))

theorem flagMask_all (f : FlagRes) : flagMask f ||| 0x7F#16 = 0x7F#16 :=
  flagMask_sub (by decide) (.inr (by decide)) (.inr (by decide)) (.inr (by decide))

theorem aluAsh_uf (d c : Word) : (aluAsh d c).f.uf = false := by
  unfold aluAsh
  dsimp only
  split
  · rfl
  · split <;> rfl

theorem aluLsh_v_uf (d c : Word) : (aluLsh d c).f.v = false ∧ (aluLsh d c).f.uf = false := by
  unfold aluLsh
  dsimp only
  split
  · exact ⟨rfl, rfl⟩
  · split <;> exact ⟨rfl, rfl⟩

/-! ## Operands -/

/-- Reading an operand changes the registers `moved` alone; where it waits, nothing goes into the latch. -/
structure Operand {α : Type} (s : State) (x : Res α) (moved : List Reg) (reads : List Word) : Prop where
  keeps : ∀ v t, x = .ok v t → s.Keeps t moved 0 reads [] ∧ s.Quiet t ∧ t.st = s.st
  waits : Waits x

theorem Operand.of_readBy {α : Type} {s : State} {x : Res α} {m : List Reg} {a : List Word}
    (hr : ∀ {v t}, x = .ok v t → ReadBy s t m a) (hw : Waits x) : Operand s x m a :=
  ⟨fun _ _ h => ⟨(hr h).keeps 0 [], (hr h).quiet, (hr h).fields.1⟩, hw⟩

section

variable {s : State} {m : List Reg} {a : List Word} {fl : BitVec 16}

theorem Operand.value {α : Type} (v : α) : Operand s (.ok v s) [] [] :=
  .of_readBy (fun h => by cases h; exact ReadBy.refl _ _ _) (Waits.ok v s)

theorem Operand.asFloat {x : Res Word} (hx : Operand s x m a) : Operand s (asFloat x) m a :=
  ⟨fun _ _ h => by obtain ⟨w, hw, -⟩ := asFloat_ok h; exact hx.keeps w _ hw, asFloat_waits hx.waits⟩

theorem Operand.asFloat2 {x : Res (Word × Word)} (hx : Operand s x m a) : Operand s (asFloat2 x) m a :=
  ⟨fun _ _ h => by obtain ⟨w, hw, -⟩ := asFloat2_ok h; exact hx.keeps w _ hw, asFloat2_waits hx.waits⟩

theorem srcI_operand (src : Src) : Operand s (srcI src s) (movesOf src.mems) (addrsOf s src.mems) :=
  .of_readBy srcI_readBy (srcI_waits src s)

theorem srcU_operand (src : Src) : Operand s (srcU src s) (movesOf src.mems) (addrsOf s src.mems) :=
  .of_readBy srcU_readBy (srcU_waits src s)

theorem srcF_operand (src : FSrc) : Operand s (srcF src s) (movesOf src.mems) (addrsOf s src.mems) :=
  .of_readBy srcF_readBy (srcF_waits src s)

theorem srcMan_operand (src : FSrc) : Operand s (srcMan src s) (movesOf src.mems) (addrsOf s src.mems) :=
  .of_readBy srcMan_readBy (srcMan_waits src s)

theorem srcR_operand (src : RSrc) : Operand s (srcR src s) (movesOf src.mems) (addrsOf s src.mems) :=
  .of_readBy srcR_readBy (srcR_waits src s)

theorem srcFR_operand (src : FRSrc) : Operand s (srcFR src s) (movesOf src.mems) (addrsOf s src.mems) :=
  .of_readBy srcFR_readBy (srcFR_waits src s)

theorem srcMem_operand (src : Mem) : Operand s (srcMem src s) src.moves [s.memAddr src] :=
  .of_readBy (fun h => (srcMem_readBy h).mono (by simp) (by simp)) (srcMem_waits src s)

theorem src3_operand (ops : Ops3) : Operand s (src3 ops s) (movesOf ops.mems) (addrsOf s ops.mems) :=
  .of_readBy src3_readBy (src3_waits ops s)

theorem src3F_operand (ops : FOps3) : Operand s (src3F ops s) (movesOf ops.mems) (addrsOf s ops.mems) :=
  .of_readBy src3F_readBy (src3F_waits ops s)

theorem indRead2_operand (i j : Ind) :
    Operand s (indRead2 i j s) (i.moves ++ j.moves) [s.memAddr (.ind i), s.memAddr (.ind j)] :=
  .of_readBy (fun h => (indRead2_readBy h).mono (by simp [Mem.moves]) (by simp)) (indRead2_waits i j s)

/-- The popped word: SP changes too (R27). -/
theorem pop_operand : Operand s (pop s) [.sp] [s.sp] := by
  refine ⟨fun v t h => ?_, pop_waits s⟩
  obtain ⟨w, r, hr, ht⟩ := Res.bind_eq_ok h
  cases ht
  have rb := dataRead_readBy hr
  have hk := ((rb.keeps 0 []).trans (r.keeps_wrI .sp (r.sp - 1) 0 [] [])).mono (r' := [.sp]) (f' := 0) (a' := [s.sp])
    (w' := []) (by simp) (by simp) (by simp) (by simp)
  exact ⟨hk, rb.quiet.trans (r.quiet_wrI .sp _), rb.fields.1⟩

/-! ## The shared forms of the meanings -/

/-- Where the outcome is a next state, the instruction has changed no more than is said. -/
def Framed (s : State) (regs : List Reg) (flags : BitVec 16) (reads writes : List Word)
    (x : Host.Outcome State Fault Refusal) : Prop :=
  ∀ u, x = .next u → s.Keeps u regs flags reads writes ∧ s.Quiet u

theorem Framed.refused {r : List Reg} {w : List Word} (x : Refusal) : Framed s r fl a w (.refused x) := by
  intro u h; cases h

theorem Framed.ite {r : List Reg} {w : List Word} {c : Prop} [Decidable c] {x y : Host.Outcome State Fault Refusal}
    (hx : Framed s r fl a w x) (hy : Framed s r fl a w y) : Framed s r fl a w (if c then x else y) := by
  split
  · exact hx
  · exact hy

theorem sequential_framed {r : List Reg} {w : List Word} {x : Res Unit}
    (hk : ∀ t, x = .ok () t → s.Keeps t r fl a w ∧ s.Quiet t)
    (hw : ∀ l, x = .stall l → s.offPeriph w → l = none) : Framed s r fl a w (sequential s x) :=
  fun _ h => ⟨sequential_keeps h (fun t e => (hk t e).1) hw, sequential_quiet h fun t e => (hk t e).2⟩

/-- An operand, then what the instruction does with it. -/
theorem Operand.framed {α : Type} {x : Res α} {r : List Reg} {g : α → State → State} (hx : Operand s x m a)
    (hg : ∀ (v : α) (t : State), t.st = s.st → t.Keeps (g v t) r fl [] [] ∧ t.Quiet (g v t)) :
    Framed s (r ++ m) fl a [] (sequential s (x.bind fun v t => .ok () (g v t))) := by
  refine sequential_framed (fun u h => ?_) (fun l h _ => ?_)
  · obtain ⟨v, t, e, hu⟩ := Res.bind_eq_ok h
    cases hu
    obtain ⟨hk, hq, hst⟩ := hx.keeps v t e
    obtain ⟨hk', hq'⟩ := hg v t hst
    have hread : s.Keeps t m fl a [] := hk.mono (fun _ h => h) (by simp) (fun _ h => h) (fun _ h => h)
    exact ⟨(hread.trans hk').mono (by simp) (by simp) (by simp) (by simp), hq.trans hq'⟩
  · rcases Res.bind_eq_stall h with h | ⟨v, t, -, h⟩
    · exact hx.waits l h
    · cases h

theorem exe_frame {t : State} {f : State → State} {r : List Reg}
    (h : t.Keeps (f t) r fl [] [] ∧ t.Quiet (f t)) : t.Keeps (t.exe f) r fl [] [] ∧ t.Quiet (t.exe f) := by
  unfold State.exe
  split
  · exact ⟨.refl _ _ _ _ _, .refl _⟩
  · exact h

/-- An operand, then an execute phase. -/
theorem Operand.execute {α : Type} {x : Res α} {r : List Reg} {g : α → State → State} (hx : Operand s x m a)
    (hg : ∀ (v : α) (t : State), t.st = s.st → t.Keeps (g v t) r fl [] [] ∧ t.Quiet (g v t)) :
    Framed s (r ++ m) fl a [] (execute s x g) :=
  hx.framed fun v t hst => exe_frame (hg v t hst)

/-- An integer result behind the gate of R47. -/
theorem Operand.putI {α : Type} {x : Res α} {d : Reg} {v : α → Word} {f : α → FlagRes} (hx : Operand s x m a)
    (hf : ∀ y, flagMask (f y) ||| fl = fl) :
    Framed s (d :: m) (if s.flagsOn d then fl else 0) a [] (Machine.execute s x fun y t => t.putI d (v y) (f y)) :=
  hx.execute fun y _ hst => putI_frame hst (hf y)

theorem Operand.putF {α : Type} {x : Res α} {d : Fin 12} {v : α → Ext} {f : α → FlagRes} (hx : Operand s x m a)
    (hf : ∀ y, flagMask (f y) ||| fl = fl) :
    Framed s (.r d :: m) fl a [] (Machine.execute s x fun y t => t.putF d (v y) (f y)) :=
  hx.execute (r := [.r d]) fun y _ _ => putF_frame (hf y)

theorem Operand.setFlags {α : Type} {x : Res α} {f : α → FlagRes} (hx : Operand s x m a)
    (hf : ∀ y, flagMask (f y) ||| fl = fl) : Framed s m fl a [] (opCmp s x f) :=
  hx.execute (r := []) fun y _ _ => setFlags_frame (hf y)

/-- An integer result without flags. -/
theorem Operand.wrI {α : Type} {x : Res α} {d : Reg} {v : α → Word} (hx : Operand s x m a) :
    Framed s (d :: m) fl a [] (Machine.execute s x fun y t => t.wrI d (v y)) :=
  hx.execute (r := [d]) fun _ t _ => ⟨t.keeps_wrI d _ _ _ _, t.quiet_wrI d _⟩

/-- A floating-point result without flags, made from the register as it stands. -/
theorem Operand.wrF {α : Type} {x : Res α} {d : Fin 12} {v : α → State → Ext} (hx : Operand s x m a) :
    Framed s (.r d :: m) fl a [] (Machine.execute s x fun y t => t.wrF d (v y t)) :=
  hx.execute (r := [.r d]) fun _ t _ => ⟨t.keeps_wrF d _ _ _ _, t.quiet_wrF d _⟩

/-- An integer operation on the value of its own destination. -/
theorem opSelf_framed {d : Reg} {f : Word → IRes} (hf : ∀ y, flagMask (f y).f ||| fl = fl) :
    Framed s [d] (if s.flagsOn d then fl else 0) [] [] (opI s (.ok (s.rdI d) s) d f) :=
  (Operand.value (s.rdI d)).putI hf

/-- A value at hand, which is written into a register without flags. -/
theorem moveI_framed {d : Reg} {v : Word} :
    Framed s [d] fl [] [] (Machine.execute s (.ok v s) fun y t => t.wrI d y) := (Operand.value v).wrI

theorem loadI_framed {x : Res Word} {d : Reg} {f : Word → Word} (hx : Operand s x m a) :
    Framed s (d :: m) (if s.flagsOn d then 0x1E else 0) a [] (loadI s x d f) :=
  hx.putI fun _ => flagMask_plain rfl rfl rfl

theorem loadF_framed {x : Res Ext} {d : Fin 12} (hx : Operand s x m a) :
    Framed s (.r d :: m) 0x1E a [] (loadF s x d) :=
  hx.putF fun _ => flagMask_plain rfl rfl rfl

theorem State.keeps_free (s : State) (n : Nat) (r : List Reg) (f : BitVec 16) (a w : List Word) :
    s.Keeps { s with free := n } r f a w :=
  { State.Keeps.refl s r f a w with reg := fun d _ _ _ => by cases d <;> rfl }

theorem putFree_frame (t : State) (d : Fin 12) :
    t.Keeps (t.putFree d) [.r d] 0x7F [] [] ∧ t.Quiet (t.putFree d) := by
  have hk := ((t.keeps_wrF d (Config.freeExt t.free) 0x7F [] []).trans
    (State.keeps_withFlags _ (Config.freeFlags t.free) [] [])).trans (State.keeps_free _ (t.free + 1) [] 0x7F [] [])
  exact ⟨hk.mono (by simp) (by simp) (by simp) (by simp), rfl, rfl, rfl, rfl, rfl, rfl⟩

theorem execRsqrf_framed (src : FRSrc) (d : Fin 12) :
    Framed s (.r d :: movesOf src.mems) 0x7F (addrsOf s src.mems) [] (execRsqrf src d s) := by
  refine (srcFR_operand src).execute (r := [.r d]) fun y t _ => ?_
  split
  · exact putFree_frame t d
  · exact putF_frame (flagMask_all _)

theorem execLda_framed (src : Src) (d : Reg) :
    Framed s (d :: movesOf src.mems) fl (addrsOf s src.mems) [] (execLda src d s) :=
  .ite ((srcI_operand src).framed (r := [d]) fun _ t _ => ⟨t.keeps_wrI d _ _ _ _, t.quiet_wrI d _⟩) (.refused _)

theorem execLdicond_framed (c : Cond) (src : Src) (d : Reg) :
    Framed s (d :: movesOf src.mems) fl (addrsOf s src.mems) [] (execLdicond c src d s) := by
  refine (srcI_operand src).execute (r := [d]) fun y t _ => ?_
  split
  · exact ⟨t.keeps_wrI d _ _ _ _, t.quiet_wrI d _⟩
  · exact ⟨.refl _ _ _ _ _, .refl _⟩

theorem execLdfcond_framed (c : Cond) (src : FSrc) (d : Fin 12) :
    Framed s (.r d :: movesOf src.mems) fl (addrsOf s src.mems) [] (execLdfcond c src d s) := by
  refine (srcF_operand src).execute (r := [.r d]) fun y t _ => ?_
  split
  · exact ⟨t.keeps_wrF d _ _ _ _, t.quiet_wrF d _⟩
  · exact ⟨.refl _ _ _ _ _, .refl _⟩

/-- Two results and their flags (R590). -/
theorem twoResults_frame (t : State) (n k : Fin 12) (x y : Ext) (v uf : Bool) :
    t.Keeps (((t.wrF n x).wrF k y).setFlags (pairFlags v uf)) [.r n, .r k] 0x7E [] [] ∧
      t.Quiet (((t.wrF n x).wrF k y).setFlags (pairFlags v uf)) :=
  have hflags := setFlags_frame (t := (t.wrF n x).wrF k y) (flagMask_float (f := pairFlags v uf) rfl)
  ⟨((t.keeps_wrF n x _ [] []).trans ((t.wrF n x).keeps_wrF k y _ [] [])).trans hflags.1,
    ((t.quiet_wrF n x).trans ((t.wrF n x).quiet_wrF k y)).trans hflags.2⟩

theorem pairF_framed {p : Fin 4} {d1 d2 : Fin 2} {n k : Fin 8} {i j : Ind} {g : Ext → Ext → FRes} :
    Framed s (.r (productReg d1) :: .r (sumReg d2) :: i.moves ++ j.moves) 0x7E
      [s.memAddr (.ind i), s.memAddr (.ind j)] [] (pairF s p d1 d2 n k i j g) :=
  (indRead2_operand i j).asFloat2.execute (r := [.r (productReg d1), .r (sumReg d2)])
    fun _ t _ => twoResults_frame t _ _ _ _ _ _

theorem pairI_framed {p : Fin 4} {d1 d2 : Fin 2} {n k : Fin 8} {i j : Ind} {g : Word → Word → IRes} :
    Framed s (.r (productReg d1) :: .r (sumReg d2) :: i.moves ++ j.moves) 0x7E
      [s.memAddr (.ind i), s.memAddr (.ind j)] [] (pairI s p d1 d2 n k i j g) :=
  (indRead2_operand i j).execute (r := [.r (productReg d1), .r (sumReg d2)])
    fun _ t _ => twoResults_frame t _ _ _ _ _ _

/-- Two words read at the addresses of two operands, in either order, and what is made of them. -/
theorem loadBoth_framed {d2 d1 : Fin 8} {i j : Ind} {f : Word → Word → State → State} {r : List Reg}
    (hf : ∀ (x y : Word) (t : State), t.Keeps (f x y t) r fl [] [] ∧ t.Quiet (f x y t)) :
    Framed s (r ++ (i.moves ++ j.moves)) fl [s.memAddr (.ind i), s.memAddr (.ind j)] [] (loadBoth s d2 d1 i j f) := by
  refine .ite (.refused _) (sequential_framed (fun u h => ?_) fun l h _ => ?_)
  · obtain ⟨p, t, hp, h⟩ := Res.bind_eq_ok h
    obtain ⟨x, v, hx, h⟩ := Res.bind_eq_ok h
    obtain ⟨y, w, hy, h⟩ := Res.bind_eq_ok h
    cases h
    obtain ⟨rfl, -⟩ := indEval2_ok hp
    have hread := ((indEval2_readBy hp).trans (dataRead_readBy hx)).trans (dataRead_readBy hy)
    obtain ⟨hk, hq⟩ := exe_frame (hf x y w)
    exact ⟨((hread.keeps fl []).trans hk).mono (by simp) (by simp) (by simp [State.memAddr]) (by simp),
      hread.quiet.trans hq⟩
  · exact ((indEval2_waits i j s).bind fun _ _ _ => (dataRead_waits _ _).bind fun _ _ _ =>
      (dataRead_waits _ _).bind fun _ _ _ => Waits.ok _ _) l h

end

end Sys2Proof.Machine

/-! Each family of computing instructions keeps its frame. -/

namespace Sys2Proof.Machine

variable (s : State)

theorem integer_framed (src : Src) (dst : Reg) (c : Cond) :
    ∀ x ∈ [(Instr.addi src dst, 0x3F#16), (.addc src dst, 0x3F#16), (.subi src dst, 0x3F#16),
      (.subb src dst, 0x3F#16), (.subri src dst, 0x3F#16), (.subrb src dst, 0x3F#16), (.negi src dst, 0x3F#16),
      (.negb src dst, 0x3F#16), (.ash src dst, 0x3F#16), (.absi src dst, 0x3E#16), (.mpyi src dst, 0x3E#16),
      (.lsh src dst, 0x1F#16), (.mpyshi src dst, 0x1E#16), (.mpyuhi src dst, 0x1E#16), (.and src dst, 0x1E#16),
      (.andn src dst, 0x1E#16), (.or src dst, 0x1E#16), (.xor src dst, 0x1E#16), (.not src dst, 0x1E#16),
      (.ldi src dst, 0x1E#16), (.subc src dst, 0), (.ldicond c src dst, 0), (.lda src dst, 0)],
    Framed s (dst :: movesOf src.mems) (if s.flagsOn dst then x.2 else 0) (addrsOf s src.mems) [] (exec x.1 s) := by
  have hI := srcI_operand (s := s) src
  have hU := srcU_operand (s := s) src
  simp only [List.forall_mem_cons]
  unfold exec
  refine ⟨hI.putI fun _ => flagMask_carry rfl, hI.putI fun _ => flagMask_carry rfl, hI.putI fun _ => flagMask_carry rfl,
    hI.putI fun _ => flagMask_carry rfl, hI.putI fun _ => flagMask_carry rfl, hI.putI fun _ => flagMask_carry rfl,
    hI.putI fun _ => flagMask_carry rfl, hI.putI fun _ => flagMask_carry rfl,
    hI.putI fun _ => flagMask_carry (aluAsh_uf _ _), hI.putI fun _ => flagMask_overflow rfl rfl,
    hI.putI fun _ => flagMask_overflow rfl rfl, hI.putI fun _ => flagMask_shift (aluLsh_v_uf _ _).1 (aluLsh_v_uf _ _).2,
    hI.putI fun _ => flagMask_plain rfl rfl rfl, hI.putI fun _ => flagMask_plain rfl rfl rfl,
    hU.putI fun _ => flagMask_plain rfl rfl rfl, hU.putI fun _ => flagMask_plain rfl rfl rfl,
    hU.putI fun _ => flagMask_plain rfl rfl rfl, hU.putI fun _ => flagMask_plain rfl rfl rfl,
    hU.putI fun _ => flagMask_plain rfl rfl rfl, loadI_framed hI, hU.wrI, execLdicond_framed c src dst,
    execLda_framed src dst, List.forall_mem_nil _⟩

theorem float_framed (src : FSrc) (dst : Fin 12) (c : Cond) :
    ∀ x ∈ [(Instr.addf src dst, 0x7E#16), (.subf src dst, 0x7E#16), (.subrf src dst, 0x7E#16),
      (.mpyf src dst, 0x7E#16), (.negf src dst, 0x7E#16), (.rnd src dst, 0x7E#16), (.absf src dst, 0x3E#16),
      (.norm src dst, 0x5E#16), (.ldf src dst, 0x1E#16), (.ldfcond c src dst, 0), (.lde src dst, 0),
      (.ldm src dst, 0)],
    Framed s (.r dst :: movesOf src.mems) x.2 (addrsOf s src.mems) [] (exec x.1 s) := by
  have hF := srcF_operand (s := s) src
  simp only [List.forall_mem_cons]
  unfold exec
  exact ⟨hF.putF fun _ => flagMask_float rfl, hF.putF fun _ => flagMask_float rfl, hF.putF fun _ => flagMask_float rfl,
    hF.putF fun _ => flagMask_float rfl, hF.putF fun _ => flagMask_float rfl, hF.putF fun _ => flagMask_float rfl,
    hF.putF fun _ => flagMask_overflow rfl rfl, hF.putF fun _ => flagMask_underflow rfl rfl, loadF_framed hF,
    execLdfcond_framed c src dst, hF.wrF, (srcMan_operand src).wrF, List.forall_mem_nil _⟩

theorem byteHalf_framed (src : RSrc) (dst : Reg) (b : Fin 4) (h : Fin 2) :
    ∀ i ∈ [Instr.lb b src dst, .lbu b src dst, .lwl b src dst, .lwr b src dst, .mb b src dst, .lh h src dst,
      .lhu h src dst, .mh h src dst],
    Framed s (dst :: movesOf src.mems) (if s.flagsOn dst then 0x1E else 0) (addrsOf s src.mems) [] (exec i s) := by
  have hR := srcR_operand (s := s) src
  simp only [List.forall_mem_cons]
  unfold exec
  exact ⟨loadI_framed hR, loadI_framed hR, loadI_framed hR, loadI_framed hR, loadI_framed hR, loadI_framed hR,
    loadI_framed hR, loadI_framed hR, List.forall_mem_nil _⟩

theorem estimate_framed (src : FRSrc) (dst : Fin 12) :
    ∀ x ∈ [(Instr.rcpf src dst, 0x3E#16), (.rsqrf src dst, 0x7F#16), (.toieee src dst, 0x3E#16)],
    Framed s (.r dst :: movesOf src.mems) x.2 (addrsOf s src.mems) [] (exec x.1 s) := by
  have hFR := srcFR_operand (s := s) src
  simp only [List.forall_mem_cons]
  unfold exec
  exact ⟨hFR.putF fun _ => flagMask_overflow rfl rfl, execRsqrf_framed src dst,
    hFR.putF fun _ => flagMask_overflow rfl rfl, List.forall_mem_nil _⟩

theorem integer3_framed (ops : Ops3) (dst : Reg) :
    ∀ x ∈ [(Instr.addi3 ops dst, 0x3F#16), (.addc3 ops dst, 0x3F#16), (.subi3 ops dst, 0x3F#16),
      (.subb3 ops dst, 0x3F#16), (.ash3 ops dst, 0x3F#16), (.mpyi3 ops dst, 0x3E#16), (.lsh3 ops dst, 0x1F#16),
      (.mpyshi3 ops dst, 0x1E#16), (.mpyuhi3 ops dst, 0x1E#16), (.and3 ops dst, 0x1E#16),
      (.andn3 ops dst, 0x1E#16), (.or3 ops dst, 0x1E#16), (.xor3 ops dst, 0x1E#16)],
    Framed s (dst :: movesOf ops.mems) (if s.flagsOn dst then x.2 else 0) (addrsOf s ops.mems) [] (exec x.1 s) := by
  have h3 := src3_operand (s := s) ops
  simp only [List.forall_mem_cons]
  unfold exec
  exact ⟨h3.putI fun _ => flagMask_carry rfl, h3.putI fun _ => flagMask_carry rfl, h3.putI fun _ => flagMask_carry rfl,
    h3.putI fun _ => flagMask_carry rfl, h3.putI fun _ => flagMask_carry (aluAsh_uf _ _),
    h3.putI fun _ => flagMask_overflow rfl rfl, h3.putI fun _ => flagMask_shift (aluLsh_v_uf _ _).1 (aluLsh_v_uf _ _).2,
    h3.putI fun _ => flagMask_plain rfl rfl rfl, h3.putI fun _ => flagMask_plain rfl rfl rfl,
    h3.putI fun _ => flagMask_plain rfl rfl rfl, h3.putI fun _ => flagMask_plain rfl rfl rfl,
    h3.putI fun _ => flagMask_plain rfl rfl rfl, h3.putI fun _ => flagMask_plain rfl rfl rfl, List.forall_mem_nil _⟩

theorem float3_framed (ops : FOps3) (dst : Fin 12) :
    ∀ i ∈ [Instr.addf3 ops dst, .subf3 ops dst, .mpyf3 ops dst],
    Framed s (.r dst :: movesOf ops.mems) 0x7E (addrsOf s ops.mems) [] (exec i s) := by
  have h3 := src3F_operand (s := s) ops
  simp only [List.forall_mem_cons]
  unfold exec
  exact ⟨h3.putF fun _ => flagMask_float rfl, h3.putF fun _ => flagMask_float rfl, h3.putF fun _ => flagMask_float rfl,
    List.forall_mem_nil _⟩

/-- The rotates and the loads of a value at hand. -/
theorem registerOnly_framed (dst : Reg) (x : XReg) (k : BitVec 16) :
    ∀ y ∈ [(Instr.rol dst, 0x1F#16), (.rolc dst, 0x1F#16), (.ror dst, 0x1F#16), (.rorc dst, 0x1F#16),
      (.ldhi k dst, 0), (.ldep x dst, 0)],
    Framed s [dst] (if s.flagsOn dst then y.2 else 0) [] [] (exec y.1 s) := by
  simp only [List.forall_mem_cons]
  unfold exec
  exact ⟨opSelf_framed fun _ => flagMask_shift rfl rfl, opSelf_framed fun _ => flagMask_shift rfl rfl,
    opSelf_framed fun _ => flagMask_shift rfl rfl, opSelf_framed fun _ => flagMask_shift rfl rfl, moveI_framed,
    moveI_framed, List.forall_mem_nil _⟩

theorem execLdpk_framed (k : BitVec 16) : Framed s [.dp] 0 [] [] (execLdpk k s) :=
  sequential_framed (fun t h => by cases h; exact ⟨s.keeps_wrI .dp _ _ _ _, s.quiet_wrI .dp _⟩) fun l h _ => by cases h

theorem twoLoads_framed (m n : Fin 8) (i j : Ind) :
    ∀ x ∈ [Instr.ldfLdf m n i j, .ldiLdi m n i j],
    Framed s (.r (low m) :: .r (low n) :: i.moves ++ j.moves) 0 [s.memAddr (.ind i), s.memAddr (.ind j)] []
      (exec x s) := by
  have hboth (t : State) (x y : Ext) : t.Keeps ((t.wrF (low n) x).wrF (low m) y) [.r (low m), .r (low n)] 0 [] [] ∧
      t.Quiet ((t.wrF (low n) x).wrF (low m) y) :=
    ⟨((t.keeps_wrF (low n) x 0 [] []).trans ((t.wrF (low n) x).keeps_wrF (low m) y 0 [] [])).mono (by simp) (by simp)
      (by simp) (by simp), (t.quiet_wrF _ x).trans ((t.wrF (low n) x).quiet_wrF _ y)⟩
  simp only [List.forall_mem_cons]
  unfold exec
  exact ⟨loadBoth_framed fun _ _ t => hboth t _ _, loadBoth_framed fun _ _ t => hboth t _ _, List.forall_mem_nil _⟩

theorem multiplyPair_framed (m n : Fin 8) (k : Fin 4) (d1 d2 : Fin 2) (i j : Ind) :
    ∀ x ∈ [Instr.mpyf3Addf3 k d1 d2 m n i j, .mpyf3Subf3 k d1 d2 m n i j, .mpyi3Addi3 k d1 d2 m n i j,
      .mpyi3Subi3 k d1 d2 m n i j],
    Framed s (.r (productReg d1) :: .r (sumReg d2) :: i.moves ++ j.moves) 0x7E
      [s.memAddr (.ind i), s.memAddr (.ind j)] [] (exec x s) := by
  simp only [List.forall_mem_cons]
  unfold exec
  exact ⟨pairF_framed, pairF_framed, pairI_framed, pairI_framed, List.forall_mem_nil _⟩

theorem compare_framed (src : Src) (dst : Reg) :
    ∀ x ∈ [(Instr.cmpi src dst, 0x3F#16), (.tstb src dst, 0x1E#16)],
    Framed s (movesOf src.mems) x.2 (addrsOf s src.mems) [] (exec x.1 s) := by
  simp only [List.forall_mem_cons]
  unfold exec
  exact ⟨(srcI_operand src).setFlags fun _ => flagMask_carry rfl,
    (srcU_operand src).setFlags fun _ => flagMask_plain rfl rfl rfl, List.forall_mem_nil _⟩

theorem compare3_framed (ops : Ops3) :
    ∀ x ∈ [(Instr.cmpi3 ops, 0x3F#16), (.tstb3 ops, 0x1E#16)],
    Framed s (movesOf ops.mems) x.2 (addrsOf s ops.mems) [] (exec x.1 s) := by
  simp only [List.forall_mem_cons]
  unfold exec
  exact ⟨(src3_operand ops).setFlags fun _ => flagMask_carry rfl,
    (src3_operand ops).setFlags fun _ => flagMask_plain rfl rfl rfl, List.forall_mem_nil _⟩

theorem execCmpf_framed (src : FSrc) (dst : Fin 12) :
    Framed s (movesOf src.mems) 0x7E (addrsOf s src.mems) [] (execCmpf src dst s) :=
  (srcF_operand src).setFlags fun _ => flagMask_float rfl

theorem execCmpf3_framed (ops : FOps3) :
    Framed s (movesOf ops.mems) 0x7E (addrsOf s ops.mems) [] (execCmpf3 ops s) :=
  (src3F_operand ops).setFlags fun _ => flagMask_float rfl

theorem execFix_framed (src : FSrc) (d : Reg) :
    Framed s (d :: movesOf src.mems) (if s.flagsOn d then 0x3E else 0) (addrsOf s src.mems) [] (execFix src d s) :=
  (srcF_operand src).putI fun _ => flagMask_overflow rfl rfl

theorem execFloat_framed (src : Src) (d : Fin 12) :
    Framed s (.r d :: movesOf src.mems) 0x1E (addrsOf s src.mems) [] (execFloat src d s) :=
  (srcI_operand src).putF fun _ => flagMask_plain rfl rfl rfl

theorem execFrieee_framed (src : Mem) (d : Fin 12) :
    Framed s (.r d :: src.moves) 0x3E [s.memAddr src] [] (execFrieee src d s) :=
  (srcMem_operand src).putF fun _ => flagMask_overflow rfl rfl

theorem execPop_framed (d : Reg) :
    Framed s [d, .sp] (if s.flagsOn d then 0x1E else 0) [s.sp] [] (execPop d s) := loadI_framed pop_operand

theorem execPopf_framed (d : Fin 12) : Framed s [.r d, .sp] 0x1E [s.sp] [] (execPopf d s) :=
  loadF_framed pop_operand.asFloat

/-- Settles O50, family by family. -/
theorem frameComputing : Obligations.FrameComputing := fun s u =>
  ⟨fun src dst c b => ⟨fun x hx => integer_framed s src dst c x hx u, fun x hx => compare_framed s src dst x hx u,
      execFloat_framed s src b u⟩,
    fun src dst d c => ⟨fun x hx => float_framed s src dst c x hx u, execCmpf_framed s src dst u,
      execFix_framed s src d u⟩,
    fun src dst b h i hi => byteHalf_framed s src dst b h i hi u,
    fun src dst x hx => estimate_framed s src dst x hx u,
    fun src dst => execFrieee_framed s src dst u,
    fun ops dst => ⟨fun x hx => integer3_framed s ops dst x hx u, fun x hx => compare3_framed s ops x hx u⟩,
    fun ops dst => ⟨fun i hi => float3_framed s ops dst i hi u, execCmpf3_framed s ops u⟩,
    fun dst n x k => ⟨fun y hy => registerOnly_framed s dst x k y hy u, execLdpk_framed s k u, execPop_framed s dst u,
      execPopf_framed s n u⟩,
    fun m n k d1 d2 i j => ⟨fun x hx => twoLoads_framed s m n i j x hx u,
      fun x hx => multiplyPair_framed s m n k d1 d2 i j x hx u⟩⟩

end Sys2Proof.Machine

/-! The frames of the instructions that store (R27, R326 to R328, R554, R555, R561, R581): one rule for a store after
the addressing modes were carried out, and one for each shared form of a meaning. -/

namespace Sys2Proof.Machine

section

variable {s t u : State} {m : List Reg} {a w : List Word} {fl : BitVec 16}

/-! ## A store after the operands were read -/

theorem ReadBy.store {x v : Word} (h : ReadBy s t m a) (hs : Machine.store x v t = .ok () u) :
    s.Keeps u m 0 a [x] ∧ s.Quiet u :=
  have hk := store_keeps hs [] 0 []
  ⟨((h.keeps 0 []).trans hk.1).mono (by simp) (by simp) (by simp) (by simp), h.quiet.trans hk.2⟩

theorem ReadBy.store_latch {x v : Word} {l : Option Latch} (h : ReadBy s t m a)
    (hs : Machine.store x v t = .stall l) (hx : x ∈ w) (hw : s.offPeriph w) : l = none :=
  Machine.store_latch hs (by rw [h.romen]; exact hw x hx)

theorem State.keeps_withPins (s : State) (p : Pins) (f : BitVec 16) (r : List Reg) (a w : List Word)
    (h : p.nmi = s.pins.nmi ∧ p.iiof = s.pins.iiof ∧ p.tclk = s.pins.tclk ∧ p.globalBus = s.pins.globalBus ∧
      p.localBus = s.pins.localBus) : s.Keeps { s with pins := p } r f a w :=
  { State.Keeps.refl s r f a w with
    reg := fun d _ hiif _ => by
      cases d with
      | iif => exact absurd rfl hiif
      | _ => rfl
    inputs := ⟨h.1, h.2.1, h.2.2.1, h.2.2.2.1, h.2.2.2.2, rfl, rfl, rfl, rfl⟩ }

theorem State.keeps_driveLock (s : State) (x : Word) (b : Bool) (f : BitVec 16) (r : List Reg) (a w : List Word) :
    s.Keeps (s.driveLock x b) r f a w := by
  unfold State.driveLock
  split
  · exact s.keeps_withPins _ f r a w ⟨rfl, rfl, rfl, rfl, rfl⟩
  · exact s.keeps_withPins _ f r a w ⟨rfl, rfl, rfl, rfl, rfl⟩
  · exact .refl _ _ _ _ _

theorem State.driveLock_pins_iack (s : State) (x : Word) (b : Bool) :
    (s.driveLock x b).pins.iack = s.pins.iack := by
  unfold State.driveLock
  split <;> rfl

/-! ## The shared forms of the meanings -/

/-- A store at the address of an operand (R326 to R328). -/
theorem storeTo_framed (dst : Mem) (v : Word) : Framed s dst.moves 0 [] [s.memAddr dst] (storeTo s dst v) := by
  refine sequential_framed (fun u h => ?_) fun l h hw => ?_
  · obtain ⟨x, t, hx, h⟩ := Res.bind_eq_ok h
    obtain ⟨rfl, hread⟩ := memEval_readBy hx
    exact hread.store h
  · rcases Res.bind_eq_stall h with h | ⟨x, t, hx, h⟩
    · exact memEval_waits dst s l h
    · obtain ⟨rfl, hread⟩ := memEval_readBy hx
      exact hread.store_latch h (List.mem_singleton_self _) hw

/-- The word above the top of the stack, and SP (R324, R325). -/
theorem pushValue_framed (v : Word) : Framed s [.sp] 0 [] [s.sp + 1] (sequential s (pushValue v s)) := by
  refine sequential_framed (fun u h => ?_) fun l h hw => ?_
  · have hsp := s.keeps_wrI .sp (s.sp + 1) 0 [] []
    have hk := store_keeps h [] 0 []
    exact ⟨(hsp.trans hk.1).mono (by simp) (by simp) (by simp) (by simp), (s.quiet_wrI .sp _).trans hk.2⟩
  · exact store_latch h (hw _ (List.mem_singleton_self _))

/-- What an interlocked store leaves beside the frame: a lock pin is not in it (R554, R555). -/
def KeepsFlow (s u : State) : Prop :=
  u.delay = s.delay ∧ u.sFlag = s.sFlag ∧ u.idle = s.idle ∧ u.pins.iack = s.pins.iack

theorem KeepsFlow.of_quiet (h : s.Quiet u) : KeepsFlow s u := ⟨h.delay, h.sFlag, h.idle, h.iack⟩

theorem KeepsFlow.lockHigh (h : KeepsFlow s u) (x : Word) : KeepsFlow s (u.exe fun u => u.lockHigh x) := by
  unfold State.exe
  split
  · exact h
  · obtain ⟨hdelay, hflag, hidle, hiack⟩ := h
    exact ⟨by simpa using hdelay, by simpa using hflag, by simpa using hidle,
      (u.driveLock_pins_iack x true).trans hiack⟩

theorem State.Keeps.lockHigh {r : List Reg} (h : s.Keeps u r fl a w) (x : Word) :
    s.Keeps (u.exe fun u => u.lockHigh x) r fl a w := by
  unfold State.exe
  split
  · exact h
  · exact (h.trans (u.keeps_driveLock x true fl [] [] [])).mono (by simp) (by simp) (by simp) (by simp)

/-- A store that releases the lock (R554, R555). -/
theorem unlockStore_frame {dst : Mem} {v : Word} (h : unlockStore s dst v = .next u) :
    s.Keeps u dst.moves 0 [] [s.memAddr dst] ∧ KeepsFlow s u := by
  have hdone : ∀ z, ((memEval dst s).bind fun x t => (store x v t).bind fun _ y =>
      .ok () (y.exe fun y => y.lockHigh x)) = .ok () z →
      s.Keeps z dst.moves 0 [] [s.memAddr dst] ∧ KeepsFlow s z := fun z hz => by
    obtain ⟨x, t, hx, hz⟩ := Res.bind_eq_ok hz
    obtain ⟨_, y, hy, hz⟩ := Res.bind_eq_ok hz
    cases hz
    obtain ⟨rfl, hread⟩ := memEval_readBy hx
    obtain ⟨hk, hq⟩ := hread.store hy
    exact ⟨hk.lockHigh _, (KeepsFlow.of_quiet hq).lockHigh _⟩
  refine ⟨sequential_keeps h (fun z hz => (hdone z hz).1) fun l hl hw => ?_, ?_⟩
  · rcases Res.bind_eq_stall hl with hl | ⟨x, t, hx, hl⟩
    · exact memEval_waits dst s l hl
    · obtain ⟨rfl, hread⟩ := memEval_readBy hx
      rcases Res.bind_eq_stall hl with hl | ⟨_, y, -, hl⟩
      · exact hread.store_latch hl (List.mem_singleton_self _) hw
      · cases hl
  · rcases sequential_next h with ⟨z, hz, rfl⟩ | ⟨l, -, rfl⟩
    · obtain ⟨hdelay, hflag, hidle, hiack⟩ := (hdone z hz).2
      exact ⟨hdelay, hflag, hidle, hiack⟩
    · exact ⟨rfl, rfl, rfl, rfl⟩

/-- An operation on a word read, with a store in parallel (R561). -/
theorem withStore_framed {dst2 src2 : Ind} {v : Word} {f : Word → State → State} {r : List Reg}
    (hf : ∀ (y : Word) (t : State), t.Keeps (f y t) r fl [] [] ∧ t.Quiet (f y t)) :
    Framed s (r ++ (dst2.moves ++ src2.moves)) fl [s.memAddr (.ind src2)] [s.memAddr (.ind dst2)]
      (withStore s dst2 src2 v f) := by
  refine sequential_framed (fun z h => ?_) fun l h hw => ?_
  · obtain ⟨p, t, hp, h⟩ := Res.bind_eq_ok h
    obtain ⟨y, u, hy, h⟩ := Res.bind_eq_ok h
    obtain ⟨_, x, hx, h⟩ := Res.bind_eq_ok h
    cases h
    obtain ⟨rfl, -⟩ := indEval2_ok hp
    obtain ⟨hk, hq⟩ := ((indEval2_readBy hp).trans (dataRead_readBy hy)).store hx
    obtain ⟨hk', hq'⟩ := exe_frame (hf y x)
    exact ⟨(State.Keeps.trans (f := fl) (hk.mono (fun _ h => h) (by simp) (fun _ h => h) fun _ h => h) hk').mono
      (by simp) (by simp) (by simp [State.memAddr]) (by simp [State.memAddr]), hq.trans hq'⟩
  · rcases Res.bind_eq_stall h with h | ⟨p, t, hp, h⟩
    · exact indEval2_waits dst2 src2 s l h
    · rcases Res.bind_eq_stall h with h | ⟨y, u, hy, h⟩
      · exact dataRead_waits _ _ l h
      · obtain ⟨rfl, -⟩ := indEval2_ok hp
        rcases Res.bind_eq_stall h with h | ⟨_, x, -, h⟩
        · exact ((indEval2_readBy hp).trans (dataRead_readBy hy)).store_latch h (List.mem_singleton_self _) hw
        · cases h

theorem opSti_framed {d1 r3 : Fin 8} {d2 s2 : Ind} {f : Word → IRes} (hf : ∀ y, flagMask (f y).f ||| fl = fl) :
    Framed s (.r (low d1) :: d2.moves ++ s2.moves) fl [s.memAddr (.ind s2)] [s.memAddr (.ind d2)]
      (opSti s d1 r3 d2 s2 f) :=
  withStore_framed (r := [.r (low d1)]) fun y t => putI_frame (s := t) rfl (hf y)

theorem opStf_framed {d1 r3 : Fin 8} {d2 s2 : Ind} {f : Word → EFRes} (hf : ∀ y, flagMask (f y).f ||| fl = fl) :
    Framed s (.r (low d1) :: d2.moves ++ s2.moves) fl [s.memAddr (.ind s2)] [s.memAddr (.ind d2)]
      (opStf s d1 r3 d2 s2 f) :=
  withStore_framed (r := [.r (low d1)]) fun y _ => putF_frame (hf y)

theorem execLdiSti_framed (d1 r3 : Fin 8) (d2 s2 : Ind) :
    Framed s (.r (low d1) :: d2.moves ++ s2.moves) fl [s.memAddr (.ind s2)] [s.memAddr (.ind d2)]
      (execLdiSti d1 r3 d2 s2 s) :=
  withStore_framed (r := [.r (low d1)]) fun y t => ⟨t.keeps_wrI _ y _ _ _, t.quiet_wrI _ y⟩

theorem execLdfStf_framed (d1 r3 : Fin 8) (d2 s2 : Ind) :
    Framed s (.r (low d1) :: d2.moves ++ s2.moves) fl [s.memAddr (.ind s2)] [s.memAddr (.ind d2)]
      (execLdfStf d1 r3 d2 s2 s) :=
  withStore_framed (r := [.r (low d1)]) fun _ t => ⟨t.keeps_wrF _ _ _ _ _, t.quiet_wrF _ _⟩

/-- Two stores, which may be at one address (R581). -/
theorem storeBoth_framed {d2 s2 : Ind} {v v' : Word} :
    Framed s (d2.moves ++ s2.moves) 0 [] [s.memAddr (.ind d2), s.memAddr (.ind s2)] (storeBoth s d2 s2 v v') := by
  refine sequential_framed (fun z h => ?_) fun l h hw => ?_
  · obtain ⟨p, t, hp, h⟩ := Res.bind_eq_ok h
    obtain ⟨rfl, -⟩ := indEval2_ok hp
    have hread := indEval2_readBy hp
    split at h
    · have hk := storeOpen_keeps h [] 0 []
      exact ⟨((hread.keeps 0 []).trans hk.1).mono (by simp) (by simp) (by simp) (by simp [State.memAddr]),
        hread.quiet.trans hk.2⟩
    · obtain ⟨_, u, hu, h⟩ := Res.bind_eq_ok h
      have hk := hread.store hu
      have hk' := store_keeps h [] 0 []
      exact ⟨(hk.1.trans hk'.1).mono (by simp) (by simp) (by simp) (by simp [State.memAddr]), hk.2.trans hk'.2⟩
  · rcases Res.bind_eq_stall h with h | ⟨p, t, hp, h⟩
    · exact indEval2_waits d2 s2 s l h
    · obtain ⟨rfl, -⟩ := indEval2_ok hp
      have hread := indEval2_readBy hp
      have hfst : region t.romen (indAddr d2 s) ≠ .periph := by
        rw [hread.romen]; exact hw _ (by simp [State.memAddr])
      split at h
      · exact storeOpen_latch h hfst
      · rcases Res.bind_eq_stall h with h | ⟨_, u, hu, h⟩
        · exact store_latch h hfst
        · obtain ⟨-, -, -, -, -, hromen, -⟩ := (hread.store hu).1.inputs
          exact store_latch h (by rw [hromen]; exact hw _ (by simp [State.memAddr]))

end

/-! ## The families of FrameStoring -/

variable (s : State)

/-- The plain stores with either form of the operand. -/
theorem plainStore_framed (dst : Mem) (src : Reg) (n : Fin 12) (k : BitVec 5) :
    ∀ i ∈ [Instr.stf n dst, (match dst with | .dir d => .stiDir src d | .ind i => .stiInd src i),
      (match dst with | .dir d => .stikDir k d | .ind i => .stikInd k i)],
    Framed s dst.moves 0 [] [s.memAddr dst] (exec i s) := by
  cases dst <;> simp only [List.forall_mem_cons] <;> unfold exec
  · exact ⟨storeTo_framed _ _, storeTo_framed _ _, storeTo_framed _ _, List.forall_mem_nil _⟩
  · exact ⟨storeTo_framed _ _, storeTo_framed _ _, storeTo_framed _ _, List.forall_mem_nil _⟩

theorem lockedStore_frame (dst : Mem) (src : Reg) (n : Fin 12) (u : State) :
    ∀ i ∈ [Instr.stfi n dst, .stii src dst], exec i s = .next u →
      s.Keeps u dst.moves 0 [] [s.memAddr dst] ∧ KeepsFlow s u := by
  simp only [List.forall_mem_cons]
  unfold exec
  exact ⟨fun h => unlockStore_frame h, fun h => unlockStore_frame h, List.forall_mem_nil _⟩

theorem push_framed (src : Reg) (n : Fin 12) :
    ∀ i ∈ [Instr.push src, .pushf n], Framed s [.sp] 0 [] [s.sp + 1] (exec i s) := by
  simp only [List.forall_mem_cons]
  unfold exec
  exact ⟨pushValue_framed _, pushValue_framed _, List.forall_mem_nil _⟩

theorem operationStore_framed (d1 r3 r1 : Fin 8) (d2 s2 : Ind) :
    ∀ x ∈ [(Instr.addi3Sti d1 r1 r3 d2 s2, 0x3F#16), (.subi3Sti d1 r1 r3 d2 s2, 0x3F#16),
      (.negiSti d1 r3 d2 s2, 0x3F#16), (.ash3Sti d1 r1 r3 d2 s2, 0x3F#16), (.lsh3Sti d1 r1 r3 d2 s2, 0x1F#16),
      (.absiSti d1 r3 d2 s2, 0x3E#16), (.fixSti d1 r3 d2 s2, 0x3E#16), (.mpyi3Sti d1 r1 r3 d2 s2, 0x3E#16),
      (.and3Sti d1 r1 r3 d2 s2, 0x1E#16), (.or3Sti d1 r1 r3 d2 s2, 0x1E#16), (.xor3Sti d1 r1 r3 d2 s2, 0x1E#16),
      (.notSti d1 r3 d2 s2, 0x1E#16), (.ldiSti d1 r3 d2 s2, 0), (.ldfStf d1 r3 d2 s2, 0),
      (.absfStf d1 r3 d2 s2, 0x3E#16), (.floatStf d1 r3 d2 s2, 0x1E#16), (.negfStf d1 r3 d2 s2, 0x7E#16),
      (.toieeeStf d1 r3 d2 s2, 0x3E#16), (.frieeeStf d1 r3 d2 s2, 0x3E#16), (.addf3Stf d1 r1 r3 d2 s2, 0x7E#16),
      (.subf3Stf d1 r1 r3 d2 s2, 0x7E#16), (.mpyf3Stf d1 r1 r3 d2 s2, 0x7E#16)],
    Framed s (.r (low d1) :: d2.moves ++ s2.moves) x.2 [s.memAddr (.ind s2)] [s.memAddr (.ind d2)] (exec x.1 s) := by
  simp only [List.forall_mem_cons]
  unfold exec
  exact ⟨opSti_framed fun _ => flagMask_carry rfl, opSti_framed fun _ => flagMask_carry rfl,
    opSti_framed fun _ => flagMask_carry rfl, opSti_framed fun _ => flagMask_carry (aluAsh_uf _ _),
    opSti_framed fun _ => flagMask_shift (aluLsh_v_uf _ _).1 (aluLsh_v_uf _ _).2,
    opSti_framed fun _ => flagMask_overflow rfl rfl, opSti_framed fun _ => flagMask_overflow rfl rfl,
    opSti_framed fun _ => flagMask_overflow rfl rfl, opSti_framed fun _ => flagMask_plain rfl rfl rfl,
    opSti_framed fun _ => flagMask_plain rfl rfl rfl, opSti_framed fun _ => flagMask_plain rfl rfl rfl,
    opSti_framed fun _ => flagMask_plain rfl rfl rfl, execLdiSti_framed d1 r3 d2 s2, execLdfStf_framed d1 r3 d2 s2,
    opStf_framed fun _ => flagMask_overflow rfl rfl, opStf_framed fun _ => flagMask_plain rfl rfl rfl,
    opStf_framed fun _ => flagMask_float rfl, opStf_framed fun _ => flagMask_overflow rfl rfl,
    opStf_framed fun _ => flagMask_overflow rfl rfl, opStf_framed fun _ => flagMask_float rfl,
    opStf_framed fun _ => flagMask_float rfl, opStf_framed fun _ => flagMask_float rfl, List.forall_mem_nil _⟩

theorem twoStores_framed (r3 r1 : Fin 8) (d2 s2 : Ind) :
    ∀ x ∈ [Instr.stfStf r3 r1 d2 s2, .stiSti r3 r1 d2 s2],
    Framed s (d2.moves ++ s2.moves) 0 [] [s.memAddr (.ind d2), s.memAddr (.ind s2)] (exec x s) := by
  simp only [List.forall_mem_cons]
  unfold exec
  exact ⟨storeBoth_framed, storeBoth_framed, List.forall_mem_nil _⟩

/-- Settles O51, family by family. -/
theorem frameStoring : Obligations.FrameStoring := fun s u =>
  ⟨fun dst src n k => ⟨fun i hi => plainStore_framed s dst src n k i hi u,
      fun i hi h => lockedStore_frame s dst src n u i hi h, fun i hi => push_framed s src n i hi u⟩,
    fun d1 r3 r1 d2 s2 => ⟨fun x hx => operationStore_framed s d1 r3 r1 d2 s2 x hx u,
      fun x hx => twoStores_framed s r3 r1 d2 s2 x hx u⟩⟩

end Sys2Proof.Machine

/-! A return undoes an entry (R27, R501, R520, R522, R527): calls, traps and returns whose stack word and vector are in
the on-chip RAM. -/

namespace Sys2Proof.Machine

/-- An address in one of the on-chip RAM blocks (R101). -/
def State.inRam (s : State) (a : Word) : Prop := region s.romen a = .ram0 ∨ region s.romen a = .ram1

/-- A call or a trap of `s` has gone to `target` and left the next address on the stack. -/
structure Entered (s t : State) (target : Word) : Prop where
  pc : t.pc = target
  sp : t.sp = s.sp + 1
  top : Memory.word t.mem (s.sp + 1) = s.pc + 1
  romen : t.romen = s.romen
  r : t.r = s.r
  ar : t.ar = s.ar

/-- A return has gone to the address on top of the stack of `t` and taken it off. -/
structure Returned (t u : State) : Prop where
  pc : u.pc = Memory.word t.mem t.sp
  sp : u.sp = t.sp - 1
  r : u.r = t.r
  ar : u.ar = t.ar

section

variable {s t u : State} {v : Word}

/-! ## The stack in RAM -/

theorem push_ram (h : s.inRam (s.sp + 1)) :
    push v s = .ok () { s with sp := s.sp + 1, mem := Memory.setWord s.mem (s.sp + 1) v } :=
  memWrite_ram (s := { s with sp := s.sp + 1 }) h

theorem pop_ram (h : s.inRam s.sp) : pop s = .ok (Memory.word s.mem s.sp) { s with sp := s.sp - 1 } :=
  pop_ok (memRead_ram h)

theorem Memory.word_setWord_same {m : Memory} (h : Memory.wf m = true) (a v : Word) :
    Memory.word (Memory.setWord m a v) a = v := by
  rw [Memory.word_setWord m a a v h, if_pos rfl]

/-! ## Calls, traps and returns in RAM -/

theorem cond_always (s : State) : s.cond .u = true := rfl

theorem call_ram (hwf : Memory.wf s.mem = true) (h : s.inRam (s.sp + 1)) (disp : BitVec 24) :
    ∃ t, exec (.call disp) s = .next t ∧ Entered s t (s.pc + 1 + disp.signExtend 32) ∧ t.st = s.st := by
  change ∃ t, execCall disp s = .next t ∧ _
  rw [execCall, callTo, push_ram h, Res.bind_ok]
  exact ⟨_, rfl, ⟨rfl, rfl, Memory.word_setWord_same hwf _ _, rfl, rfl, rfl⟩, rfl⟩

theorem trap_ram {n : BitVec 9} (hwf : Memory.wf s.mem = true) (h : s.inRam (s.sp + 1))
    (hv : s.inRam (s.tvtp + n.setWidth 32)) (hne : s.tvtp + n.setWidth 32 ≠ s.sp + 1)
    (hword : Memory.word s.mem (s.tvtp + n.setWidth 32) = v) :
    ∃ t, exec (.trapcond .u n) s = .next t ∧ Entered s t v ∧ t.st = enteredStatus s.st := by
  change ∃ t, execTrapcond .u n s = .next t ∧ _
  have hstack : State.inRam { s with st := enteredStatus s.st } (s.sp + 1) := h
  have hvector (w : State) (hw : w.romen = s.romen) :
      dataRead (s.tvtp + n.setWidth 32) w = .ok (Memory.word w.mem (s.tvtp + n.setWidth 32)) w :=
    memRead_ram (by rw [hw]; exact hv)
  rw [execTrapcond, if_pos (cond_always s), enterException, saveStatus_eq, push_ram hstack, Res.bind_ok,
    hvector, Res.bind_ok, Memory.word_setWord_other _ _ _ _ hne, hword]
  · exact ⟨_, rfl, ⟨rfl, rfl, Memory.word_setWord_same hwf _ _, rfl, rfl, rfl⟩, rfl⟩
  · rfl

theorem rets_ram (h : t.inRam t.sp) : ∃ u, exec (.retscond .u) t = .next u ∧ Returned t u ∧ u.st = t.st := by
  change ∃ u, execRetscond .u t = .next u ∧ _
  rw [execRetscond, if_pos (cond_always t), pop_ram h, Res.bind_ok]
  exact ⟨_, rfl, ⟨rfl, rfl, rfl, rfl⟩, rfl⟩

theorem reti_ram (h : t.inRam t.sp) :
    ∃ u, exec (.reticond .u) t = .next u ∧ Returned t u ∧ u.st = returnedStatus t.st := by
  change ∃ u, execReticond .u t = .next u ∧ _
  rw [execReticond, if_pos (cond_always t), leaveException, pop_ram h, Res.bind_ok, Res.bind_ok, restoreStatus_eq]
  exact ⟨_, rfl, ⟨rfl, rfl, rfl, rfl⟩, rfl⟩

/-! ## An entry, then its return -/

/-- The word that the return pops is where the entry pushed it. -/
theorem Entered.inRam (ht : Entered s t v) (h : s.inRam (s.sp + 1)) : t.inRam t.sp := by
  rw [State.inRam, ht.sp, ht.romen]
  exact h

theorem Entered.returned (ht : Entered s t v) (hu : Returned t u) :
    u.pc = s.pc + 1 ∧ u.sp = s.sp ∧ u.r = s.r ∧ u.ar = s.ar := by
  refine ⟨?_, ?_, hu.r.trans ht.r, hu.ar.trans ht.ar⟩
  · rw [hu.pc, ht.sp, ht.top]
  · rw [hu.sp, ht.sp, BitVec.add_sub_cancel]

/-- GIE and CF come back from PGIE and PCF, which alone keep what the entry wrote (R520, R527). -/
theorem returnedStatus_enteredStatus_getLsbD (x : BitVec 16) {i : Nat} (h9 : i ≠ 9) (h14 : i ≠ 14) :
    (returnedStatus (enteredStatus x)).getLsbD i = x.getLsbD i := by
  simp only [returnedStatus_getLsbD, enteredStatus_getLsbD]
  by_cases h10 : i = 10
  · simp [h10]
  · by_cases h13 : i = 13 <;> simp [h9, h10, h13, h14]

end

/-- Settles O54: a call or a trap has pushed the next address, and the return pops it. -/
theorem returnsUndoEntries : Obligations.ReturnsUndoEntries := by
  intro s disp n hwf hstack
  refine ⟨?_, fun v hvector hne hword => ?_⟩
  · obtain ⟨t, hcall, ht, hst⟩ := call_ram hwf hstack disp
    obtain ⟨u, hrets, hu, hst'⟩ := rets_ram (ht.inRam hstack)
    obtain ⟨hpc, hsp, hr, har⟩ := ht.returned hu
    exact ⟨t, u, hcall, ht.pc, ht.sp, hrets, hpc, hsp, hst'.trans hst, hr, har⟩
  · obtain ⟨t, htrap, ht, hst⟩ := trap_ram hwf hstack hvector hne hword
    obtain ⟨u, hreti, hu, hst'⟩ := reti_ram (ht.inRam hstack)
    obtain ⟨hpc, hsp, hr, har⟩ := ht.returned hu
    refine ⟨t, u, htrap, ht.pc, ht.sp, ?_, ?_, hreti, hpc, hsp, hr, har, fun i h9 h14 => ?_⟩
    · rw [State.stBit, hst, enteredStatus_getLsbD, if_neg (by decide), if_pos rfl]
    · rw [State.stBit, hst, enteredStatus_getLsbD, if_pos rfl]
    · rw [State.stBit, hst', hst, returnedStatus_enteredStatus_getLsbD s.st h9 h14, State.stBit]

end Sys2Proof.Machine

/-! The DMA signals and latches at a boundary, and a boundary at which no interrupt is taken (R51 to R53, R709, R735,
R800, R801). -/

namespace Sys2Proof.Machine

/-! ## The signals that DIE selects (R51 to R53) -/

theorem signal2_eq_getD (v : BitVec 2) (ready : Signal) (pin : Fin 4) :
    signal2 v ready pin = [Signal.none, ready, .iiof pin, .tim 0].getD v.toNat .none := by
  obtain ⟨x⟩ := v
  fin_cases x <;> rfl

theorem signal3_eq_getD (v : BitVec 3) (ready : Signal) : signal3 v ready =
    [Signal.none, ready, .iiof 0, .iiof 1, .iiof 2, .iiof 3, .tim 0, .tim 1].getD v.toNat .none := by
  obtain ⟨x⟩ := v
  fin_cases x <;> rfl

/-! ## When a signal is on, and the flag that it latches (R800, R801) -/

section

variable (s : State)

theorem icrdy_eq_length (p : Port) : p.icrdy = decide (1 ≤ p.inq.length) := by
  cases h : p.inq <;> simp [Port.icrdy, h]

theorem signalOn_iiof (x : Fin 4) : s.signalOn (.iiof x) = (s.iif.getLsbD (4 * x.val) &&
    (if s.iif.getLsbD (4 * x.val + 1) then !s.pins.iiof[x] else s.iif.getLsbD (4 * x.val + 2))) := by
  change (iifFunc s.iif x && s.iifFlag x) =
    (iifFunc s.iif x && (if iifType s.iif x then !s.pins.iiof[x] else s.iif.getLsbD (4 * x.val + 2)))
  unfold State.iifFlag
  cases iifFunc s.iif x <;> rfl

/-! ## The DMA latches (R735, R800, R801) -/

/-- The channel waits for the signal of its read, which is on. -/
def State.gotRead (c : Fin 6) : Bool := s.dma[c].waitsRead && s.signalOn (readSignal s.die c)

/-- The channel waits for the signal of its write, which is on. -/
def State.gotWrite (c : Fin 6) : Bool := s.dma[c].waitsWrite && s.signalOn (writeSignal s.die c)

/-- The channel consumes bit `j` of IIF. -/
def State.consumes (j : Nat) (c : Fin 6) : Bool :=
  s.gotRead c && decide (s.signalLatch (readSignal s.die c) = some j) ||
    s.gotWrite c && decide (s.signalLatch (writeSignal s.die c) = some j)

/-- The channel with the signals that it latches at the boundary of `s`. -/
def State.latched (c : Fin 6) (d : Dma) : Dma :=
  { d with rl := s.dma[c].rl || s.gotRead c, wl := s.dma[c].wl || s.gotWrite c }

theorem consumes_iff (j : Nat) (c : Fin 6) : s.consumes j c = true ↔
    s.gotRead c = true ∧ s.signalLatch (readSignal s.die c) = some j ∨
      s.gotWrite c = true ∧ s.signalLatch (writeSignal s.die c) = some j := by
  simp [State.consumes]

/-- `latchChannel_eq` by the names above. -/
theorem latchChannel_latched (u : State) (c : Fin 6) :
    ∃ i, latchChannel s u c = { u with iif := i, dma := u.dma.set c (s.latched c u.dma[c]) } ∧
      ∀ j, i.getLsbD j = (u.iif.getLsbD j && !s.consumes j c) := latchChannel_eq s u c

/-- The channels of a list latch their signals, and consume their flags. -/
theorem foldl_latchChannel (l : List (Fin 6)) (u : State) :
    ∃ i, l.foldl (latchChannel s) u = { u with
        iif := i
        dma := Vector.ofFn fun c => if c ∈ l then s.latched c u.dma[c] else u.dma[c] } ∧
      ∀ j, i.getLsbD j = (u.iif.getLsbD j && !l.any (s.consumes j)) := by
  induction l generalizing u with
  | nil => exact ⟨u.iif, by simp, fun j => by simp⟩
  | cons c l ih =>
    obtain ⟨i, hstep, hi⟩ := latchChannel_latched s u c
    obtain ⟨i', hrest, hi'⟩ := ih (latchChannel s u c)
    rw [hstep] at hrest hi'
    refine ⟨i', ?_, fun j => by rw [hi' j, hi j, List.any_cons, Bool.not_or, Bool.and_assoc]⟩
    rw [List.foldl_cons, hstep, hrest]
    congr 1
    refine Vector.ext fun k hk => ?_
    simp only [Vector.getElem_ofFn, Fin.getElem_fin, Vector.getElem_set, List.mem_cons]
    by_cases hc : c.val = k
    · subst hc
      by_cases hl : c ∈ l <;> simp [hl, State.latched]
    · have hne : (⟨k, hk⟩ : Fin 6) ≠ c := fun e => hc (congrArg Fin.val e).symm
      simp [hc, hne]

theorem mem_channels (c : Fin 6) : c ∈ ([0, 1, 2, 3, 4, 5] : List (Fin 6)) := by revert c; decide

/-- What the DMA latches change: the latches of the waiting channels, and the flags of IIF that they consume. -/
theorem latchDma_latched :
    ∃ i, latchDma s = { s with iif := i, dma := Vector.ofFn fun c => s.latched c s.dma[c] } ∧
      ∀ j, i.getLsbD j = (s.iif.getLsbD j && !([0, 1, 2, 3, 4, 5] : List (Fin 6)).any (s.consumes j)) := by
  obtain ⟨i, hfold, hi⟩ := foldl_latchChannel s [0, 1, 2, 3, 4, 5] s
  refine ⟨i, ?_, hi⟩
  rw [latchDma, hfold]
  simp only [mem_channels, if_true]

theorem any_consumes (j : Nat) : ([0, 1, 2, 3, 4, 5] : List (Fin 6)).any (s.consumes j) = true ↔
    ∃ c, s.gotRead c = true ∧ s.signalLatch (readSignal s.die c) = some j ∨
      s.gotWrite c = true ∧ s.signalLatch (writeSignal s.die c) = some j := by
  simp only [List.any_eq_true, mem_channels, true_and, consumes_iff]

/-! ## A boundary at which the CPU goes on -/

theorem applyEvents_cons {s t : State} {e : Event} (es : List Event) (h : applyEvent e s = .ok () t) :
    applyEvents (e :: es) s = applyEvents es t := by
  rw [applyEvents, h, Res.bind_ok]

theorem cpuStart_eq : s.cpuStart = { s with latch := if s.stalled then s.latch else s.latch.release .cpu } := by
  unfold State.cpuStart
  split <;> rfl

/-- With no interrupt, no boot loader and not idle, the CPU executes (R709, R735). -/
theorem atBoundary_executes {s t : State} {b : Boundary} {l : List Boundary} (hscript : s.script = b :: l)
    (hevents : applyEvents b.events { s with script := l, pins := { s.pins with stat := 15, lstat := 15 } } = .ok () t)
    (hirq : t.irqBlocked = true ∨ b.defer = true ∨ t.irqChoice = none) (hboot : t.boot = none)
    (hidle : t.idle = false) :
    atBoundary s = .ok false
      { latchDma t with latch := if t.stalled then t.latch else t.latch.release .cpu } := by
  have hbound : s.boundary = b := by rw [State.boundary, hscript]; rfl
  have hopened : s.opened = { s with script := l, pins := { s.pins with stat := 15, lstat := 15 } } := by
    rw [State.opened, hscript]; rfl
  have hnone : (if t.irqBlocked || b.defer then none else t.irqChoice) = none := by
    rcases hirq with h | h | h <;> simp [h]
  obtain ⟨d, i, hlatch⟩ := latchDma_state t
  rw [atBoundary, hbound, hopened, hevents, Res.bind_ok]
  simp only [hnone]
  rw [hlatch]
  simp only [hboot, hidle, cpuStart_eq, Bool.false_eq_true, if_false]

end

/-- Settles O4, clause by clause. -/
theorem quietBoundary : Obligations.QuietBoundary := by
  refine ⟨fun die => ?_, fun s => ?_, fun s => ?_, fun s => ⟨rfl, fun e es t h => applyEvents_cons es h⟩,
    fun s t b l => atBoundary_executes, fun s l hscript hirq hboot hidle => ?_⟩
  · exact ⟨signal2_eq_getD _ _ _, signal2_eq_getD _ _ _, signal2_eq_getD _ _ _, signal2_eq_getD _ _ _,
      signal3_eq_getD _ _, signal3_eq_getD _ _, signal3_eq_getD _ _, signal3_eq_getD _ _, signal3_eq_getD _ _,
      signal3_eq_getD _ _, signal3_eq_getD _ _, signal3_eq_getD _ _⟩
  · exact ⟨rfl, rfl, fun x => ⟨icrdy_eq_length _, rfl, rfl, rfl⟩, fun x => ⟨signalOn_iiof s x, rfl⟩,
      fun t => ⟨rfl, rfl⟩⟩
  · obtain ⟨i, hlatch, hi⟩ := latchDma_latched s
    refine ⟨i, fun j hj => ?_, fun j hj => ?_, hlatch⟩
    · rw [hi, (any_consumes s j).2 hj, Bool.not_true, Bool.and_false]
    · rw [hi, Bool.eq_false_iff.2 fun h => hj ((any_consumes s j).1 h), Bool.not_false, Bool.and_true]
  · refine atBoundary_executes hscript rfl ?_ hboot hidle
    rcases hirq with h | h
    · exact .inl h
    · exact .inr (.inr h)

end Sys2Proof.Machine

/-! The data accesses by region of the memory map (R101 to R108) and over an external interface (R122, R125, R126). -/

namespace Sys2Proof.Machine

section

variable {s : State} {a : Word}

/-! ## The on-chip RAM, the ROM and the reserved addresses -/

/-- A word written to the on-chip RAM is there to be read (R105). -/
theorem dataRead_dataWrite_ram (hwf : Memory.wf s.mem = true) (hram : s.inRam a) (v : Word) :
    ∃ t, dataWrite a v s = .ok () t ∧ dataRead a t = .ok v t ∧ Memory.wf t.mem = true ∧
      (∀ b, b ≠ a → Memory.word t.mem b = Memory.word s.mem b) ∧ t = { s with mem := t.mem } := by
  refine ⟨{ s with mem := Memory.setWord s.mem a v }, memWrite_ram hram, ?_, Memory.wf_setWord _ _ _ hwf,
    fun b hne => Memory.word_setWord_other _ _ _ _ hne, rfl⟩
  refine (memRead_ram (s := { s with mem := Memory.setWord s.mem a v }) hram).trans ?_
  rw [Memory.word_setWord_same hwf]

theorem memRead_rom (h : region s.romen a = .rom) (k : Access) :
    memRead k a s = .ok (Config.romImage a.toNat) s := by
  rw [memRead, h]

theorem memWrite_rom (h : region s.romen a = .rom) (k : Access) (ag : BusAgent) (v : Word) :
    memWrite k ag a v s = .ok () s := by
  rw [memWrite, h]

theorem memRead_reserved (h : region s.romen a = .reserved) (k : Access) :
    memRead k a s = .stop (.reservedAddress a) := by
  rw [memRead, h, refuse]

theorem memWrite_reserved (h : region s.romen a = .reserved) (k : Access) (ag : BusAgent) (v : Word) :
    memWrite k ag a v s = .stop (.reservedAddress a) := by
  rw [memWrite, h, refuse]

end

/-- Settles O11: the map by its bounds, then each region by the rule of its accesses. -/
theorem dataAccess : Obligations.DataAccess := by
  refine ⟨fun romen a row hrow hlo hhi => ?_, fun s a v hwf => ⟨fun hram => dataRead_dataWrite_ram hwf hram v,
    fun hrom => ⟨memWrite_rom hrom _ _ v, memRead_rom hrom _⟩,
    fun hres => ⟨memRead_reserved hres _, memWrite_reserved hres _ _ v⟩⟩⟩
  -- The bounds of a row decide every comparison of `region`.
  simp only [List.mem_cons, List.not_mem_nil, or_false] at hrow
  rcases hrow with rfl | rfl | rfl | rfl | rfl | rfl | rfl | rfl | rfl <;> grind [region]

/-! ## An external interface -/

section

variable {s : State} {g one : Bool} {a : Word}

/-- With a STRB ACTIVE code that is not reserved, the size that it gives decides the strobe (R122). -/
theorem strobe_of_size (hlo : 15 ≤ ((if g then s.gmicr else s.lmicr).extractLsb' 24 5).toNat)
    (hhi : ((if g then s.gmicr else s.lmicr).extractLsb' 24 5).toNat ≤ 30) :
    strobe g a s =
      (decide (2 ^ (((if g then s.gmicr else s.lmicr).extractLsb' 24 5).toNat + 1) ≤ a.toNat % 2 ^ 31), s) :=
  if_pos ⟨hlo, hhi⟩

@[simp] theorem setStat_mem (g : Bool) (c : BitVec 4) (s : State) : (setStat g c s).mem = s.mem := by
  cases g <;> rfl

@[simp] theorem setStat_free (g : Bool) (c : BitVec 4) (s : State) : (setStat g c s).free = s.free := by
  cases g <;> rfl

@[simp] theorem busOn_setStat (g g' one : Bool) (c : BitVec 4) (s : State) :
    busOn g one (setStat g' c s) = busOn g one s := by
  cases g' <;> rfl

/-- The enable inputs of an interface that an access with this strobe needs (R126). -/
theorem busOn_iff (p : BusPins) (hp : p = if g then s.pins.globalBus else s.pins.localBus) :
    busOn g one s = true ↔ p.de = false ∧ p.ae = false ∧ (if one then p.ce1 else p.ce0) = false := by
  subst hp
  simp only [busOn, Bool.and_eq_true, Bool.not_eq_true', and_assoc]

theorem extRead_of_strobe (hstrobe : strobe g a s = (one, s)) (k : Access) :
    extRead k g a s = if busOn g one s then
        (Memory.word s.mem a, setStat g (BitVec.ofBool one ++ k.readCode) s)
      else drawWord (setStat g (BitVec.ofBool one ++ k.readCode) s) := by
  simp only [extRead, hstrobe, busOn_setStat, setStat_mem]

theorem extWrite_of_strobe (hstrobe : strobe g a s = (one, s)) (k : Access) (v : Word) :
    extWrite k g a v s = if busOn g one s then
        { setStat g (BitVec.ofBool one ++ k.writeCode) s with mem := Memory.setWord s.mem a v }
      else setStat g (BitVec.ofBool one ++ k.writeCode) s := by
  simp only [extWrite, hstrobe, busOn_setStat, setStat_mem]

/-- An external address is read and written over the interface of its bus (R104, R107). -/
theorem memRead_external (h : region s.romen a = if g then .globalBus else .localBus) (k : Access) :
    memRead k a s = .ofPair (extRead k g a s) := by
  cases g <;> rw [memRead, h] <;> rfl

theorem memWrite_external (h : region s.romen a = if g then .globalBus else .localBus) (k : Access) (ag : BusAgent)
    (v : Word) : memWrite k ag a v s = .ok () (extWrite k g a v s) := by
  cases g <;> rw [memWrite, h] <;> rfl

end

/-- Settles O12: STRB ACTIVE names the strobe, and the enables of its signals decide whether the access is made. -/
theorem externalAccess : Obligations.ExternalAccess := by
  intro s g a v hregion hlo hhi p one stat enabled
  have hstrobe : strobe g a s = (one, s) := strobe_of_size hlo hhi
  have hread : dataRead a s = .ofPair (extRead .data g a s) := memRead_external hregion .data
  have hwrite : dataWrite a v s = .ok () (extWrite .data g a v s) := memWrite_external hregion .data .cpu v
  have hon : busOn g one s = true ↔ enabled := busOn_iff p rfl
  rw [extRead_of_strobe hstrobe] at hread
  rw [extWrite_of_strobe hstrobe] at hwrite
  refine ⟨fun henabled => ?_, fun hdisabled => ?_⟩
  · rw [if_pos (hon.2 henabled)] at hread hwrite
    exact ⟨hread, hwrite⟩
  · rw [if_neg (mt hon.1 hdisabled)] at hread hwrite
    rw [drawWord, setStat_free] at hread
    exact ⟨⟨Config.freeWord s.free, hread⟩, hwrite⟩

end Sys2Proof.Machine

/-! The instruction cache (R130 to R137): a fetch through it leaves the word where the next fetch of the address finds
it. -/

namespace Sys2Proof.Machine

/-! ## What the cache holds -/

/-- The segment belongs to the address and its word is present (R130, R132). -/
structure Segment.Has (x : Segment) (a w : Word) : Prop where
  ssa : x.ssa = a.extractLsb' 5 27
  present : x.p.getLsbD (wordIndex a).val = true
  word : x.words[wordIndex a] = w

/-- The segment that the cache chooses for the address has its word: the next fetch is a hit (R132, R134). -/
def Cache.Holds (c : Cache) (a w : Word) : Prop := ∃ g, c.lookup a = some g ∧ c.segs[g].Has a w

theorem Segment.has_fill {x : Segment} {a : Word} (hssa : x.ssa = a.extractLsb' 5 27) (w : Word) :
    (x.fill (wordIndex a) w).Has a w where
  ssa := hssa
  present := by
    rw [Segment.fill, BitVec.getLsbD_or, one_bit _ _ (wordIndex a).isLt]
    simp
  word := Vector.getElem_set_self _

theorem Cache.lookup_ssa {c : Cache} {a : Word} {g : Fin 4} (h : c.lookup a = some g) :
    c.segs[g].ssa = a.extractLsb' 5 27 := by
  simpa using List.find?_some h

/-- A segment that has just been used is the first that the next look-up meets (R132). -/
theorem Cache.holds_touch {c : Cache} {g : Fin 4} {a w : Word} (h : c.segs[g].Has a w) : (c.touch g).Holds a w :=
  ⟨g, List.find?_cons_of_pos (beq_iff_eq.2 h.ssa), h⟩

theorem Cache.holds_setSeg_touch {c : Cache} {x : Segment} {a w : Word} (h : x.Has a w) (g : Fin 4) :
    ((c.setSeg g x).touch g).Holds a w :=
  Cache.holds_touch (by simpa [Cache.setSeg] using h)

/-! ## Fetches -/

section

variable {s t : State} {g : Bool} {a w : Word}

theorem extRead_cache_st (k : Access) (g : Bool) (a : Word) (s : State) :
    (extRead k g a s).2.cache = s.cache ∧ (extRead k g a s).2.st = s.st := by
  obtain ⟨x, y, f, h⟩ := extRead_state k g a s
  rw [h]
  exact ⟨rfl, rfl⟩

/-- With CE = 0 a fetch reads the external memory (R135). -/
theorem cacheFetch_off (hce : s.stBit 11 = false) (g : Bool) (a : Word) :
    cacheFetch g a s = .ofPair (extRead .program g a s) := by
  simp [cacheFetch, hce]

/-- The state after a fetch that brings its cache to `c`, where CF does not freeze it (R135). -/
def State.learn (s : State) (c : Cache) : State := if s.stBit 10 then s else { s with cache := c }

theorem State.learn_of_same {u : State} (hcache : u.cache = s.cache) (hst : u.st = s.st) (c : Cache) :
    (u.learn c).st = s.st ∧ (u.learn c).cache = if s.stBit 10 then s.cache else c := by
  have hcf : u.stBit 10 = s.stBit 10 := by rw [State.stBit, State.stBit, hst]
  unfold State.learn
  rw [hcf]
  split
  · exact ⟨hst, hcache⟩
  · exact ⟨hst, rfl⟩

/-- What a fetch with CE = 1 leaves: a cache that holds the word, or with CF = 1 the cache as it was (R134, R135). -/
theorem cacheFetch_on (hce : s.stBit 11 = true) (h : cacheFetch g a s = .ok w t) :
    ∃ c : Cache, c.Holds a w ∧ t.st = s.st ∧ t.cache = if s.stBit 10 then s.cache else c := by
  obtain ⟨hcache, hst⟩ := extRead_cache_st .program g a s
  simp only [cacheFetch, hce, Bool.not_true, Bool.false_eq_true, if_false] at h
  split at h
  next b hlook =>
    have hssa := Cache.lookup_ssa hlook
    split at h
    next hp =>
      cases h
      exact ⟨_, Cache.holds_touch ⟨hssa, hp, rfl⟩, State.learn_of_same rfl rfl _⟩
    next =>
      cases h
      refine ⟨_, Cache.holds_setSeg_touch (Segment.has_fill ?_ _) b, State.learn_of_same hcache hst _⟩
      rw [hcache, hssa]
  next =>
    cases h
    exact ⟨_, Cache.holds_setSeg_touch (Segment.has_fill rfl _) _, State.learn_of_same hcache hst _⟩

/-- A fetch of an address that the cache holds reads no memory (R134). -/
theorem cacheFetch_of_holds (hce : s.stBit 11 = true) (h : s.cache.Holds a w) (g : Bool) :
    ∃ u, cacheFetch g a s = .ok w u ∧ u.mem = s.mem ∧ u.pins = s.pins ∧ u.cache.segs = s.cache.segs := by
  obtain ⟨b, hlook, hhas⟩ := h
  refine ⟨s.learn (s.cache.touch b), ?_, ?_⟩
  · simp only [cacheFetch, hce, hlook, hhas.present, hhas.word, Bool.not_true, Bool.false_eq_true, if_false, if_true]
    rfl
  · unfold State.learn
    split <;> exact ⟨rfl, rfl, rfl⟩

end

/-- Settles O13: a fetch leaves the word in the cache, and the next one finds it there. -/
theorem cacheHoldsFetchedWord : Obligations.CacheHoldsFetchedWord := by
  intro s t g a w h
  refine ⟨fun hoff => ?_, fun hon hfrozen => ?_, fun hon hfill m => ?_⟩
  · rw [cacheFetch_off hoff] at h
    refine ⟨?_, h⟩
    cases h
    exact (extRead_cache_st .program g a s).1
  · obtain ⟨c, -, -, hcache⟩ := cacheFetch_on hon h
    rwa [if_pos hfrozen] at hcache
  · obtain ⟨c, hholds, hst, hcache⟩ := cacheFetch_on hon h
    rw [if_neg (by simp [hfill])] at hcache
    have hon' : State.stBit { t with mem := m } 11 = true := by rw [← hon, State.stBit, State.stBit, ← hst]
    exact cacheFetch_of_holds (s := { t with mem := m }) hon' (hcache ▸ hholds) g

end Sys2Proof.Machine

/-! Two operands of one instruction: the sources of the three-operand formats (R112, R165 to R167), two loads and two
stores (R570, R572, R581, R582). -/

namespace Sys2Proof.Machine

section

variable {s t u hi lo : State} {i j : Ind} {p q x y : Word}

/-! ## Two addresses, and two reads in order -/

/-- Two indirect operands are evaluated together: their addresses are those that each has alone, and the register of
bits 15-8 keeps its own update (R166, R167, D10). -/
theorem indEval2_of_memEval (hi_eval : memEval (.ind i) s = .ok p hi) (lo_eval : memEval (.ind j) s = .ok q lo) :
    indEval2 i j s = .ok (p, q) (s.moveBoth i hi lo) := by
  obtain ⟨rfl, rfl⟩ := indEval_ok hi_eval
  obtain ⟨rfl, rfl⟩ := indEval_ok lo_eval
  rw [indEval2, indUpdate_both]

theorem read2_ok (hx : dataRead p s = .ok x t) (hy : dataRead q t = .ok y u) : read2 p q s = .ok (x, y) u := by
  rw [read2, hx, Res.bind_ok, hy, Res.bind_ok]

theorem indRead2_eq_read2 (h : indEval2 i j s = .ok (p, q) t) : indRead2 i j s = read2 p q t := by
  rw [indRead2, h, Res.bind_ok, read2]

/-! ## The sources of the three-operand formats -/

/-- A type 2 memory source is read at its address (R165). -/
theorem src3_disp5 {d : Disp5} (h : dataRead (disp5Addr d s) s = .ok x t) (a : Reg) (m : Fin 12) (k : BitVec 8) :
    src3 (.rd a d) s = .ok (s.rdI a, x) t ∧ src3 (.dk d k) s = .ok (x, k.signExtend 32) t ∧
      src3F (.rd m d) s = .ok (s.rdF m, singleToExt x) t := by
  refine ⟨?_, ?_, ?_⟩ <;> simp only [src3, src3F, h, Res.bind_ok]

/-- A type 1 memory source beside a register, which gives its value before the addressing (R164, D17). -/
theorem src3_indirect (h : indRead i s = .ok x t) (a b : Reg) (m n : Fin 12) :
    src3 (.ir i b) s = .ok (x, s.rdI b) t ∧ src3 (.ri a i) s = .ok (s.rdI a, x) t ∧
      src3F (.ir i n) s = .ok (singleToExt x, s.rdF n) t ∧ src3F (.ri m i) s = .ok (s.rdF m, singleToExt x) t := by
  refine ⟨?_, ?_, ?_, ?_⟩ <;> simp only [src3, src3F, h, Res.bind_ok]

/-- Two words read are the integer sources, and widened the floating-point ones (R166). -/
theorem asFloat2_of_ok {r : Res (Word × Word)} (h : r = .ok (x, y) u) :
    asFloat2 r = .ok (singleToExt x, singleToExt y) u := by
  rw [asFloat2, h, Res.bind_ok]

/-! ## Two loads and two stores -/

/-- Two loads into different registers: the word of bits 7-0 is read first (R112, R570). -/
theorem loadBoth_live {m n : Fin 8} (hne : m ≠ n) (hlive : s.annulled = false)
    (hi_eval : memEval (.ind i) s = .ok p hi) (lo_eval : memEval (.ind j) s = .ok q lo)
    (hx : dataRead q (s.moveBoth i hi lo) = .ok x t) (hy : dataRead p t = .ok y u) (f : Word → Word → State → State) :
    loadBoth s m n i j f = .next (s.after (f x y u)) := by
  have hlive' : u.annulled = false :=
    (dataRead_readBy hy).annulled.trans ((dataRead_readBy hx).annulled.trans hlive)
  rw [loadBoth, if_neg hne.symm, indEval2_of_memEval hi_eval lo_eval, Res.bind_ok, hx, Res.bind_ok, hy, Res.bind_ok,
    exe_live hlive']
  rfl

/-- Two stores in order, outside an annulled slot. -/
theorem store_store {v w : Word} (hlive : s.annulled = false) (hp : dataWrite p v s = .ok () t)
    (hq : dataWrite q w t = .ok () u) : ((store p v s).bind fun _ z => store q w z) = .ok () u := by
  obtain ⟨-, -, -, -, -, -, hannulled, -⟩ := memWrite_fields hp
  rw [store_live hlive, hp, Res.bind_ok, store_live (hannulled.trans hlive), hq]

/-- Two stores at different addresses: the one of bits 15-8 comes first (R112, R868, log entry 55). -/
theorem storeBoth_live {v w : Word} (hne : p ≠ q) (hlive : s.annulled = false)
    (hi_eval : memEval (.ind i) s = .ok p hi) (lo_eval : memEval (.ind j) s = .ok q lo)
    (hp : dataWrite p v (s.moveBoth i hi lo) = .ok () t) (hq : dataWrite q w t = .ok () u) :
    storeBoth s i j v w = .next (s.after u) := by
  refine sequential_ok ?_
  rw [indEval2_of_memEval hi_eval lo_eval, Res.bind_ok, if_neg hne]
  exact store_store hlive hp hq

/-- Two stores at one address store two free values, whatever the registers hold (U10, log entry 49). -/
theorem storeBoth_same (hlive : s.annulled = false)
    (hi_eval : memEval (.ind i) s = .ok p hi) (lo_eval : memEval (.ind j) s = .ok p lo)
    (hp : dataWrite p (Config.freeWord s.free) { s.moveBoth i hi lo with free := s.free + 2 } = .ok () t)
    (hq : dataWrite p (Config.freeWord (s.free + 1)) t = .ok () u) (v w : Word) :
    storeBoth s i j v w = .next (s.after u) := by
  refine sequential_ok ?_
  rw [indEval2_of_memEval hi_eval lo_eval, Res.bind_ok, if_pos rfl]
  exact store_store (s := { s.moveBoth i hi lo with free := s.free + 2 }) hlive hp hq

end

/-- Settles O34, form by form of the operands. -/
theorem threeOperandSources : Obligations.ThreeOperandSources := by
  intro s t a b m n k d e i j x place
  refine ⟨rfl, rfl, rfl, fun h => src3_disp5 h a m k, fun h => src3_indirect h a b m n, fun u y hx hy => ?_,
    fun hi lo u p q y hp hq hx hy => ?_⟩
  · exact ⟨read2_ok hx hy, asFloat2_of_ok (read2_ok hx hy)⟩
  · have hread : indRead2 i j s = .ok (x, y) u :=
      (indRead2_eq_read2 (indEval2_of_memEval hp hq)).trans (read2_ok hx hy)
    exact ⟨hread, asFloat2_of_ok hread⟩

/-- Settles O46: both loads and both stores by the rule of their shared form. -/
theorem twoLoadsTwoStores : Obligations.TwoLoadsTwoStores := by
  intro s hi lo i j p q m n hp hq hlive
  refine ⟨fun t u x y hne hx hy => ⟨?_, ?_⟩, fun t u hne ht hu => ?_, fun t u hne ht hu => ?_,
    fun t u heq ht hu => ?_⟩
  · exact loadBoth_live hne hlive hp hq hx hy _
  · exact loadBoth_live hne hlive hp hq hx hy _
  · exact storeBoth_live hne hlive hp hq ht hu
  · exact storeBoth_live hne hlive hp hq ht hu
  · subst heq
    exact ⟨storeBoth_same hlive hp hq ht hu _ _, storeBoth_same hlive hp hq ht hu _ _⟩

end Sys2Proof.Machine

/-! The registers of the peripheral space, block by block (R110, R121, R770, R780 to R791, R802), the link of a port
(R787, R788), and the latch of the peripheral bus (R786). -/

namespace Sys2Proof.Machine

/-! ## Blocks and registers by the address (R110) -/

section

variable {s : State} {a v : Word}

/-- The block and the register that an address of the peripheral space names (R110). -/
theorem periph_fields {b o : Nat} (hb : b < 16) (ho : o < 16) (h : a.toNat = 0x100000 + 16 * b + o) :
    region s.romen a = .periph ∧ (a.extractLsb' 4 4).toNat = b ∧ (a.extractLsb' 0 4).toNat = o := by
  refine ⟨region_periph ⟨by omega, by omega⟩, ?_, ?_⟩
  all_goals rw [BitVec.extractLsb'_toNat, Nat.shiftRight_eq_div_pow, h]; omega

theorem dataRead_periph (hregion : region s.romen a = .periph) : dataRead a s = periphRead a s := by
  rw [dataRead, memRead, hregion]

theorem dataWrite_periph (hregion : region s.romen a = .periph) : dataWrite a v s = periphWrite .cpu a v s := by
  rw [dataWrite, memWrite, hregion]

section

variable (hlatch : s.latch = { waiting := none, sent := [] }) (v)

include hlatch

/-- The block of the memory interface control registers (R120, R121). -/
theorem access_micr {o : Nat} (ho : o < 16) (h : a.toNat = 0x100000 + o) :
    dataRead a s = micrRead o s ∧ dataWrite a v s = .ok () (micrWrite o v s) := by
  obtain ⟨hregion, hblock, hoff⟩ := periph_fields (s := s) (a := a) (b := 0) (by omega) ho (by omega)
  rw [dataRead_periph hregion, dataWrite_periph hregion, periphRead, periphWrite, busHeld, hlatch, hblock, hoff]
  exact ⟨rfl, rfl⟩

/-- The block of a timer (R770). -/
theorem access_timer (t : Fin 2) {o : Nat} (ho : o < 16) (h : a.toNat = 0x100020 + 16 * t.val + o) :
    dataRead a s = timerRead t o s ∧ dataWrite a v s = .ok () (timerWrite t o v s) := by
  obtain ⟨hregion, hblock, hoff⟩ := periph_fields (s := s) (a := a) (b := 2 + t.val) (by omega) ho (by omega)
  rw [dataRead_periph hregion, dataWrite_periph hregion, periphRead, periphWrite, busHeld, hlatch, hblock, hoff]
  fin_cases t <;> exact ⟨rfl, rfl⟩

/-- The block of a communication port (R780). -/
theorem access_port (x : Fin 6) {o : Nat} (ho : o < 16) (h : a.toNat = 0x100040 + 16 * x.val + o) :
    dataRead a s = portBlockRead x o s ∧ dataWrite a v s = portBlockWrite .cpu x o v s := by
  obtain ⟨hregion, hblock, hoff⟩ := periph_fields (s := s) (a := a) (b := 4 + x.val) (by omega) ho (by omega)
  rw [dataRead_periph hregion, dataWrite_periph hregion, periphRead, periphWrite, busHeld, hlatch, hblock, hoff]
  fin_cases x <;> exact ⟨rfl, rfl⟩

/-- The block of a DMA channel (R790). -/
theorem access_dma (c : Fin 6) {o : Nat} (ho : o < 16) (h : a.toNat = 0x1000A0 + 16 * c.val + o) :
    dataRead a s = .ofPair (dmaRead c o s) ∧ dataWrite a v s = dmaWrite c o v s := by
  obtain ⟨hregion, hblock, hoff⟩ := periph_fields (s := s) (a := a) (b := 10 + c.val) (by omega) ho (by omega)
  rw [dataRead_periph hregion, dataWrite_periph hregion, periphRead, periphWrite, busHeld, hlatch, hblock, hoff]
  fin_cases c <;> exact ⟨rfl, rfl⟩

end

end

/-! ## Fields of a masked word -/

section

variable {m : Word} {lo len : Nat}

theorem extract_mask_kept (h : m.extractLsb' lo len = BitVec.allOnes len) (v : Word) :
    (v &&& m).extractLsb' lo len = v.extractLsb' lo len := by
  rw [BitVec.extractLsb'_and, h, BitVec.and_allOnes]

theorem extract_mask_cleared (h : m.extractLsb' lo len = 0#len) (v : Word) :
    (v &&& m).extractLsb' lo len = 0#len := by
  rw [BitVec.extractLsb'_and, h, BitVec.and_zero]

theorem extract_or_cleared {v w : Word} (h : w.extractLsb' lo len = 0#len) :
    (v ||| w).extractLsb' lo len = v.extractLsb' lo len := by
  rw [BitVec.extractLsb'_or, h, BitVec.or_zero]

end

/-! ## Memory interface control (R121) -/

theorem bits_getLsbD (p : BusPins) : p.bits.getLsbD 0 = p.ce0 ∧ p.bits.getLsbD 1 = p.ce1 ∧
    p.bits.getLsbD 2 = p.de ∧ p.bits.getLsbD 3 = p.ae := by
  obtain ⟨ce0, ce1, de, ae⟩ := p
  revert ce0 ce1 de ae
  decide

theorem bits_high (p : BusPins) (lo len : Nat) (hlo : 4 ≤ lo) (hhi : lo + len ≤ 32) :
    (p.bits.setWidth 32).extractLsb' lo len = 0#len := by
  rw [BitVec.extractLsb'_setWidth_of_le hhi]
  ext i hi
  rw [BitVec.getElem_extractLsb', BitVec.getLsbD_of_ge _ _ (by omega), BitVec.getElem_zero]

/-- What a read of GMICR or LMICR shows: bits 29-4 as stored, the enable pins in bits 3-0 (R121). -/
theorem micrValue_fields (stored : Word) (p : BusPins) :
    let w := micrValue stored p
    w.extractLsb' 4 26 = stored.extractLsb' 4 26 ∧ w.extractLsb' 30 2 = 0 ∧
      w.getLsbD 0 = p.ce0 ∧ w.getLsbD 1 = p.ce1 ∧ w.getLsbD 2 = p.de ∧ w.getLsbD 3 = p.ae := by
  have hpins (i : Nat) (hi : i < 4) : (micrValue stored p).getLsbD i = p.bits.getLsbD i := by
    have hmask : ∀ i < 4, (0x3FFFFFF0#32).getLsbD i = false := by decide
    simp only [micrValue, BitVec.getLsbD_or, BitVec.getLsbD_and, BitVec.getLsbD_setWidth, hmask i hi, Bool.and_false,
      Bool.false_or, decide_eq_true (show i < 32 by omega), Bool.true_and]
  obtain ⟨hce0, hce1, hde, hae⟩ := bits_getLsbD p
  refine ⟨?_, ?_, (hpins 0 (by decide)).trans hce0, (hpins 1 (by decide)).trans hce1, (hpins 2 (by decide)).trans hde,
    (hpins 3 (by decide)).trans hae⟩
  · exact (extract_or_cleared (bits_high p 4 26 (by decide) (by decide))).trans (extract_mask_kept (by decide) stored)
  · exact (extract_or_cleared (bits_high p 30 2 (by decide) (by decide))).trans
      (extract_mask_cleared (by decide) stored)

/-! ## Communication ports (R782, R787, R788) -/

section

open Laws

/-- The fields of CPCR, from bit 2 up (R782). -/
theorem cpcr_fields (p : Port) :
    p.cpcr.extractLsb' 2 1 = BitVec.ofBool (!p.token) ∧ p.cpcr.extractLsb' 3 1 = BitVec.ofBool p.ich ∧
      p.cpcr.extractLsb' 4 1 = BitVec.ofBool p.och ∧ p.cpcr.extractLsb' 5 4 = fifoLevel p.outq.length ∧
      p.cpcr.extractLsb' 9 4 = fifoLevel p.inq.length := by
  have above_token (lo len : Nat) (h : 3 ≤ lo) : p.cpcr.extractLsb' lo len =
      (0#19 ++ fifoLevel p.inq.length ++ fifoLevel p.outq.length ++ BitVec.ofBool p.och ++
        BitVec.ofBool p.ich).extractLsb' (lo - 2 - 1) len :=
    (extract_high _ _ lo len (by omega)).trans (extract_high _ _ (lo - 2) len (by omega))
  have above_och (lo len : Nat) (h : 5 ≤ lo) : p.cpcr.extractLsb' lo len =
      (0#19 ++ fifoLevel p.inq.length ++ fifoLevel p.outq.length).extractLsb' (lo - 2 - 1 - 1 - 1) len :=
    (above_token lo len (by omega)).trans ((extract_high _ _ (lo - 2 - 1) len (by omega)).trans
      (extract_high _ _ (lo - 2 - 1 - 1) len (by omega)))
  refine ⟨?_, (above_token 3 1 (by decide)).trans ?_, (above_token 4 1 (by decide)).trans ?_,
    (above_och 5 4 (by decide)).trans ?_, (above_och 9 4 (by decide)).trans ?_⟩
  · exact (extract_high _ _ _ _ (by decide)).trans ((extract_low _ _ _ _ (by decide)).trans (extract_all _))
  · exact (extract_low _ _ _ _ (by decide)).trans (extract_all _)
  · exact (extract_high _ _ _ _ (by decide)).trans ((extract_low _ _ _ _ (by decide)).trans (extract_all _))
  · exact (extract_low _ _ _ _ (by decide)).trans (extract_all _)
  · exact (extract_high _ _ _ _ (by decide)).trans ((extract_low _ _ _ _ (by decide)).trans (extract_all _))

end

theorem getLsbD_of_extract {w : Word} {i : Nat} {b : Bool} (h : w.extractLsb' i 1 = BitVec.ofBool b) :
    w.getLsbD i = b := by
  simpa using congrArg (BitVec.getLsbD · 0) h

/-- What a read of CPCR shows, whatever its reserved bits read as (R782, V4). -/
theorem cpcrRead_fields (p : Port) (v : Word) :
    let w := p.cpcr ||| (v &&& 0xFFFFE003#32)
    w.getLsbD 2 = !p.token ∧ w.getLsbD 3 = p.ich ∧ w.getLsbD 4 = p.och ∧
      w.extractLsb' 5 4 = fifoLevel p.outq.length ∧ w.extractLsb' 9 4 = fifoLevel p.inq.length := by
  have kept {lo len : Nat} (hmask : (0xFFFFE003#32).extractLsb' lo len = 0#len) :
      (p.cpcr ||| (v &&& 0xFFFFE003#32)).extractLsb' lo len = p.cpcr.extractLsb' lo len :=
    extract_or_cleared (extract_mask_cleared hmask v)
  obtain ⟨htoken, hich, hoch, hout, hin⟩ := cpcr_fields p
  exact ⟨getLsbD_of_extract ((kept (by decide)).trans htoken), getLsbD_of_extract ((kept (by decide)).trans hich),
    getLsbD_of_extract ((kept (by decide)).trans hoch), (kept (by decide)).trans hout, (kept (by decide)).trans hin⟩

theorem fifoLevel_toNat (n : Nat) : (fifoLevel n).toNat = if 8 ≤ n then 15 else n := by
  unfold fifoLevel
  split
  · rfl
  · rw [BitVec.toNat_ofNat]
    omega

section

variable {s : State} {x : Fin 6} {v : Word}

theorem portRead_empty (h : s.ports[x].inq = []) : portRead x s = .stall none := by
  rw [portRead, h]

theorem portRead_oldest {w : Word} {q : List Word} (h : s.ports[x].inq = w :: q) :
    portRead x s = .ok w (s.setPort x { s.ports[x] with inq := q }) := by
  rw [portRead, h]

theorem portWrite_room {ag : BusAgent} (h : s.ports[x].outq.length < 8) :
    portWrite ag x v s = .ok () (s.setPort x { s.ports[x] with outq := s.ports[x].outq ++ [v] }) :=
  if_pos h

theorem portWrite_full {ag : BusAgent} (h : 8 ≤ s.ports[x].outq.length) :
    portWrite ag x v s = .stall (some { port := x, word := v, agent := ag }) :=
  if_neg (by omega)

theorem portDeliver_eq (x : Fin 6) (v : Word) (s : State) :
    portDeliver x v s = if s.ports[x].token = false ∧ s.ports[x].ich = false ∧ s.ports[x].inq.length < 8
      then s.setPort x { s.ports[x] with inq := s.ports[x].inq ++ [v] } else s := by
  simp only [portDeliver, Bool.and_eq_true, Bool.not_eq_true', decide_eq_true_eq, and_assoc]

theorem drainLatch_of_free (h : s.latch.waiting = none) : drainLatch s = s := by
  rw [drainLatch, h]

/-- A port sends its oldest word (R787); a free latch puts no word in its place. -/
theorem portAccept_eq (h : s.latch.waiting = none) (x : Fin 6) :
    portAccept x s = if s.ports[x].token = true ∧ s.ports[x].och = false ∧ s.ports[x].outq ≠ []
      then s.setPort x { s.ports[x] with outq := s.ports[x].outq.tail } else s := by
  rw [portAccept]
  split
  next hq => simp only [hq, ne_eq, not_true_eq_false, and_false, if_false]
  next hq =>
    rw [drainLatch_of_free (by exact h)]
    simp only [hq, ne_eq, reduceCtorEq, not_false_eq_true, and_true, List.tail_cons, Bool.and_eq_true,
      Bool.not_eq_true']

theorem portTakeToken_eq (x : Fin 6) (s : State) :
    portTakeToken x s = if s.ports[x].token = true ∧ s.ports[x].ich = false ∧ s.ports[x].inq.length < 8
      then s.setPort x { s.ports[x] with token := false } else s := by
  simp only [portTakeToken, Bool.and_eq_true, Bool.not_eq_true', decide_eq_true_eq, and_assoc]

theorem portGiveToken_eq (x : Fin 6) (s : State) :
    portGiveToken x s = if s.ports[x].token = false ∧ s.ports[x].outq ≠ [] ∧ s.ports[x].och = false
      then s.setPort x { s.ports[x] with token := true } else s := by
  simp only [portGiveToken, Bool.and_eq_true, Bool.not_eq_true', List.isEmpty_eq_false_iff, and_assoc]

end

/-! ## The registers of the DMA channels (R791, R802) -/

/-- The places of STATUS and AUX STATUS in the control register (R802). -/
theorem status_fields : ∀ aux primary : BitVec 2,
    let w : Word := (0#2 ++ aux ++ primary).setWidth 32 <<< 26
    w &&& 0xC3FFFFFF#32 = 0#32 ∧ w.extractLsb' 26 2 = primary ∧ w.extractLsb' 28 2 = aux := by
  decide

/-- What a read of a DMA control register shows (R791, R802). -/
theorem ctlValue_fields {d : Dma} (h : d.ctl.extractLsb' 26 4 = 0#4) :
    d.ctlValue &&& 0xC3FFFFFF#32 = d.ctl &&& 0xC3FFFFFF#32 ∧
      d.ctlValue.extractLsb' 26 2 = dmaStatus d.start d.tmp.isSome ∧
      d.ctlValue.extractLsb' 28 2 = dmaStatus d.auxStart d.atmp.isSome := by
  obtain ⟨hkept, hstatus, haux⟩ := status_fields (dmaStatus d.auxStart d.atmp.isSome) (dmaStatus d.start d.tmp.isSome)
  have hlow : d.ctl.extractLsb' 26 2 = 0#2 := by
    rw [← Laws.extract_extract d.ctl 26 4 0 2 (by decide), h]; rfl
  have hhigh : d.ctl.extractLsb' 28 2 = 0#2 := by
    rw [← Laws.extract_extract d.ctl 26 4 2 2 (by decide), h]; rfl
  refine ⟨?_, ?_, ?_⟩
  · rw [Dma.ctlValue, BitVec.and_or_distrib_right, hkept, BitVec.or_zero]
  · rw [Dma.ctlValue, BitVec.extractLsb'_or, hlow, hstatus, BitVec.zero_or]
  · rw [Dma.ctlValue, BitVec.extractLsb'_or, hhigh, haux, BitVec.zero_or]

/-- STATUS as the statement has it: 11 with START 11, else whether a word is held (R802). -/
theorem dmaStatus_eq (start : BitVec 2) (held : Option Word) :
    dmaStatus start held.isSome = if start = 3 then 3 else if held = none then 0 else 1 := by
  cases held <;> rfl

/-- A write of the control register keeps the word's START fields and its SPLIT MODE (R791). -/
theorem storedCtl_fields (v old : Word) (d : Dma) :
    let e : Dma := { d with ctl := (v &&& 0x43CFFFFF#32) ||| (old &&& 0x300000#32) }
    e.start = v.extractLsb' 22 2 ∧ e.auxStart = v.extractLsb' 24 2 ∧ e.split = v.getLsbD 14 := by
  refine ⟨?_, ?_, ?_⟩
  · exact (extract_or_cleared (extract_mask_cleared (by decide) old)).trans (extract_mask_kept (by decide) v)
  · exact (extract_or_cleared (extract_mask_cleared (by decide) old)).trans (extract_mask_kept (by decide) v)
  · rw [Dma.split, BitVec.getLsbD_or, BitVec.getLsbD_and, BitVec.getLsbD_and,
      show (0x43CFFFFF#32).getLsbD 14 = true by decide, show (0x300000#32).getLsbD 14 = false by decide,
      Bool.and_true, Bool.and_false, Bool.or_false]

/-- The words that a write of the control register accepts (R791, R792, U17). -/
theorem ctlReserved_eq_false_iff (c : Fin 6) (v : Word) : ctlReserved c v = false ↔
    v.extractLsb' 0 2 ≠ 2 ∧ (v.extractLsb' 15 3).toNat < 6 ∧ v.getLsbD 31 = false ∧
      (v.getLsbD 30 = true → c = 0) := by
  simp only [ctlReserved, Bool.or_eq_false_iff, beq_eq_false_iff_ne, decide_eq_false_iff_not, Nat.not_le, and_assoc,
    Bool.and_eq_false_imp, bne_eq_false_iff_eq]
  rfl

theorem cancelLatch_of_empty {b : BusLatch} (h : b = { waiting := none, sent := [] }) (c : Fin 6) (d : Dma) :
    cancelLatch c d b = b := by
  subst h
  unfold cancelLatch
  split <;> split <;> rfl

theorem dmaWriteCtl_reserved {c : Fin 6} {v : Word} (h : ctlReserved c v = true) (s : State) :
    dmaWriteCtl c v s = .stop .dmaControlCode :=
  if_pos h

theorem dmaWriteCtl_legal {s : State} {c : Fin 6} {v : Word} (hlatch : s.latch = { waiting := none, sent := [] })
    (h : ctlReserved c v = false) :
    dmaWriteCtl c v s = .ok () (s.setDma c (Dma.applyStart
      { s.dma[c] with ctl := (v &&& 0x43CFFFFF#32) ||| (s.dma[c].ctl &&& 0x300000#32) })) := by
  rw [dmaWriteCtl, h, if_neg Bool.false_ne_true]
  exact congrArg (fun b => Res.ok () { s.setDma c _ with latch := b }) (cancelLatch_of_empty hlatch c _)

/-- START 00 resets the channel or its primary half, AUX START 00 its auxiliary half (R802). -/
theorem applyStart_cases (d : Dma) :
    (d.start ≠ 0 → d.auxStart ≠ 0 → d.applyStart = d) ∧
    (d.start = 0 → d.auxStart ≠ 0 → d.applyStart =
      { d with tmp := none, rl := false, auto := none, wl := if d.split then d.wl else false }) ∧
    (d.start ≠ 0 → d.auxStart = 0 → d.applyStart =
      { d with atmp := none, aauto := none, wl := if d.split then false else d.wl }) ∧
    (d.start = 0 → d.auxStart = 0 → d.applyStart =
      { d with tmp := none, rl := false, auto := none, wl := false, atmp := none, aauto := none }) := by
  refine ⟨fun hp ha => ?_, fun hp ha => ?_, fun hp ha => ?_, fun hp ha => ?_⟩
  · rw [Dma.applyStart, if_neg hp, if_neg ha]
  · rw [Dma.applyStart, if_pos hp]
    exact if_neg ha
  · rw [Dma.applyStart, if_neg hp, if_pos ha]
  · have hwl : (if d.split then false else if d.split then d.wl else false) = false := by cases d.split <;> rfl
    rw [Dma.applyStart, if_pos hp]
    exact (if_pos ha).trans (congrArg (fun b : Bool =>
      { d with tmp := none, rl := false, auto := none, wl := b, atmp := none, aauto := none }) hwl)

/-- The start codes of the word written act on the channel that stores it (R791, R802). -/
theorem applyStart_storedCtl (v old : Word) (d : Dma) :
    let e : Dma := { d with ctl := (v &&& 0x43CFFFFF#32) ||| (old &&& 0x300000#32) }
    (v.extractLsb' 22 2 ≠ 0 → v.extractLsb' 24 2 ≠ 0 → e.applyStart = e) ∧
    (v.extractLsb' 22 2 = 0 → v.extractLsb' 24 2 ≠ 0 → e.applyStart =
      { e with tmp := none, rl := false, auto := none, wl := if v.getLsbD 14 then d.wl else false }) ∧
    (v.extractLsb' 22 2 ≠ 0 → v.extractLsb' 24 2 = 0 → e.applyStart =
      { e with atmp := none, aauto := none, wl := if v.getLsbD 14 then false else d.wl }) ∧
    (v.extractLsb' 22 2 = 0 → v.extractLsb' 24 2 = 0 → e.applyStart =
      { e with tmp := none, rl := false, auto := none, wl := false, atmp := none, aauto := none }) := by
  intro e
  obtain ⟨hstart, hauxStart, hsplit⟩ : e.start = _ ∧ e.auxStart = _ ∧ e.split = _ := storedCtl_fields v old d
  rw [← hstart, ← hauxStart, ← hsplit]
  exact applyStart_cases e

/-! ## The latch of the peripheral bus (R786) -/

section

variable {s : State} {l : Latch} {sent : List Latch} {a v w : Word}

/-- A word that waits in the latch holds every read of the peripheral space. -/
theorem dataRead_held (hregion : region s.romen a = .periph) (hlatch : s.latch = { waiting := some l, sent := sent }) :
    dataRead a s = .stall none := by
  rw [dataRead_periph hregion, periphRead, busHeld, hlatch]
  rfl

theorem sentFor_of_others {b : BusLatch} {g : BusAgent} (h : ∀ m ∈ b.sent, m.agent ≠ g) (a : Word) :
    b.sentFor g a = false := by
  rw [BusLatch.sentFor, List.any_eq_false]
  intro m hm
  simp [Latch.isFor, h m hm]

/-- It holds every write too, but the one whose word has been sent. -/
theorem dataWrite_held (hregion : region s.romen a = .periph)
    (hlatch : s.latch = { waiting := some l, sent := sent }) (hsent : ∀ m ∈ sent, m.agent ≠ .cpu) :
    dataWrite a v s = .stall none := by
  have hnone : s.latch.sentFor .cpu a = false := sentFor_of_others (by rw [hlatch]; exact hsent) a
  rw [dataWrite_periph hregion, periphWrite, hnone, if_neg Bool.false_ne_true, busHeld, hlatch]
  rfl

/-- The write whose word has been sent is complete, and takes its word off the latch. -/
theorem dataWrite_sent (hregion : region s.romen (portOutAddr l.port) = .periph) (hagent : l.agent = .cpu)
    (hlatch : s.latch = { waiting := none, sent := [l] }) :
    dataWrite (portOutAddr l.port) v s = .ok () { s with latch := { waiting := none, sent := [] } } := by
  have hfor : l.isFor .cpu (portOutAddr l.port) = true := by simp [Latch.isFor, hagent]
  have hsent : s.latch.sentFor .cpu (portOutAddr l.port) = true := by simp [hlatch, BusLatch.sentFor, hfor]
  have hcollect : s.latch.collect .cpu (portOutAddr l.port) = { waiting := none, sent := [] } := by
    simp [hlatch, BusLatch.collect, hfor]
  rw [dataWrite_periph hregion, periphWrite, if_pos hsent, hcollect]

/-- The latched word goes into its port's FIFO. -/
theorem drainLatch_room (hwaiting : s.latch.waiting = some l) (hroom : s.ports[l.port].outq.length < 8) :
    drainLatch s = { s.setPort l.port { s.ports[l.port] with outq := s.ports[l.port].outq ++ [l.word] } with
      latch := s.latch.drained l } := by
  rw [drainLatch, hwaiting]
  exact if_pos hroom

/-- A port that accepts its oldest word makes room for the word that waits. -/
theorem portAccept_drains {q : List Word} (hlatch : s.latch = { waiting := some l, sent := [] })
    (hagent : l.agent = .cpu) (htoken : s.ports[l.port].token = true) (hoch : s.ports[l.port].och = false)
    (hout : s.ports[l.port].outq = w :: q) (hroom : q.length < 8) :
    portAccept l.port s =
      { s with ports := s.ports.set l.port { s.ports[l.port] with outq := q ++ [l.word] }
               latch := { waiting := none, sent := [l] } } := by
  have hguard : (s.ports[l.port].token && !s.ports[l.port].och) = true := by rw [htoken, hoch]; rfl
  have hdrained : s.latch.drained l = { waiting := none, sent := [l] } := by
    simp [hlatch, BusLatch.drained, hagent]
  have hport : (s.setPort l.port { s.ports[l.port] with outq := q }).ports[l.port] =
      { s.ports[l.port] with outq := q } := Vector.getElem_set_self _
  have haccept : portAccept l.port s = drainLatch (s.setPort l.port { s.ports[l.port] with outq := q }) := by
    simp only [portAccept, hout, hguard, if_true]
  rw [haccept, drainLatch_room (l := l) (by rw [State.setPort_latch, hlatch]) (by rw [hport]; exact hroom), hport,
    State.setPort_latch, hdrained]
  simp only [State.setPort, Vector.set_set]

end

/-- Settles O55: each block by its accesses and fields, then the latch. -/
theorem peripheralRegisters : Obligations.PeripheralRegisters := by
  refine ⟨fun s v t x c hlatch => ⟨?_, ?_, ?_, ?_, ?_, ?_, ?_⟩, ?_⟩
  · exact (access_micr v hlatch (o := 0) (by decide) rfl).2
  · exact (access_micr v hlatch (o := 4) (by decide) rfl).2
  · exact ⟨_, (access_micr v hlatch (o := 0) (by decide) rfl).1, micrValue_fields _ _⟩
  · exact ⟨_, (access_micr v hlatch (o := 4) (by decide) rfl).1, micrValue_fields _ _⟩
  · intro m base
    have hbase : base.toNat = 0x100020 + 16 * t.val := by
      revert t
      decide
    have hcounter := access_timer v hlatch t (a := base + 4) (o := 4) (by decide) (by bv_omega)
    have hperiod := access_timer v hlatch t (a := base + 8) (o := 8) (by decide) (by bv_omega)
    exact ⟨hcounter.2, hperiod.2, hcounter.1, hperiod.1⟩
  · intro p base level
    have hbase : base.toNat = 0x100040 + 16 * x.val := by
      revert x
      decide
    have hcpcr := access_port v hlatch x (a := base) (o := 0) (by decide) hbase
    have hin := access_port v hlatch x (a := base + 1) (o := 1) (by decide) (by bv_omega)
    have hout := access_port v hlatch x (a := base + 2) (o := 2) (by decide) (by bv_omega)
    obtain ⟨htoken, hich, hoch, houtq, hinq⟩ := cpcrRead_fields p (Config.freeWord s.free)
    refine ⟨hcpcr.2, ⟨_, hcpcr.1, htoken, hich, hoch, ?_, ?_⟩, fun hroom => hout.2.trans (portWrite_room hroom),
      fun hfull => hout.2.trans (portWrite_full hfull), ⟨_, hout.1⟩, fun hempty => hin.1.trans (portRead_empty hempty),
      fun w q hq => hin.1.trans (portRead_oldest hq), hin.2, portDeliver_eq x v s,
      portAccept_eq (by rw [hlatch]) x, portTakeToken_eq x s, portGiveToken_eq x s⟩
    · exact (congrArg BitVec.toNat houtq).trans (fifoLevel_toNat _)
    · exact (congrArg BitVec.toNat hinq).trans (fifoLevel_toNat _)
  · intro d base is
    have hbase : base.toNat = 0x1000A0 + 16 * c.val := by
      revert c
      decide
    have access (k : Word) (hk : k.toNat < 16) :=
      access_dma v hlatch c (a := base + k) (o := k.toNat) hk (by bv_omega)
    have hctl := access_dma v hlatch c (a := base) (o := 0) (by decide) hbase
    refine ⟨?_, ?_, fun hstatus => ?_, ?_⟩
    · simp only [List.forall_mem_cons]
      exact ⟨(access 1 (by decide)).2, (access 2 (by decide)).2, (access 3 (by decide)).2, (access 4 (by decide)).2,
        (access 5 (by decide)).2, (access 6 (by decide)).2, (access 7 (by decide)).2, (access 8 (by decide)).2,
        List.forall_mem_nil _⟩
    · simp only [List.forall_mem_cons]
      exact ⟨(access 1 (by decide)).1, (access 2 (by decide)).1, (access 3 (by decide)).1, (access 4 (by decide)).1,
        (access 5 (by decide)).1, (access 6 (by decide)).1, (access 7 (by decide)).1, (access 8 (by decide)).1,
        List.forall_mem_nil _⟩
    · obtain ⟨hkept, hprimary, haux⟩ := ctlValue_fields hstatus
      exact ⟨_, hctl.1, hkept, hprimary.trans (dmaStatus_eq _ _), haux.trans (dmaStatus_eq _ _)⟩
    · intro legal e
      have hlegal : ctlReserved c v = false ↔ legal := ctlReserved_eq_false_iff c v
      have hwrite {f : Dma} (h : legal) (hf : e.applyStart = f) : dataWrite base v s = .ok () (is f) := by
        rw [← hf]
        exact hctl.2.trans (dmaWriteCtl_legal hlatch (hlegal.2 h))
      obtain ⟨hnone, hfirst, hsecond, hboth⟩ := applyStart_storedCtl v d.ctl d
      exact ⟨fun h => hctl.2.trans (dmaWriteCtl_reserved (by simpa using mt hlegal.1 h) s),
        fun h hp ha => hwrite h (hnone hp ha), fun h hp ha => hwrite h (hfirst hp ha),
        fun h hp ha => hwrite h (hsecond hp ha), fun h hp ha => hwrite h (hboth hp ha)⟩
  · intro s l sent a v w q hregion hlatch
    refine ⟨dataRead_held hregion hlatch, dataWrite_held hregion hlatch,
      fun htoken hoch hout hroom hagent hsent => ?_⟩
    subst hsent
    exact ⟨portAccept_drains hlatch hagent htoken hoch hout hroom,
      dataWrite_sent (region_periph (portAddr_range l.port).2) hagent rfl⟩

end Sys2Proof.Machine

/-! The stops: what is refused by its word, its operands, its address and its place (U3, U6, U7, U11). -/

namespace Sys2Proof.Machine

section

variable {s : State} {i : Instr}

/-! ## Words, operands and fetch addresses -/

theorem runWord_undecoded {w : Word} {e : DecodeError} (h : decode w = .error e) (s : State) :
    runWord w s = .refused (.illegalEncoding e) := by
  rw [runWord, h]

/-- The registers that LDA may load (R310). -/
theorem isAddress_iff (d : Reg) : d.isAddress = true ↔ d ∈ [Reg.ar 0, .ar 1, .ar 2, .ar 3, .ar 4, .ar 5, .ar 6, .ar 7,
    .dp, .ir0, .ir1, .bk, .sp] := by
  cases d with
  | ar n => fin_cases n <;> decide
  | r n => fin_cases n <;> decide
  | _ => decide

theorem execLda_illegal {d : Reg} (h : d.isAddress = false) (src : Src) (s : State) :
    exec (.lda src d) s = .refused .illegalOperand := by
  change execLda src d s = _
  rw [execLda, h, if_neg Bool.false_ne_true]

theorem loadBoth_same (s : State) (n : Fin 8) (i j : Ind) (f : Word → Word → State → State) :
    loadBoth s n n i j f = .refused .sameDestination :=
  if_pos rfl

theorem instrFetch_periph {a : Word} (h : region s.romen a = .periph) :
    instrFetch a s = .stop (.peripheralFetch a) := by
  rw [instrFetch, h]
  rfl

theorem instrFetch_reserved {a : Word} (h : region s.romen a = .reserved) :
    instrFetch a s = .stop (.reservedAddress a) := by
  rw [instrFetch, h]
  rfl

/-! ## Places in a repeat -/

theorem runInstr_misplaced {r : Refusal} (h : placement i s = some r) : runInstr i s = .refused r := by
  rw [runInstr, h]

/-- An instruction that changes the program flow may not stand under RPTS or end a block (R534 rule 1). -/
theorem placement_repeated (hdelay : s.delay = none) (hrm : s.stBit 8 = true) (hend : s.sFlag = true ∨ s.pc = s.re)
    (hflow : flowClass i ≠ .plain) : placement i s = some .repeatBlockEnd := by
  have hplain : (flowClass i != .plain) = true := by simpa using hflow
  rw [placement, hdelay]
  cases hs : s.sFlag with
  | true => simp [hrm, hplain]
  | false =>
    have hpc : s.pc = s.re := by simpa [hs] using hend
    have hlast : s.lastOfBlock = true := by simp [State.lastOfBlock, hrm, hs, hpc]
    simp [hplain, hlast]

theorem nearBlockEnd_of_bounds (hrm : s.stBit 8 = true) (hs : s.sFlag = false) (hstart : s.rs.toNat ≤ s.pc.toNat)
    (hend : s.pc.toNat ≤ s.re.toNat) (hnear : s.re.toNat < s.pc.toNat + 4) : s.nearBlockEnd = true := by
  have hdist : (s.re - s.pc).toNat ≤ 3 := by
    rw [BitVec.toNat_sub_of_le (BitVec.le_def.2 hend)]
    omega
  rw [State.nearBlockEnd, hrm, hs, decide_eq_true hdist, decide_eq_true hstart]
  rfl

/-- A delayed instruction may not stand among the last four words of a block (R534 rule 2). -/
theorem placement_delayed_near_end (hdelay : s.delay = none) (hs : s.sFlag = false) (hnear : s.nearBlockEnd = true)
    (hflow : flowClass i = .delayed) : placement i s = some .repeatBlockEnd := by
  rw [placement, hdelay, hflow]
  simp [hs, hnear]

/-- In the interval after a load of RE or RM no block may end (R862). -/
theorem retire_unflushed {before s : State} (hstalled : s.stalled = false) (hbefore : before.sFlag = false)
    (hs : s.sFlag = false) (hrm : s.stBit 8 = true) (hre : s.re = before.pc) (hopen : s.unflushed ≠ 0) :
    retire before s = .refused .repeatNotFlushed := by
  have hend : State.atBlockEnd before s = true := by simp [State.atBlockEnd, hrm, hs, hre]
  simp [retire, hstalled, hbefore, hend, Nat.pos_of_ne_zero hopen]

end

/-- Settles O59, stop by stop. -/
theorem stops : Obligations.Stops := by
  refine ⟨fun w e s h => runWord_undecoded h s, fun src dst s hdst => ?_,
    fun n i j s => ⟨loadBoth_same s n i j _, loadBoth_same s n i j _⟩,
    fun a s => ⟨instrFetch_periph, instrFetch_reserved⟩, ?_,
    fun before s hstalled hbefore hs hrm hre hopen => retire_unflushed hstalled hbefore hs hrm hre hopen⟩
  · exact execLda_illegal (Bool.eq_false_iff.2 (mt (isAddress_iff dst).1 hdst)) src s
  · intro s c tg disp n r v src hdelay hrm delayed standard
    have hdelayed : ∀ i ∈ delayed, flowClass i = .delayed := List.map_eq_replicate_iff.1 rfl
    have hstandard : ∀ i ∈ standard, flowClass i = .standard := List.map_eq_replicate_iff.1 rfl
    refine ⟨fun hend i hi => runInstr_misplaced (placement_repeated hdelay hrm hend ?_),
      fun hs hstart hlast hnear i hi => runInstr_misplaced (placement_delayed_near_end hdelay hs
        (nearBlockEnd_of_bounds hrm hs hstart hlast hnear) (hdelayed i hi))⟩
    rcases List.mem_append.1 hi with hi | hi
    · simp [hstandard i hi]
    · simp [hdelayed i hi]

end Sys2Proof.Machine

/-! Decoding undoes encoding (30_encoding.md), format by format: what selects the format, what a row of the opcode
table answers on the words of the encoder, and the rows of all instructions. -/

namespace Sys2Proof.Laws

/-! ## Fields -/

theorem extract_append_high {n m : Nat} (a : BitVec n) (b : BitVec m) : (a ++ b).extractLsb' m n = a := by
  rw [extract_high a b m n le_rfl, Nat.sub_self, extract_all]

theorem extract_append_low {n m : Nat} (a : BitVec n) (b : BitVec m) : (a ++ b).extractLsb' 0 m = b := by
  rw [extract_low a b 0 m (Nat.zero_add m).le, extract_all]

theorem getLsbD_of_fld {w : Word} {lo len : Nat} {v : BitVec len} (h : fld w lo len = v) {i : Nat} (hi : i < len) :
    w.getLsbD (lo + i) = v.getLsbD i := by
  rw [← h, BitVec.getLsbD_extractLsb', decide_eq_true hi, Bool.true_and]

/-- A field cut in two. -/
theorem fld_append (w : Word) (lo n m : Nat) : fld w (lo + m) n ++ fld w lo m = fld w lo (n + m) := by
  ext i hi
  by_cases h : i < m
  · simp [BitVec.getElem_append, h]
  · have e : lo + m + (i - m) = lo + i := by omega
    simp [BitVec.getElem_append, h, e]

/-! ## What a row answers where its fields are read -/

section

variable {α β γ : Type}

theorem map_row {r : Except DecodeError α} {a : α} (h : r = .ok a) (f : α → β) : r.map f = .ok (f a) := by
  rw [h]
  rfl

theorem both_row {r : Except DecodeError α} {q : Except DecodeError β} {a : α} {b : β} (hr : r = .ok a) (hq : q = .ok b)
    (k : α → β → γ) : both r q k = .ok (k a b) := by
  rw [hr, hq]
  rfl

theorem guarded_row {c : Bool} {r x : Except DecodeError α} (hc : c = true) (hr : r = x) (e : DecodeError) :
    guarded c e r = x := by
  rw [hc, hr]
  rfl

end

/-! ## The general format (R161) -/

section

variable (hi : BitVec 9) (g : BitVec 2 × BitVec 16) (d : Reg) (n : Fin 12)

theorem decode_wordG (d : BitVec 5) (h : hi.extractLsb' 5 4 = 0#4 ∨ hi.extractLsb' 5 4 = 1#4) :
    decode (wordG hi g d) = decodeGeneral (wordG hi g d) := by
  rcases h with h | h <;> rw [decode, wordG_top, h] <;> rfl

theorem dstOf_wordG : dstOf (wordG hi g d.code) = d := by
  rw [dstOf, wordG_dst, regOf_code]

theorem fdstOf_wordG : fdstOf (wordG hi g (extCode n)) = .ok n := by
  rw [fdstOf, wordG_dst, extOf_code]

theorem field_code (c : BitVec 5) : (0#3 ++ c : BitVec 8).extractLsb' 0 5 = c := low_code _ _

theorem half_code (c : BitVec 5) : (0#11 ++ c : BitVec 16).extractLsb' 0 5 = c := low_code _ _

theorem wordG_low_reg (k : BitVec 2) (z : BitVec 11) (c d : BitVec 5) : fld (wordG hi (k, z ++ c) d) 0 5 = c :=
  (wordG_reg _ _ _).trans (low_code z c)

theorem wordG_low_rest (k : BitVec 2) (z : BitVec 11) (c d : BitVec 5) : fld (wordG hi (k, z ++ c) d) 5 11 = z :=
  (extract_low _ _ _ _ (by decide)).trans (extract_append_high z c)

/-- Bits 27 to 21, which select the row of the `0111` format. -/
theorem wordG_row (k : BitVec 2) (v : BitVec 16) (d : BitVec 5) :
    fld (wordG hi (k, v) d) 21 7 = hi.extractLsb' 0 5 ++ k := by
  have h := fld_append (wordG hi (k, v) d) 21 5 2
  rw [wordG_cond, wordG_g] at h
  exact h.symm

/-- A row with one operand and any destination register. -/
theorem reg_row {α : Type} {r : Except DecodeError α} {a : α} (h : r = .ok a) (mk : α → Reg → Instr) :
    r.map (fun x => mk x (dstOf (wordG hi g d.code))) = .ok (mk a d) := by
  rw [h, dstOf_wordG]
  rfl

/-- A row with one operand and an extended-precision destination. -/
theorem ext_row {α : Type} {r : Except DecodeError α} {a : α} (h : r = .ok a) {β : Type} (mk : α → Fin 12 → β) :
    both r (fdstOf (wordG hi g (extCode n))) mk = .ok (mk a n) :=
  both_row h (fdstOf_wordG hi g n) mk

/-- A row whose G field and low half are fixed. -/
theorem fixed_row (k : BitVec 2) (v : BitVec 16) (c : BitVec 5) {α : Type} {r x : Except DecodeError α} (h : r = x) :
    guarded (fld (wordG hi (k, v) c) 21 2 == k && fld (wordG hi (k, v) c) 0 16 == v) .noRow r = x :=
  guarded_row (by simp [wordG_g, wordG_src]) h _

end

/-! ## The three-operand formats (R164, R165) -/

/-- The sources of a three-operand word, of the type that bit 28 selects. -/
def threeOps (w : Word) : Except DecodeError Ops3 := if fld w 28 1 = 0#1 then ops1 w else ops2 w

/-- As `threeOps`, for the floating-point instructions. -/
def threeFOps (w : Word) : Except DecodeError FOps3 := if fld w 28 1 = 0#1 then fops1 w else fops2 w

theorem decode_three {w : Word} (h : fld w 29 3 = 1#3) : decode w = decodeThree w (threeOps w) (threeFOps w) := by
  have htop := fld_append w 28 3 1
  rw [h] at htop
  rw [decode, ← htop]
  rcases BitVec.eq_zero_or_eq_one (fld w 28 1) with hbit | hbit <;> rw [threeOps, threeFOps, hbit] <;> rfl

section

variable (op : BitVec 5) (d : BitVec 5)

theorem threeOps_enc (o : Ops3) (h : o.wf = true) : threeOps (wordT op o.enc d) = .ok o := by
  rw [threeOps, wordT_type]
  cases o with
  | rr a b => simp [Ops3.enc, ops1, wordT_t, wordT_reg1, wordT_reg2, field_code, regOf_code]
  | ir i b =>
    simp [Ops3.enc, ops1, wordT_t, wordT_src1, wordT_reg2, field_code, regOf_code, ind8_field8 i h, Except.map]
  | ri a i =>
    simp [Ops3.enc, ops1, wordT_t, wordT_src2, wordT_reg1, field_code, regOf_code, ind8_field8 i h, Except.map]
  | ii i j =>
    obtain ⟨hi, hj⟩ := Bool.and_eq_true_iff.1 h
    simp [Ops3.enc, ops1, wordT_t, wordT_src1, wordT_src2, ind8_field8 i hi, ind8_field8 j hj, both]
  | rk a k => simp [Ops3.enc, ops2, wordT_t, wordT_reg1, wordT_src2, field_code, regOf_code]
  | rd a e => simp [Ops3.enc, ops2, wordT_t, wordT_reg1, wordT_src2, field_code, regOf_code, disp5_field]
  | dk e k => simp [Ops3.enc, ops2, wordT_t, wordT_src1, wordT_src2, disp5_field]
  | dd e f => simp [Ops3.enc, ops2, wordT_t, wordT_src1, wordT_src2, disp5_field]

theorem threeFOps_enc (o : FOps3) (h : o.wf = true) : threeFOps (wordT op o.enc d) = .ok o := by
  rw [threeFOps, wordT_type]
  cases o with
  | rr a b => simp [FOps3.enc, fops1, wordT_t, wordT_reg1, wordT_reg2, field_code, extOf_code, both]
  | ir i b =>
    simp [FOps3.enc, fops1, wordT_t, wordT_src1, wordT_reg2, field_code, extOf_code, ind8_field8 i h, both]
  | ri a i =>
    simp [FOps3.enc, fops1, wordT_t, wordT_src2, wordT_reg1, field_code, extOf_code, ind8_field8 i h, both]
  | ii i j =>
    obtain ⟨hi, hj⟩ := Bool.and_eq_true_iff.1 h
    simp [FOps3.enc, fops1, wordT_t, wordT_src1, wordT_src2, ind8_field8 i hi, ind8_field8 j hj, both]
  | rd a e =>
    simp only [FOps3.enc, fops2, wordT_t, wordT_reg1, wordT_src2, field_code, disp5_field]
    exact map_row (extOf_code a) _
  | dd e f => simp [FOps3.enc, fops2, wordT_t, wordT_src1, wordT_src2, disp5_field]

end

/-! ## The branches and the `0111` format (R169) -/

theorem decode_control {w : Word} (h : fld w 28 4 = 7#4) : decode w = decodeControl w := by
  rw [decode, h]
  rfl

theorem decode_branch {w : Word} (htop : fld w 28 4 = 6#4) (hbit : w.getLsbD 27 = true) : decode w = decodeBranch w := by
  rw [decode, htop, hbit]
  rfl

theorem decode_long {w : Word} (htop : fld w 28 4 = 6#4) (hbit : w.getLsbD 27 = false) : decode w = decodeLong w := by
  rw [decode, htop, hbit]
  rfl

section

variable (hi : BitVec 6) (t : BTarget) (mid : BitVec 4) (c : Cond)

theorem wordB_bit26 : (wordB hi t mid c).getLsbD 26 = hi.getLsbD 0 :=
  (getLsbD_of_fld (wordB_ctl hi t mid c) (by decide : 0 < 2)).trans (by simp)

theorem wordB_bit27 : (wordB hi t mid c).getLsbD 27 = hi.getLsbD 1 :=
  (getLsbD_of_fld (wordB_ctl hi t mid c) (by decide : 1 < 2)).trans (by simp)

theorem wordB_bit21 : (wordB hi t mid c).getLsbD 21 = mid.getLsbD 0 :=
  getLsbD_of_fld (wordB_mid hi t mid c) (by decide : 0 < 4)

theorem targetOf_enc : targetOf (wordB hi t mid c) = t := by
  have hb : (wordB hi t mid c).getLsbD 25 = t.enc.1.getLsbD 0 := getLsbD_of_fld (wordB_b hi t mid c) Nat.zero_lt_one
  rw [targetOf, hb, wordB_disp, wordB_reg]
  cases t with
  | reg r => simp [BTarget.enc, half_code, regOf_code]
  | rel d => simp [BTarget.enc]

/-- A row with a condition and a target. -/
theorem target_row (mk : Cond → BTarget → Instr) :
    (bcondOf (wordB hi t mid c)).map (fun x => mk x (targetOf (wordB hi t mid c))) = .ok (mk c t) := by
  rw [targetOf_enc, bcondOf, wordB_cond, condOf_code]
  rfl

end

/-! ## The long immediates (R168)

`wordL`: the words of eight bits and a 24-bit immediate. -/

section

variable (hi : BitVec 8) (k : BitVec 24)

theorem decode_wordL (h : hi.extractLsb' 3 5 = 12#5) : decode (hi ++ k) = decodeLong (hi ++ k) := by
  have h5 : fld (hi ++ k) 27 5 = 12#5 := (extract_high hi k 27 5 (by decide)).trans h
  refine decode_long ?_ (getLsbD_of_fld h5 (by decide : 0 < 5))
  exact (extract_extract (hi ++ k) 27 5 1 4 (by decide)).symm.trans (congrArg _ h5)

theorem wordL_op : fld (hi ++ k) 24 4 = hi.extractLsb' 0 4 := extract_high _ _ _ _ (by decide)

theorem wordL_disp : fld (hi ++ k) 0 24 = k := extract_append_low hi k

end

/-! ## Traps, returns and block ends in a register (R169)

`wordR`: the words of traps and returns, with the condition between the operation code and the low half. `wordE`: the
words of RPTB and RPTBD with a register, whose code is the last field. -/

section

variable (hi : BitVec 11) (c : BitVec 5) (v : BitVec 16) (z : BitVec 7) (n : BitVec 9) (e : BitVec 27)

theorem wordR_top : fld (hi ++ c ++ v) 28 4 = hi.extractLsb' 7 4 :=
  (extract_high _ _ _ _ (by decide)).trans <| extract_high _ _ _ _ (by decide)

theorem wordR_ctl : fld (hi ++ c ++ v) 26 2 = hi.extractLsb' 5 2 :=
  (extract_high _ _ _ _ (by decide)).trans <| extract_high _ _ _ _ (by decide)

theorem wordR_row : fld (hi ++ c ++ v) 21 7 = hi.extractLsb' 0 7 :=
  (extract_high _ _ _ _ (by decide)).trans <| extract_high _ _ _ _ (by decide)

theorem wordR_cond : fld (hi ++ c ++ v) 16 5 = c :=
  (extract_high _ _ _ _ (by decide)).trans <| extract_append_low hi c

theorem wordR_low : fld (hi ++ c ++ v) 0 16 = v := extract_append_low _ v

/-- A trap's word is that of a return with the two parts of its low half. -/
theorem wordR_split : (hi ++ c ++ z ++ n : Word) = hi ++ c ++ (z ++ n : BitVec 16) := BitVec.append_assoc

theorem wordR_zeros : fld (hi ++ c ++ (z ++ n : BitVec 16)) 9 7 = z :=
  (extract_low _ _ _ _ (by decide)).trans <| extract_append_high z n

theorem wordR_trap : fld (hi ++ c ++ (z ++ n : BitVec 16)) 0 9 = n :=
  (extract_low _ _ _ _ (by decide)).trans <| extract_append_low z n

theorem wordE_top : fld (e ++ c) 28 4 = e.extractLsb' 23 4 := extract_high _ _ _ _ (by decide)

theorem wordE_ctl : fld (e ++ c) 26 2 = e.extractLsb' 21 2 := extract_high _ _ _ _ (by decide)

theorem wordE_row : fld (e ++ c) 21 7 = e.extractLsb' 16 7 := extract_high _ _ _ _ (by decide)

theorem wordE_zeros : fld (e ++ c) 5 16 = e.extractLsb' 0 16 := extract_high _ _ _ _ (by decide)

theorem wordE_reg : fld (e ++ c) 0 5 = c := extract_append_low e c

end

/-! ## The parallel formats (R167) -/

theorem decode_parallel {w : Word} (h : fld w 30 2 = 3#2) : decode w = decodeParallel w := by
  have htop := fld_append w 28 2 2
  rw [h] at htop
  have hlow : ∀ b : BitVec 2, b = 0#2 ∨ b = 1#2 ∨ b = 2#2 ∨ b = 3#2 := by decide
  rw [decode, ← htop]
  rcases hlow (fld w 28 2) with hlow | hlow | hlow | hlow <;> rw [hlow] <;> rfl

theorem decode_multiply {w : Word} (h : fld w 28 4 = 8#4) : decode w = decodeMultiply w := by
  rw [decode, h]
  rfl

section

variable {x y : Ind} (hx : x.wf8 = true) (hy : y.wf8 = true)

include hx hy

theorem pair1_enc (op : BitVec 5) (a c : Fin 8) (mk : Fin 8 → Fin 8 → Ind → Ind → Instr) :
    pair1 (wordP op (arBits a) 0#3 (arBits c) x y) mk = .ok (mk a c x y) := by
  rw [pair1, wordP_a, wordP_b, wordP_c, wordP_x, wordP_y]
  exact guarded_row rfl (both_row (ind8_field8 x hx) (ind8_field8 y hy) _) _

theorem pair2_enc (op : BitVec 5) (a b c : Fin 8) (mk : Fin 8 → Fin 8 → Fin 8 → Ind → Ind → Instr) :
    pair2 (wordP op (arBits a) (arBits b) (arBits c) x y) mk = .ok (mk a b c x y) := by
  rw [pair2, wordP_a, wordP_b, wordP_c, wordP_x, wordP_y]
  exact both_row (ind8_field8 x hx) (ind8_field8 y hy) _

end

/-! ## The instructions -/

theorem decode_encode (i : Instr) (h : i.wf = true) : decode (encode i) = .ok i := by
  cases i with
  | absi s d | addc s d | addi s d | and s d | andn s d | ash s d | cmpi s d | ldi s d | lsh s d | mpyi s d | negb s d
  | negi s d | not s d | or s d | subb s d | subc s d | subi s d | subrb s d | subri s d | tstb s d | xor s d
  | mpyshi s d | mpyuhi s d =>
    rw [encode, decode_wordG _ _ _ (by decide), decodeGeneral, wordG_op]
    exact reg_row _ _ d (srcOf_enc _ s _) _
  | lda s d =>
    rw [encode, decode_wordG _ _ _ (by decide), decodeGeneral, wordG_op]
    exact guarded_row (by rw [dstOf_wordG]; exact h) (reg_row _ _ d (srcOf_enc _ s _) _) _
  | float s d =>
    rw [encode, decode_wordG _ _ _ (by decide), decodeGeneral, wordG_op]
    exact ext_row _ _ d (srcOf_enc _ s _) _
  | absf s d | addf s d | cmpf s d | lde s d | ldf s d | ldm s d | mpyf s d | negf s d | norm s d | rnd s d | subf s d
  | subrf s d =>
    rw [encode, decode_wordG _ _ _ (by decide), decodeGeneral, wordG_op]
    exact ext_row _ _ d (fsrcOf_enc _ s _) _
  | fix s d =>
    rw [encode, decode_wordG _ _ _ (by decide), decodeGeneral, wordG_op]
    exact reg_row _ _ d (fsrcOf_enc _ s _) _
  | toieee s d | rcpf s d | rsqrf s d =>
    rw [encode, decode_wordG _ _ _ (by decide), decodeGeneral, wordG_op]
    exact ext_row _ _ d (frsrcOf_enc _ s _) _
  | frieee m d | ldfi m d =>
    rw [encode, decode_wordG _ _ _ (by decide), decodeGeneral, wordG_op]
    exact ext_row _ _ d (memOf_enc _ m _) _
  | ldii m d | sigi m d =>
    rw [encode, decode_wordG _ _ _ (by decide), decodeGeneral, wordG_op]
    exact reg_row _ _ d (memOf_enc _ m _) _
  | stf s m | stfi s m =>
    rw [encode, decode_wordG _ _ _ (by decide), decodeGeneral, wordG_op]
    exact both_row (fdstOf_wordG _ _ s) (memOf_enc _ m _) _
  | stii s m =>
    rw [encode, decode_wordG _ _ _ (by decide), decodeGeneral, wordG_op]
    exact reg_row _ _ s (memOf_enc _ m _) fun m s => .stii s m
  | stiDir s a =>
    rw [encode, decode_wordG _ _ _ (by decide), decodeGeneral, wordG_op, wordG_g, wordG_src, dstOf_wordG]
    rfl
  | stikDir k a =>
    rw [encode, decode_wordG _ _ _ (by decide), decodeGeneral, wordG_op, wordG_g, wordG_src, wordG_dst]
    rfl
  | stiInd s j =>
    rw [encode, decode_wordG _ _ _ (by decide), decodeGeneral, wordG_op, wordG_g, wordG_src, dstOf_wordG]
    exact map_row (ind16_field16 j) _
  | stikInd k j =>
    rw [encode, decode_wordG _ _ _ (by decide), decodeGeneral, wordG_op, wordG_g, wordG_src, wordG_dst]
    exact map_row (ind16_field16 j) _
  | idle => rfl
  | nop s =>
    rw [encode, decode_wordG _ _ _ (by decide), decodeGeneral, wordG_op]
    exact map_row (nopOf_enc _ s _) _
  | iack m =>
    rw [encode, decode_wordG _ _ _ (by decide), decodeGeneral, wordG_op]
    exact map_row (memOf_enc _ m _) _
  | pop r | push r | rol r | rolc r | ror r | rorc r =>
    rw [encode, decode_wordG _ _ _ (by decide), decodeGeneral, wordG_op, dstOf_wordG]
    exact fixed_row _ _ _ _ rfl
  | popf n | pushf n =>
    rw [encode, decode_wordG _ _ _ (by decide), decodeGeneral, wordG_op]
    exact fixed_row _ _ _ _ (map_row (fdstOf_wordG _ _ n) _)
  | rpts s =>
    rw [encode, decode_wordG _ _ _ (by decide), decodeGeneral, wordG_op, wordG_dst]
    exact guarded_row rfl (map_row (srcOf_enc _ s _) _) _
  | ldpk k =>
    rw [encode, decode_wordG _ _ _ (by decide), decodeGeneral, wordG_op, wordG_g, wordG_dst, wordG_src]
    rfl
  | ldhi k d =>
    rw [encode, decode_wordG _ _ _ (by decide), decodeGeneral, wordG_op, wordG_g, dstOf_wordG, wordG_src]
    rfl
  | ldfcond c s d =>
    rw [encode, decode, wordG_top, wordG_cond, extract_append_high, extract_append_low]
    exact both_row (condOf_code c) (ext_row _ _ d (fsrcOf_enc _ s _) Prod.mk) _
  | ldicond c s d =>
    rw [encode, decode, wordG_top, wordG_cond, extract_append_high, extract_append_low, dstOf_wordG]
    exact both_row (condOf_code c) (srcOf_enc _ s _) _
  | ldep x d =>
    rw [encode, decode_control (wordG_top _ _ _), decodeControl, wordG_ctl, if_neg (by decide), wordG_row,
      wordG_low_rest, wordG_low_reg]
    exact guarded_row rfl (reg_row _ _ d (xregOf_code x) _) _
  | ldpe r x =>
    rw [encode, decode_control (wordG_top _ _ _), decodeControl, wordG_ctl, if_neg (by decide), wordG_row,
      wordG_low_rest, wordG_low_reg, wordG_dst, regOf_code]
    exact guarded_row rfl (map_row (xregOf_code x) _) _
  | lb b s d | lbu b s d | lwl b s d | lwr b s d | mb b s d =>
    rw [encode, decode, wordG_top, decodeByte, wordG_mid, wordG_sel, extract_append_low]
    fin_cases b <;> exact reg_row _ _ d (rsrcOf_enc _ s _) _
  | lh b s d | lhu b s d | mh b s d =>
    rw [encode, decode, wordG_top, decodeByte, wordG_mid, wordG_bit, extract_append_low]
    fin_cases b <;> exact reg_row _ _ d (rsrcOf_enc _ s _) _
  | addc3 o d | addi3 o d | and3 o d | andn3 o d | ash3 o d | lsh3 o d | mpyi3 o d | or3 o d | subb3 o d | subi3 o d
  | xor3 o d | mpyshi3 o d | mpyuhi3 o d =>
    rw [encode, decode_three (wordT_top _ _ _), decodeThree, wordT_op, threeOps_enc _ _ o h, dstOf, wordT_dst, regOf_code]
    rfl
  | cmpi3 o | tstb3 o =>
    rw [encode, decode_three (wordT_top _ _ _), decodeThree, wordT_op]
    exact map_row (threeOps_enc _ _ o h) _
  | addf3 o d | mpyf3 o d | subf3 o d =>
    rw [encode, decode_three (wordT_top _ _ _), decodeThree, wordT_op, fdstOf, wordT_dst, extOf_code]
    exact both_row (threeFOps_enc _ _ o h) rfl _
  | cmpf3 o =>
    rw [encode, decode_three (wordT_top _ _ _), decodeThree, wordT_op]
    exact map_row (threeFOps_enc _ _ o h) _
  | bcond c t | bcondD c t | bcondAT c t | bcondAF c t =>
    rw [encode, decode_branch (by rw [wordB_top]; rfl) (by rw [wordB_bit27]; rfl), decodeBranch, wordB_bit26, wordB_mid]
    exact target_row _ t _ c _
  | dbcond n c t | dbcondD n c t =>
    rw [encode, decode_branch (by rw [wordB_top]; rfl) (by rw [wordB_bit27]; rfl), decodeBranch, wordB_bit26, wordB_bit21,
      wordB_n, extract_append_high, BitVec.getLsbD_append]
    exact target_row _ t _ c _
  | callcond c t | lajcond c t =>
    rw [encode, decode_control (by rw [wordB_top]; rfl), decodeControl, wordB_ctl, if_pos (by decide), wordB_mid]
    exact target_row _ t _ c _
  | br k | brd k | call k | laj k | rptbRel k | rptbdRel k =>
    rw [encode, decode_wordL _ k (by decide), decodeLong, wordL_op, wordL_disp]
    rfl
  | rptbReg r | rptbdReg r =>
    rw [encode, decode_control (wordE_top _ _), decodeControl, wordE_ctl, if_neg (by decide), wordE_row, wordE_zeros,
      wordE_reg, regOf_code]
    rfl
  | swi => rfl
  | trapcond c n | latcond c n =>
    rw [encode, wordR_split, decode_control (wordR_top _ _ _), decodeControl, wordR_ctl, if_neg (by decide), wordR_row,
      wordR_zeros, wordR_trap, bcondOf, wordR_cond]
    exact guarded_row rfl (map_row (condOf_code c) _) _
  | reticond c | reticondD c | retscond c =>
    rw [encode, decode_control (wordR_top _ _ _), decodeControl, wordR_ctl, if_neg (by decide), wordR_row, wordR_low,
      bcondOf, wordR_cond]
    exact guarded_row rfl (map_row (condOf_code c) _) _
  | stfStf a c x y | stiSti a c x y | ldfLdf a c x y | ldiLdi a c x y | absfStf a c x y | absiSti a c x y | fixSti a c x y
  | floatStf a c x y | ldfStf a c x y | ldiSti a c x y | negfStf a c x y | negiSti a c x y | notSti a c x y
  | toieeeStf a c x y | frieeeStf a c x y =>
    obtain ⟨hx, hy⟩ := Bool.and_eq_true_iff.1 h
    rw [encode, decode_parallel (wordP_top _ _ _ _ _ _), decodeParallel, wordP_op]
    exact pair1_enc hx hy _ a c _
  | addf3Stf a b c x y | addi3Sti a b c x y | and3Sti a b c x y | ash3Sti a b c x y | lsh3Sti a b c x y
  | mpyf3Stf a b c x y | mpyi3Sti a b c x y | or3Sti a b c x y | subf3Stf a b c x y | subi3Sti a b c x y
  | xor3Sti a b c x y =>
    obtain ⟨hx, hy⟩ := Bool.and_eq_true_iff.1 h
    rw [encode, decode_parallel (wordP_top _ _ _ _ _ _), decodeParallel, wordP_op]
    exact pair2_enc hx hy _ a b c _
  | mpyf3Addf3 p d e a b x y | mpyf3Subf3 p d e a b x y | mpyi3Addi3 p d e a b x y | mpyi3Subi3 p d e a b x y =>
    obtain ⟨hx, hy⟩ := Bool.and_eq_true_iff.1 h
    rw [encode, decode_multiply (wordM_top _ _ _ _ _ _ _ _), decodeMultiply, wordM_op, wordM_p, wordM_d1, wordM_d2,
      wordM_a, wordM_b, wordM_x, wordM_y]
    exact both_row (ind8_field8 x hx) (ind8_field8 y hy) _

/-! ## What the decoder answers is well formed -/

section

variable {α β γ : Type} {r : Except DecodeError α} {q : Except DecodeError β}

/-- Whatever a decoder answers has the property `P`. -/
def Answers (r : Except DecodeError α) (P : α → Prop) : Prop := ∀ a, r = .ok a → P a

theorem Answers.ok {a : α} {P : α → Prop} (h : P a) : Answers (.ok a) P := by
  rintro _ ⟨⟩
  exact h

theorem Answers.error {e : DecodeError} {P : α → Prop} : Answers (.error e) P := by
  rintro _ ⟨⟩

theorem Answers.of_forall {P : α → Prop} (h : ∀ a, P a) : Answers r P := fun a _ => h a

theorem Answers.any (r : Except DecodeError α) : Answers r fun _ => True := .of_forall fun _ => trivial

theorem Answers.map {f : α → β} {P : β → Prop} (h : Answers r fun a => P (f a)) : Answers (r.map f) P := by
  cases r with
  | ok a => exact .ok (h a rfl)
  | error e => exact .error

theorem Answers.both {k : α → β → γ} {P : α → Prop} {Q : β → Prop} {R : γ → Prop} (hr : Answers r P) (hq : Answers q Q)
    (h : ∀ a b, P a → Q b → R (k a b)) : Answers (both r q k) R := by
  cases r with
  | error e => exact .error
  | ok a =>
    cases q with
    | error e => exact .error
    | ok b => exact .ok (h a b (hr a rfl) (hq b rfl))

theorem Answers.guarded {c : Bool} {e : DecodeError} {P : α → Prop} (h : c = true → Answers r P) :
    Answers (guarded c e r) P := by
  cases c with
  | true => exact h rfl
  | false => exact .error

end

/-! ### The sources -/

/-- The 8-bit field implies the displacement 1 (R199). -/
theorem ind8_answers_wf (f : BitVec 8) : Answers (ind8 f) fun i => i.wf8 = true := by
  rw [ind8, indOf]
  split
  · next x hx =>
    have himplied : x.implied = true := by
      unfold indexOf at hx
      split at hx <;> cases hx <;> rfl
    split
    · exact .ok himplied
    · exact .ok himplied
  · split
    · exact .ok rfl
    · exact .ok rfl
    · exact .error

/-- Two 8-bit fields. -/
theorem ind8_both_answers {α : Type} (f g : BitVec 8) (k : Ind → Ind → α) {P : α → Prop}
    (h : ∀ x y : Ind, (x.wf8 && y.wf8) = true → P (k x y)) : Answers (both (ind8 f) (ind8 g) k) P :=
  (ind8_answers_wf f).both (ind8_answers_wf g) fun x y hx hy => h x y (Bool.and_eq_true_iff.2 ⟨hx, hy⟩)

theorem ops1_answers_wf (w : Word) : Answers (ops1 w) fun o => o.wf = true := by
  unfold ops1
  split
  · exact .ok rfl
  · exact .map (ind8_answers_wf _)
  · exact .map (ind8_answers_wf _)
  · exact ind8_both_answers _ _ _ fun _ _ h => h

theorem ops2_answers_wf (w : Word) : Answers (ops2 w) fun o => o.wf = true := by
  unfold ops2
  split <;> exact .ok rfl

theorem fops1_answers_wf (w : Word) : Answers (fops1 w) fun o => o.wf = true := by
  unfold fops1
  split
  · exact .both (.any _) (.any _) fun _ _ _ _ => rfl
  · exact (ind8_answers_wf _).both (.any _) fun _ _ h _ => h
  · exact .both (.any _) (ind8_answers_wf _) fun _ _ _ h => h
  · exact ind8_both_answers _ _ _ fun _ _ h => h

theorem fops2_answers_wf (w : Word) : Answers (fops2 w) fun o => o.wf = true := by
  unfold fops2
  split
  · exact .map (.of_forall fun _ => rfl)
  · exact .ok rfl
  · exact .error

/-! ### The formats -/

section

variable {α β : Type}

/-- A row of an instruction whose operands are not checked. -/
theorem map_answers_wf (r : Except DecodeError α) {f : α → Instr} (h : ∀ a, (f a).wf = true) :
    Answers (r.map f) fun i => i.wf = true := .map (.of_forall h)

theorem both_answers_wf (r : Except DecodeError α) (q : Except DecodeError β) {k : α → β → Instr}
    (h : ∀ a b, (k a b).wf = true) : Answers (both r q k) fun i => i.wf = true :=
  .both (.any r) (.any q) fun a b _ _ => h a b

end

theorem decodeGeneral_answers_wf (w : Word) : Answers (decodeGeneral w) fun i => i.wf = true := by
  unfold decodeGeneral
  split
  any_goals refine .guarded fun _ => ?_
  any_goals exact map_answers_wf _ fun _ => rfl
  any_goals exact both_answers_wf _ _ fun _ _ => rfl
  any_goals exact .ok rfl
  · split
    · exact .ok rfl
    · exact .ok rfl
    · exact map_answers_wf _ fun _ => rfl
    · exact map_answers_wf _ fun _ => rfl
  · next haddress => exact map_answers_wf _ fun _ => haddress
  · exact .error

theorem decodeThree_answers_wf {w : Word} {ops : Except DecodeError Ops3} {fops : Except DecodeError FOps3}
    (hops : Answers ops fun o => o.wf = true) (hfops : Answers fops fun o => o.wf = true) :
    Answers (decodeThree w ops fops) fun i => i.wf = true := by
  unfold decodeThree
  split
  any_goals refine .map ?_
  any_goals assumption
  any_goals exact hfops.both (.any _) fun _ _ h _ => h
  exact .error

theorem decodeLong_answers_wf (w : Word) : Answers (decodeLong w) fun i => i.wf = true := by
  unfold decodeLong
  split
  any_goals exact .ok rfl
  exact .error

theorem decodeBranch_answers_wf (w : Word) : Answers (decodeBranch w) fun i => i.wf = true := by
  unfold decodeBranch
  split
  · split <;> exact map_answers_wf _ fun _ => rfl
  · split
    any_goals exact map_answers_wf _ fun _ => rfl
    exact .error

theorem decodeControl_answers_wf (w : Word) : Answers (decodeControl w) fun i => i.wf = true := by
  unfold decodeControl
  split
  · split
    any_goals exact map_answers_wf _ fun _ => rfl
    exact .error
  · split
    any_goals exact .guarded fun _ => map_answers_wf _ fun _ => rfl
    any_goals exact .guarded fun _ => .ok rfl
    exact .error

theorem decodeMultiply_answers_wf (w : Word) : Answers (decodeMultiply w) fun i => i.wf = true := by
  unfold decodeMultiply
  split <;> exact ind8_both_answers _ _ _ fun _ _ h => h

theorem decodeByte_answers_wf (w : Word) : Answers (decodeByte w) fun i => i.wf = true := by
  unfold decodeByte
  split
  any_goals exact map_answers_wf _ fun _ => rfl
  exact .error

theorem pair1_answers_wf (w : Word) {mk : Fin 8 → Fin 8 → Ind → Ind → Instr}
    (h : ∀ a c x y, (x.wf8 && y.wf8) = true → (mk a c x y).wf = true) : Answers (pair1 w mk) fun i => i.wf = true :=
  .guarded fun _ => ind8_both_answers _ _ _ (h _ _)

theorem pair2_answers_wf (w : Word) {mk : Fin 8 → Fin 8 → Fin 8 → Ind → Ind → Instr}
    (h : ∀ a b c x y, (x.wf8 && y.wf8) = true → (mk a b c x y).wf = true) : Answers (pair2 w mk) fun i => i.wf = true :=
  ind8_both_answers _ _ _ (h _ _ _)

theorem decodeParallel_answers_wf (w : Word) : Answers (decodeParallel w) fun i => i.wf = true := by
  unfold decodeParallel
  split
  any_goals exact pair1_answers_wf w fun _ _ _ _ h => h
  any_goals exact pair2_answers_wf w fun _ _ _ _ _ h => h
  exact .error

theorem decode_answers_wf (w : Word) : Answers (decode w) fun i => i.wf = true := by
  unfold decode
  split
  any_goals exact decodeGeneral_answers_wf w
  any_goals exact decodeParallel_answers_wf w
  any_goals exact .error
  · exact decodeThree_answers_wf (ops1_answers_wf w) (fops1_answers_wf w)
  · exact decodeThree_answers_wf (ops2_answers_wf w) (fops2_answers_wf w)
  · exact both_answers_wf _ _ fun _ _ => rfl
  · exact both_answers_wf _ _ fun _ _ => rfl
  · split
    · exact decodeBranch_answers_wf w
    · exact decodeLong_answers_wf w
  · exact decodeControl_answers_wf w
  · exact decodeMultiply_answers_wf w
  · exact decodeByte_answers_wf w

/-- Settles O1: row by row of the encoder, and format by format of the decoder. -/
theorem decodeEncode : Obligations.DecodeEncode :=
  ⟨decode_encode, fun w i h => decode_answers_wf w i h⟩

/-! ## Words written out -/

theorem decode_of_encode {w : Word} {i : Instr} (hword : encode i = w) (h : i.wf = true) : decode w = .ok i := by
  rw [← hword, decode_encode i h]

/-- Settles O2: each word is the encoding of its instruction. -/
theorem decodeWords : Obligations.DecodeWords :=
  ⟨decode_of_encode rfl rfl, decode_of_encode rfl rfl, decode_of_encode rfl rfl, decode_of_encode rfl rfl,
    decode_of_encode rfl rfl, decode_of_encode rfl rfl, decode_of_encode rfl rfl, decode_of_encode rfl rfl,
    decode_of_encode rfl rfl, decode_of_encode rfl rfl, decode_of_encode rfl rfl, decode_of_encode rfl rfl⟩

/-! ## Conditions (R200) -/

/-- Settles O17: the codes of the table and the codes outside it one by one, and the test of each condition (HI and GT are the
complements of LS and LE). -/
theorem conditions : Obligations.Conditions := by
  refine ⟨by decide, by decide, fun s => ?_⟩
  simp [Machine.State.cond]

end Sys2Proof.Laws

/-! The operands of the general format and the indirect modes (30_encoding.md R162 to R201). -/

namespace Sys2Proof.Machine

/-! ## Sources -/

theorem asFloat_of_ok {x : Res Word} {w : Word} {t : State} (h : x = .ok w t) : asFloat x = .ok (w ++ 0#8) t := by
  rw [h]
  rfl

/-- A short floating-point number; the exponent -8 is zero whatever the mantissa (D25). -/
theorem shortToExt_eq (v : BitVec 16) : shortToExt v = if v.extractLsb' 12 4 = 8 then 0x8000000000
    else (v.extractLsb' 12 4).signExtend 8 ++ v.extractLsb' 0 12 ++ 0#20 := by
  rw [shortToExt, BitVec.append_assoc]
  by_cases h : v.extractLsb' 12 4 = 8
  · rw [if_pos h, if_pos (by simpa using h)]
    rfl
  · rw [if_neg h, if_neg (by simpa using h)]
    rfl

theorem srcF_imm (v : BitVec 16) (s : State) : srcF (.imm v) s = .ok (shortToExt v) s := rfl

/-- Settles O8: each form of a source is its case of the reader, and a memory word is read as a single. -/
theorem registerAndImmediateSources : Obligations.RegisterAndImmediateSources := by
  intro s r n v i
  have himm := (srcF_imm v s).trans (congrArg (fun x => Res.ok x s) (shortToExt_eq v))
  exact ⟨rfl, rfl, rfl, rfl, rfl, rfl, rfl, himm, rfl, rfl, rfl, rfl, rfl, rfl, rfl,
    fun _ _ => ⟨fun h => ⟨asFloat_of_ok h, asFloat_of_ok h⟩, fun h => ⟨asFloat_of_ok h, asFloat_of_ok h⟩⟩⟩

/-! ## Linear modes -/

section

variable {x : Index} {hi : BitVec 2} {d : BitVec 8} (hx : indexOf hi d = some x) (sub : Bool) (n : Fin 8)

include hx

/-- The `mod` field of predisplacement, cut into its index source and its two switches. -/
theorem indOf_pre_code (modify : Bool) :
    indOf (hi ++ 0#1 ++ BitVec.ofBool modify ++ BitVec.ofBool sub) (BitVec.ofFin n) d = .ok (.pre sub modify x n) := by
  rw [indOf, Laws.mod_hi, hx, Laws.mod_kind, Laws.mod_bit1, Laws.mod_bit0]
  rfl

/-- As `indOf_pre_code`, for postdisplacement. -/
theorem indOf_post_code (circular : Bool) :
    indOf (hi ++ 1#1 ++ BitVec.ofBool circular ++ BitVec.ofBool sub) (BitVec.ofFin n) d =
      .ok (.post sub circular x n) := by
  rw [indOf, Laws.mod_hi, hx, Laws.mod_kind, Laws.mod_bit1, Laws.mod_bit0]
  rfl

end

/-- Settles O9: the codes of each index source and of the plain mode, then address and update of each mode. -/
theorem indirectModes : Obligations.IndirectModes := by
  refine ⟨fun n d => ?_, fun s n x d => ⟨rfl, rfl, rfl, rfl, rfl, rfl, rfl, rfl, rfl, rfl⟩⟩
  simp only [List.forall_mem_cons]
  exact ⟨indOf_pre_code (hi := 0) rfl false n false, indOf_pre_code (hi := 0) rfl true n false,
    indOf_pre_code (hi := 0) rfl false n true, indOf_pre_code (hi := 0) rfl true n true,
    indOf_post_code (hi := 0) rfl false n false, indOf_post_code (hi := 0) rfl true n false,
    indOf_pre_code (hi := 1) rfl false n false, indOf_pre_code (hi := 1) rfl true n false,
    indOf_pre_code (hi := 1) rfl false n true, indOf_pre_code (hi := 1) rfl true n true,
    indOf_post_code (hi := 1) rfl false n false, indOf_post_code (hi := 1) rfl true n false,
    indOf_pre_code (hi := 2) rfl false n false, indOf_pre_code (hi := 2) rfl true n false,
    indOf_pre_code (hi := 2) rfl false n true, indOf_pre_code (hi := 2) rfl true n true,
    indOf_post_code (hi := 2) rfl false n false, indOf_post_code (hi := 2) rfl true n false,
    Laws.indOf_plain _ d, List.forall_mem_nil _⟩

/-! ## Circular addressing (R196) -/

/-- The next index stays in the buffer. -/
theorem circNext_lt {b i x : Nat} (hi : i < b) (hx : x ≤ b) (sub : Bool) : circNext b i x sub < b := by
  unfold circNext
  split_ifs <;> omega

/-- The next index is the step modulo the length of the buffer. -/
theorem circNext_emod {b i x : Nat} (hx : x ≤ b) (sub : Bool) :
    (circNext b i x sub : Int) % b = (i + (if sub then -(x : Int) else x)) % b := by
  refine Int.modEq_iff_dvd.2 ?_
  cases sub with
  | true =>
    by_cases h : x ≤ i
    · exact ⟨0, by simp [circNext, h]⟩
    · exact ⟨-1, by simp [circNext, h]; omega⟩
  | false =>
    by_cases h : i + x < b
    · exact ⟨0, by simp [circNext, h]⟩
    · exact ⟨1, by simp [circNext, h]; omega⟩

section

variable {bk a x : Word}

/-- The stated conditions (R196, U16) with the numbers that they are about. -/
theorem circDefined_iff : circDefined bk a x = true ↔
    bk.toNat % 2 ^ 16 ≠ 0 ∧ bk.toNat < 2 ^ 16 ∧ x.toNat ≤ bk.toNat ∧ circIndex bk a < bk.toNat := by
  simp [circDefined, and_assoc]

theorem circBits_le (h : bk.toNat % 2 ^ 16 ≠ 0) : circBits bk ≤ 16 :=
  (Nat.log2_lt h).2 (Nat.mod_lt _ (Nat.two_pow_pos 16))

theorem toNat_lt_two_pow_circBits (h : bk.toNat < 2 ^ 16) : bk.toNat < 2 ^ circBits bk := by
  rw [circBits, Nat.mod_eq_of_lt h]
  exact Nat.lt_log2_self

/-- Inside its aligned block an address changes its index alone. -/
theorem toNat_block (k n : Nat) (hk : k ≤ 32) (hn : n < 2 ^ k) :
    (BitVec.ofNat 32 (a.toNat - a.toNat % 2 ^ k + n)).toNat = 2 ^ k * (a.toNat / 2 ^ k) + n := by
  have hstart : a.toNat - a.toNat % 2 ^ k = 2 ^ k * (a.toNat / 2 ^ k) := Nat.sub_eq_of_eq_add (Nat.div_add_mod _ _).symm
  have hblocks : a.toNat / 2 ^ k < 2 ^ (32 - k) :=
    Nat.div_lt_of_lt_mul (by rw [← Nat.pow_add, Nat.add_sub_cancel' hk]; exact a.isLt)
  have hend : 2 ^ k * (a.toNat / 2 ^ k) + n < 2 ^ 32 :=
    calc 2 ^ k * (a.toNat / 2 ^ k) + n < 2 ^ k * (a.toNat / 2 ^ k + 1) := by rw [Nat.mul_succ]; omega
      _ ≤ 2 ^ k * 2 ^ (32 - k) := Nat.mul_le_mul_left _ hblocks
      _ = 2 ^ 32 := by rw [← Nat.pow_add, Nat.add_sub_cancel' hk]
  rw [hstart, BitVec.toNat_ofNat, Nat.mod_eq_of_lt hend]

theorem circ_toNat (h : circDefined bk a x = true) (sub : Bool) : (circ bk a x sub).toNat =
    2 ^ circBits bk * (a.toNat / 2 ^ circBits bk) + circNext bk.toNat (circIndex bk a) x.toNat sub := by
  obtain ⟨hne, hbk, hx, hi⟩ := circDefined_iff.1 h
  rw [circ, if_pos h]
  exact toNat_block _ _ ((circBits_le hne).trans (by decide))
    ((circNext_lt hi hx sub).trans (toNat_lt_two_pow_circBits hbk))

end

theorem indEval_post_circular (s : State) (n : Fin 8) (x : Index) (sub : Bool) : indEval (.post sub true x n) s =
    .ok s.ar[n] (s.wrAr n (circ s.bk s.ar[n] (s.index x) sub)) := rfl

theorem indEval_bitRev (s : State) (n : Fin 8) : indEval (.bitRev n) s =
    .ok s.ar[n] (s.wrAr n (s.ar[n].reverse + s.ir0.reverse).reverse) := rfl

/-- Settles O10: the register's new value is its block and the next index. -/
theorem circularAndBitReversed : Obligations.CircularAndBitReversed := by
  intro s n x sub
  refine ⟨fun h => ⟨_, indEval_post_circular s n x sub, ?_⟩, fun _ => ⟨_, indEval_post_circular s n x sub⟩,
    indEval_bitRev s n⟩
  obtain ⟨-, hbk, hx, hi⟩ := circDefined_iff.1 h
  have hnext := circNext_lt hi hx sub
  have hblock := hnext.trans (toNat_lt_two_pow_circBits hbk)
  rw [circ_toNat h, Nat.mul_add_div (Nat.two_pow_pos _), Nat.div_eq_of_lt hblock, Nat.mul_add_mod,
    Nat.mod_eq_of_lt hblock]
  exact ⟨rfl, hnext, circNext_emod hx sub⟩

end Sys2Proof.Machine

/-! The floating-point results: the value of each operation brought into the format, the conversions and the estimates
(40_numerics.md R232 to R250). -/

namespace Sys2Proof.Machine

/-! ## FIX -/

/-- A number that is not zero, with an exponent of at most 30, gives the floor of its value (R244). -/
theorem fFix_floor {a : Ext} (hz : fIsZero a = false) (he : expo a ≤ 30) : (fFix a).2 = false ∧
    (fFix a).1.toInt * 2 ^ (31 - expo a).toNat ≤ mant a ∧ mant a < ((fFix a).1.toInt + 1) * 2 ^ (31 - expo a).toNat := by
  set k := (31 - expo a).toNat with hk
  have hfix : fFix a = (BitVec.ofInt 32 (mant a / 2 ^ k), false) := by
    have hneg : -(expo a - 31) = 31 - expo a := by ring
    rw [fFix, if_neg (by simp [hz]), if_neg (by omega), shiftInt, if_neg (by omega), hneg]
  have hpos : (0 : ℤ) < 2 ^ k := by positivity
  have hlow := Int.ediv_mul_le (mant a) hpos.ne'
  have hhigh := Int.lt_ediv_add_one_mul_self (mant a) hpos
  have htwo : (2 : ℤ) ≤ 2 ^ k := le_self_pow₀ (by norm_num) (by omega)
  have hfits : -2 ^ 31 ≤ mant a / 2 ^ k ∧ mant a / 2 ^ k < 2 ^ 31 := by
    have hb := mant_bounds a
    exact ⟨Int.le_ediv_of_mul_le hpos (by omega), Int.ediv_lt_of_lt_mul hpos (by omega)⟩
  have hint : (BitVec.ofInt 32 (mant a / 2 ^ k)).toInt = mant a / 2 ^ k := by
    rw [BitVec.toInt_ofInt, Int.bmod_eq_of_le (by omega) (by omega)]
  rw [hfix, hint]
  exact ⟨rfl, hlow, hhigh⟩

/-- Settles O25: the floor of the value (`fFix_floor`) or the end of the range. -/
theorem fixRoundsDown : Obligations.FixRoundsDown := by
  intro a
  refine ⟨fun hz => by simp [fFix, hz], fun hz => ⟨fFix_floor hz, fun he => ?_⟩⟩
  rw [fFix, if_neg (by simp [hz]), if_pos (by omega)]
  split <;> rfl

/-! ## Products -/

/-- A product in the terms of `pack`, a zero operand among them (R240). -/
theorem fMul_eq_pack (a b : Ext) : fMul a b = pack (addend a * addend b) (expo a + expo b - 31) := by
  cases ha : fIsZero a <;> cases hb : fIsZero b <;> simp [fMul, addend, ha, hb, pack]

/-- A product of two mantissas has at least 63 bits. -/
theorem signedBits_product (a b : Ext) : 63 ≤ signedBits (mant a * mant b) := by
  have hne : mant a * mant b ≠ 0 := mul_ne_zero (mant_sign a).2 (mant_sign b).2
  obtain ⟨hpos, hneg⟩ := signedBits_bounds hne
  have hsize : (2 : ℤ) ^ 62 ≤ mant a * mant b ∨ mant a * mant b < -2 ^ 62 := by
    rcases mant_bounds a with ⟨-, ha, -⟩ | ⟨-, -, ha⟩ <;> rcases mant_bounds b with ⟨-, hb, -⟩ | ⟨-, -, hb⟩
    · exact .inl (by nlinarith)
    · exact .inr (by nlinarith)
    · exact .inr (by nlinarith)
    · exact .inl (by nlinarith)
  by_contra hlt
  have hpow : (2 : ℤ) ^ signedBits (mant a * mant b) ≤ 2 ^ 62 := pow_le_pow_right₀ (by norm_num) (by omega)
  rcases hsize with h | h
  · have := (hpos (by omega)).2.1
    omega
  · have := (hneg (by omega)).1
    omega

/-- Settles O26, by the cases of `pack_cases`: a product drops bits, so its shift is a division. -/
theorem floatProductTruncates : Obligations.FloatProductTruncates := by
  intro a b ha hb
  have hne : mant a * mant b ≠ 0 := mul_ne_zero (mant_sign a).2 (mant_sign b).2
  have hbits := signedBits_product a b
  have hmul : fMul a b = pack (mant a * mant b) (expo a + expo b - 31) := by simp [fMul, ha, hb]
  rw [hmul]
  rcases pack_cases (mant a * mant b) (expo a + expo b - 31) with
    ⟨h0, -⟩ | ⟨-, -, hovf⟩ | ⟨-, -, hunf⟩ | ⟨-, hovf, hunf, hexpo, hmant, -⟩
  · exact absurd h0 hne
  · rw [hovf]
    exact ⟨nofun, fun _ => rfl, nofun⟩
  · rw [hunf]
    exact ⟨nofun, nofun, fun _ => rfl⟩
  · refine ⟨fun _ _ => ?_, fun h => absurd h (by simp [hovf]), fun h => absurd h (by simp [hunf])⟩
    generalize signedBits (mant a * mant b) = n at *
    have hdrop : 31 + expo (pack (mant a * mant b) (expo a + expo b - 31)).r - expo a - expo b = (n - 32 : ℕ) := by
      omega
    have hdiv : shiftInt (mant a * mant b) (32 - n) = mant a * mant b / 2 ^ (n - 32) := by
      rw [shiftInt, if_neg (by omega)]
      congr 2
      omega
    have hpos : (0 : ℤ) < 2 ^ (n - 32) := by positivity
    rw [hdrop, hmant, hdiv, Int.toNat_natCast]
    exact ⟨Int.natCast_nonneg _, Int.ediv_mul_le _ hpos.ne', Int.lt_ediv_add_one_mul_self _ hpos⟩

/-! ## The results of the operations -/

/-- A product is the exact one (R240). -/
theorem fMul_result (a b : Ext) : ResultOf (valueOf a * valueOf b) (fMul a b) := by
  have hvalue : valueOf a * valueOf b =
      ((addend a * addend b : ℤ) : ℚ) * 2 ^ (expo a + expo b - 31 - 31) := by
    have hpow : (2 : ℚ) ^ (expo a + expo b - 31 - 31) = 2 ^ (expo a - 31) * 2 ^ (expo b - 31) := by
      rw [← zpow_add₀ (by norm_num)]
      congr 1
      omega
    rw [value_addend, value_addend, hpow, Int.cast_mul]
    ring
  rw [hvalue, fMul_eq_pack]
  exact pack_result _ _

/-- FAdd gives the result of the aligned sum (R241). -/
theorem fAdd_result (a b : Ext) :
    let e := max (expo a) (expo b)
    ResultOf (((shiftInt (addend a) (expo a - e) : ℤ) + (shiftInt (addend b) (expo b - e) : ℤ) : ℚ) * 2 ^ (e - 31))
      (fAdd a b) := by
  intro e
  rw [← Int.cast_add]
  exact pack_result _ e

/-- The negation of a value is exact (R250). -/
theorem fNeg_result (a : Ext) : ResultOf (-valueOf a) (fNeg a) := by
  have hzero : addend fZero = 0 := by decide
  have hmax : max (expo fZero) (expo a) = expo a := max_eq_right (expo_bounds a).1
  have hnone : shiftInt 0 (expo fZero - expo a) = 0 := by simp [shiftInt]
  have hneg : fNeg a = pack (-addend a) (expo a) := by
    simp only [fNeg, fSub, hmax, hzero, hnone, sub_self, shiftInt_zero, zero_sub]
  have hvalue : -valueOf a = ((-addend a : ℤ) : ℚ) * 2 ^ (expo a - 31) := by
    rw [value_addend, Int.cast_neg, neg_mul]
  rw [hneg, hvalue]
  exact pack_result _ _

/-- A value without its low byte. -/
theorem low_byte_cleared (x : Ext) : x &&& 0xFFFFFFFF00 = x.extractLsb' 8 32 ++ 0#8 := by
  have hmask : (0xFFFFFFFF00 : Ext) = BitVec.allOnes 32 ++ 0#8 := by decide
  apply BitVec.eq_of_getLsbD_eq
  intro i hi
  rw [hmask, BitVec.getLsbD_and, BitVec.getLsbD_append, BitVec.getLsbD_append]
  by_cases h : i < 8
  · simp [h]
  · rw [if_neg h, if_neg h, BitVec.getLsbD_allOnes, BitVec.getLsbD_extractLsb', Nat.add_sub_cancel' (by omega),
      Bool.and_comm]

/-- RND of a number that is not zero: half a place is added, and the low byte is dropped from what fits (R243). -/
theorem fRnd_nonzero {a : Ext} (hz : fIsZero a = false) :
    let x := pack (mant a + 128) (expo a)
    fRnd a = { x with r := if x.ovf || x.unf then x.r else x.r &&& 0xFFFFFFFF00 } := by
  intro x
  have hrnd : fRnd a = if x.ovf || x.unf then x else { x with r := x.r.extractLsb' 8 32 ++ 0#8 } := by
    rw [fRnd, if_neg (by simp [hz])]
  rw [hrnd, low_byte_cleared]
  split <;> rfl

/-- Settles O22: each operation packs its exact value (`pack_result`), and each instruction writes its result. -/
theorem floatArithmetic : Obligations.FloatArithmetic := by
  refine ⟨fun a b => ?_, fun src dst s t a hsrc hlive => ?_⟩
  · intro e part low
    have hpart : ∀ x, part x = shiftInt (addend x) (expo x - e) := fun x => addend_floor x e
    rw [hpart a, hpart b]
    refine ⟨fAdd_result a b, ?_, fMul_result a b, fun hneg => ?_, fun hpos => ?_, fun hz => ?_, fun hz => ?_⟩
    · rw [← hpart a, ← hpart b]
      exact alignedDiff_result a b
    · rw [fAbs, if_pos hneg]
      exact fNeg_result a
    · rw [fAbs, if_neg (ne_true_of_eq_false hpos)]
      rfl
    · have hzero : fIsZero a = true := by simp [fIsZero_iff, hz]
      exact ⟨by rw [fNorm, if_pos hzero]; rfl, by rw [fRnd, if_pos hzero]; rfl⟩
    · have hzero : fIsZero a = false := by simp [fIsZero_iff, hz]
      refine ⟨?_, pack (mant a + 128) (expo a), ?_, fRnd_nonzero hzero⟩
      · rw [fNorm, if_neg (by simp [hzero])]
        exact pack_result _ _
      · have hround := pack_result (mant a + 128) (expo a)
        push_cast at hround
        exact hround
  · have ht : t.annulled = false := (srcF_readBy hsrc).annulled.trans hlive
    refine ⟨?_, execute_live hsrc ht, execute_live hsrc ht⟩
    simp only [List.forall_mem_cons, List.not_mem_nil, false_imp_iff, implies_true, and_true]
    exact ⟨execute_live hsrc ht, execute_live hsrc ht, execute_live hsrc ht, execute_live hsrc ht,
      execute_live hsrc ht, execute_live hsrc ht⟩

/-! ## The estimates -/

/-- Rcpf of a zero overflows (R246). -/
theorem fRcp_zero {a : Ext} (hz : fIsZero a = true) : fRcp a = (fMax, true) := by rw [fRcp, if_pos hz]

/-- Only the reciprocal of a zero overflows (R246). -/
theorem fRcp_overflow (a : Ext) : (fRcp a).2 = fIsZero a := by
  cases hz : fIsZero a
  · rw [fRcp, if_neg (by simp [hz])]
    split <;> rfl
  · rw [fRcp_zero hz]

/-- What RCPF writes (R407). -/
theorem rcpF_eq (a : Ext) : rcpF a = { r := (fRcp a).1, f :=
    { n := if fIsZero a then a.getLsbD 31 else (fRcp a).1.getLsbD 31, z := fIsZero (fRcp a).1, v := fIsZero a,
      uf := false, c := none } } := by
  rw [rcpF, fRcp_overflow]
  rfl

/-- Rsqrf of a zero overflows (R247). -/
theorem fRsq_zero {a : Ext} (hz : fIsZero a = true) : fRsq a = (fMax, true) := by rw [fRsq, if_pos hz]

/-- Only the root of a zero overflows (R247). -/
theorem fRsq_overflow (a : Ext) : (fRsq a).2 = fIsZero a := by
  cases hz : fIsZero a
  · rw [fRsq, if_neg (by simp [hz])]
  · rw [fRsq_zero hz]

/-- What RSQRF writes where the operand is not negative (R413). -/
theorem rsqF_eq (a : Ext) : rsqF a =
    { r := (fRsq a).1, f := { n := false, z := false, v := fIsZero a, uf := false, c := none } } := by
  rw [rsqF, fRsq_overflow]

/-- Settles O27: the instructions write the estimates, which `fRcp_spec` and `fRsq_spec` describe. -/
theorem estimates : Obligations.Estimates := by
  intro src dst s t a hsrc hlive special v
  have ht : t.annulled = false := (srcFR_readBy hsrc).annulled.trans hlive
  refine ⟨⟨(fRcp a).1, ?_, fun hz => ?_, fun hz h127 => ?_, fun hz h127 => fRcp_spec a hz h127⟩,
    fun hroot => ⟨(fRsq a).1, ?_, fun hz => ?_, fun hz => fRsq_spec a hz ?_⟩, fun hneg =>
    ⟨Config.freeExt t.free, Config.freeFlags t.free, ?_⟩⟩
  · refine (execute_live hsrc ht).trans ?_
    rw [rcpF_eq]
  · rw [fRcp_zero hz]
    rfl
  · rw [fRcp, if_neg (by simp [hz]), if_pos h127]
    rfl
  · have hwrites : (fN a && !fIsZero a) = false := by
      rcases hroot with hpos | hz
      · rw [fN, hpos, Bool.false_and]
      · rw [hz, Bool.not_true, Bool.and_false]
    refine (execute_live hsrc ht).trans ?_
    rw [hwrites, rsqF_eq]
    rfl
  · rw [fRsq_zero hz]
    rfl
  · exact hroot.resolve_right (by simp [hz])
  · have hfree : (fN a && !fIsZero a) = true := by simp [fN, hneg]
    refine (execute_live hsrc ht).trans ?_
    rw [hfree]
    rfl

/-! ## FLOAT and FIX -/

/-- An integer value has an exponent of at most 30. -/
theorem expo_of_value {a : Ext} {i : Word} (hvalue : valueOf a = i.toInt) : expo a ≤ 30 := by
  by_contra hbig
  have hne : expo a ≠ -128 := by omega
  have hscale : (1 : ℚ) ≤ 2 ^ (expo a - 31) := one_le_zpow₀ (by norm_num) (by omega)
  rw [valueOf, if_neg hne] at hvalue
  obtain ⟨hlow, hhigh⟩ := word_bounds i
  have hlow' : (-2147483648 : ℚ) ≤ i.toInt := by exact_mod_cast hlow
  have hhigh' : (i.toInt : ℚ) < 2147483648 := by exact_mod_cast hhigh
  rcases mant_bounds a with ⟨-, hm, -⟩ | ⟨-, -, hm⟩
  · have hm' : (2 : ℚ) ^ 31 ≤ mant a := by exact_mod_cast hm
    nlinarith
  · have hm' : (mant a : ℚ) < -2 ^ 31 := by exact_mod_cast hm
    nlinarith

/-- FIX of an integer value is that integer (R244, R245). -/
theorem fFix_of_value {a : Ext} {i : Word} (hvalue : valueOf a = i.toInt) : fFix a = (i, false) := by
  cases hz : fIsZero a
  · have hexpo := expo_of_value hvalue
    obtain ⟨hovf, hlow, hhigh⟩ := fFix_floor hz hexpo
    have hmant : mant a = i.toInt * 2 ^ (31 - expo a).toNat := by
      have hne : expo a ≠ -128 := by have := (nonzero_expo hz).1; omega
      have hscale : (2 : ℚ) ^ (expo a - 31) * 2 ^ (31 - expo a).toNat = 1 := by
        rw [← zpow_natCast, ← zpow_add₀ (by norm_num), Int.toNat_of_nonneg (by omega)]
        simp
      rw [valueOf, if_neg hne] at hvalue
      have hexact : (mant a : ℚ) = i.toInt * 2 ^ (31 - expo a).toNat := by
        rw [← hvalue, mul_assoc, hscale, mul_one]
      exact_mod_cast hexact
    have hpos : (0 : ℤ) < 2 ^ (31 - expo a).toNat := by positivity
    rw [hmant] at hlow hhigh
    have hle := le_of_mul_le_mul_right hlow hpos
    have hlt := lt_of_mul_lt_mul_right hhigh hpos.le
    have hint : (fFix a).1 = i := BitVec.eq_of_toInt_eq (by omega)
    exact Prod.ext hint hovf
  · rw [valueOf_zero hz] at hvalue
    have hint : i.toInt = 0 := by exact_mod_cast hvalue.symm
    rw [fFix, if_pos hz, BitVec.eq_of_toInt_eq (x := i) (y := 0) hint]

/-! ## The fields of a single-precision value and of an IEEE number -/

/-- A signed exponent fits its field (R232). -/
theorem toInt_exponent {x : ℤ} (hlow : -128 ≤ x) (hhigh : x < 128) : (BitVec.ofInt 8 x).toInt = x := by
  rw [BitVec.toInt_ofInt, Int.bmod_eq_of_le (by omega) (by omega)]

/-- A biased exponent fits its field (R236). -/
theorem toNat_exponent {x : ℤ} (hlow : 0 ≤ x) (hhigh : x < 256) : ((BitVec.ofInt 8 x).toNat : ℤ) = x := by
  rw [BitVec.toNat_ofInt, Int.toNat_of_nonneg (by omega)]
  omega

/-- A value with a low byte of zeros, from its exponent, sign and fraction (R231, R235). -/
def extOf (e : BitVec 8) (s : Bool) (f : BitVec 23) : Ext := e ++ BitVec.ofBool s ++ f ++ 0#8

/-- An IEEE single-precision word from its sign, exponent and fraction (R236). -/
def ieeeOf (s : Bool) (e : BitVec 8) (f : BitVec 23) : Word := BitVec.ofBool s ++ e ++ f

theorem toNat_append_add {m n : Nat} (x : BitVec m) (y : BitVec n) : (x ++ y).toNat = x.toNat * 2 ^ n + y.toNat := by
  rw [BitVec.toNat_append, ← Nat.shiftLeft_add_eq_or_of_lt y.isLt, Nat.shiftLeft_eq]

theorem extOf_toNat (e : BitVec 8) (s : Bool) (f : BitVec 23) :
    (extOf e s f).toNat = e.toNat * 2 ^ 32 + s.toNat * 2 ^ 31 + f.toNat * 2 ^ 8 := by
  rw [extOf, toNat_append_add, toNat_append_add, toNat_append_add, BitVec.toNat_ofBool]
  simp only [BitVec.toNat_ofNat, Nat.zero_mod]
  omega

theorem ieeeOf_toNat (s : Bool) (e : BitVec 8) (f : BitVec 23) :
    (ieeeOf s e f).toNat = s.toNat * 2 ^ 31 + e.toNat * 2 ^ 23 + f.toNat := by
  rw [ieeeOf, toNat_append_add, toNat_append_add, BitVec.toNat_ofBool]
  omega

theorem expo_extOf (e : BitVec 8) (s : Bool) (f : BitVec 23) : expo (extOf e s f) = e.toInt := by
  have hfield : (extOf e s f).extractLsb' 32 8 = e := by
    apply BitVec.eq_of_toNat_eq
    have hs := s.toNat_le
    rw [BitVec.extractLsb'_toNat, Nat.shiftRight_eq_div_pow, extOf_toNat]
    omega
  rw [expo, hfield]

theorem extOf_low (e : BitVec 8) (s : Bool) (f : BitVec 23) : (extOf e s f).extractLsb' 0 8 = 0 := by
  apply BitVec.eq_of_toNat_eq
  rw [BitVec.extractLsb'_toNat, Nat.shiftRight_eq_div_pow, extOf_toNat]
  simp only [BitVec.ofNat_eq_ofNat, BitVec.toNat_ofNat]
  omega

theorem mant_extOf (e : BitVec 8) (s : Bool) (f : BitVec 23) :
    mant (extOf e s f) = if s then (f.toNat : ℤ) * 2 ^ 8 - 2 ^ 32 else 2 ^ 31 + (f.toNat : ℤ) * 2 ^ 8 := by
  have hsign : (extOf e s f).getLsbD 31 = s := by
    rw [BitVec.getLsbD, Nat.testBit_eq_decide_div_mod_eq, extOf_toNat]
    cases s <;> simp <;> omega
  have hfraction : (extOf e s f).toNat % 2 ^ 31 = f.toNat * 2 ^ 8 := by
    have hs := s.toNat_le
    rw [extOf_toNat]
    omega
  rw [mant, hsign, hfraction, Int.ofNat_eq_natCast, Nat.cast_mul]
  rfl

/-- The value of a number in units of its last single-precision place (R232). -/
theorem valueOf_extOf {e : BitVec 8} (he : e.toInt ≠ -128) (s : Bool) (f : BitVec 23) :
    valueOf (extOf e s f) = (if s then (f.toNat : ℚ) - 2 ^ 24 else 2 ^ 23 + (f.toNat : ℚ)) * 2 ^ (e.toInt - 23) := by
  have hplace : (2 : ℚ) ^ (e.toInt - 23) = 2 ^ 8 * 2 ^ (e.toInt - 31) := by
    rw [← zpow_natCast, ← zpow_add₀ (by norm_num)]
    congr 1
    omega
  rw [valueOf, expo_extOf, if_neg he, mant_extOf, hplace]
  cases s <;> simp only [if_true, if_false, Bool.false_eq_true] <;> push_cast <;> ring

/-- The sign, exponent and fraction of an IEEE word. -/
theorem ieeeOf_fields (s : Bool) (e : BitVec 8) (f : BitVec 23) : (ieeeOf s e f).getLsbD 31 = s ∧
    (ieeeOf s e f).extractLsb' 23 8 = e ∧ (ieeeOf s e f).extractLsb' 0 23 = f := by
  refine ⟨?_, BitVec.eq_of_toNat_eq ?_, BitVec.eq_of_toNat_eq ?_⟩
  · rw [BitVec.getLsbD, Nat.testBit_eq_decide_div_mod_eq, ieeeOf_toNat]
    cases s <;> simp <;> omega
  · have hs := s.toNat_le
    rw [BitVec.extractLsb'_toNat, Nat.shiftRight_eq_div_pow, ieeeOf_toNat]
    omega
  · rw [BitVec.extractLsb'_toNat, Nat.shiftRight_eq_div_pow, ieeeOf_toNat]
    omega

theorem ieeeOf_surjective (w : Word) : ∃ s e f, w = ieeeOf s e f := by
  refine ⟨w.msb, w.extractLsb' 23 8, w.extractLsb' 0 23, BitVec.eq_of_toNat_eq ?_⟩
  rw [ieeeOf_toNat, BitVec.extractLsb'_toNat, BitVec.extractLsb'_toNat, Nat.shiftRight_eq_div_pow, BitVec.msb_eq_decide]
  have hw := w.isLt
  by_cases h : 2 ^ 31 ≤ w.toNat
  · rw [decide_eq_true h, Bool.toNat_true]
    omega
  · rw [decide_eq_false h, Bool.toNat_false]
    omega

theorem msb_ieeeOf (s : Bool) (e : BitVec 8) (f : BitVec 23) : (ieeeOf s e f).msb = s :=
  (BitVec.msb_eq_getLsbD_last _).trans (ieeeOf_fields s e f).1

theorem ieeeValue_ieeeOf (s : Bool) (e : BitVec 8) (f : BitVec 23) :
    ieeeValue (ieeeOf s e f) = (if s then -1 else 1) * (2 ^ 23 + f.toNat) * 2 ^ (e.toNat - 150 : ℤ) := by
  obtain ⟨-, hexpo, hfraction⟩ := ieeeOf_fields s e f
  rw [ieeeValue, msb_ieeeOf, hexpo, hfraction]

/-! ## FRIEEE -/

/-- FRIEEE of a number with an exponent of 1 to 254: a negative fraction is negated, and where it is 0 the exponent is
one less (R236). -/
theorem fromIEEE_ieeeOf (s : Bool) {e : BitVec 8} (f : BitVec 23) (h0 : e.toNat ≠ 0) (h255 : e.toNat ≠ 255) :
    fromIEEE (ieeeOf s e f) = (if s then
      if f = 0 then extOf (BitVec.ofInt 8 (e.toNat - 128)) true 0 else extOf (BitVec.ofInt 8 (e.toNat - 127)) true (-f)
      else extOf (BitVec.ofInt 8 (e.toNat - 127)) false f, false) := by
  obtain ⟨hsign, hexpo, hfraction⟩ := ieeeOf_fields s e f
  simp only [fromIEEE, hsign, hexpo, hfraction, if_neg h0, if_neg h255]
  cases s
  · rfl
  · by_cases hf : f = 0
    · rw [hf]; rfl
    · rw [if_neg (by decide), if_pos hf, if_pos rfl, if_neg hf]; rfl

/-- The value of FRIEEE is the IEEE number's (R236). -/
theorem fromIEEE_value (s : Bool) {e : BitVec 8} (f : BitVec 23) (h0 : e.toNat ≠ 0) (h255 : e.toNat ≠ 255) :
    valueOf (fromIEEE (ieeeOf s e f)).1 = ieeeValue (ieeeOf s e f) := by
  have he := e.isLt
  rw [fromIEEE_ieeeOf s f h0 h255, ieeeValue_ieeeOf]
  cases s
  · have hexpo := toInt_exponent (x := e.toNat - 127) (by omega) (by omega)
    simp only [if_false, Bool.false_eq_true]
    rw [valueOf_extOf (by omega), hexpo, show (e.toNat : ℤ) - 127 - 23 = e.toNat - 150 by ring]
    simp
  by_cases hf : f = 0
  · have hexpo := toInt_exponent (x := e.toNat - 128) (by omega) (by omega)
    have hplace : (2 : ℚ) ^ (e.toNat - 150 : ℤ) = 2 * 2 ^ (e.toNat - 128 - 23 : ℤ) := by
      rw [← zpow_one_add₀ (by norm_num)]
      congr 1
      omega
    simp only [if_true, hf]
    rw [valueOf_extOf (by omega), hexpo, hplace]
    simp only [if_true, BitVec.ofNat_eq_ofNat, BitVec.toNat_ofNat, Nat.zero_mod, Nat.cast_zero]
    ring
  · have hexpo := toInt_exponent (x := e.toNat - 127) (by omega) (by omega)
    have hneg : (-f).toNat + f.toNat = 2 ^ 23 := by
      have := f.isLt
      have : f.toNat ≠ 0 := fun h => hf (BitVec.eq_of_toNat_eq h)
      rw [BitVec.toNat_neg]
      omega
    have hneg' : ((-f).toNat : ℚ) = 2 ^ 23 - f.toNat := by
      rw [eq_sub_iff_add_eq]
      exact_mod_cast hneg
    simp only [if_true, if_neg hf]
    rw [valueOf_extOf (by omega), hexpo, hneg', show (e.toNat : ℤ) - 127 - 23 = e.toNat - 150 by ring]
    simp only [if_true]
    ring

/-! ## TOIEEE -/

/-- The upper 32 bits of a value are its exponent, sign and single-precision fraction. -/
theorem high_toNat (a : Ext) : (a.extractLsb' 8 32).toNat =
    (a.extractLsb' 32 8).toNat * 2 ^ 24 + (a.getLsbD 31).toNat * 2 ^ 23 + (a.extractLsb' 8 23).toNat := by
  have hsign : (a.getLsbD 31).toNat = a.toNat / 2 ^ 31 % 2 := by
    rw [BitVec.getLsbD, Nat.toNat_testBit]
  have ha := a.isLt
  rw [hsign]
  simp only [BitVec.extractLsb'_toNat, Nat.shiftRight_eq_div_pow]
  omega

/-- A value without its low byte, by its fields. -/
theorem low_byte_cleared_fields (a : Ext) :
    a &&& 0xFFFFFFFF00 = extOf (a.extractLsb' 32 8) (a.getLsbD 31) (a.extractLsb' 8 23) := by
  apply BitVec.eq_of_toNat_eq
  rw [low_byte_cleared, toNat_append_add, high_toNat, extOf_toNat]
  simp only [BitVec.toNat_ofNat, Nat.zero_mod]
  omega

/-- The fields of the most negative single-precision number. -/
theorem most_negative_iff (a : Ext) : a.extractLsb' 8 32 = 0x7F800000 ↔
    expo a = 127 ∧ a.getLsbD 31 = true ∧ a.extractLsb' 8 23 = 0 := by
  have hexpo : expo a = 127 ↔ (a.extractLsb' 32 8).toNat = 127 := by
    have h := (a.extractLsb' 32 8).isLt
    rw [expo, BitVec.toInt_eq_toNat_cond]
    split <;> omega
  have hfraction := (a.extractLsb' 8 23).isLt
  rw [hexpo, ← BitVec.toNat_inj, ← BitVec.toNat_inj (y := 0), high_toNat]
  cases a.getLsbD 31 <;> simp <;> omega

/-- TOIEEE gives a normal IEEE number, and FRIEEE gives back the value without its low byte (R236, R237). -/
theorem toIEEE_inverse {a : Ext} (he : -126 ≤ expo a) (hmin : a.extractLsb' 8 32 ≠ 0x7F800000) :
    ∃ s e f, toIEEE a = (ieeeOf s e f, false) ∧ 1 ≤ e.toNat ∧ e.toNat ≤ 254 ∧
      fromIEEE (ieeeOf s e f) = (a &&& 0xFFFFFFFF00, false) := by
  have hfield : BitVec.ofInt 8 (expo a) = a.extractLsb' 32 8 := BitVec.ofInt_toInt
  obtain ⟨-, htop⟩ := expo_bounds a
  rw [low_byte_cleared_fields]
  rw [Ne, most_negative_iff] at hmin
  generalize a.extractLsb' 32 8 = x at *
  cases hs : a.getLsbD 31
  · have hexpo := toNat_exponent (x := expo a + 127) (by omega) (by omega)
    refine ⟨false, BitVec.ofInt 8 (expo a + 127), a.extractLsb' 8 23, ?_, by omega, by omega, ?_⟩
    · rw [toIEEE, hs, if_neg (by omega)]
      rfl
    · rw [fromIEEE_ieeeOf _ _ (by omega) (by omega), hexpo, Int.add_sub_cancel, hfield]
      rfl
  by_cases hf : a.extractLsb' 8 23 = 0
  · have hbelow : expo a ≠ 127 := fun h => hmin ⟨h, hs, hf⟩
    have hexpo := toNat_exponent (x := expo a + 128) (by omega) (by omega)
    refine ⟨true, BitVec.ofInt 8 (expo a + 128), 0, ?_, by omega, by omega, ?_⟩
    · rw [toIEEE, hs, hf, if_neg (by omega), if_neg (by decide), if_neg (by decide), if_pos (by omega)]
      rfl
    · rw [fromIEEE_ieeeOf _ _ (by omega) (by omega), hexpo, Int.add_sub_cancel, hfield, hf]
      rfl
  · have hexpo := toNat_exponent (x := expo a + 127) (by omega) (by omega)
    refine ⟨true, BitVec.ofInt 8 (expo a + 127), -a.extractLsb' 8 23, ?_, by omega, by omega, ?_⟩
    · rw [toIEEE, hs, if_neg (by omega), if_neg (by decide), if_pos hf]
      rfl
    · rw [fromIEEE_ieeeOf _ _ (by omega) (by omega), hexpo, Int.add_sub_cancel, hfield, if_pos rfl,
        if_neg (by simpa using hf), BitVec.neg_neg]

/-- Settles O24: FLOAT by its value, FRIEEE by the fields of the IEEE number, TOIEEE as the inverse of FRIEEE. -/
theorem conversions : Obligations.Conversions := by
  refine ⟨fun i => ⟨value_fFloat i, fFix_of_value (value_fFloat i)⟩, fun w => ?_, fun a => ?_, fun s hlive => ?_⟩
  · obtain ⟨s, e, f, rfl⟩ := ieeeOf_surjective w
    obtain ⟨hsign, hexpo, -⟩ := ieeeOf_fields s e f
    dsimp only
    rw [hexpo, msb_ieeeOf]
    refine ⟨fun h0 => ?_, fun h255 => ?_, fun h0 h255 => ⟨?_, fromIEEE_value s f h0 h255, ?_⟩⟩
    · simp only [fromIEEE, hexpo, h0]
      rfl
    · simp only [fromIEEE, hexpo, hsign, h255]
      cases s <;> rfl
    · rw [fromIEEE_ieeeOf s f h0 h255]
    · rw [fromIEEE_ieeeOf s f h0 h255]
      dsimp only
      split_ifs <;> exact extOf_low _ _ _
  · refine ⟨fun hsmall => ?_, fun hmin => ?_, fun he hmin => ?_⟩
    · rw [toIEEE, if_pos (by omega)]
    · obtain ⟨he, hs, hf⟩ := (most_negative_iff a).1 hmin
      rw [toIEEE, he, hs, hf]
      rfl
    · obtain ⟨s, e, f, hto, h1, h254, hback⟩ := toIEEE_inverse he hmin
      obtain ⟨-, hexpo, -⟩ := ieeeOf_fields s e f
      rw [hto]
      dsimp only
      rw [hexpo, ← fromIEEE_value s f (by omega) (by omega), hback]
      exact ⟨rfl, rfl, h1, h254⟩
  · exact ⟨fun src dst t a hsrc => execute_live hsrc ((srcI_readBy hsrc).annulled.trans hlive),
      fun src dst t a hsrc => execute_live hsrc ((srcF_readBy hsrc).annulled.trans hlive),
      fun src dst t a hsrc => execute_live hsrc ((srcMem_readBy hsrc).annulled.trans hlive),
      fun src dst t a hsrc => execute_live hsrc ((srcFR_readBy hsrc).annulled.trans hlive)⟩

end Sys2Proof.Machine

/-! The load and store instructions (41_load_store.md R303 to R328, and R368, R369): what each shared form does outside
an annulled slot, the merges of the byte and half-word group bit by bit, and the words of the immediate and
expansion-file loads. -/

namespace Sys2Proof.Machine

/-! ## The shared forms outside an annulled slot -/

theorem loadI_live {s t : State} {src : Res Word} {w : Word} (hsrc : src = .ok w t) (hlive : t.annulled = false)
    (dst : Reg) (f : Word → Word) : loadI s src dst f = .next (s.after (t.putI dst (f w) (plainFlags (f w)))) :=
  execute_live hsrc hlive

theorem loadF_live {s t : State} {src : Res Ext} {v : Ext} (hsrc : src = .ok v t) (hlive : t.annulled = false)
    (dst : Fin 12) : loadF s src dst = .next (s.after (t.putF dst v (resultFlags (.exact v)))) :=
  execute_live hsrc hlive

theorem storeTo_live {dst : Mem} {s t u : State} {a v : Word} (haddr : memEval dst s = .ok a t)
    (hlive : s.annulled = false) (hwrite : dataWrite a v t = .ok () u) : storeTo s dst v = .next (s.after u) := by
  have ht : t.annulled = false := (memEval_readBy haddr).2.annulled.trans hlive
  refine sequential_ok ?_
  rw [haddr, Res.bind_ok, store_live ht, hwrite]

/-! ## Loads of whole registers and of their parts -/

/-- LDA completes in an annulled slot too (R498), where its destination is an address register (R310). -/
theorem execLda_ok {src : Src} {dst : Reg} {s t : State} {a : Word} (hdst : dst.isAddress = true)
    (hsrc : srcI src s = .ok a t) : exec (.lda src dst) s = .next (s.after (t.wrI dst a)) := by
  change execLda src dst s = _
  rw [execLda, if_pos hdst]
  refine sequential_ok ?_
  rw [hsrc, Res.bind_ok]

theorem isAddress_of_listed {dst : Reg} (h : (∃ n, dst = .ar n) ∨ dst ∈ [.ir0, .ir1, .dp, .bk, .sp]) :
    dst.isAddress = true := by
  rcases h with ⟨n, rfl⟩ | hmem
  · rfl
  · exact (by decide : ∀ r ∈ [Reg.ir0, .ir1, .dp, .bk, .sp], r.isAddress = true) dst hmem

/-- LDE keeps the mantissa that the register had before its operand was read. -/
theorem execLde_live {src : FSrc} {dst : Fin 12} {s t : State} {a : Ext} (hsrc : srcF src s = .ok a t)
    (hlive : s.annulled = false) :
    exec (.lde src dst) s = .next (s.after (t.wrF dst (a.extractLsb' 32 8 ++ s.r[dst].extractLsb' 0 32))) := by
  have hread := srcF_readBy hsrc
  obtain ⟨-, -, -, -, -, hregs, -⟩ := hread.fields
  rw [← hregs]
  exact execute_live hsrc (hread.annulled.trans hlive)

/-- LDM keeps the exponent that the register had before its operand was read. -/
theorem execLdm_live {src : FSrc} {dst : Fin 12} {s t : State} {w : Word} (hsrc : srcMan src s = .ok w t)
    (hlive : s.annulled = false) :
    exec (.ldm src dst) s = .next (s.after (t.wrF dst (s.r[dst].extractLsb' 32 8 ++ w))) := by
  have hread := srcMan_readBy hsrc
  obtain ⟨-, -, -, -, -, hregs, -⟩ := hread.fields
  rw [← hregs]
  exact execute_live hsrc (hread.annulled.trans hlive)

/-- Settles O28: the forms of the operands by their readers, and each load by its shared form. -/
theorem loads : Obligations.Loads := by
  intro s hlive
  refine ⟨fun src dst t a hsrc => ?_, fun src dst t a hsrc => ?_, fun n dst h => ⟨?_, ?_⟩, fun m dst t w hsrc => ?_⟩
  · have ht : t.annulled = false := (srcI_readBy hsrc).annulled.trans hlive
    exact ⟨loadI_live hsrc ht dst id, fun c => execute_live hsrc ht,
      fun hdst => execLda_ok (isAddress_of_listed hdst) hsrc⟩
  · have ht : t.annulled = false := (srcF_readBy hsrc).annulled.trans hlive
    exact ⟨loadF_live hsrc ht dst, fun c => execute_live hsrc ht, execLde_live hsrc hlive⟩
  · exact execLdm_live rfl hlive
  · exact execLdm_live rfl hlive
  · cases m with
    | dir a => exact execLdm_live (src := .dir a) hsrc hlive
    | ind i => exact execLdm_live (src := .ind i) hsrc hlive

/-! ## The merges bit by bit -/

/-- Two fields are equal where their bits are. -/
theorem field_eq_of_bits {x y : Word} {lo lo' len : Nat}
    (h : ∀ i < len, x.getLsbD (lo + i) = y.getLsbD (lo' + i)) : x.extractLsb' lo len = y.extractLsb' lo' len := by
  ext i hi
  simpa using h i hi

theorem mergeLeft_getLsbD (ct : Fin 4) (w d : Word) {k : Nat} (hk : k < 32) : (mergeLeft ct w d).getLsbD k =
    if k < 8 * ct.val then d.getLsbD k else w.getLsbD (k - 8 * ct.val) := by
  have hones : 0xFFFFFFFF#32 = BitVec.allOnes 32 := rfl
  have hlow : k - 8 * ct.val < 32 := by omega
  simp only [mergeLeft, hones, BitVec.getLsbD_or, BitVec.getLsbD_and, BitVec.getLsbD_not, BitVec.getLsbD_shiftLeft,
    BitVec.getLsbD_allOnes, hk, hlow]
  by_cases h : k < 8 * ct.val <;> simp [h]

theorem mergeRight_getLsbD (ct : Fin 4) (w d : Word) {k : Nat} (hk : k < 32) : (mergeRight ct w d).getLsbD k =
    if k + 8 * ct.val < 32 then w.getLsbD (k + 8 * ct.val) else d.getLsbD k := by
  have hones : 0xFFFFFFFF#32 = BitVec.allOnes 32 := rfl
  simp only [mergeRight, hones, BitVec.getLsbD_or, BitVec.getLsbD_and, BitVec.getLsbD_not, BitVec.getLsbD_ushiftRight,
    BitVec.getLsbD_allOnes, hk, Nat.add_comm k]
  by_cases h : 8 * ct.val + k < 32
  · simp [h]
  · simp [h, BitVec.getLsbD_of_ge w _ (Nat.le_of_not_lt h)]

/-- The form that the merges of MB and MH share: the `len` low bits of `w`, shifted by `n` into place. -/
theorem mergeMask_getLsbD (len n : Nat) (w d : Word) {k : Nat} (hk : k < 32) :
    ((d &&& ~~~(BitVec.ofNat 32 (2 ^ len - 1) <<< n)) ||| ((w &&& BitVec.ofNat 32 (2 ^ len - 1)) <<< n)).getLsbD k =
      if n ≤ k ∧ k < n + len then w.getLsbD (k - n) else d.getLsbD k := by
  simp only [BitVec.getLsbD_or, BitVec.getLsbD_and, BitVec.getLsbD_not, BitVec.getLsbD_shiftLeft, BitVec.getLsbD_ofNat,
    Nat.testBit_two_pow_sub_one, hk]
  by_cases hge : n ≤ k
  · have hwidth : k - n < 32 := by omega
    have hin : k - n < len ↔ k < n + len := by omega
    by_cases hlt : k < n + len <;> simp [hge, hlt, hwidth, hin, Nat.not_lt.2 hge]
  · simp [hge, Nat.lt_of_not_le hge]

theorem mergeByte_getLsbD (ct : Fin 4) (w d : Word) {k : Nat} (hk : k < 32) : (mergeByte ct w d).getLsbD k =
    if 8 * ct.val ≤ k ∧ k < 8 * ct.val + 8 then w.getLsbD (k - 8 * ct.val) else d.getLsbD k :=
  mergeMask_getLsbD 8 (8 * ct.val) w d hk

theorem mergeHalf_getLsbD (ct : Fin 2) (w d : Word) {k : Nat} (hk : k < 32) : (mergeHalf ct w d).getLsbD k =
    if 16 * ct.val ≤ k ∧ k < 16 * ct.val + 16 then w.getLsbD (k - 16 * ct.val) else d.getLsbD k :=
  mergeMask_getLsbD 16 (16 * ct.val) w d hk

/-! ## The merges byte by byte -/

section

variable (w d : Word)

theorem mergeLeft_byte (ct j : Fin 4) : byteOf (mergeLeft ct w d) j =
    if j.val < ct.val then byteOf d j else w.extractLsb' (8 * (j.val - ct.val)) 8 := by
  split <;> refine field_eq_of_bits fun i hi => ?_ <;> rw [mergeLeft_getLsbD ct w d (by omega)]
  · rw [if_pos (by omega)]
  · rw [if_neg (by omega)]
    congr 1
    omega

theorem mergeRight_byte (ct j : Fin 4) : byteOf (mergeRight ct w d) j =
    if j.val + ct.val < 4 then w.extractLsb' (8 * (j.val + ct.val)) 8 else byteOf d j := by
  split <;> refine field_eq_of_bits fun i hi => ?_ <;> rw [mergeRight_getLsbD ct w d (by omega)]
  · rw [if_pos (by omega)]
    congr 1
    omega
  · rw [if_neg (by omega)]

theorem mergeByte_byte (ct j : Fin 4) : byteOf (mergeByte ct w d) j = if j = ct then byteOf w 0 else byteOf d j := by
  split <;> refine field_eq_of_bits fun i hi => ?_ <;> rw [mergeByte_getLsbD ct w d (by omega)]
  · subst j
    rw [if_pos (by omega)]
    congr 1
    simp
  · rw [if_neg (by omega)]

theorem mergeHalf_half (ct j : Fin 2) : halfOf (mergeHalf ct w d) j = if j = ct then halfOf w 0 else halfOf d j := by
  split <;> refine field_eq_of_bits fun i hi => ?_ <;> rw [mergeHalf_getLsbD ct w d (by omega)]
  · subst j
    rw [if_pos (by omega)]
    congr 1
    simp
  · rw [if_neg (by omega)]

end

/-- Settles O31: each instruction is a gated load of its byte, half-word or merge. -/
theorem byteAndHalfLoads : Obligations.ByteAndHalfLoads := by
  intro src dst s t w hsrc hlive byte half d done
  have ht : t.annulled = false := (srcR_readBy hsrc).annulled.trans hlive
  have load (f : Word → Word) : loadI s (srcR src s) dst f = .next (done (f w)) := loadI_live hsrc ht dst f
  refine ⟨fun b => ⟨load _, load _, ⟨_, load _, ?_⟩, ⟨_, load _, ?_⟩, _, load _, ?_⟩,
    fun h => ⟨load _, load _, _, load _, ?_⟩⟩
  · exact mergeLeft_byte w d b
  · exact mergeRight_byte w d b
  · exact mergeByte_byte w d b
  · exact mergeHalf_half w d h

/-- Settles O33: the address is that of the operand, the value that of the register before it. -/
theorem storeInstructions : Obligations.StoreInstructions := by
  intro dst s t u a haddr hlive
  refine ⟨fun src hwrite => storeTo_live haddr hlive hwrite, fun src hwrite => ?_, fun k hwrite => ?_⟩
  · cases dst with
    | dir d => exact storeTo_live haddr hlive hwrite
    | ind i => exact storeTo_live haddr hlive hwrite
  · cases dst with
    | dir d => exact storeTo_live haddr hlive hwrite
    | ind i => exact storeTo_live haddr hlive hwrite

/-! ## The immediate loads and the expansion file -/

/-- LDPK writes the 16 bits of DP, in an annulled slot too (R498). -/
theorem execLdpk_eq (k : BitVec 16) (s : State) : exec (.ldpk k) s = .next (s.after { s with dp := k }) := by
  have hdp : (k.setWidth 32).extractLsb' 0 16 = k := by
    rw [BitVec.extractLsb'_setWidth_of_le (by decide), Laws.extract_all]
  calc exec (.ldpk k) s = .next (s.after (s.wrI .dp (k.setWidth 32))) := sequential_ok rfl
    _ = .next (s.after { s with dp := k }) := by rw [State.wrI, hdp]

section

variable {s : State} (hlive : s.annulled = false)

include hlive

theorem execLdhi_live (k : BitVec 16) (dst : Reg) : exec (.ldhi k dst) s = .next (s.after (s.wrI dst (k ++ 0#16))) :=
  execute_live (src := .ok (k ++ 0#16) s) (f := fun v t => t.wrI dst v) rfl hlive

theorem execLdep_live (x : XReg) (dst : Reg) : exec (.ldep x dst) s = .next (s.after (s.wrI dst (s.rdX x))) :=
  execute_live (src := .ok (s.rdX x) s) (f := fun v t => t.wrI dst v) rfl hlive

theorem execLdpe_live (src : Reg) (x : XReg) : exec (.ldpe src x) s = .next (s.after (s.wrX x (s.rdI src))) :=
  execute_live (src := .ok (s.rdI src) s) (f := fun v t => t.wrX x v) rfl hlive

end

/-- Settles O29: the words are the encodings, and the effects those of the shared forms. -/
theorem highAndPageLoads : Obligations.HighAndPageLoads := by
  intro k dst s
  have hldhi : encode (.ldhi k dst) = 0x0FF#11 ++ dst.code ++ k :=
    congrArg (fun h : BitVec 11 => h ++ dst.code ++ k) (by decide : (63#9 ++ 3#2 : BitVec 11) = 0x0FF#11)
  have hldpk : encode (.ldpk k) = 0x1F70#16 ++ k :=
    congrArg (fun h : BitVec 16 => h ++ k) (by decide : (62#9 ++ 3#2 ++ 16#5 : BitVec 16) = 0x1F70#16)
  refine ⟨Laws.decode_of_encode hldhi rfl, fun hlive => ?_, Laws.decode_of_encode hldpk rfl, ?_⟩
  · exact execLdhi_live hlive k dst
  · exact execLdpk_eq k s

end Sys2Proof.Machine

namespace Sys2Proof.Laws

/-! ## The words of the expansion file (R312, R320) -/

theorem xregOf_reserved : ∀ x : BitVec 5, 2 ≤ x.toNat → xregOf x = .error .badExpansion := by decide

theorem wordX_eq (hi : BitVec 9) (g : BitVec 2) (d : BitVec 5) (z : BitVec 11) (c : BitVec 5) :
    (hi ++ g ++ d ++ z ++ c : Word) = wordG hi (g, z ++ c) d := BitVec.append_assoc

theorem decode_ldep_word (x d : BitVec 5) :
    decode (0x3B0#11 ++ d ++ 0#11 ++ x) = (xregOf x).map fun y => .ldep y (regOf d) := by
  have hword : (0x3B0#11 ++ d ++ 0#11 ++ x : Word) = wordG 236#9 (0#2, 0#11 ++ x) d := wordX_eq 236#9 0#2 d 0#11 x
  rw [hword, decode_control (wordG_top _ _ _), decodeControl, wordG_ctl, if_neg (by decide), wordG_row,
    wordG_low_rest, wordG_low_reg, dstOf, wordG_dst]
  exact guarded_row rfl rfl _

theorem decode_ldpe_word (x c : BitVec 5) :
    decode (0x3B4#11 ++ x ++ 0#11 ++ c) = (xregOf x).map fun y => .ldpe (regOf c) y := by
  have hword : (0x3B4#11 ++ x ++ 0#11 ++ c : Word) = wordG 237#9 (0#2, 0#11 ++ c) x := wordX_eq 237#9 0#2 x 0#11 c
  rw [hword, decode_control (wordG_top _ _ _), decodeControl, wordG_ctl, if_neg (by decide), wordG_row,
    wordG_low_rest, wordG_low_reg, wordG_dst]
  exact guarded_row rfl rfl _

end Sys2Proof.Laws

namespace Sys2Proof.Machine

/-- Settles O30: the words by the expansion-register code in them, the effects by the write of the expansion file. -/
theorem expansionLoads : Obligations.ExpansionLoads := by
  refine ⟨fun r => ?_, fun r s hlive => ?_⟩
  · have hldpe (x : XReg) : decode (0x3B4#11 ++ x.code ++ 0#11 ++ r.code) = .ok (.ldpe r x) := by
      rw [Laws.decode_ldpe_word, Laws.xregOf_code, Laws.regOf_code]
      rfl
    refine ⟨Laws.decode_of_encode rfl rfl, Laws.decode_of_encode rfl rfl, hldpe .ivtp, hldpe .tvtp, fun x hx => ⟨?_, ?_⟩⟩
    · rw [Laws.decode_ldep_word, Laws.xregOf_reserved x hx]
      rfl
    · rw [Laws.decode_ldpe_word, Laws.xregOf_reserved x hx]
      rfl
  · exact ⟨execLdep_live hlive .ivtp r, execLdep_live hlive .tvtp r, execLdpe_live hlive r .ivtp,
      execLdpe_live hlive r .tvtp⟩

end Sys2Proof.Machine

/-! The integer and logical two-operand instructions (42_two_operand_a.md R353 to R373; 43_two_operand_b.md R400 to
R423): one rule for an operation with gated flags outside an annulled slot, one for a rotate, and each result as
arithmetic on wide words. -/

namespace Sys2Proof.Machine

/-! ## The shared forms outside an annulled slot -/

/-- The result `r` of the operation is written with its flags (R351), into the state that the source left. -/
theorem opI_live {s t : State} {src : Res Word} {a : Word} {dst : Reg} {f : Word → IRes} {r : IRes}
    (hsrc : src = .ok a t) (hlive : t.annulled = false) (hres : f a = r) :
    opI s src dst f = .next (s.after (t.putI dst r.v r.f)) := by
  rw [← hres]
  exact execute_live hsrc hlive

/-- A rotate reads its own register alone, so nothing moves before its result is written. -/
theorem rotate_live {s : State} {dst : Reg} {f : Word → IRes} {v w : Word} {out : Bool} (hlive : s.annulled = false)
    (hres : f (s.rdI dst) = rotRes v out) (hv : v = w) :
    opI s (.ok (s.rdI dst) s) dst f = .next (s.after (s.putI dst (shifted w false out).v (shifted w false out).f)) := by
  rw [← hv]
  exact opI_live rfl hlive hres

/-! ## The families -/

/-- Settles O18: each sum or difference is that of the wide words (`aluAdd_wide`, `aluSub_wide`), ABSI by
`aluAbs_eq`. -/
theorem integerAddSubtract : Obligations.IntegerAddSubtract := by
  intro src dst s t a hsrc hlive
  have ht : t.annulled = false := (srcI_readBy hsrc).annulled.trans hlive
  have sum := aluAdd_wide s.ovm
  have diff := aluSub_wide s.ovm
  refine ⟨?_, ?_⟩
  · simp only [List.forall_mem_cons, List.not_mem_nil, false_imp_iff, implies_true, and_true]
    exact ⟨opI_live hsrc ht (sum _ _ _), opI_live hsrc ht (sum _ _ _), opI_live hsrc ht (diff _ _ _),
      opI_live hsrc ht (diff _ _ _), opI_live hsrc ht (diff _ _ _), opI_live hsrc ht (diff _ _ _),
      opI_live hsrc ht (diff _ _ _), opI_live hsrc ht (diff _ _ _)⟩
  · exact opI_live hsrc ht (aluAbs_eq s.ovm a)

/-- Settles O19: the products and shifts by their wide forms; a rotate reads its register alone, and its output is the
word that the rotation names (`rol_rotate`, `rol_eq`, `ror_rotate`, `ror_eq`). -/
theorem multiplyShiftRotate : Obligations.MultiplyShiftRotate := by
  intro src dst s t a hsrc hlive d
  have ht : t.annulled = false := (srcI_readBy hsrc).annulled.trans hlive
  refine ⟨?_, ?_⟩
  · simp only [List.forall_mem_cons, List.not_mem_nil, false_imp_iff, implies_true, and_true]
    exact ⟨opI_live hsrc ht (aluMpy_low s.ovm d a), opI_live hsrc ht (aluMpySh_high d a),
      opI_live hsrc ht (aluMpyUh_high d a), opI_live hsrc ht (aluAsh_wide d a), opI_live hsrc ht (aluLsh_wide d a)⟩
  · simp only [List.forall_mem_cons, List.not_mem_nil, false_imp_iff, implies_true, and_true]
    refine ⟨?_, ?_, ?_, ?_⟩
    · change execRol dst s = _
      exact rotate_live hlive rfl (rol_rotate d)
    · change execRolc dst s = _
      exact rotate_live hlive rfl (rol_eq d s.cFlag)
    · change execRor dst s = _
      exact rotate_live hlive rfl (ror_rotate d)
    · change execRorc dst s = _
      exact rotate_live hlive rfl (ror_eq d s.cFlag)

/-- Settles O20: each logical instruction writes its word with the plain flags, TSTB the flags alone, and SUBC its step
(`subcStep_eq`) without flags. -/
theorem logicalOperations : Obligations.LogicalOperations := by
  intro src dst s t a hsrc hlive d
  have ht : t.annulled = false := (srcU_readBy hsrc).annulled.trans hlive
  have logic (f : Word → Word) : opI s (srcU src s) dst (fun x => logicRes (f x)) =
      .next (s.after (t.putI dst (f a) (plainFlags (f a)))) :=
    opI_live (r := ⟨f a, plainFlags (f a)⟩) hsrc ht rfl
  refine ⟨?_, execute_live hsrc ht, ?_⟩
  · simp only [List.forall_mem_cons, List.not_mem_nil, false_imp_iff, implies_true, and_true]
    exact ⟨logic fun x => d &&& x, logic fun x => d &&& ~~~x, logic fun x => d ||| x, logic fun x => d ^^^ x,
      logic fun x => ~~~x⟩
  · rw [← subcStep_eq]
    exact execute_live (f := fun x u => u.wrI dst (subcStep d x)) hsrc ht

end Sys2Proof.Machine

/-! The three-operand instructions (44_three_operand.md R450 to R470): one rule for each shared form outside an annulled
slot, and the flags of a comparison where its operands are equal or one of them is zero. -/

namespace Sys2Proof.Machine

/-! ## The shared forms outside an annulled slot -/

/-- The result `r` of the two sources is written with its flags (R451), into the state that the sources left. -/
theorem opI3_live {s t : State} {ops : Ops3} {x y : Word} {dst : Reg} {f : Word × Word → IRes} {r : IRes}
    (hsrc : src3 ops s = .ok (x, y) t) (hlive : t.annulled = false) (hres : f (x, y) = r) :
    opI3 s ops dst f = .next (s.after (t.putI dst r.v r.f)) := by
  rw [← hres]
  exact execute_live hsrc hlive

/-- A logical result of two sources is written with the plain flags: C stays (R41). -/
theorem opI3_logic_live {s t : State} {ops : Ops3} {x y : Word} (hsrc : src3 ops s = .ok (x, y) t)
    (hlive : t.annulled = false) (dst : Reg) (f : Word → Word → Word) :
    opI3 s ops dst (fun p => logicRes (f p.1 p.2)) = .next (s.after (t.putI dst (f x y) (plainFlags (f x y)))) :=
  opI3_live (r := ⟨f x y, plainFlags (f x y)⟩) hsrc hlive rfl

/-- A floating-point result of two sources is written with its flags (R249, R451). -/
theorem opF3_live {s t : State} {ops : FOps3} {x y : Ext} (hsrc : src3F ops s = .ok (x, y) t)
    (hlive : t.annulled = false) (dst : Fin 12) (f : Ext → Ext → FRes) :
    opF3 s ops dst (fun p => arithF (f p.1 p.2)) = .next (s.after (t.putF dst (f x y).r (resultFlags (f x y)))) :=
  execute_live hsrc hlive

/-- A comparison or test writes the flags `g` of its sources alone (R47). -/
theorem opCmp_live {α : Type} {s t : State} {src : Res α} {v : α} {f : α → FlagRes} {g : FlagRes}
    (hsrc : src = .ok v t) (hlive : t.annulled = false) (hflags : f v = g) :
    opCmp s src f = .next (s.after (t.setFlags g)) := by
  rw [← hflags]
  exact execute_live hsrc hlive

/-! ## Comparing equal numbers, and comparing with zero -/

/-- A number compared with itself is equal and not smaller. -/
theorem CompareFlags.self {x : Ext} {f : FlagRes} (h : CompareFlags x x f) : f.z = true ∧ f.n = false := by
  rw [h.z, h.n]
  simp

/-- Zero is smaller than the numbers without a sign bit (R232). -/
theorem CompareFlags.zero_left {x y : Ext} {f : FlagRes} (h : CompareFlags x y f) (hx : fIsZero x = true)
    (hy : fIsZero y = false) : f.z = false ∧ f.n = !y.getLsbD 31 := by
  obtain ⟨hne, hneg⟩ := valueOf_sign hy
  have hsmaller : 0 < valueOf y ↔ ¬ y.getLsbD 31 = true := by
    rw [← hneg, not_lt]
    exact ⟨le_of_lt, fun hle => lt_of_le_of_ne hle hne.symm⟩
  rw [h.z, h.n, valueOf_zero hx]
  exact ⟨decide_eq_false hne.symm, by simp only [hsmaller, Bool.decide_eq_true, decide_not]⟩

/-- The numbers with a sign bit are smaller than zero (R232). -/
theorem CompareFlags.zero_right {x y : Ext} {f : FlagRes} (h : CompareFlags x y f) (hx : fIsZero x = false)
    (hy : fIsZero y = true) : f.z = false ∧ f.n = x.getLsbD 31 := by
  obtain ⟨hne, hneg⟩ := valueOf_sign hx
  rw [h.z, h.n, valueOf_zero hy]
  exact ⟨decide_eq_false hne, by simp only [hneg, Bool.decide_eq_true]⟩

/-! ## The family -/

/-- Settles O35: the sources leave the slot live, each result is that of the wide words or of the format's operation,
and the comparisons give the orders (`cmpFlags_eq`, `cmpfFlags_compare`). -/
theorem threeOperand : Obligations.ThreeOperand := by
  intro s t hlive
  refine ⟨fun ops dst x y hsrc => ?_, fun ops dst x y hsrc => ?_⟩
  · have ht : t.annulled = false := (src3_readBy hsrc).annulled.trans hlive
    have sum := aluAdd_wide s.ovm x y
    have diff := aluSub_wide s.ovm x y
    have logic := opI3_logic_live hsrc ht dst
    refine ⟨?_, opCmp_live hsrc ht rfl, opCmp_live hsrc ht (cmpFlags_eq x y)⟩
    simp only [List.forall_mem_cons, List.not_mem_nil, false_imp_iff, implies_true, and_true]
    exact ⟨opI3_live hsrc ht (sum _), opI3_live hsrc ht (sum _), opI3_live hsrc ht (diff _),
      opI3_live hsrc ht (diff _), opI3_live hsrc ht (aluMpy_low s.ovm x y), opI3_live hsrc ht (aluMpySh_high x y),
      opI3_live hsrc ht (aluMpyUh_high x y), opI3_live hsrc ht (aluAsh_wide x y),
      opI3_live hsrc ht (aluLsh_wide x y), logic fun v w => v &&& w, logic fun v w => v &&& ~~~w,
      logic fun v w => v ||| w, logic fun v w => v ^^^ w⟩
  · have ht : t.annulled = false := (src3F_readBy hsrc).annulled.trans hlive
    have hcmp := cmpfFlags_compare x y
    refine ⟨?_, cmpfFlags x y, opCmp_live hsrc ht rfl, hcmp, ?_, hcmp.zero_left, hcmp.zero_right⟩
    · simp only [List.forall_mem_cons, List.not_mem_nil, false_imp_iff, implies_true, and_true]
      exact ⟨opF3_live hsrc ht dst fAdd, opF3_live hsrc ht dst fSub, opF3_live hsrc ht dst fMul⟩
    · rintro rfl
      exact hcmp.self

end Sys2Proof.Machine

/-! The branches, calls, traps and returns (45_program_control.md R490 to R527): what each shared form answers, and
from it each instruction. -/

namespace Sys2Proof.Machine

section

variable {s t u : State}

/-! ## The shared forms -/

theorem jumpTo_eq (s : State) (p : Word) : jumpTo s p = .next (s.goto p) := rfl

theorem fallThrough_eq (s : State) : fallThrough s = .next (s.after s) := rfl

theorem branchIf_eq (s : State) (c : Bool) (p : Word) :
    branchIf s c p = .next (if c then s.goto p else s.after s) := by
  cases c
  · exact fallThrough_eq s
  · exact jumpTo_eq s p

theorem finish_jump {x : Res Unit} {p : Word} (h : x = .ok () (t.jump p)) : finish s x = .next (t.goto p) :=
  finish_ok h

/-- An instruction that leaves `u` and opens three slots of a kind (R497). -/
theorem sequential_delayed {x : Res Unit} {p : Option Word} {annul : Bool} {kind : SlotKind}
    (h : x = .ok () (u.delayed p annul kind)) :
    sequential s x =
      .next (s.after { u with delay := some { target := p, left := 3, annul := annul, kind := kind } }) :=
  sequential_ok h

theorem delayedIf_eq (s : State) (c : Bool) (p : Word) (annul : Bool) :
    delayedIf s c p annul = .next (s.slots s (if c then some p else none) annul) :=
  sequential_delayed rfl

theorem notTaken_eq (s : State) : notTaken s = .next (s.slots s none false) := sequential_delayed rfl

theorem callTo_ok (h : dataWrite (s.sp + 1) (s.pc + 1) { s with sp := s.sp + 1 } = .ok () t) (p : Word) :
    callTo s p = .next (t.goto p) := by
  refine finish_jump ?_
  rw [push, h, Res.bind_ok]

theorem enterException_ok {ret vector v : Word}
    (hpush : dataWrite (s.sp + 1) ret { s with st := enteredStatus s.st, sp := s.sp + 1 } = .ok () t)
    (hread : dataRead vector t = .ok v u) : enterException ret vector s = .ok () (u.jump v) := by
  rw [enterException, saveStatus_eq, push, hpush, Res.bind_ok, hread, Res.bind_ok]

theorem leaveException_ok {v : Word} (h : dataRead s.sp s = .ok v t) :
    leaveException s = .ok v { t with sp := s.sp - 1, st := returnedStatus s.st } := by
  obtain ⟨hst, -⟩ := (dataRead_readBy h).fields
  rw [leaveException, pop_ok h, Res.bind_ok, restoreStatus_eq, hst]

/-! ## Counts as signed numbers -/

theorem msb_iff_negative (x : Word) : x.msb = true ↔ ¬ 0 ≤ x.toInt := by
  rw [BitVec.msb_eq_toInt, decide_eq_true_eq, not_le]

theorem not_msb_eq_decide (x : Word) : (!x.msb) = decide (0 ≤ x.toInt) := by
  rw [Bool.eq_iff_iff, Bool.not_eq_true', ← Bool.not_eq_true, msb_iff_negative, not_not, decide_eq_true_eq]

theorem execDbcond_eq (n : Fin 8) (c : Cond) (tg : BTarget) (s : State) :
    execDbcond n c tg s = .next (if dbTaken s n c
      then (s.wrAr n (dbCount s n)).goto (branchTarget tg (s.pc + 1) s) else s.after (s.wrAr n (dbCount s n))) := by
  unfold execDbcond
  split
  · rfl
  · rfl

end

/-! ## Branches -/

/-- Settles O37: the word is the encoding, and the jump is the whole effect. -/
theorem branchAlways : Obligations.BranchAlways :=
  fun _ s => ⟨Laws.decode_of_encode rfl rfl, jumpTo_eq s _⟩

/-- Settles O38: each branch by its shared form, with the target read in the state before it and the count of DBcond as
a signed number. -/
theorem branches : Obligations.Branches := by
  intro s c tg disp n goal dec go
  have hgoal (k : Word) : branchTarget tg (s.pc + k) s = goal k := by
    cases tg <;> rfl
  have hgo : dbTaken s n c = go := congrArg (s.cond c && ·) (not_msb_eq_decide _)
  refine ⟨?_, ?_, ?_, ?_, delayedIf_eq s true _ false, ?_, ?_⟩
  · rw [← hgoal]
    exact branchIf_eq s _ _
  · rw [← hgoal]
    exact delayedIf_eq s _ _ _
  · rw [← hgoal]
    exact delayedIf_eq s _ _ _
  · rw [← hgoal]
    exact delayedIf_eq s _ _ _
  · rw [← hgoal, ← hgo]
    exact execDbcond_eq n c tg s
  · rw [← hgoal, ← hgo]
    exact sequential_delayed rfl

/-! ## Calls, links and traps -/

/-- Settles O40: the calls by the store that they push, the links by the write of R11 before the slots. -/
theorem callsAndLinks : Obligations.CallsAndLinks := by
  intro s t c tg disp goal
  have hgoal (k : Word) : branchTarget tg (s.pc + k) s = goal k := by
    cases tg <;> rfl
  refine ⟨fun hpush => ⟨callTo_ok hpush _, fun hc => ?_⟩, fun hc => ?_, sequential_delayed rfl, ?_⟩
  · rw [← hgoal]
    exact (if_pos hc).trans (callTo_ok hpush _)
  · exact (if_neg (Bool.eq_false_iff.1 hc)).trans (fallThrough_eq s)
  · rw [← hgoal]
    change execLajcond c tg s = _
    rw [execLajcond]
    split
    · exact sequential_delayed rfl
    · exact notTaken_eq s

/-- An instruction that writes ST may not stand in a slot of a taken LATcond (R507). -/
theorem placement_latSlot {i : Instr} {s : State} {d : Delay} (hdelay : s.delay = some d) (hkind : d.kind = .latTaken)
    (hflow : flowClass i = .plain) (hdst : intDst i = some .st) : placement i s = some .latSlotStatus := by
  have hslot : s.inLatSlot = true := by simp [State.inLatSlot, hdelay, hkind]
  simp [placement, hflow, hdst, hslot]

/-- Settles O41: a taken trap by its push, its vector and the status of an exception, and the refusals by what the
instructions write. -/
theorem trapsTaken : Obligations.TrapsTaken := by
  refine ⟨fun s t u c n v => ⟨fun hc hpush hread => ?_, fun hc hread => ?_, fun hc => ⟨?_, ?_⟩⟩, ?_⟩
  · exact (if_pos hc).trans (finish_jump (enterException_ok hpush hread))
  · refine (if_pos hc).trans (sequential_delayed ?_)
    rw [saveStatus_eq, State.link, hread, Res.bind_ok]
  · exact (if_neg (Bool.eq_false_iff.1 hc)).trans (fallThrough_eq s)
  · exact (if_neg (Bool.eq_false_iff.1 hc)).trans (notTaken_eq s)
  · intro s d src b h q f ops m x c k hdelay hkind i hi
    have hplain := List.map_eq_replicate_iff (f := flowClass).1 rfl i hi
    have hdst := List.map_eq_replicate_iff (f := intDst).1 rfl i hi
    exact runInstr_misplaced (placement_latSlot hdelay hkind hplain hdst)

/-! ## Returns -/

/-- Settles O42: the pop and the status of a return, and then the jump at once or after three slots. -/
theorem returns : Obligations.Returns := by
  intro s t c v
  refine ⟨fun hc hread => ⟨?_, ?_, ?_⟩, fun hc => ?_⟩
  · refine (if_pos hc).trans (finish_jump ?_)
    rw [leaveException_ok hread, Res.bind_ok]
  · refine (if_pos hc).trans (sequential_delayed ?_)
    rw [leaveException_ok hread, Res.bind_ok]
  · refine (if_pos hc).trans (finish_jump ?_)
    rw [pop_ok hread, Res.bind_ok]
  · have hn := Bool.eq_false_iff.1 hc
    exact ⟨(if_neg hn).trans (fallThrough_eq s), (if_neg hn).trans (notTaken_eq s),
      (if_neg hn).trans (fallThrough_eq s)⟩

/-! ## Repeats and SWI -/

/-- Settles O43: each repeat instruction writes the repeat registers, RM and S, and then jumps or opens its slots. -/
theorem repeatStarts : Obligations.RepeatStarts := by
  intro s t disp r src v block later
  refine ⟨finish_jump (s := s) rfl, finish_jump (s := s) rfl, sequential_delayed rfl, sequential_delayed rfl,
    fun hsrc => finish_jump ?_⟩
  rw [hsrc, Res.bind_ok]
  rfl

/-- Settles O60: the word is the encoding, and the meaning refuses. -/
theorem swiStops : Obligations.SwiStops := ⟨Laws.decode_of_encode rfl rfl, fun _ => rfl⟩

end Sys2Proof.Machine

/-! What follows an instruction in a slot, at the end of a repeat block and under RPTS (45_program_control.md R497,
R531, R532, R712; D24): the slot and the repetition each said once. -/

namespace Sys2Proof.Machine

section

variable {before s : State} {d : Delay}

/-! ## The interval of R862 -/

theorem with_unflushed {n : Nat} (h : s.unflushed = n) : { s with unflushed := n } = s := by
  rw [← h]

/-! ## One slot (R497) -/

theorem endSlot_more (hdelay : before.delay = some d) (hleft : 2 ≤ d.left) (s : State) :
    endSlot before s = { s with delay := some { d with left := d.left - 1 } } := by
  rw [endSlot, hdelay]
  exact if_neg (by omega)

theorem endSlot_last_sequential (hdelay : before.delay = some d) (hleft : d.left ≤ 1) (htarget : d.target = none)
    (s : State) : endSlot before s = { s with delay := none } := by
  simp only [endSlot, hdelay, if_pos hleft, htarget]

theorem endSlot_last_target {p : Word} (hdelay : before.delay = some d) (hleft : d.left ≤ 1)
    (htarget : d.target = some p) (s : State) : endSlot before s = { s.jump p with delay := none } := by
  simp only [endSlot, hdelay, if_pos hleft, htarget]

/-! ## One round of a repetition (R531, R532) -/

theorem setSt_repeat_off (s : State) : s.setSt 8 false = { s with st := s.st &&& 0xFEFF } := rfl

/-- RC is decremented; the block starts again while the count is not negative, else RM becomes 0 (R531, D24). -/
theorem endBlock_eq (hs : s.sFlag = false) (turn : Bool) : endBlock turn s = if 0 ≤ (s.rc - 1).toInt
    then { s with rc := s.rc - 1, pc := if turn then s.rs else s.pc }
    else { s with rc := s.rc - 1, st := s.st &&& 0xFEFF } := by
  have hcount := msb_iff_negative (s.rc - 1)
  rw [endBlock, setSt_repeat_off]
  by_cases hrc : 0 ≤ (s.rc - 1).toInt
  · rw [if_neg (mt hcount.1 (not_not_intro hrc)), if_pos hrc]
  · rw [if_pos (hcount.2 hrc), if_neg hrc, hs]

/-- A repeated instruction is fetched again from the instruction register, or the program goes on behind RE (R532). -/
theorem endSingle_eq (hrm : s.stBit 8 = true) : endSingle s = if 0 ≤ (s.rc - 1).toInt
    then { s with rc := s.rc - 1, pc := s.pc - 1, held := true }
    else { s with rc := s.rc - 1, pc := s.re + 1, st := s.st &&& 0xFEFF, sFlag := false } := by
  have hcount := msb_iff_negative (s.rc - 1)
  rw [endSingle, hrm, setSt_repeat_off]
  by_cases hrc : 0 ≤ (s.rc - 1).toInt
  · rw [if_neg (by decide), if_neg (mt hcount.1 (not_not_intro hrc)), if_pos hrc]
  · rw [if_neg (by decide), if_pos (hcount.2 hrc), if_neg hrc]

theorem endBlock_unflushed (turn : Bool) (s : State) : (endBlock turn s).unflushed = s.unflushed := by
  unfold endBlock
  split
  · rfl
  · rfl

/-! ## After an instruction that was not repeated, with the pipeline flushed -/

/-- A block ends where RM and RE say so before the instruction and after it, but not in the slots of RPTBD (R524,
R531). -/
def State.endsBlock (before s : State) : Bool :=
  State.atBlockEnd before s && before.stBit 8 && before.re == before.pc && !before.inRptbdSlot

/-- The round of a block is counted before the slot. -/
theorem retire_flushed (hstalled : s.stalled = false) (hbefore : before.sFlag = false) (hflushed : s.unflushed = 0) :
    retire before s =
      .next (endSlot before (if before.endsBlock s then endBlock (!before.inTakenSlot) s else s)) := by
  rw [retire, if_neg (by simp [hstalled]), if_neg (by simp [hbefore]), if_neg (by simp [hflushed])]
  refine congrArg (fun u => Host.Outcome.next (endSlot before u))
    (with_unflushed (s := if before.endsBlock s then endBlock (!before.inTakenSlot) s else s) ?_)
  split
  · rw [endBlock_unflushed, hflushed]
  · rw [hflushed]

theorem endsBlock_elsewhere (hre : s.re ≠ before.pc) : before.endsBlock s = false := by
  simp [State.endsBlock, State.atBlockEnd, hre]

theorem endsBlock_at_end (hrmBefore : before.stBit 8 = true) (hrm : s.stBit 8 = true) (hs : s.sFlag = false)
    (hreBefore : before.re = before.pc) (hre : s.re = before.pc) : before.endsBlock s = !before.inRptbdSlot := by
  simp [State.endsBlock, State.atBlockEnd, hrmBefore, hrm, hs, hreBefore, hre]

/-- An instruction that RPTS repeats ends one repetition (R532). -/
theorem retire_repeated (hstalled : s.stalled = false) (hrmBefore : before.stBit 8 = true)
    (hbefore : before.sFlag = true) : retire before s = .next { endSingle s with unflushed := s.unflushed - 1 } := by
  rw [retire, if_neg (by simp [hstalled]), if_pos (by simp [hrmBefore, hbefore])]

end

/-- The instructions that change the program flow, and IDLE, may not stand in a slot (R497, U3). -/
theorem placement_slot {s : State} {d : Delay} {i : Instr} (hdelay : s.delay = some d)
    (hflow : flowClass i ≠ .plain) : placement i s = some .delaySlot := by
  have hplain : (flowClass i != .plain) = true := bne_iff_ne.2 hflow
  rw [placement, hdelay, hplain]
  rfl

/-- Settles O44: the round at the end of a block, and that of a repeated instruction. -/
theorem repeats : Obligations.Repeats := by
  intro before s hrmBefore hrm hstalled hdelay
  refine ⟨fun hbefore hs hreBefore hre hflushed => ?_, fun hbefore => ?_⟩
  · have hslot : before.inRptbdSlot = false := by rw [State.inRptbdSlot, hdelay]
    have hturn : before.inTakenSlot = false := by rw [State.inTakenSlot, hdelay]
    rw [retire_flushed hstalled hbefore hflushed, endsBlock_at_end hrmBefore hrm hs hreBefore hre, hslot, hturn,
      endSlot_of_no_delay hdelay, Bool.not_false, if_pos rfl, endBlock_eq hs]
    rfl
  · rw [retire_repeated hstalled hrmBefore hbefore, endSingle_eq hrm]
    split
    · rfl
    · rfl

/-- Settles O39: the slot by what remains of the three, a block's end counted before it, and the refusals by the
class of the instructions. -/
theorem delaySlots : Obligations.DelaySlots := by
  intro before s d hdelay
  refine ⟨fun hrmBefore hrm hstalled => ?_, fun hbefore hs hstalled hflushed => ?_, ?_, ?_, ?_⟩
  · rw [retire_of_rm_clear hrmBefore hstalled hrm]
    refine ⟨fun hleft => ?_, fun hleft htarget => ?_, fun hleft p htarget => ?_⟩
    · rw [endSlot_more hdelay hleft]
    · rw [endSlot_last_sequential hdelay hleft htarget]
    · rw [endSlot_last_target hdelay hleft htarget]
      rfl
  · intro slot round
    have hslot (u : State) (hu : u.unflushed = 0) : endSlot before u = slot u := by
      by_cases hleft : 2 ≤ d.left
      · rw [endSlot_more hdelay hleft]
        exact (if_pos hleft).symm
      · have hlast : d.left ≤ 1 := by omega
        refine Eq.trans ?_ (if_neg hleft).symm
        cases htarget : d.target with
        | none => exact endSlot_last_sequential hdelay hlast htarget u
        | some p =>
          rw [endSlot_last_target hdelay hlast htarget u, State.jump, ← hu]
    have hround : endBlock (!before.inTakenSlot) s = round := by
      rw [endBlock_eq hs, State.inTakenSlot, hdelay]
      cases htarget : d.target <;> simp [round, htarget]
    have hstill : round.unflushed = 0 := by
      rw [← hround, endBlock_unflushed, hflushed]
    rw [retire_flushed hstalled hbefore hflushed, hround]
    refine ⟨fun hre => ?_, fun hrmBefore hrm hreBefore hre => ?_⟩
    · rw [endsBlock_elsewhere hre, if_neg (by decide), hslot s hflushed]
    · have hrptbd : before.inRptbdSlot = (d.kind == .rptbd) := by rw [State.inRptbdSlot, hdelay]
      rw [endsBlock_at_end hrmBefore hrm hs hreBefore hre, hrptbd]
      by_cases hkind : d.kind = .rptbd
      · rw [if_pos hkind, hkind, if_neg (by decide), hslot s hflushed]
      · rw [if_neg hkind, if_pos (by simp [hkind]), hslot round hstill]
  · rw [State.irqBlocked, hdelay]
    rfl
  · rw [State.annulled, hdelay]
  · intro c tg disp n r v src i hi
    have hflow := List.all_eq_true.1 (rfl : List.all _ (fun i => flowClass i != .plain) = true) i hi
    exact placement_slot hdelay (bne_iff_ne.1 hflow)

end Sys2Proof.Machine

/-! IDLE, NOP and IACK (45_program_control.md R508 to R510; 60_exceptions.md R734, R760). -/

namespace Sys2Proof.Machine

/-! ## The IACK pin -/

/-- The addresses behind the two external interfaces (R104). -/
theorem bus_isSome_iff (romen : Bool) (a : Word) :
    (bus romen a).isSome = true ↔ region romen a = .globalBus ∨ region romen a = .localBus := by
  unfold bus
  cases region romen a <;> decide

theorem driveIack_eq {s : State} {romen : Bool} (hs : s.romen = romen) (a : Word) (level : Bool) :
    s.driveIack a level = if region romen a = .globalBus ∨ region romen a = .localBus
      then { s with pins := { s.pins with iack := level } } else s := by
  subst hs
  unfold State.driveIack
  by_cases h : region s.romen a = .globalBus ∨ region s.romen a = .localBus
  · rw [if_pos h, if_pos ((bus_isSome_iff _ _).2 h)]
  · rw [if_neg h, if_neg (mt (bus_isSome_iff _ _).1 h)]

theorem iackRead_ok {s t : State} {a v : Word} (h : dataRead a (s.driveIack a false) = .ok v t) :
    iackRead a s = .ok () (t.driveIack a true) := by
  rw [iackRead, h, Res.bind_ok]

/-- IACK drives the pin in a slot that is annulled too: it has no execute phase (R498). -/
theorem execIack_ok {s t u : State} {m : Mem} {a v : Word} (haddr : memEval m s = .ok a t)
    (hread : dataRead a (t.driveIack a false) = .ok v u) :
    exec (.iack m) s = .next (s.after (u.driveIack a true)) := by
  refine sequential_ok ?_
  rw [haddr, Res.bind_ok, iackRead_ok hread]

/-! ## NOP -/

/-- NOP reads at its operand, in an annulled slot too (R498, R510). -/
theorem execNop_ok {s t : State} {i : Ind} {v : Word} (h : srcMem (.ind i) s = .ok v t) :
    exec (.nop (.ind i)) s = .next (s.after t) := by
  have hread : indRead i s = .ok v t := h
  refine sequential_ok ?_
  rw [hread, Res.bind_ok]

/-! ## The idle state -/

/-- An idle machine makes the boundary alone (R734, R735). -/
theorem step_idle {s : State} {l : List Boundary} (hscript : s.script = { events := [], defer := false } :: l)
    (hidle : s.idle = true) (hboot : s.boot = none) (hirq : s.irqBlocked = true ∨ s.irqChoice = none) :
    step s = .next (latchDma s.opened) := by
  have hnone : (if s.irqBlocked then none else s.irqChoice) = none := by
    rcases hirq with h | h <;> simp [h]
  have hbound : atBoundary s = .ok true (latchDma s.opened) := by
    rw [atBoundary_quiet hscript, hnone, hboot, hidle]
    rfl
  rw [step, advance, hbound]

/-- Settles O45, instruction by instruction. -/
theorem idleNopIack : Obligations.IdleNopIack := by
  intro s t u m i r a v iack
  refine ⟨sequential_ok rfl, fun l hidle hscript hboot hirq => ?_, fallThrough_eq s, execNop_ok,
    fun haddr hread => ?_⟩
  · have hopened : s.opened = { s with script := l, pins := { s.pins with stat := 15, lstat := 15 } } := by
      rw [State.opened, hscript]
      rfl
    rw [step_idle hscript hidle hboot hirq, hopened]
  · have hiack {x : State} (hx : x.romen = s.romen) (level : Bool) : iack x level = x.driveIack a level :=
      (driveIack_eq hx a level).symm
    have ht : t.romen = s.romen := (memEval_readBy haddr).2.romen
    rw [hiack ht] at hread
    have hu : u.romen = s.romen := by
      rw [(dataRead_readBy hread).romen, State.driveIack_romen, ht]
    rw [hiack hu]
    exact execIack_ok haddr hread

end Sys2Proof.Machine

/-! An annulled slot (45_program_control.md R498, R863): one rule for each shared form of a meaning where the execute
phase is cancelled, and from it each family. -/

namespace Sys2Proof.Machine

section

variable {s t u hi lo : State} {i j : Ind} {p q x y : Word}

/-! ## What is cancelled and what carries the annulment on -/

theorem annulled_congr (h : t.delay = s.delay) : t.annulled = s.annulled := by
  rw [State.annulled, State.annulled, h]

theorem store_annulled (h : s.annulled = true) (a v : Word) : store a v s = .ok () s := if_pos h

/-- The two stores of a pair at one address draw their free values and store nothing (log entries 25 and 49). -/
theorem storeOpen_annulled (h : s.annulled = true) (a : Word) :
    storeOpen a s = .ok () { s with free := s.free + 2 } := by
  have hdrawn : State.annulled { s with free := s.free + 2 } = true := h
  have hfirst (v : Word) : store a v (drawWord (drawWord s).2).2 = .ok () { s with free := s.free + 2 } :=
    store_annulled hdrawn a v
  rw [storeOpen, hfirst, Res.bind_ok, store_annulled hdrawn]

/-! ## Stores -/

section

variable (hann : s.annulled = true)

include hann

theorem storeTo_annulled {m : Mem} {a : Word} (haddr : memEval m s = .ok a t) (v : Word) :
    storeTo s m v = .next (s.after t) := by
  refine sequential_ok ?_
  rw [haddr, Res.bind_ok, store_annulled ((memEval_readBy haddr).2.annulled.trans hann)]

/-- The lock pin is released by no cancelled store (log entry 25). -/
theorem unlockStore_annulled {m : Mem} {a : Word} (haddr : memEval m s = .ok a t) (v : Word) :
    unlockStore s m v = .next (s.after t) := by
  have ht : t.annulled = true := (memEval_readBy haddr).2.annulled.trans hann
  refine sequential_ok ?_
  rw [haddr, Res.bind_ok, store_annulled ht, Res.bind_ok, exe_annulled ht]

/-- SP changes though the store is cancelled. -/
theorem push_annulled (v : Word) : sequential s (pushValue v s) = .next (s.after { s with sp := s.sp + 1 }) :=
  sequential_ok (store_annulled (s := { s with sp := s.sp + 1 }) hann _ v)

theorem storeBoth_annulled (hi_eval : memEval (.ind i) s = .ok p hi) (lo_eval : memEval (.ind j) s = .ok q lo)
    (v w : Word) : storeBoth s i j v w = .next (s.after
      (if p = q then { s.moveBoth i hi lo with free := s.free + 2 } else s.moveBoth i hi lo)) := by
  have hmoved : (s.moveBoth i hi lo).annulled = true := hann
  refine sequential_ok ?_
  rw [indEval2_of_memEval hi_eval lo_eval, Res.bind_ok]
  by_cases h : p = q
  · rw [if_pos h, if_pos h]
    exact storeOpen_annulled hmoved p
  · rw [if_neg h, if_neg h, store_annulled hmoved, Res.bind_ok, store_annulled hmoved]

/-- Of an operation with a store only the read is left. -/
theorem withStore_annulled (hi_eval : memEval (.ind i) s = .ok p hi) (lo_eval : memEval (.ind j) s = .ok q lo)
    (hread : dataRead q (s.moveBoth i hi lo) = .ok x t) (v : Word) (f : Word → State → State) :
    withStore s i j v f = .next (s.after t) := by
  have ht : t.annulled = true := (dataRead_readBy hread).annulled.trans hann
  refine sequential_ok ?_
  rw [indEval2_of_memEval hi_eval lo_eval, Res.bind_ok, hread, Res.bind_ok, store_annulled ht, Res.bind_ok,
    exe_annulled ht]

/-! ## Loads -/

theorem loadBoth_annulled {m n : Fin 8} (hne : m ≠ n) (hi_eval : memEval (.ind i) s = .ok p hi)
    (lo_eval : memEval (.ind j) s = .ok q lo) (hx : dataRead q (s.moveBoth i hi lo) = .ok x t)
    (hy : dataRead p t = .ok y u) (f : Word → Word → State → State) :
    loadBoth s m n i j f = .next (s.after u) := by
  have hu : u.annulled = true := (dataRead_readBy hy).annulled.trans ((dataRead_readBy hx).annulled.trans hann)
  rw [loadBoth, if_neg hne.symm]
  refine sequential_ok ?_
  rw [indEval2_of_memEval hi_eval lo_eval, Res.bind_ok, hx, Res.bind_ok, hy, Res.bind_ok, exe_annulled hu]

/-- A locked read of LDFI or LDII, with its pin driven (R551, R552, log entry 25). -/
theorem lockedRead_annulled {m : Mem} {a w : Word} (haddr : memEval m s = .ok a u)
    (hread : dataRead a (u.driveLock a false) = .ok w t) : lockedRead m s = .ok w t ∧ t.annulled = true := by
  have hu : u.annulled = true := (memEval_readBy haddr).2.annulled.trans hann
  refine ⟨?_, ?_⟩
  · rw [lockedRead, haddr, Res.bind_ok, State.lockLow, hread]
  · rw [(dataRead_readBy hread).annulled, annulled_congr (u.driveLock_delay a false), hu]

/-- The read of SIGI, with its pin driven low and high again (R553, log entry 25). -/
theorem signalRead_annulled {m : Mem} {a w : Word} (haddr : memEval m s = .ok a u)
    (hread : memRead .sigi a (u.driveLock a false) = .ok w t) :
    signalRead m s = .ok w (t.driveLock a true) ∧ (t.driveLock a true).annulled = true := by
  have hu : u.annulled = true := (memEval_readBy haddr).2.annulled.trans hann
  refine ⟨?_, ?_⟩
  · rw [signalRead, haddr, Res.bind_ok, State.lockLow, hread, Res.bind_ok, State.lockHigh]
  · rw [annulled_congr (t.driveLock_delay a true), (memRead_readBy hread).annulled,
      annulled_congr (u.driveLock_delay a false), hu]

theorem pop_annulled {w : Word} (h : dataRead s.sp s = .ok w t) :
    pop s = .ok w { t with sp := s.sp - 1 } ∧ State.annulled { t with sp := s.sp - 1 } = true :=
  ⟨pop_ok h, (dataRead_readBy h).annulled.trans hann⟩

end

end

section

variable {s t : State} (hann : s.annulled = true)

include hann

/-! ## The families -/

theorem integer_annulled {src : Src} {a : Word} (hsrc : srcI src s = .ok a t) (dst : Reg) (n : Fin 12) (c : Cond) :
    ∀ i ∈ [Instr.absi src dst, .addc src dst, .addi src dst, .ash src dst, .cmpi src dst, .ldi src dst,
      .ldicond c src dst, .lsh src dst, .mpyi src dst, .mpyshi src dst, .mpyuhi src dst, .negb src dst,
      .negi src dst, .subb src dst, .subi src dst, .subrb src dst, .subri src dst, .float src n],
    exec i s = .next (s.after t) := by
  have ht : t.annulled = true := (srcI_readBy hsrc).annulled.trans hann
  have slot {f : Word → State → State} : execute s (srcI src s) f = .next (s.after t) := execute_annulled hsrc ht
  simp only [List.forall_mem_cons]
  exact ⟨slot, slot, slot, slot, slot, slot, slot, slot, slot, slot, slot, slot, slot, slot, slot, slot, slot, slot,
    List.forall_mem_nil _⟩

theorem logical_annulled {src : Src} {a : Word} (hsrc : srcU src s = .ok a t) (dst : Reg) :
    ∀ i ∈ [Instr.and src dst, .andn src dst, .not src dst, .or src dst, .xor src dst, .tstb src dst, .subc src dst],
    exec i s = .next (s.after t) := by
  have ht : t.annulled = true := (srcU_readBy hsrc).annulled.trans hann
  have slot {f : Word → State → State} : execute s (srcU src s) f = .next (s.after t) := execute_annulled hsrc ht
  simp only [List.forall_mem_cons]
  exact ⟨slot, slot, slot, slot, slot, slot, slot, List.forall_mem_nil _⟩

theorem float_annulled {src : FSrc} {a : Ext} (hsrc : srcF src s = .ok a t) (dst : Fin 12) (d : Reg) (c : Cond) :
    ∀ i ∈ [Instr.absf src dst, .addf src dst, .cmpf src dst, .lde src dst, .ldf src dst, .ldfcond c src dst,
      .mpyf src dst, .negf src dst, .norm src dst, .rnd src dst, .subf src dst, .subrf src dst, .fix src d],
    exec i s = .next (s.after t) := by
  have ht : t.annulled = true := (srcF_readBy hsrc).annulled.trans hann
  have slot {f : Ext → State → State} : execute s (srcF src s) f = .next (s.after t) := execute_annulled hsrc ht
  simp only [List.forall_mem_cons]
  exact ⟨slot, slot, slot, slot, slot, slot, slot, slot, slot, slot, slot, slot, slot, List.forall_mem_nil _⟩

theorem byteHalf_annulled {src : RSrc} {a : Word} (hsrc : srcR src s = .ok a t) (dst : Reg) (b : Fin 4) (h : Fin 2) :
    ∀ i ∈ [Instr.lb b src dst, .lbu b src dst, .lwl b src dst, .lwr b src dst, .mb b src dst, .lh h src dst,
      .lhu h src dst, .mh h src dst], exec i s = .next (s.after t) := by
  have ht : t.annulled = true := (srcR_readBy hsrc).annulled.trans hann
  have slot {f : Word → State → State} : execute s (srcR src s) f = .next (s.after t) := execute_annulled hsrc ht
  simp only [List.forall_mem_cons]
  exact ⟨slot, slot, slot, slot, slot, slot, slot, slot, List.forall_mem_nil _⟩

theorem estimate_annulled {src : FRSrc} {a : Ext} (hsrc : srcFR src s = .ok a t) (dst : Fin 12) :
    ∀ i ∈ [Instr.rcpf src dst, .rsqrf src dst, .toieee src dst], exec i s = .next (s.after t) := by
  have ht : t.annulled = true := (srcFR_readBy hsrc).annulled.trans hann
  have slot {f : Ext → State → State} : execute s (srcFR src s) f = .next (s.after t) := execute_annulled hsrc ht
  simp only [List.forall_mem_cons]
  exact ⟨slot, slot, slot, List.forall_mem_nil _⟩

theorem execLdm_memory_annulled (m : Mem) (dst : Fin 12) {a : Word} : srcMem m s = .ok a t →
    exec (.ldm (match m with | .dir a => .dir a | .ind i => .ind i) dst) s = .next (s.after t) := by
  intro hsrc
  have ht : t.annulled = true := (srcMem_readBy hsrc).annulled.trans hann
  cases m with
  | dir d => exact execute_annulled (src := srcMem (.dir d) s) hsrc ht
  | ind i => exact execute_annulled (src := srcMem (.ind i) s) hsrc ht

theorem integer3_annulled {ops : Ops3} {x y : Word} (hsrc : src3 ops s = .ok (x, y) t) (dst : Reg) :
    ∀ i ∈ [Instr.addc3 ops dst, .addi3 ops dst, .and3 ops dst, .andn3 ops dst, .ash3 ops dst, .lsh3 ops dst,
      .mpyi3 ops dst, .mpyshi3 ops dst, .mpyuhi3 ops dst, .or3 ops dst, .subb3 ops dst, .subi3 ops dst,
      .xor3 ops dst, .cmpi3 ops, .tstb3 ops], exec i s = .next (s.after t) := by
  have ht : t.annulled = true := (src3_readBy hsrc).annulled.trans hann
  have slot {f : Word × Word → State → State} : execute s (src3 ops s) f = .next (s.after t) :=
    execute_annulled hsrc ht
  simp only [List.forall_mem_cons]
  exact ⟨slot, slot, slot, slot, slot, slot, slot, slot, slot, slot, slot, slot, slot, slot, slot,
    List.forall_mem_nil _⟩

theorem float3_annulled {ops : FOps3} {x y : Ext} (hsrc : src3F ops s = .ok (x, y) t) (dst : Fin 12) :
    ∀ i ∈ [Instr.addf3 ops dst, .subf3 ops dst, .mpyf3 ops dst, .cmpf3 ops], exec i s = .next (s.after t) := by
  have ht : t.annulled = true := (src3F_readBy hsrc).annulled.trans hann
  have slot {f : Ext × Ext → State → State} : execute s (src3F ops s) f = .next (s.after t) :=
    execute_annulled hsrc ht
  simp only [List.forall_mem_cons]
  exact ⟨slot, slot, slot, slot, List.forall_mem_nil _⟩

theorem stores_annulled (m : Mem) (src : Reg) (f : Fin 12) (k : BitVec 5) {a : Word} : memEval m s = .ok a t →
    ∀ i ∈ [(match m with | .dir d => Instr.stiDir src d | .ind i => .stiInd src i),
      (match m with | .dir d => .stikDir k d | .ind i => .stikInd k i), .stf f m, .stfi f m, .stii src m],
    exec i s = .next (s.after t) := by
  intro haddr
  have slot {v : Word} : storeTo s m v = .next (s.after t) := storeTo_annulled hann haddr v
  have lock {v : Word} : unlockStore s m v = .next (s.after t) := unlockStore_annulled hann haddr v
  simp only [List.forall_mem_cons]
  cases m with
  | dir d => exact ⟨slot, slot, slot, lock, lock, List.forall_mem_nil _⟩
  | ind i => exact ⟨slot, slot, slot, lock, lock, List.forall_mem_nil _⟩

/-- The instructions of the registers alone change nothing. -/
theorem registerOnly_annulled (src dst : Reg) (f : Fin 12) (x : XReg) (k : BitVec 16) :
    ∀ i ∈ [Instr.ldhi k dst, .ldep x dst, .ldpe src x, .rol dst, .rolc dst, .ror dst, .rorc dst, .nop (.reg dst),
      .ldm (.imm k) f], exec i s = .next (s.after s) := by
  have slot {v : Word} {g : Word → State → State} : execute s (.ok v s) g = .next (s.after s) :=
    execute_annulled rfl hann
  have rotate {f : Word → IRes} : opI s (.ok (s.rdI dst) s) dst f = .next (s.after s) := slot
  simp only [List.forall_mem_cons]
  unfold exec
  exact ⟨slot, slot, slot, rotate, rotate, rotate, rotate, fallThrough_eq s, slot, List.forall_mem_nil _⟩

section

variable {i j : Ind} {hi lo u : State} {p q x y : Word} (hi_eval : memEval (.ind i) s = .ok p hi)
  (lo_eval : memEval (.ind j) s = .ok q lo)

include hi_eval lo_eval

theorem operationStore_annulled (hread : dataRead q (s.moveBoth i hi lo) = .ok x t) (m n l : Fin 8) :
    ∀ z ∈ [Instr.addi3Sti m n l i j, .subi3Sti m n l i j, .negiSti m l i j, .ash3Sti m n l i j,
      .lsh3Sti m n l i j, .absiSti m l i j, .fixSti m l i j, .mpyi3Sti m n l i j, .and3Sti m n l i j,
      .or3Sti m n l i j, .xor3Sti m n l i j, .notSti m l i j, .ldiSti m l i j, .ldfStf m l i j, .absfStf m l i j,
      .floatStf m l i j, .negfStf m l i j, .toieeeStf m l i j, .frieeeStf m l i j, .addf3Stf m n l i j,
      .subf3Stf m n l i j, .mpyf3Stf m n l i j], exec z s = .next (s.after t) := by
  have slot {v : Word} {f : Word → State → State} : withStore s i j v f = .next (s.after t) :=
    withStore_annulled hann hi_eval lo_eval hread v f
  simp only [List.forall_mem_cons]
  exact ⟨slot, slot, slot, slot, slot, slot, slot, slot, slot, slot, slot, slot, slot, slot, slot, slot, slot, slot,
    slot, slot, slot, slot, List.forall_mem_nil _⟩

theorem multiplyPair_annulled (hx : dataRead p (s.moveBoth i hi lo) = .ok x t) (hy : dataRead q t = .ok y u)
    (k : Fin 4) (d1 d2 : Fin 2) (m n : Fin 8) :
    ∀ z ∈ [Instr.mpyf3Addf3 k d1 d2 m n i j, .mpyf3Subf3 k d1 d2 m n i j, .mpyi3Addi3 k d1 d2 m n i j,
      .mpyi3Subi3 k d1 d2 m n i j], exec z s = .next (s.after u) := by
  have hu : u.annulled = true := (dataRead_readBy hy).annulled.trans ((dataRead_readBy hx).annulled.trans hann)
  have hread : indRead2 i j s = .ok (x, y) u :=
    (indRead2_eq_read2 (indEval2_of_memEval hi_eval lo_eval)).trans (read2_ok hx hy)
  have slot {f : Word × Word → State → State} : execute s (indRead2 i j s) f = .next (s.after u) :=
    execute_annulled hread hu
  have slotF {f : Ext × Ext → State → State} : execute s (asFloat2 (indRead2 i j s)) f = .next (s.after u) :=
    execute_annulled (asFloat2_of_ok hread) hu
  simp only [List.forall_mem_cons]
  exact ⟨slotF, slotF, slot, slot, List.forall_mem_nil _⟩

end

end

/-- Settles O49, family by family: an execute phase and a store are cancelled, the operands are read. -/
theorem annulledSlot : Obligations.AnnulledSlot := by
  intro s t hann
  refine ⟨fun src dst n c a hsrc => ⟨integer_annulled hann hsrc dst n c, fun hdst => execLda_ok hdst hsrc⟩,
    fun src dst a hsrc => logical_annulled hann hsrc dst, fun src dst d c a hsrc => float_annulled hann hsrc dst d c,
    fun src dst b h a hsrc => byteHalf_annulled hann hsrc dst b h,
    fun src dst a hsrc => estimate_annulled hann hsrc dst,
    fun m src dst a hsrc => ⟨?_, ?_, execLdm_memory_annulled hann m dst hsrc⟩,
    fun ops dst x y hsrc => integer3_annulled hann hsrc dst, fun ops dst x y hsrc => float3_annulled hann hsrc dst,
    fun m src f k a haddr => stores_annulled hann m src f k haddr,
    fun m dst f a w u v haddr => ⟨fun hread => ?_, fun hread => ?_, fun hread => execIack_ok haddr hread⟩,
    fun src dst f x k => ⟨?_, registerOnly_annulled hann src dst f x k, execLdpk_eq k s⟩,
    fun dst f w hread => ?_, fun i w hread => execNop_ok hread,
    fun i j hi lo u p q x y k d1 d2 m n l hp hq => ⟨?_, fun hx => ⟨operationStore_annulled hann hp hq hx m n l,
      fun hy hne => ?_⟩, fun hx hy => multiplyPair_annulled hann hp hq hx hy k d1 d2 m n⟩⟩
  · exact execute_annulled hsrc ((srcMem_readBy hsrc).annulled.trans hann)
  · change execLdm (.reg src) dst s = _
    exact execute_annulled (src := srcMan (.reg src) s) rfl hann
  · obtain ⟨hlocked, ht⟩ := lockedRead_annulled hann haddr hread
    exact ⟨execute_annulled hlocked ht, execute_annulled (asFloat_of_ok hlocked) ht⟩
  · obtain ⟨hsignal, hv⟩ := signalRead_annulled hann haddr hread
    exact execute_annulled hsignal hv
  · simp only [List.forall_mem_cons]
    exact ⟨push_annulled hann _, push_annulled hann _, List.forall_mem_nil _⟩
  · obtain ⟨hpop, ht⟩ := pop_annulled hann hread
    simp only [List.forall_mem_cons]
    exact ⟨execute_annulled hpop ht, execute_annulled (asFloat_of_ok hpop) ht, List.forall_mem_nil _⟩
  · simp only [List.forall_mem_cons]
    exact ⟨storeBoth_annulled hann hp hq _ _, storeBoth_annulled hann hp hq _ _, List.forall_mem_nil _⟩
  · simp only [List.forall_mem_cons]
    exact ⟨loadBoth_annulled hann hne hp hq hx hy _, loadBoth_annulled hann hne hp hq hx hy _, List.forall_mem_nil _⟩

end Sys2Proof.Machine

/-! The frames of the instructions that change the program flow or drive a pin (R491, R493 to R510, R520 to R527, R551
to R553): one rule for each update that they make, one for each shared form, and from these each family. -/

namespace Sys2Proof.Machine

section

variable {s t u : State} {r m : List Reg} {fl : BitVec 16} {a w : List Word}

/-! ## Updates of the program flow -/

theorem State.Keeps.followedBy (h : s.Keeps t r fl a w) (h' : t.Keeps u [] fl [] []) : s.Keeps u r fl a w :=
  (h.trans h').mono (by simp) (by simp) (by simp) (by simp)

theorem State.Keeps.widen (h : s.Keeps t r 0 a w) (fl : BitVec 16) : s.Keeps t r fl a w :=
  h.mono (fun _ h => h) (by simp) (fun _ h => h) fun _ h => h

theorem State.Keeps.jump (h : s.Keeps t r fl a w) (p : Word) : s.Keeps (t.jump p) r fl a w :=
  h.followedBy (t.keeps_jump p [] fl [] [])

theorem State.Keeps.delayed (h : s.Keeps t r fl a w) (p : Option Word) (b : Bool) (k : SlotKind) :
    s.Keeps (t.delayed p b k) r fl a w :=
  h.followedBy (t.keeps_delayed p b k [] fl [] [])

/-- One stored bit of ST. -/
theorem State.keeps_setSt (s : State) {i : Nat} (hi : i < 16) (b : Bool) :
    s.Keeps (s.setSt i b) [] (1#16 <<< i) [] [] := by
  refine s.keeps_st _ _ (BitVec.eq_of_getLsbD_eq fun j _ => ?_) [] []
  have hbit : (s.setSt i b).st.getLsbD j = if j = i then b else s.st.getLsbD j := setSt_getLsbD s i j b hi
  simp only [State.setSt] at hbit
  rw [BitVec.getLsbD_and, BitVec.getLsbD_and, BitVec.getLsbD_not, one_bit i j hi, hbit]
  by_cases hj : j = i <;> simp [hj]

/-- GIE, CF and their copies (R720). -/
theorem State.keeps_saveStatus (s : State) : s.Keeps s.saveStatus [] 0x6600 [] [] := by
  rw [saveStatus_eq]
  refine s.keeps_st _ _ (BitVec.eq_of_getLsbD_eq fun j hj => ?_) [] []
  rw [BitVec.getLsbD_and, BitVec.getLsbD_and, enteredStatus_getLsbD]
  interval_cases j <;> simp

/-- GIE and CF (R520). -/
theorem State.keeps_restoreStatus (s : State) : s.Keeps s.restoreStatus [] 0x2400 [] [] := by
  rw [restoreStatus_eq]
  refine s.keeps_st _ _ (BitVec.eq_of_getLsbD_eq fun j hj => ?_) [] []
  rw [BitVec.getLsbD_and, BitVec.getLsbD_and, returnedStatus_getLsbD]
  interval_cases j <;> simp

/-- RS, RE and S. -/
theorem State.keeps_repeatRegisters (s : State) (start last : Word) (single : Bool) (fl : BitVec 16) :
    s.Keeps { s with rs := start, re := last, sFlag := single } [.rs, .re] fl [] [] :=
  { State.Keeps.refl s [.rs, .re] fl [] [] with
    reg := fun d _ _ hd => by
      cases d with
      | rs => exact absurd List.mem_cons_self hd
      | re => exact absurd (List.mem_cons_of_mem _ List.mem_cons_self) hd
      | _ => rfl }

theorem State.keeps_startBlock (s : State) (start last : Word) :
    s.Keeps (s.startBlock start last) [.rs, .re] 0x100 [] [] :=
  (s.keeps_setSt (i := 8) (by decide) true).trans (State.keeps_repeatRegisters _ start last false _)

theorem State.keeps_startSingle (s : State) (place count : Word) :
    s.Keeps (s.startSingle place count) [.rs, .re, .rc] 0x100 [] [] :=
  ((s.keeps_setSt (i := 8) (by decide) true).trans (State.keeps_repeatRegisters _ place place true _)).trans
    (State.keeps_wrI _ .rc count _ [] [])

theorem State.keeps_idle (s : State) (n : Nat) (fl : BitVec 16) :
    s.Keeps { s with idle := true, unflushed := n } [] fl [] [] :=
  { State.Keeps.refl s [] fl [] [] with reg := fun d _ _ _ => by cases d <;> rfl }

theorem State.keeps_driveIack (s : State) (x : Word) (level : Bool) (fl : BitVec 16) :
    s.Keeps (s.driveIack x level) [] fl [] [] := by
  unfold State.driveIack
  split
  · exact s.keeps_withPins _ fl [] [] [] ⟨rfl, rfl, rfl, rfl, rfl⟩
  · exact .refl _ _ _ _ _

/-! ## The stack and the exceptions -/

theorem push_keeps {v : Word} (h : push v s = .ok () t) : s.Keeps t [.sp] fl [] [s.sp + 1] :=
  ((s.keeps_wrI .sp (s.sp + 1) fl [] []).trans (memWrite_keeps h [] fl [])).mono (by simp) (by simp) (by simp) (by simp)

theorem push_latch {v : Word} {l : Option Latch} (h : push v s = .stall l) (hw : s.offPeriph [s.sp + 1]) : l = none :=
  dataWrite_latch h (hw _ (List.mem_singleton_self _))

theorem enterException_keeps {ret vector : Word} (h : enterException ret vector s = .ok () t) :
    s.Keeps t [.sp] 0x6600 [vector] [s.sp + 1] := by
  obtain ⟨_, x, hpush, h⟩ := Res.bind_eq_ok h
  obtain ⟨v, y, hread, h⟩ := Res.bind_eq_ok h
  cases h
  have hstack := s.keeps_saveStatus.trans (push_keeps hpush)
  rw [State.saveStatus_sp] at hstack
  exact ((hstack.trans ((dataRead_readBy hread).keeps _ [])).mono (by simp) (by simp) (by simp) (by simp)).jump v

theorem enterException_latch {ret vector : Word} {l : Option Latch} (h : enterException ret vector s = .stall l)
    (hw : s.offPeriph [s.sp + 1]) : l = none := by
  rcases Res.bind_eq_stall h with h | ⟨_, x, -, h⟩
  · refine push_latch h ?_
    rw [State.saveStatus_sp]
    exact State.offPeriph_of_romen s.saveStatus_romen hw
  · exact ((dataRead_waits _ _).bind fun _ _ _ => Waits.ok _ _) l h

theorem leaveException_keeps {v : Word} (h : leaveException s = .ok v t) : s.Keeps t [.sp] 0x2400 [s.sp] [] := by
  obtain ⟨x, y, hpop, h⟩ := Res.bind_eq_ok h
  cases h
  exact ((pop_operand.keeps _ y hpop).1.widen _).followedBy y.keeps_restoreStatus

theorem leaveException_waits (s : State) : Waits (leaveException s) := (pop_waits s).bind fun _ _ _ => Waits.ok _ _

/-! ## The shared forms -/

/-- Where the outcome is a next state, the instruction has changed no more than is said; the program flow and the output
pins are not in the frame. -/
def Keeping (s : State) (regs : List Reg) (flags : BitVec 16) (reads writes : List Word)
    (x : Host.Outcome State Fault Refusal) : Prop :=
  ∀ u, x = .next u → s.Keeps u regs flags reads writes

theorem Keeping.ite {c : Prop} [Decidable c] {x y : Host.Outcome State Fault Refusal} (hx : Keeping s r fl a w x)
    (hy : Keeping s r fl a w y) : Keeping s r fl a w (if c then x else y) := by
  split
  · exact hx
  · exact hy

/-- An operation, then what is done with its value at once: a jump. -/
theorem finish_keeping {x : Res Unit} (hk : ∀ t, x = .ok () t → s.Keeps t r fl a w)
    (hw : ∀ l, x = .stall l → s.offPeriph w → l = none) : Keeping s r fl a w (finish s x) :=
  fun _ h => finish_keeps h hk hw

theorem sequential_keeping {x : Res Unit} (hk : ∀ t, x = .ok () t → s.Keeps t r fl a w)
    (hw : ∀ l, x = .stall l → s.offPeriph w → l = none) : Keeping s r fl a w (sequential s x) :=
  fun _ h => sequential_keeps h hk hw

/-- A jump as the last thing that an instruction does. -/
theorem jump_keeping (h : s.Keeps t r fl a w) (p : Word) : Keeping s r fl a w (finish s (.ok () (t.jump p))) :=
  finish_keeping (fun x hx => by cases hx; exact h.jump p) fun l hl => by cases hl

/-- Updates that are done at once, and then the next address. -/
theorem next_keeping (h : s.Keeps t r fl a w) : Keeping s r fl a w (sequential s (.ok () t)) :=
  sequential_keeping (fun x hx => by cases hx; exact h) fun l hl => by cases hl

theorem delayed_keeping (h : s.Keeps t r fl a w) (p : Option Word) (b : Bool) (k : SlotKind) :
    Keeping s r fl a w (sequential s (.ok () (t.delayed p b k))) :=
  next_keeping (h.delayed p b k)

theorem fallThrough_keeping : Keeping s r fl a w (fallThrough s) := next_keeping (.refl _ _ _ _ _)

theorem notTaken_keeping : Keeping s r fl a w (notTaken s) := delayed_keeping (.refl _ _ _ _ _) _ _ _

theorem branchIf_keeping (c : Bool) (p : Word) : Keeping s r fl a w (branchIf s c p) :=
  .ite (jump_keeping (.refl _ _ _ _ _) p) fallThrough_keeping

theorem callTo_keeping (p : Word) : Keeping s [.sp] 0 [] [s.sp + 1] (callTo s p) := by
  refine finish_keeping (fun t h => ?_) fun l h hw => ?_
  · obtain ⟨_, x, hpush, h⟩ := Res.bind_eq_ok h
    cases h
    exact (push_keeps hpush).jump p
  · rcases Res.bind_eq_stall h with h | ⟨_, x, -, h⟩
    · exact push_latch h hw
    · cases h

/-- Reading a value changes no more than is said; where it waits, nothing goes into the latch. The output pins are not
in the frame, as they are in that of `Operand`: a locked read and IACK drive one (R508, R551). -/
structure FramedRead {α : Type} (s : State) (x : Res α) (regs : List Reg) (flags : BitVec 16) (reads : List Word) :
    Prop where
  keeps : ∀ v t, x = .ok v t → s.Keeps t regs flags reads []
  waits : Waits x

section

variable {α : Type} {x : Res α} {g : α → State → State} (hx : FramedRead s x m fl a)

include hx

theorem FramedRead.bind_keeps (hg : ∀ v t, x = .ok v t → t.Keeps (g v t) r fl [] [])
    (h : (x.bind fun v t => .ok () (g v t)) = .ok () u) : s.Keeps u (r ++ m) fl a [] := by
  obtain ⟨v, t, hv, h⟩ := Res.bind_eq_ok h
  cases h
  exact ((hx.keeps v t hv).trans (hg v t hv)).mono (by simp) (by simp) (by simp) (by simp)

theorem FramedRead.bind_latch {l : Option Latch} (h : (x.bind fun v t => .ok () (g v t)) = .stall l) : l = none :=
  (hx.waits.bind fun _ _ _ => Waits.ok _ _) l h

theorem FramedRead.finish (hg : ∀ v t, x = .ok v t → t.Keeps (g v t) r fl [] []) :
    Keeping s (r ++ m) fl a [] (finish s (x.bind fun v t => .ok () (g v t))) :=
  finish_keeping (fun _ h => hx.bind_keeps hg h) fun _ h _ => hx.bind_latch h

theorem FramedRead.sequential (hg : ∀ v t, x = .ok v t → t.Keeps (g v t) r fl [] []) :
    Keeping s (r ++ m) fl a [] (sequential s (x.bind fun v t => .ok () (g v t))) :=
  sequential_keeping (fun _ h => hx.bind_keeps hg h) fun _ h _ => hx.bind_latch h

end

theorem leaveException_framedRead : FramedRead s (leaveException s) [.sp] 0x2400 [s.sp] :=
  ⟨fun _ _ h => leaveException_keeps h, leaveException_waits s⟩

theorem pop_framedRead : FramedRead s (pop s) [.sp] 0 [s.sp] :=
  ⟨fun v t h => (pop_operand.keeps v t h).1, pop_operand.waits⟩

theorem srcU_framedRead (src : Src) : FramedRead s (srcU src s) (movesOf src.mems) fl (addrsOf s src.mems) :=
  ⟨fun _ _ h => (srcU_readBy h).keeps fl [], srcU_waits src s⟩

/-- The locked read of LDFI and LDII, whose pin is not in the frame (R551, R552). -/
theorem lockedRead_framedRead (m : Mem) : FramedRead s (lockedRead m s) m.moves fl [s.memAddr m] := by
  refine ⟨fun v t h => ?_, lockedRead_waits m s⟩
  obtain ⟨x, y, haddr, h⟩ := Res.bind_eq_ok h
  obtain ⟨rfl, hmove⟩ := memEval_readBy haddr
  exact (((hmove.keeps fl []).followedBy (y.keeps_driveLock _ false fl [] [] [])).trans
    ((dataRead_readBy h).keeps fl [])).mono (by simp) (by simp) (by simp) (by simp)

/-- The read of SIGI (R553). -/
theorem signalRead_framedRead (m : Mem) : FramedRead s (signalRead m s) m.moves fl [s.memAddr m] := by
  refine ⟨fun v t h => ?_, signalRead_waits m s⟩
  obtain ⟨x, y, haddr, h⟩ := Res.bind_eq_ok h
  obtain ⟨v, z, hread, h⟩ := Res.bind_eq_ok h
  cases h
  obtain ⟨rfl, hmove⟩ := memEval_readBy haddr
  exact ((((hmove.keeps fl []).followedBy (y.keeps_driveLock _ false fl [] [] [])).trans
    ((memRead_readBy hread).keeps fl [])).mono (by simp) (by simp) (by simp) (by simp)).followedBy
    (z.keeps_driveLock _ true fl [] [] [])

/-- The read of IACK (R508). -/
theorem iack_framedRead (m : Mem) :
    FramedRead s ((memEval m s).bind fun x t => iackRead x t) m.moves fl [s.memAddr m] := by
  refine ⟨fun v t h => ?_, (memEval_waits m s).bind fun _ _ _ => (dataRead_waits _ _).bind fun _ _ _ => Waits.ok _ _⟩
  obtain ⟨x, y, haddr, h⟩ := Res.bind_eq_ok h
  obtain ⟨v, z, hread, h⟩ := Res.bind_eq_ok h
  cases h
  obtain ⟨rfl, hmove⟩ := memEval_readBy haddr
  exact ((((hmove.keeps fl []).followedBy (y.keeps_driveIack _ false fl)).trans
    ((dataRead_readBy hread).keeps fl [])).mono (by simp) (by simp) (by simp) (by simp)).followedBy
    (z.keeps_driveIack _ true fl)

/-- A value whose reading changes no bit of ST. -/
theorem FramedRead.st {α : Type} {x : Res α} {v : α} (hx : FramedRead s x m 0 a) (hm : .st ∉ m)
    (h : x = .ok v t) : t.st = s.st := by
  simpa only [BitVec.ofNat_eq_ofNat, BitVec.not_zero, BitVec.and_allOnes] using (hx.keeps v t h).st hm

theorem Mem.st_not_moved (m : Mem) : Reg.st ∉ m.moves := by
  cases m with
  | dir d => simp [Mem.moves]
  | ind i => cases i <;> simp [Mem.moves, Ind.moves]

theorem exe_keeps {f : State → State} (h : s.Keeps (f s) r fl [] []) : s.Keeps (s.exe f) r fl [] [] := by
  unfold State.exe
  split
  · exact .refl _ _ _ _ _
  · exact h

/-! ## The instructions -/

theorem execDbcond_keeping (n : Fin 8) (c : Cond) (tg : BTarget) : Keeping s [.ar n] 0 [] [] (execDbcond n c tg s) := by
  intro u h
  rw [execDbcond_eq] at h
  cases h
  have hcount := s.keeps_wrAr n (dbCount s n) 0 [] []
  split
  · exact (hcount.jump _).settled
  · exact hcount.after

theorem execLajcond_keeping (c : Cond) (tg : BTarget) : Keeping s [.r 11] 0 [] [] (execLajcond c tg s) :=
  .ite (delayed_keeping (s.keeps_wrI (.r 11) _ _ _ _) _ _ _) notTaken_keeping

theorem execTrapcond_keeping (c : Cond) (n : BitVec 9) :
    Keeping s [.sp] 0x6600 [s.tvtp + n.setWidth 32] [s.sp + 1] (execTrapcond c n s) :=
  .ite (finish_keeping (fun _ h => enterException_keeps h) fun _ h hw => enterException_latch h hw) fallThrough_keeping

theorem execLatcond_keeping (c : Cond) (n : BitVec 9) :
    Keeping s [.r 11] 0x6600 [s.tvtp + n.setWidth 32] [] (execLatcond c n s) := by
  refine .ite (FramedRead.sequential (r := []) ⟨fun v t h => ?_, dataRead_waits _ _⟩
    fun _ t _ => t.keeps_delayed _ _ _ _ _ _ _) notTaken_keeping
  exact ((s.keeps_saveStatus.trans (s.saveStatus.keeps_wrI (.r 11) (s.pc + 4) _ [] [])).trans
    ((dataRead_readBy h).keeps _ [])).mono (by simp) (by simp) (by simp) (by simp)

theorem execReticond_keeping (c : Cond) : Keeping s [.sp] 0x2400 [s.sp] [] (execReticond c s) :=
  .ite (leaveException_framedRead.finish (r := []) fun v t _ => t.keeps_jump v _ _ _ _) fallThrough_keeping

theorem execReticondD_keeping (c : Cond) : Keeping s [.sp] 0x2400 [s.sp] [] (execReticondD c s) :=
  .ite (leaveException_framedRead.sequential (r := []) fun _ t _ => t.keeps_delayed _ _ _ _ _ _ _) notTaken_keeping

theorem execRetscond_keeping (c : Cond) : Keeping s [.sp] 0 [s.sp] [] (execRetscond c s) :=
  .ite (pop_framedRead.finish (r := []) fun v t _ => t.keeps_jump v _ _ _ _) fallThrough_keeping

theorem execRpts_keeping (src : Src) :
    Keeping s ([.rs, .re, .rc] ++ movesOf src.mems) 0x100 (addrsOf s src.mems) [] (execRpts src s) :=
  (srcU_framedRead src).finish (r := [.rs, .re, .rc]) fun v t _ => (t.keeps_startSingle _ v).jump _

theorem execIdle_keeping : Keeping s [] 0x2000 [] [] (execIdle s) :=
  next_keeping ((s.keeps_setSt (i := 13) (by decide) true).followedBy (State.keeps_idle _ 0 _))

theorem execNop_framed (i : Ind) : Framed s i.moves 0 [s.memAddr (.ind i)] [] (execNop (.ind i) s) :=
  (srcMem_operand (.ind i)).framed (r := []) fun _ _ _ => ⟨.refl _ _ _ _ _, .refl _⟩

theorem execIack_keeping (m : Mem) : Keeping s m.moves 0 [s.memAddr m] [] (execIack m s) :=
  sequential_keeping (fun t h => (iack_framedRead m).keeps () t h) fun l h _ => (iack_framedRead (fl := 0) m).waits l h

/-- An interlocked integer load: its flags are gated as those of LDI (R47). -/
theorem loadI_keeping {x : Res Word} (hx : FramedRead s x m 0 a) (hm : .st ∉ m) (d : Reg) (f : Word → Word) :
    Keeping s (d :: m) (if s.flagsOn d then 0x1E else 0) a [] (loadI s x d f) := by
  have hread : FramedRead s x m (if s.flagsOn d then 0x1E else 0) a := ⟨fun v t h => (hx.keeps v t h).widen _, hx.waits⟩
  exact hread.sequential (r := [d]) fun v t h =>
    exe_keeps (putI_frame (hx.st hm h) (flagMask_plain rfl rfl rfl)).1

theorem execLdfi_keeping (m : Mem) (b : Fin 12) :
    Keeping s (.r b :: m.moves) 0x1E [s.memAddr m] [] (execLdfi m b s) := by
  have hread : FramedRead s (asFloat (lockedRead m s)) m.moves 0x1E [s.memAddr m] :=
    ⟨fun v t h => by obtain ⟨x, hx, -⟩ := asFloat_ok h; exact (lockedRead_framedRead m).keeps x t hx,
      asFloat_waits (lockedRead_waits m s)⟩
  exact hread.sequential (r := [.r b]) fun v t _ => exe_keeps (putF_frame (flagMask_plain rfl rfl rfl)).1

end

/-! ## The families -/

section

variable (s : State)

theorem branch_keeping (c : Cond) (tg : BTarget) (disp : BitVec 24) (r : Reg) :
    ∀ x ∈ [Instr.br disp, .brd disp, .bcond c tg, .bcondD c tg, .bcondAT c tg, .bcondAF c tg, .nop (.reg r)],
    Keeping s [] 0 [] [] (exec x s) := by
  have hsame := State.Keeps.refl s [] 0 [] []
  simp only [List.forall_mem_cons]
  unfold exec
  exact ⟨jump_keeping hsame _, delayed_keeping hsame _ _ _, branchIf_keeping _ _, delayed_keeping hsame _ _ _,
    delayed_keeping hsame _ _ _, delayed_keeping hsame _ _ _, fallThrough_keeping, List.forall_mem_nil _⟩

theorem countedBranch_keeping (n : Fin 8) (c : Cond) (tg : BTarget) :
    ∀ x ∈ [Instr.dbcond n c tg, .dbcondD n c tg], Keeping s [.ar n] 0 [] [] (exec x s) := by
  simp only [List.forall_mem_cons]
  unfold exec
  exact ⟨execDbcond_keeping n c tg, delayed_keeping (s.keeps_wrAr n _ _ _ _) _ _ _, List.forall_mem_nil _⟩

theorem linked_keeping (c : Cond) (tg : BTarget) (disp : BitVec 24) :
    ∀ x ∈ [Instr.laj disp, .lajcond c tg], Keeping s [.r 11] 0 [] [] (exec x s) := by
  simp only [List.forall_mem_cons]
  unfold exec
  exact ⟨delayed_keeping (s.keeps_wrI (.r 11) _ _ _ _) _ _ _, execLajcond_keeping c tg, List.forall_mem_nil _⟩

theorem call_keeping (c : Cond) (tg : BTarget) (disp : BitVec 24) :
    ∀ x ∈ [Instr.call disp, .callcond c tg], Keeping s [.sp] 0 [] [s.sp + 1] (exec x s) := by
  simp only [List.forall_mem_cons]
  unfold exec
  exact ⟨callTo_keeping _, .ite (callTo_keeping _) fallThrough_keeping, List.forall_mem_nil _⟩

theorem interruptReturn_keeping (c : Cond) :
    ∀ x ∈ [Instr.reticond c, .reticondD c], Keeping s [.sp] 0x2400 [s.sp] [] (exec x s) := by
  simp only [List.forall_mem_cons]
  unfold exec
  exact ⟨execReticond_keeping c, execReticondD_keeping c, List.forall_mem_nil _⟩

theorem repeatBlock_keeping (disp : BitVec 24) (r : Reg) :
    ∀ x ∈ [Instr.rptbRel disp, .rptbReg r, .rptbdRel disp, .rptbdReg r],
    Keeping s [.rs, .re] 0x100 [] [] (exec x s) := by
  simp only [List.forall_mem_cons]
  unfold exec
  exact ⟨jump_keeping (s.keeps_startBlock _ _) _, jump_keeping (s.keeps_startBlock _ _) _,
    delayed_keeping (s.keeps_startBlock _ _) _ _ _, delayed_keeping (s.keeps_startBlock _ _) _ _ _,
    List.forall_mem_nil _⟩

theorem lockedLoad_keeping (m : Mem) (r : Reg) :
    ∀ x ∈ [Instr.ldii m r, .sigi m r],
    Keeping s (r :: m.moves) (if s.flagsOn r then 0x1E else 0) [s.memAddr m] [] (exec x s) := by
  simp only [List.forall_mem_cons]
  unfold exec
  exact ⟨loadI_keeping (lockedRead_framedRead m) (Mem.st_not_moved m) r id,
    loadI_keeping (signalRead_framedRead m) (Mem.st_not_moved m) r id, List.forall_mem_nil _⟩

end

/-- Settles O52, family by family. -/
theorem frameControl : Obligations.FrameControl := fun s u c tg disp n r v src m b i =>
  ⟨fun x hx => branch_keeping s c tg disp r x hx u, fun x hx => countedBranch_keeping s n c tg x hx u,
    fun x hx => linked_keeping s c tg disp x hx u, fun x hx => call_keeping s c tg disp x hx u,
    execTrapcond_keeping c v u, execLatcond_keeping c v u, fun x hx => interruptReturn_keeping s c x hx u,
    execRetscond_keeping c u, fun x hx => repeatBlock_keeping s disp r x hx u, execRpts_keeping src u,
    execIdle_keeping u, execNop_framed i u, execIack_keeping m u, fun x hx => lockedLoad_keeping s m r x hx u,
    execLdfi_keeping m b u⟩

end Sys2Proof.Machine

/-! The interlocked instructions (46_interlocked.md R550 to R555): the level of the lock pin that each leaves, and
each instruction outside an annulled slot from the shared form of its load or store. -/

namespace Sys2Proof.Machine

/-! ## The lock pins -/

/-- The pin is that of the external bus of the address (R104, R550). -/
theorem driveLock_eq {s : State} {romen : Bool} (hs : s.romen = romen) (a : Word) (level : Bool) :
    s.driveLock a level = if region romen a = .globalBus then { s with pins := { s.pins with lock := level } }
      else if region romen a = .localBus then { s with pins := { s.pins with llock := level } } else s := by
  subst hs
  unfold State.driveLock bus
  cases region s.romen a <;> rfl

/-- No read of an operand moves a lock pin. -/
theorem ReadBy.lockPins {s t : State} {m : List Reg} {a : List Word} (h : ReadBy s t m a) :
    t.pins.lock = s.pins.lock ∧ t.pins.llock = s.pins.llock := by
  obtain ⟨ar, p, d, x, y, f, rfl, -, -⟩ := h
  exact ⟨rfl, rfl⟩

/-! ## The shared forms outside an annulled slot -/

section

variable {s t u : State} {m : Mem} {a w : Word} (haddr : memEval m s = .ok a t)

include haddr

theorem lockedRead_ok (hread : dataRead a (t.driveLock a false) = .ok w u) : lockedRead m s = .ok w u := by
  rw [lockedRead, haddr, Res.bind_ok, State.lockLow, hread]

theorem signalRead_ok (hread : memRead .sigi a (t.driveLock a false) = .ok w u) :
    signalRead m s = .ok w (u.driveLock a true) := by
  rw [signalRead, haddr, Res.bind_ok, State.lockLow, hread, Res.bind_ok, State.lockHigh]

/-- A read made with the lock pin driven is annulled only where its instruction is. -/
theorem lockedAccess_live (hlive : s.annulled = false) {reads : List Word}
    (hread : ReadBy (t.driveLock a false) u [] reads) : u.annulled = false := by
  rw [hread.annulled, annulled_congr (t.driveLock_delay a false), (memEval_readBy haddr).2.annulled, hlive]

/-- The value is given before the operand's mode modifies its register (D17); the pin is released after the write. -/
theorem unlockStore_live (hlive : s.annulled = false) (hwrite : dataWrite a w t = .ok () u) :
    unlockStore s m w = .next (s.after (u.driveLock a true)) := by
  have ht : t.annulled = false := (memEval_readBy haddr).2.annulled.trans hlive
  obtain ⟨-, -, -, -, -, -, hann, -, -⟩ := memWrite_fields hwrite
  refine sequential_ok ?_
  rw [haddr, Res.bind_ok, store_live ht, hwrite, Res.bind_ok, exe_live (hann.trans ht), State.lockHigh]

end

/-- Settles O36: each instruction by its shared form, with the bus of its address told by its region. -/
theorem interlocked : Obligations.Interlocked := by
  intro m s t u a w haddr hlive lock
  have ht : t.romen = s.romen := (memEval_readBy haddr).2.romen
  have hlock {x : State} (hx : x.romen = s.romen) (level : Bool) : lock x level = x.driveLock a level :=
    (driveLock_eq hx a level).symm
  have hlow : (t.driveLock a false).romen = s.romen := (t.driveLock_romen a false).trans ht
  have hstored {v : Word} (h : dataWrite a v t = .ok () u) : u.romen = s.romen := by
    obtain ⟨-, -, -, -, -, hromen, -⟩ := memWrite_fields h
    exact hromen.trans ht
  rw [hlock ht]
  refine ⟨fun hread => ?_, fun dst hread => ?_, fun src hwrite => ?_, fun src hwrite => ?_⟩
  · have hby := dataRead_readBy hread
    have hu : u.annulled = false := lockedAccess_live haddr hlive hby
    have hvalue : lockedRead m s = .ok w u := lockedRead_ok haddr hread
    obtain ⟨hglobal, hlocal⟩ := hby.lockPins
    exact ⟨hglobal, hlocal, fun dst => loadI_live hvalue hu dst id,
      fun dst => loadF_live (asFloat_of_ok hvalue) hu dst⟩
  · have hby := memRead_readBy hread
    have hu : (u.driveLock a true).annulled = false :=
      (annulled_congr (u.driveLock_delay a true)).trans (lockedAccess_live haddr hlive hby)
    rw [hlock (hby.romen.trans hlow)]
    exact loadI_live (signalRead_ok haddr hread) hu dst id
  · rw [hlock (hstored hwrite)]
    exact unlockStore_live haddr hlive hwrite
  · rw [hlock (hstored hwrite)]
    exact unlockStore_live haddr hlive hwrite

end Sys2Proof.Machine

/-! An operation in parallel with a store, and the multiply pairs (47_parallel.md R560 to R594): one rule for each
shared form outside an annulled slot, and from it each instruction by its result. -/

namespace Sys2Proof.Machine

/-! ## An operation with a store -/

section

variable {s hi lo t u : State} {d2 s2 : Ind} {p q v w : Word} (hp : memEval (.ind d2) s = .ok p hi)
  (hq : memEval (.ind s2) s = .ok q lo) (hlive : s.annulled = false)
  (hread : dataRead q (s.moveBoth d2 hi lo) = .ok w t)

include hp hq hlive hread

/-- Outside an annulled slot the word is read before the store is made, and the result is written after it (R561). -/
theorem withStore_live (hwrite : dataWrite p v t = .ok () u) (f : Word → State → State) :
    withStore s d2 s2 v f = .next (s.after (f w u)) := by
  have ht : t.annulled = false := (dataRead_readBy hread).annulled.trans hlive
  obtain ⟨-, -, -, -, -, -, hannulled, -⟩ := memWrite_fields hwrite
  refine sequential_ok ?_
  rw [indEval2_of_memEval hp hq, Res.bind_ok, hread, Res.bind_ok, store_live ht, hwrite, Res.bind_ok,
    exe_live (hannulled.trans ht)]

/-- The integer result `r` of the word is written with its flags, after the old value of src3 was stored. -/
theorem opSti_live {r3 : Fin 8} (hwrite : dataWrite p (s.rdLow r3) t = .ok () u) (d1 : Fin 8) {f : Word → IRes}
    {r : IRes} (hres : f w = r) :
    opSti s d1 r3 d2 s2 f = .next (s.after (u.putI (.r (low d1)) r.v r.f)) := by
  rw [← hres]
  exact withStore_live hp hq hlive hread hwrite _

/-- The floating-point result `r` of the word is written with its flags, after the old value of src3 was stored. -/
theorem opStf_live {r3 : Fin 8} (hwrite : dataWrite p (extToSingle (s.rdLowF r3)) t = .ok () u) (d1 : Fin 8)
    {f : Word → EFRes} {r : EFRes} (hres : f w = r) :
    opStf s d1 r3 d2 s2 f = .next (s.after (u.putF (low d1) r.r r.f)) := by
  rw [← hres]
  exact withStore_live hp hq hlive hread hwrite _

end

/-- Settles O47: the accesses by the rule of the shared form, each integer result as that of the wide words, each
floating-point result as that of the format's operation. -/
theorem operationWithStore : Obligations.OperationWithStore := by
  intro s hi lo t u d2 s2 d1 r3 r1 p q w hp hq hlive hread
  constructor
  · intro hwrite a
    have op {f : Word → IRes} {r : IRes} (hres : f w = r) :
        opSti s d1 r3 d2 s2 f = .next (s.after (u.putI (.r (low d1)) r.v r.f)) :=
      opSti_live hp hq hlive hread hwrite d1 hres
    have logic (f : Word → Word) : opSti s d1 r3 d2 s2 (fun x => logicRes (f x)) =
        .next (s.after (u.putI (.r (low d1)) (f w) (plainFlags (f w)))) :=
      op (r := ⟨f w, plainFlags (f w)⟩) rfl
    refine ⟨withStore_live hp hq hlive hread hwrite _, ?_⟩
    simp only [List.forall_mem_cons, List.not_mem_nil, false_imp_iff, implies_true, and_true]
    exact ⟨op (aluAbs_eq s.ovm w), op rfl, op (aluSub_wide s.ovm 0 w false), logic fun x => ~~~x,
      op (aluAdd_wide s.ovm a w false), op (aluSub_wide s.ovm w a false), op (aluMpy_low s.ovm a w),
      op (aluAsh_wide w a), op (aluLsh_wide w a), logic fun x => a &&& x, logic fun x => a ||| x,
      logic fun x => a ^^^ x⟩
  · intro hwrite a m
    have op {f : Word → EFRes} {r : EFRes} (hres : f w = r) :
        opStf s d1 r3 d2 s2 f = .next (s.after (u.putF (low d1) r.r r.f)) :=
      opStf_live hp hq hlive hread hwrite d1 hres
    have arith (f : Word → FRes) : opStf s d1 r3 d2 s2 (fun x => arithF (f x)) =
        .next (s.after (u.putF (low d1) (f w).r (resultFlags (f w)))) :=
      op (r := ⟨(f w).r, resultFlags (f w)⟩) rfl
    refine ⟨withStore_live hp hq hlive hread hwrite _, ?_, op (r := ⟨(fAbs m).r, absFloatFlags m⟩) rfl,
      op (r := ⟨(fromIEEE w).1, _⟩) rfl, op (r := ⟨(toIEEE m).1 ++ 0#8, _⟩) rfl⟩
    simp only [List.forall_mem_cons, List.not_mem_nil, false_imp_iff, implies_true, and_true]
    exact ⟨arith fun x => fNeg (singleToExt x), arith fun x => .exact (fFloat x),
      arith fun x => fAdd a (singleToExt x), arith fun x => fSub (singleToExt x) a,
      arith fun x => fMul a (singleToExt x)⟩

/-! ## Multiply pairs -/

/-- What the P field selects (R590): the two factors, then the two operands of the sum or difference. -/
theorem pairOps_eq {α : Type} (k : Fin 4) (a b x y : α) : pairOps k a b x y =
    (if k = 0 then (x, y) else if k = 2 then (a, b) else (x, a),
      if k = 0 then (a, b) else if k = 1 then (y, b) else if k = 2 then (x, y) else (b, y)) :=
  match k with
  | 0 => rfl
  | 1 => rfl
  | 2 => rfl
  | 3 => rfl

/-- The product goes to R0 or R1 (R590). -/
theorem productReg_eq (d1 : Fin 2) : productReg d1 = if d1 = 0 then 0 else 1 :=
  match d1 with
  | 0 => rfl
  | 1 => rfl

section

variable {s u : State} {i j : Ind} {k : Fin 4} {m n : Fin 8} (hlive : u.annulled = false)

include hlive

/-- The product, then the sum or difference, then the flags of both, where P selects the factors `f` and the operands
`g` of the sum (R590, R593). -/
theorem pairI_live {x y : Word} {f g : Word × Word} {r : IRes} (hread : indRead2 i j s = .ok (x, y) u)
    (hops : pairOps k (s.rdLow m) (s.rdLow n) x y = (f, g)) (op : Word → Word → IRes) (hres : op g.1 g.2 = r)
    (d1 d2 : Fin 2) : pairI s k d1 d2 m n i j op = .next (s.after
      (((u.wrI (.r (productReg d1)) (lowProduct s.ovm f.1 f.2).v).wrI (.r (sumReg d2)) r.v).setFlags
        (pairFlags ((lowProduct s.ovm f.1 f.2).f.v || r.f.v) false))) := by
  refine (execute_live hread hlive).trans ?_
  rw [hops, ← hres, ← aluMpy_low]

/-- The same of floating-point operands, for each of which a word read is widened (R591). -/
theorem pairF_live {x y : Word} {f g : Ext × Ext} (hread : indRead2 i j s = .ok (x, y) u)
    (hops : pairOps k (s.rdLowF m) (s.rdLowF n) (singleToExt x) (singleToExt y) = (f, g)) (op : Ext → Ext → FRes)
    (d1 d2 : Fin 2) : pairF s k d1 d2 m n i j op = .next (s.after
      (((u.wrF (productReg d1) (fMul f.1 f.2).r).wrF (sumReg d2) (op g.1 g.2).r).setFlags
        (pairFlags ((fMul f.1 f.2).ovf || (op g.1 g.2).ovf) ((fMul f.1 f.2).unf || (op g.1 g.2).unf)))) := by
  refine (execute_live (asFloat2_of_ok hread) hlive).trans ?_
  rw [hops]

end

/-- Settles O48: the two words read in order, the operands that P selects (`pairOps_eq`), and both halves by the rule
of their shared form. -/
theorem multiplyPairs : Obligations.MultiplyPairs := by
  intro s hi lo t u i j k d1 d2 m n p q x y hp hq hlive hx hy dp ds fl
  have hu : u.annulled = false :=
    (dataRead_readBy hy).annulled.trans ((dataRead_readBy hx).annulled.trans hlive)
  have hread : indRead2 i j s = .ok (x, y) u :=
    (indRead2_eq_read2 (indEval2_of_memEval hp hq)).trans (read2_ok hx hy)
  have hproduct : dp = productReg d1 := (productReg_eq d1).symm
  rw [hproduct]
  constructor
  · intro a b f g
    have hops : pairOps k a b x y = (f, g) := pairOps_eq k a b x y
    simp only [List.forall_mem_cons, List.not_mem_nil, false_imp_iff, implies_true, and_true]
    exact ⟨pairI_live hu hread hops (fun v w => aluAdd s.ovm v w false) (aluAdd_wide _ _ _ _) d1 d2,
      pairI_live hu hread hops (fun v w => aluSub s.ovm v w false) (aluSub_wide _ _ _ _) d1 d2⟩
  · intro a b x y f g
    have hops : pairOps k a b x y = (f, g) := pairOps_eq k a b x y
    simp only [List.forall_mem_cons, List.not_mem_nil, false_imp_iff, implies_true, and_true]
    exact ⟨pairF_live hu hread hops fAdd d1 d2, pairF_live hu hread hops fSub d1 d2⟩

end Sys2Proof.Machine

/-! The interrupt controller (60_exceptions.md R703 to R709, R730, R735): the pins, what requests, enables and latches
each interrupt, the choice among them, and the step that takes one. -/

namespace Sys2Proof.Machine

section

variable (s : State)

/-! ## The pins (R706) -/

theorem nmiEvent_eq (level : Bool) : nmiEvent level s = { s with
    pins := { s.pins with nmi := level }
    iif := if s.pins.nmi = true ∧ level = false then s.iif ||| 0x10000 else s.iif } := by
  unfold nmiEvent
  cases s.pins.nmi <;> cases level <;> rfl

/-- The FLAG bit of a pin in its nibble of IIF (R55). -/
theorem setBit_pinFlag (w : Word) (x : Fin 4) : setBit w (4 * x.val + 2) true = w ||| 4#32 <<< (4 * x.val) := by
  have hmask : ∀ x : Fin 4, 1#32 <<< (4 * x.val + 2) = 4#32 <<< (4 * x.val) := by decide
  rw [setBit, if_pos rfl, hmask]

theorem iiofEvent_eq (x : Fin 4) (level : Bool) : iiofEvent x level s = { s with
    pins := { s.pins with iiof := s.pins.iiof.set x level }
    iif := if s.pins.iiof[x] = true ∧ level = false ∧ s.iif.getLsbD (4 * x.val) = true ∧
        s.iif.getLsbD (4 * x.val + 1) = false then s.iif ||| 4#32 <<< (4 * x.val) else s.iif } := by
  unfold iiofEvent
  simp only [Bool.and_eq_true, Bool.not_eq_true', iifFunc, iifType, and_assoc, State.setIif, setBit_pinFlag]
  split <;> rfl

/-! ## Requests, enables and latches, source by source (R703, R705, R785) -/

theorem irqPin_add (x : Fin 4) : irqPin (3 + x.val) = x := by revert x; decide

theorem irqReq_pin (x : Fin 4) : s.irqReq (3 + x.val) = s.signalOn (.iiof x) := by
  rw [State.irqReq, if_neg (by omega), if_neg (by omega), if_pos (by omega), irqPin_add]
  rfl

theorem irqEn_pin (x : Fin 4) : s.irqEn (3 + x.val) = s.iif.getLsbD (4 * x.val + 3) := by
  rw [State.irqEn, if_neg (by omega), if_neg (by omega), if_pos (by omega), Nat.add_sub_cancel_left]

theorem irqLatch_pin (x : Fin 4) : s.irqLatch (3 + x.val) =
    if s.iif.getLsbD (4 * x.val + 1) then none else some (4 * x.val + 2) := by
  rw [State.irqLatch, if_neg (by omega), if_neg (by omega), if_pos (by omega), irqPin_add, Nat.add_sub_cancel_left,
    iifType]

/-- The four interrupts of a port have its four signals. -/
theorem irqReq_port (x : Fin 6) : ∀ k, 13 + 4 * x.val ≤ k → k ≤ 16 + 4 * x.val →
    s.irqReq k = irqPortSignal k s.ports[x] := by
  intro k hlo hhi
  have hport : irqPort k = x := Fin.ext (by rw [irqPort, Fin.val_ofNat]; omega)
  subst hport
  rw [State.irqReq, if_neg (by omega), if_neg (by omega), if_neg (by omega), if_pos (by omega)]

theorem irqPortSignal_eq (x : Fin 6) (p : Port) :
    irqPortSignal (13 + 4 * x.val) p = p.icfull ∧ irqPortSignal (14 + 4 * x.val) p = p.icrdy ∧
      irqPortSignal (15 + 4 * x.val) p = p.ocrdy ∧ irqPortSignal (16 + 4 * x.val) p = p.ocempty := by
  fin_cases x <;> exact ⟨rfl, rfl, rfl, rfl⟩

theorem ocempty_eq_length (p : Port) : p.ocempty = decide (p.outq.length = 0) := by
  cases h : p.outq <;> simp [Port.ocempty, h]

theorem irqReq_dma (y : Fin 6) : s.irqReq (37 + y.val) = s.iif.getLsbD (25 + y.val) := by
  rw [State.irqReq, if_neg (by omega), if_neg (by omega), if_neg (by omega), if_neg (by omega), if_pos (by omega),
    show 37 + y.val - 12 = 25 + y.val by omega]

theorem irqLatch_dma (y : Fin 6) : s.irqLatch (37 + y.val) = some (25 + y.val) := by
  rw [State.irqLatch, if_neg (by omega), if_neg (by omega), if_neg (by omega), if_neg (by omega), if_pos (by omega),
    show 37 + y.val - 12 = 25 + y.val by omega]

theorem irqEn_agent {k : Nat} (hlo : 13 ≤ k) (hhi : k ≤ 42) : s.irqEn k = s.iie.getLsbD (k - 12) := by
  rw [State.irqEn, if_neg (by omega), if_neg (by omega), if_neg (by omega), if_pos (by omega)]

theorem irqLatch_port {k : Nat} (hlo : 13 ≤ k) (hhi : k ≤ 36) : s.irqLatch k = none := by
  rw [State.irqLatch, if_neg (by omega), if_neg (by omega), if_neg (by omega), if_pos (by omega)]

/-! ## The choice (R708, R709) -/

theorem mem_irqTable {k : Nat} : k ∈ irqTable ↔ 1 ≤ k ∧ k ≤ 6 ∨ 13 ≤ k ∧ k ≤ 43 := by
  simp only [irqTable, List.mem_append, List.mem_cons, List.not_mem_nil, or_false, List.mem_map, List.mem_range]
  constructor
  · rintro (h | ⟨i, hi, rfl⟩) <;> omega
  · rintro (h | h)
    · exact .inl (by omega)
    · exact .inr ⟨k - 13, by omega, by omega⟩

theorem irqTable_rising : irqTable.Pairwise (· < ·) := by decide

/-- In a rising list the first element with a property is the least one. -/
theorem find?_eq_some_iff_least {α : Type} [LinearOrder α] {p : α → Bool} {l : List α}
    (hl : l.Pairwise (· < ·)) {k : α} :
    l.find? p = some k ↔ (k ∈ l ∧ p k = true) ∧ ∀ j < k, ¬ (j ∈ l ∧ p j = true) := by
  induction l with
  | nil => simp
  | cons x l ih =>
    obtain ⟨hx, hl⟩ := List.pairwise_cons.1 hl
    cases hp : p x with
    | true =>
      rw [List.find?_cons_of_pos hp, Option.some_inj]
      constructor
      · rintro rfl
        refine ⟨⟨List.mem_cons_self, hp⟩, fun j hj ⟨hmem, _⟩ => ?_⟩
        rcases List.mem_cons.1 hmem with rfl | hmem
        · exact lt_irrefl _ hj
        · exact lt_asymm hj (hx j hmem)
      · rintro ⟨⟨hmem, -⟩, hleast⟩
        rcases List.mem_cons.1 hmem with rfl | hmem
        · rfl
        · exact absurd ⟨List.mem_cons_self, hp⟩ (hleast x (hx k hmem))
    | false =>
      have hskip (j : α) : j ∈ x :: l ∧ p j = true ↔ j ∈ l ∧ p j = true := by
        refine ⟨fun ⟨hmem, hj⟩ => ⟨(List.mem_cons.1 hmem).resolve_left ?_, hj⟩,
          fun ⟨hmem, hj⟩ => ⟨List.mem_cons_of_mem _ hmem, hj⟩⟩
        rintro rfl
        rw [hp] at hj
        cases hj
      rw [List.find?_cons_of_neg (by simp [hp]), ih hl]
      simp only [hskip]

theorem irqCand_iff (k : Nat) : s.irqCand k = true ↔
    s.irqReq k = true ∧ s.irqEn k = true ∧ (k = 1 ∨ s.stBit 13 = true) := by
  simp only [State.irqCand, Bool.and_eq_true, Bool.or_eq_true, beq_iff_eq, and_assoc]

theorem irqChoice_eq_some_iff {k : Nat} :
    s.irqChoice = some k ↔ (k ∈ irqTable ∧ s.irqCand k = true) ∧
      ∀ j < k, ¬ (j ∈ irqTable ∧ s.irqCand j = true) :=
  find?_eq_some_iff_least irqTable_rising

end

/-! ## The step that takes an interrupt (R730, R735, D30) -/

theorem takeInterrupt_ok {u t w : State} {k : Nat} {b : Option Nat} {v : Word}
    (hpush : dataWrite (u.sp + 1) u.pc { u.clearFlag b with st := enteredStatus u.st, sp := u.sp + 1 } = .ok () t)
    (hread : dataRead (u.ivtp + BitVec.ofNat 32 k) t = .ok v w) :
    takeInterrupt k b u = .ok () { w.jump v with idle := false } := by
  obtain ⟨i, hflag⟩ := clearFlag_state u b
  rw [hflag] at hpush
  unfold takeInterrupt
  rw [hflag, enterException_ok hpush hread]

/-- The choice stands on the state before the DMA latches, the entry on the state after them. -/
theorem step_interrupt {s : State} {l : List Boundary} {k : Nat}
    (hscript : s.script = { events := [], defer := false } :: l)
    (hblocked : s.irqBlocked = false) (hchoice : s.irqChoice = some k) {u : State}
    (htake : takeInterrupt k (s.irqLatch k) (latchDma s.opened) = .ok () u) : step s = .next u := by
  have hbound : atBoundary s = .ok true u := by
    rw [atBoundary_quiet hscript, hblocked, if_neg Bool.false_ne_true, hchoice]
    exact congrArg (Res.bind · fun _ u => Res.ok true u) htake
  rw [step, advance, hbound]

/-- Settles O53, source by source, then the choice and the entry. -/
theorem interruptTaken : Obligations.InterruptTaken := by
  refine ⟨fun s x b => ⟨congrArg (Res.ok ()) (nmiEvent_eq s b), congrArg (Res.ok ()) (iiofEvent_eq s x b)⟩,
    fun s => ⟨rfl, rfl, rfl, rfl, rfl, rfl, rfl, rfl, rfl, fun x => ?_, fun x => ?_,
      fun y => ⟨irqReq_dma s y, irqLatch_dma s y⟩, fun k => irqEn_agent s, fun k => irqLatch_port s⟩,
    fun s k => ⟨?_, fun l hscript hblocked hchoice t w v hpush hread => ?_⟩⟩
  · exact ⟨(irqReq_pin s x).trans (signalOn_iiof s x), irqEn_pin s x, irqLatch_pin s x⟩
  · have hreq := irqReq_port s x
    obtain ⟨hfull, hready, hroom, hempty⟩ := irqPortSignal_eq x s.ports[x]
    exact ⟨(hreq _ (by omega) (by omega)).trans hfull,
      (hreq _ (by omega) (by omega)).trans (hready.trans (icrdy_eq_length _)),
      (hreq _ (by omega) (by omega)).trans hroom,
      (hreq _ (by omega) (by omega)).trans (hempty.trans (ocempty_eq_length _))⟩
  · simp only [irqChoice_eq_some_iff, mem_irqTable, irqCand_iff]
  · have hopened : s.opened = { s with script := l, pins := { s.pins with stat := 15, lstat := 15 } } := by
      rw [State.opened, hscript]
      rfl
    obtain ⟨d, i, hlatch⟩ := latchDma_state s.opened
    refine step_interrupt hscript hblocked hchoice (takeInterrupt_ok (t := t) ?_ ?_)
    · rw [← hopened, hlatch] at hpush
      rw [hlatch]
      exact hpush
    · rw [hlatch]
      exact hread

/-! ## The state after reset (R850, R851) -/

/-- Settles O6, field by field. -/
theorem resetLegal : Obligations.ResetLegal where
  mem := State.reset_mem_wf
  st := rfl
  iif := rfl
  ivtp := rfl
  tvtp := rfl
  gmicr := rfl
  lmicr := rfl
  lru := .refl _
  delay := rfl
  timers := by decide
  ports := by decide
  dma := by decide

end Sys2Proof.Machine

/-! The timers (61_peripherals.md R770 to R776): the tick by its cases, the H1 cycle, the pin and the control register,
and the period. -/

namespace Sys2Proof.Machine

/-! ## One bit of a word beside a mask -/

theorem setBit_and_mask {i : Nat} {mask : Word} (hi : i < 32) (hmask : mask.getLsbD i = false) (w : Word) (b : Bool) :
    setBit w i b &&& mask = w &&& mask := by
  refine BitVec.eq_of_getLsbD_eq fun j _ => ?_
  rw [BitVec.getLsbD_and, BitVec.getLsbD_and, setBit_getLsbD _ _ _ _ hi]
  split
  next h => rw [h, hmask, Bool.and_false, Bool.and_false]
  next => rfl

theorem getLsbD_and_mask {i : Nat} {mask : Word} (hmask : mask.getLsbD i = true) (w : Word) :
    (w &&& mask).getLsbD i = w.getLsbD i := by
  rw [BitVec.getLsbD_and, hmask, Bool.and_true]

section

variable (s : State) (t : Fin 2) (n : Timer)

/-! ## A timer of the state -/

@[simp] theorem timers_setTimer_self : (s.setTimer t n).timers[t] = n := Vector.getElem_set_self _

@[simp] theorem setTimer_setTimer (n' : Timer) : (s.setTimer t n).setTimer t n' = s.setTimer t n' := by
  simp only [State.setTimer, Vector.set_set]

@[simp] theorem setTimer_self : s.setTimer t s.timers[t] = s :=
  congrArg (fun v => { s with timers := v }) (Vector.set_getElem_self _)

/-- Counter and period are zero and GO does not start the timer: the boundary case of R774. -/
def Timer.still (m : Timer) : Bool := m.counter == 0 && m.period == 0 && !m.ctl.getLsbD 6

theorem still_eq (m : Timer) : m.still = (m.atZero && !m.go) := rfl

/-- The state in which a timer stands at `n` but for TSTAT, which an event has put at `level`: the rise of TSTAT sets
the timer's flag (R775). -/
def State.timerAt (level : Bool) : State := { s.setTimer t { n with tstat := level } with
  iif := if level = true ∧ n.tstat = false then s.iif ||| (if t = 0 then 0x01000000 else 0x80000000) else s.iif }

theorem setBit_tint (w : Word) : setBit w (tintBit t) true = w ||| (if t = 0 then 0x01000000 else 0x80000000) := by
  fin_cases t <;> rfl

/-! ## Events and ticks (R774, R775) -/

theorem timerEvent_setTimer : timerEvent t (s.setTimer t n) =
    s.timerAt t n (if n.ctl.getLsbD 8 then !n.tstat else true) := by
  unfold timerEvent State.timerAt
  simp only [timers_setTimer_self, setTimer_setTimer, State.setIif, setBit_tint, Timer.cp, Bool.and_eq_true,
    Bool.not_eq_true']
  generalize (if n.ctl.getLsbD 8 = true then !n.tstat else true) = level
  by_cases h : level = true ∧ n.tstat = false
  · rw [if_pos h, if_pos h]
    rfl
  · rw [if_neg h, if_neg h]
    rfl

theorem timerAt_timer (level : Bool) : (s.timerAt t n level).timers[t] = { n with tstat := level } :=
  timers_setTimer_self s t _

theorem timerAt_setTimer (level half : Bool) :
    (s.timerAt t n level).setTimer t { n with tstat := level, half := half } =
      s.timerAt t { n with half := half } level := by
  exact congrArg (fun u : State => { u with iif := (s.timerAt t n level).iif })
    (setTimer_setTimer s t { n with tstat := level } { n with tstat := level, half := half })

theorem setTimer_timerAt (n' : Timer) (level : Bool) : (s.setTimer t n').timerAt t n level = s.timerAt t n level := by
  simp only [State.timerAt, setTimer_setTimer, State.setTimer_iif]

theorem timerEvent_eq : timerEvent t s =
    s.timerAt t s.timers[t] (if s.timers[t].ctl.getLsbD 8 then !s.timers[t].tstat else true) := by
  rw [← timerEvent_setTimer, setTimer_self]

theorem tint_getLsbD (w : Word) : (w ||| (if t = 0 then 0x01000000 else 0x80000000)).getLsbD
    (if t = 0 then 24 else 31) =
    true := by
  fin_cases t <;> simp

/-- The flag after an event: it was set, or TSTAT rises. -/
theorem timerAt_flag (level : Bool) : (s.timerAt t n level).iif.getLsbD (if t = 0 then 24 else 31) =
    (s.iif.getLsbD (if t = 0 then 24 else 31) || (level && !n.tstat)) := by
  by_cases h : level = true ∧ n.tstat = false
  · have hrise : (level && !n.tstat) = true := by simp [h]
    rw [hrise, Bool.or_true, State.timerAt, if_pos h, tint_getLsbD]
  · have hrise : (level && !n.tstat) = false := by simpa using h
    rw [hrise, Bool.or_false, State.timerAt, if_neg h]

end

section

variable {s : State} {t : Fin 2}

theorem timerTick_held (hhld : s.timers[t].ctl.getLsbD 7 = false) : timerTick t s = s :=
  if_pos (by rw [Timer.hld, hhld]; rfl)

theorem timerH1_held (hhld : s.timers[t].ctl.getLsbD 7 = false) : timerH1 t s = s :=
  if_pos (by rw [Timer.hld, hhld]; rfl)

section

variable (hhld : s.timers[t].ctl.getLsbD 7 = true)

include hhld

theorem timerTick_run : timerTick t s =
    if s.timers[t].go then s.setTimer t { s.timers[t] with counter := 0, ctl := setBit s.timers[t].ctl 6 false }
    else if s.timers[t].atZero then (if s.timers[t].cp then s else timerEvent t s)
    else if s.timers[t].counter + 1 = s.timers[t].period then
      timerEvent t (s.setTimer t { s.timers[t] with counter := 0 })
    else s.setTimer t { s.timers[t] with counter := s.timers[t].counter + 1 } :=
  if_neg (by rw [Timer.hld, hhld]; exact Bool.false_ne_true)

theorem timerTick_go (hgo : s.timers[t].ctl.getLsbD 6 = true) : timerTick t s =
    s.setTimer t { s.timers[t] with counter := 0, ctl := s.timers[t].ctl &&& 0xFFFFFFBF } :=
  (timerTick_run hhld).trans (if_pos hgo)

theorem timerTick_still (hstill : s.timers[t].still = true) :
    timerTick t s = if s.timers[t].ctl.getLsbD 8 then s else s.timerAt t s.timers[t] true := by
  obtain ⟨hzero, hgo⟩ : s.timers[t].atZero = true ∧ s.timers[t].go = false := by
    rwa [still_eq, Bool.and_eq_true, Bool.not_eq_true'] at hstill
  rw [timerTick_run hhld, hgo, if_neg Bool.false_ne_true, if_pos hzero, timerEvent_eq, Timer.cp]
  split <;> rfl

theorem timerTick_counts (hgo : s.timers[t].ctl.getLsbD 6 = false) (hmoves : s.timers[t].still = false) :
    timerTick t s = if s.timers[t].counter + 1 = s.timers[t].period
      then s.timerAt t { s.timers[t] with counter := 0 }
        (if s.timers[t].ctl.getLsbD 8 then !s.timers[t].tstat else true)
      else s.setTimer t { s.timers[t] with counter := s.timers[t].counter + 1 } := by
  have hgo : s.timers[t].go = false := hgo
  have hzero : s.timers[t].atZero = false := by
    rwa [still_eq, hgo, Bool.not_false, Bool.and_true] at hmoves
  rw [timerTick_run hhld, hgo, if_neg Bool.false_ne_true, hzero, if_neg Bool.false_ne_true, timerEvent_setTimer]

end

/-! ## The H1 cycle (R771, R773, R774) -/

/-- The end of a pulse as the statement has it: TSTAT stays in clock mode and at the boundary case. -/
theorem endPulse_eq (t : Fin 2) (s : State) : endPulse t s = s.setTimer t { s.timers[t] with
    tstat := s.timers[t].tstat && (s.timers[t].ctl.getLsbD 8 || s.timers[t].still) } := by
  have hguard : (!s.timers[t].cp && !(s.timers[t].atZero && !s.timers[t].go)) =
      !(s.timers[t].ctl.getLsbD 8 || s.timers[t].still) := (Bool.not_or _ _).symm
  unfold endPulse
  simp only [hguard]
  cases s.timers[t].ctl.getLsbD 8 || s.timers[t].still
  · simp only [Bool.not_false, if_true, Bool.and_false]
  · simp only [Bool.not_true, Bool.false_eq_true, if_false, Bool.and_true]
    exact (setTimer_self s t).symm

theorem fastClock_eq (t : Fin 2) (s : State) :
    fastClock t s = if s.timers[t].ctl.getLsbD 8 && s.timers[t].still then timerEvent t s else s := by
  have hguard : (s.timers[t].cp && s.timers[t].atZero && !s.timers[t].go) =
      (s.timers[t].ctl.getLsbD 8 && s.timers[t].still) := Bool.and_assoc _ _ _
  unfold fastClock
  simp only [hguard]

theorem timerH1_run (hhld : s.timers[t].ctl.getLsbD 7 = true) {u : State} (hu : fastClock t (endPulse t s) = u) :
    timerH1 t s = if !u.timers[t].half && u.timers[t].clksrc
      then timerTick t (u.setTimer t { u.timers[t] with half := !u.timers[t].half })
      else u.setTimer t { u.timers[t] with half := !u.timers[t].half } := by
  subst hu
  exact if_neg (by rw [Timer.hld, hhld]; exact Bool.false_ne_true)

/-- In clock mode at the boundary case TSTAT follows H1 and the tick counts nothing. -/
theorem timerH1_fastClock (hhld : s.timers[t].ctl.getLsbD 7 = true) (hstill : s.timers[t].still = true)
    (hcp : s.timers[t].ctl.getLsbD 8 = true) :
    timerH1 t s = s.timerAt t { s.timers[t] with half := !s.timers[t].half } (!s.timers[t].tstat) := by
  have hpulse : endPulse t s = s := by
    rw [endPulse_eq, hcp, Bool.true_or, Bool.and_true]
    exact setTimer_self s t
  have hclock : fastClock t (endPulse t s) = s.timerAt t s.timers[t] (!s.timers[t].tstat) := by
    rw [hpulse, fastClock_eq, hcp, hstill, timerEvent_eq, hcp]
    rfl
  have hidle : timerTick t (s.timerAt t { s.timers[t] with half := !s.timers[t].half } (!s.timers[t].tstat)) =
      s.timerAt t { s.timers[t] with half := !s.timers[t].half } (!s.timers[t].tstat) := by
    rw [timerTick_still (by rw [timerAt_timer]; exact hhld) (by rw [timerAt_timer]; exact hstill), timerAt_timer,
      if_pos hcp]
  rw [timerH1_run hhld hclock, timerAt_timer, timerAt_setTimer, hidle, ite_self]

theorem timerH1_eq (hhld : s.timers[t].ctl.getLsbD 7 = true)
    (hmoves : s.timers[t].still = false ∨ s.timers[t].ctl.getLsbD 8 = false) :
    let u := s.setTimer t { s.timers[t] with
      half := !s.timers[t].half, tstat := s.timers[t].tstat && (s.timers[t].ctl.getLsbD 8 || s.timers[t].still) }
    timerH1 t s = if s.timers[t].half = false ∧ s.timers[t].ctl.getLsbD 9 = true then timerTick t u else u := by
  have hslow : (s.timers[t].ctl.getLsbD 8 && s.timers[t].still) = false := by
    rcases hmoves with h | h
    · rw [h, Bool.and_false]
    · rw [h, Bool.false_and]
  have hclock : fastClock t (endPulse t s) = s.setTimer t { s.timers[t] with
      tstat := s.timers[t].tstat && (s.timers[t].ctl.getLsbD 8 || s.timers[t].still) } := by
    rw [endPulse_eq, fastClock_eq, timers_setTimer_self]
    exact if_neg (Bool.eq_false_iff.1 hslow)
  rw [timerH1_run hhld hclock, timers_setTimer_self, setTimer_setTimer]
  simp only [Timer.clksrc, Bool.and_eq_true, Bool.not_eq_true']

/-! ## The pin and the control register (R773, R776) -/

theorem tclkEvent_eq (t : Fin 2) (level : Bool) (s : State) :
    let pin : State := { s with pins := { s.pins with tclk := s.pins.tclk.set t level } }
    tclkEvent t level s = if s.timers[t].ctl.getLsbD 9 = false ∧
      (s.timers[t].ctl.getLsbD 0 = true ∨ s.timers[t].ctl.getLsbD 1 = false) ∧
      (if s.timers[t].ctl.getLsbD 10 then s.pins.tclk[t] = true ∧ level = false
        else s.pins.tclk[t] = false ∧ level = true)
      then timerTick t pin else pin := by
  intro pin
  have hedge : (if s.timers[t].inv then s.pins.tclk[t] && !level else !s.pins.tclk[t] && level) = true ↔
      if s.timers[t].ctl.getLsbD 10 then s.pins.tclk[t] = true ∧ level = false
        else s.pins.tclk[t] = false ∧ level = true := by
    rw [Timer.inv]
    split <;> simp only [Bool.and_eq_true, Bool.not_eq_true']
  have hguard {edge : Bool} {P : Prop} (h : edge = true ↔ P) :
      (!s.timers[t].clksrc && (s.timers[t].func || !s.timers[t].io) && edge) = true ↔
        s.timers[t].ctl.getLsbD 9 = false ∧
        (s.timers[t].ctl.getLsbD 0 = true ∨ s.timers[t].ctl.getLsbD 1 = false) ∧
          P := by
    rw [Bool.and_eq_true, Bool.and_eq_true, Bool.or_eq_true, Bool.not_eq_true', Bool.not_eq_true', h, and_assoc]
    exact Iff.rfl
  exact if_congr (hguard hedge) rfl rfl

/-- A write of the control register stores its R/W bits; a rise of DATOUT that drives the timer is a tick. -/
theorem timerCtlWrite_eq (t : Fin 2) (v : Word) (s : State) :
    let u := s.setTimer t { s.timers[t] with ctl := v &&& 0x7C7 }
    timerCtlWrite t v s = if v.getLsbD 0 = false ∧ v.getLsbD 1 = true ∧ v.getLsbD 9 = false ∧
      v.getLsbD 2 = true ∧ s.timers[t].ctl.getLsbD 2 = false then timerTick t u else u := by
  intro u
  have stored {i : Nat} (hi : (0x7C7#32).getLsbD i = true) : (v &&& 0x7C7#32).getLsbD i = v.getLsbD i :=
    getLsbD_and_mask hi v
  have hguard : (!(v &&& 0x7C7#32).getLsbD 0 && (v &&& 0x7C7#32).getLsbD 1 && !(v &&& 0x7C7#32).getLsbD 9 &&
      (v &&& 0x7C7#32).getLsbD 2 && !s.timers[t].ctl.getLsbD 2) = true ↔
      v.getLsbD 0 = false ∧ v.getLsbD 1 = true ∧
        v.getLsbD 9 = false ∧ v.getLsbD 2 = true ∧ s.timers[t].ctl.getLsbD 2 = false := by
    rw [stored (by decide), stored (by decide), stored (by decide), stored (by decide)]
    simp only [Bool.and_eq_true, Bool.not_eq_true', and_assoc]
  exact if_congr hguard rfl rfl

/-- What a read of the control register shows beside the stored bits: DATIN and TSTAT. -/
theorem timerCtlRead_fields (hctl : s.timers[t].ctl &&& 0x7C7 = s.timers[t].ctl) :
    timerCtlRead t s &&& 0x7C7 = s.timers[t].ctl ∧ timerCtlRead t s &&& 0xFFFFF030 = 0 ∧
      (timerCtlRead t s).getLsbD 11 = s.timers[t].tstat ∧ (timerCtlRead t s).getLsbD 3 = timerDatin t s := by
  have kept {mask : Word} (h3 : mask.getLsbD 3 = false) (h11 : mask.getLsbD 11 = false) :
      timerCtlRead t s &&& mask = s.timers[t].ctl &&& mask := by
    rw [timerCtlRead, setBit_and_mask (by decide) h11, setBit_and_mask (by decide) h3]
  refine ⟨(kept (by decide) (by decide)).trans hctl, (kept (by decide) (by decide)).trans ?_, ?_, ?_⟩
  · rw [← hctl, BitVec.and_assoc]
    exact BitVec.and_zero
  · rw [timerCtlRead, setBit_getLsbD _ _ _ _ (by decide), if_pos rfl]
  · rw [timerCtlRead, setBit_getLsbD _ _ _ _ (by decide), if_neg (by decide), setBit_getLsbD _ _ _ _ (by decide),
      if_pos rfl]

/-! ## The period (R774, R775) -/

/-- A count below the period and the next one. -/
theorem count_succ_eq_iff {p : Word} {k : Nat} (hk : k < p.toNat) :
    BitVec.ofNat 32 k + 1 = p ↔ k + 1 = p.toNat := by
  have hp := p.isLt
  constructor <;> intro h <;> bv_omega

/-- The tick at a count below the period. -/
theorem timerTick_counting (hhld : s.timers[t].ctl.getLsbD 7 = true) (hgo : s.timers[t].ctl.getLsbD 6 = false)
    {k : Nat} (hk : k < s.timers[t].period.toNat) :
    timerTick t (s.setTimer t { s.timers[t] with counter := BitVec.ofNat 32 k }) =
      if k + 1 = s.timers[t].period.toNat
      then s.timerAt t { s.timers[t] with counter := 0 }
        (if s.timers[t].ctl.getLsbD 8 then !s.timers[t].tstat else true)
      else s.setTimer t { s.timers[t] with counter := BitVec.ofNat 32 (k + 1) } := by
  have hperiod : (s.timers[t].period == 0) = false := by
    rw [beq_eq_false_iff_ne]
    rintro h
    rw [h] at hk
    exact Nat.not_lt_zero k hk
  have hmoves : ({ s.timers[t] with counter := BitVec.ofNat 32 k } : Timer).still = false := by
    rw [Timer.still, hperiod, Bool.and_false, Bool.false_and]
  rw [timerTick_counts (by rwa [timers_setTimer_self]) (by rwa [timers_setTimer_self])
    (by rwa [timers_setTimer_self])]
  simp only [timers_setTimer_self, setTimer_setTimer, setTimer_timerAt, count_succ_eq_iff hk,
    BitVec.ofNat_add]
  rfl

/-- From a counter of 0 the ticks count, up to the tick before the period. -/
theorem timerTick_iterate (hcounter : s.timers[t].counter = 0) (hhld : s.timers[t].ctl.getLsbD 7 = true)
    (hgo : s.timers[t].ctl.getLsbD 6 = false) (k : Nat) (hk : k < s.timers[t].period.toNat) :
    (timerTick t)^[k] s = s.setTimer t { s.timers[t] with counter := BitVec.ofNat 32 k } := by
  induction k with
  | zero =>
    rw [← show s.timers[t].counter = BitVec.ofNat 32 0 from hcounter]
    exact (setTimer_self s t).symm
  | succ k ih =>
    have hcount := timerTick_counting hhld hgo (k := k) (by omega)
    rw [Function.iterate_succ_apply', ih (by omega), hcount, if_neg (by omega)]

/-- The tick at the period is the event. -/
theorem timerTick_period (hcounter : s.timers[t].counter = 0) (hperiod : s.timers[t].period ≠ 0)
    (hhld : s.timers[t].ctl.getLsbD 7 = true) (hgo : s.timers[t].ctl.getLsbD 6 = false) :
    (timerTick t)^[s.timers[t].period.toNat] s =
      s.timerAt t { s.timers[t] with counter := 0 }
        (if s.timers[t].ctl.getLsbD 8 then !s.timers[t].tstat else true) := by
  have hpos : s.timers[t].period.toNat ≠ 0 := fun h => hperiod (BitVec.eq_of_toNat_eq h)
  obtain ⟨k, hk⟩ := Nat.exists_eq_succ_of_ne_zero hpos
  rw [hk, Function.iterate_succ_apply', timerTick_iterate hcounter hhld hgo k (by omega),
    timerTick_counting hhld hgo (by omega), if_pos hk.symm]

end

/-- Settles O56: the control register by its fields, each event by the cases of the tick and of the H1 cycle, and the
period by counting the ticks. -/
theorem timerPeriod : Obligations.TimerPeriod := by
  refine ⟨fun s t v hlatch => ?_, fun s t b hhld => ?_, fun s t hcounter hperiod hhld hgo => ?_⟩
  · intro m base u
    have hbase : base.toNat = 0x100020 + 16 * t.val := by
      revert t
      decide
    obtain ⟨hread, hwrite⟩ := access_timer v hlatch t (a := base) (o := 0) (by decide) hbase
    refine ⟨hwrite.trans (congrArg (Res.ok ()) (timerCtlWrite_eq t v s)), fun hctl => ?_,
      fun hhld => ⟨timerTick_held hhld, timerH1_held hhld⟩, fun hhld hgo => timerTick_go hhld hgo⟩
    obtain ⟨hstored, hzero, htstat, hdatin⟩ := timerCtlRead_fields hctl
    exact ⟨_, hread, hstored, hzero, htstat, hdatin⟩
  · intro m still put event pin
    exact ⟨timerTick_counts hhld, timerTick_still hhld,
      fun hstill hcp => congrArg (Res.ok ()) (timerH1_fastClock hhld hstill hcp),
      fun hmoves => congrArg (Res.ok ()) (timerH1_eq hhld hmoves), congrArg (Res.ok ()) (tclkEvent_eq t b s)⟩
  · intro p
    refine ⟨fun k hk => ?_, ?_⟩
    · rw [timerTick_iterate hcounter hhld hgo k hk, timers_setTimer_self]
      exact ⟨Nat.mod_eq_of_lt (hk.trans s.timers[t].period.isLt), rfl, rfl⟩
    · intro u
      have hu : u = s.timerAt t { s.timers[t] with counter := 0 }
          (if s.timers[t].ctl.getLsbD 8 then !s.timers[t].tstat else true) :=
        timerTick_period hcounter hperiod hhld hgo
      rw [hu, timerAt_timer, timerAt_flag]
      exact ⟨rfl, rfl, rfl⟩

end Sys2Proof.Machine

/-! Reset (70_reset_and_hazards.md R850 to R853), and the boot loader step by step (R856 to R858). -/

namespace Sys2Proof.Machine

/-! ## The reset event (R850, R851) -/

theorem resetVector_eq : ∀ loc : BitVec 2, resetVector loc =
    if loc = 0 then 0 else if loc = 1 then 0x7FFFFFFF else if loc = 2 then 0x80000000 else 0xFFFFFFFF := by
  decide

/-- The reset vector is not in the peripheral space, so its read leaves the registers there. -/
theorem resetVector_off_periph : ∀ (romen : Bool) (loc : BitVec 2), region romen (resetVector loc) ≠ .periph := by
  decide

/-- The reset event: the state that reset writes, but for what the read of the vector drives, with the vector in pc. -/
theorem resetEvent_ok {s t : State} (h : resetEvent s = .ok () t) :
    ∃ (u : State) (x y : BitVec 4) (f : Nat),
      dataRead (resetVector s.resetloc) (resetState s) = .ok t.pc u ∧
      t = { resetState s with
        pc := t.pc
        boot := if s.romen && s.resetloc == 0 then some .start else none
        pins := { (resetState s).pins with stat := x, lstat := y }
        free := f } := by
  obtain ⟨v, u, hread, ht⟩ := Res.bind_eq_ok h
  obtain ⟨p, d, x, y, f, hu, hkept⟩ := memRead_state hread
  obtain ⟨hp, hd⟩ := hkept (resetVector_off_periph s.romen s.resetloc)
  subst hp hd
  obtain ⟨-, rfl⟩ := Res.ok.inj ht
  refine ⟨u, x, y, f, hread, ?_⟩
  rw [hu, show s.romen = (resetState s).romen from rfl, show s.resetloc = (resetState s).resetloc from rfl]

theorem resetState_ports (s : State) : ∀ x : Fin 6, (resetState s).ports[x] = Port.reset (decide (x.val ≤ 2)) := by
  have hports : ∀ x : Fin 6, State.reset.ports[x] = Port.reset (decide (x.val ≤ 2)) := by decide
  exact hports

theorem resetState_timers (s : State) : ∀ i : Fin 2, (resetState s).timers[i] = Timer.reset := by
  have htimers : ∀ i : Fin 2, State.reset.timers[i] = Timer.reset := by decide
  exact htimers

theorem resetState_dma (s : State) (c : Fin 6) : (resetState s).dma[c] = Dma.warm (s.free + 128) c.val :=
  Vector.getElem_ofFn _

theorem resetState_present (s : State) (g : Fin 4) : (resetState s).cache.segs[g].p = 0 :=
  congrArg Segment.p (Vector.getElem_ofFn _)

/-! ## A boundary of the boot loader (R856) -/

theorem step_boot {s t : State} {p : BootPhase} {l : List Boundary}
    (hscript : s.script = { events := [], defer := false } :: l) (hboot : s.boot = some p)
    (hstep : bootStep p (latchDma s.opened) = .ok () t) : step s = .next t := by
  have hblocked : s.irqBlocked = true := by simp [State.irqBlocked, hboot]
  have hbound : atBoundary s = .ok true t := by
    rw [atBoundary_quiet hscript, hblocked, if_pos rfl, hboot]
    exact congrArg (fun r => (agentStep r (latchDma s.opened)).bind fun _ u => Res.ok true u) hstep
  rw [step, advance, hbound]

/-! ## Where the program is (R857) -/

section

variable {s : State}

theorem bootStep_start (h0 : s.pins.iiof[0] = true) :
    bootStep .start s = .ok () { s with sp := 0x2FFFF0, boot := some .poll } := by
  have hlife : bootLifeTest s = false := by simp [bootLifeTest, h0]
  exact if_neg (by rw [hlife]; exact Bool.false_ne_true)

theorem bootStep_memory {a : Word} (h : bootSelect s = some (some a)) :
    bootStep .poll s = .ok () { s with boot := some (.width a) } := by
  rw [bootStep, h]
  rfl

theorem bootStep_port {x : Fin 6} (h : bootSelect s = none) (hport : bootPort s = some x) :
    bootStep .poll s = .ok () { s with boot := some (.gmicr (.port x)) } := by
  rw [bootStep, h, hport]
  rfl

theorem bootStep_waits (h : bootSelect s = none) (hport : bootPort s = none) : bootStep .poll s = .ok () s := by
  rw [bootStep, h, hport]

/-- The rows of the pin patterns that name a memory. -/
theorem bootSelect_memory (h0 : s.pins.iiof[0] = true) : ∀ p ∈ [(true, true, false, (0x00300000 : Word)),
      (true, false, true, 0x40000000), (true, false, false, 0x60000000), (false, true, true, 0x80000000),
      (false, true, false, 0xA0000000), (false, false, true, 0xC0000000)],
    s.pins.iiof[3] = p.1 → s.pins.iiof[2] = p.2.1 → s.pins.iiof[1] = p.2.2.1 →
      bootSelect s = some (some p.2.2.2) := by
  simp only [List.forall_mem_cons, List.not_mem_nil, false_imp_iff, implies_true, and_true]
  refine ⟨?_, ?_, ?_, ?_, ?_, ?_⟩
  all_goals
    intro h3 h2 h1
    rw [bootSelect, h0, h3, h2, h1]
    rfl

theorem bootSelect_ports (h0 : s.pins.iiof[0] = true) (h3 : s.pins.iiof[3] = true) (h2 : s.pins.iiof[2] = true)
    (h1 : s.pins.iiof[1] = true) : bootSelect s = none := by
  rw [bootSelect, h0, h3, h2, h1]
  rfl

theorem icrdy_iff (p : Port) : p.icrdy = true ↔ p.inq ≠ [] := by
  rw [Port.icrdy, Bool.not_eq_true', List.isEmpty_eq_false_iff]

theorem bootPort_eq_some_iff {x : Fin 6} :
    bootPort s = some x ↔ s.ports[x].inq ≠ [] ∧ ∀ y, y < x → s.ports[y].inq = [] := by
  rw [bootPort, find?_eq_some_iff_least (by decide)]
  simp only [mem_channels, true_and, icrdy_iff, ne_eq, not_not]

theorem bootPort_eq_none_iff : bootPort s = none ↔ ∀ x : Fin 6, s.ports[x].inq = [] := by
  simp only [bootPort, List.find?_eq_none, mem_channels, true_imp_iff, icrdy_iff, ne_eq, not_not]

/-! ## The words of the stream (R857) -/

/-- A read of an input port register, where no word waits in the latch. -/
theorem memRead_portIn (k : Access) (x : Fin 6) (hfree : s.latch.waiting = none) :
    memRead k (portInAddr x) s = portRead x s := by
  have haddr : (portInAddr x).toNat = 0x100000 + 16 * (4 + x.val) + 1 := by
    revert x
    decide
  obtain ⟨hregion, hblock, hoff⟩ := periph_fields (s := s) (by omega) (by decide) haddr
  rw [memRead, hregion]
  simp only [periphRead, busHeld, hfree, hblock, hoff]
  fin_cases x <;> rfl

theorem bootWord_port {x : Fin 6} {v : Word} {q : List Word} (hfree : s.latch.waiting = none)
    (hq : s.ports[x].inq = v :: q) :
    bootWord (.port x) s = .ok (v, .port x) (s.setPort x { s.ports[x] with inq := q }) := by
  have hready : s.ports[x].icrdy = true := by rw [icrdy_iff, hq]; exact List.cons_ne_nil _ _
  have hread : dataRead (0x100041#32 + BitVec.ofNat 32 (16 * x.val)) s = _ :=
    (memRead_portIn .data x hfree).trans (portRead_oldest hq)
  rw [bootWord, if_pos hready, hread, Res.bind_ok]

theorem bootWord_port_empty {x : Fin 6} (hq : s.ports[x].inq = []) : bootWord (.port x) s = .stall none :=
  if_neg (by rw [icrdy_iff, hq]; exact fun h => h rfl)

theorem bootWord_word {a v : Word} {t : State} (h : dataRead a s = .ok v t) :
    bootWord (.memory 32 a) s = .ok (v, .memory 32 (a + 1)) t := by
  rw [bootWord, if_pos rfl, h, Res.bind_ok]

theorem bootWord_half {a v x : Word} {t u : State} (h : dataRead a s = .ok v t) (hx : dataRead (a + 1) t = .ok x u) :
    bootWord (.memory 16 a) s = .ok (x.setWidth 16 ++ v.setWidth 16, .memory 16 (a + 2)) u := by
  rw [bootWord, if_neg (by decide), if_pos rfl, h, Res.bind_ok, hx, Res.bind_ok,
    BitVec.setWidth_eq_extractLsb' (by decide), BitVec.setWidth_eq_extractLsb' (by decide)]

theorem bootWord_byte {a v x y z : Word} {t u m n : State} (h : dataRead a s = .ok v t)
    (hx : dataRead (a + 1) t = .ok x u) (hy : dataRead (a + 2) u = .ok y m) (hz : dataRead (a + 3) m = .ok z n) :
    bootWord (.memory 8 a) s =
      .ok (z.setWidth 8 ++ y.setWidth 8 ++ x.setWidth 8 ++ v.setWidth 8, .memory 8 (a + 4)) n := by
  rw [bootWord, if_neg (by decide), if_neg (by decide), h, Res.bind_ok, hx, Res.bind_ok, hy, Res.bind_ok, hz,
    Res.bind_ok, BitVec.setWidth_eq_extractLsb' (by decide), BitVec.setWidth_eq_extractLsb' (by decide),
    BitVec.setWidth_eq_extractLsb' (by decide), BitVec.setWidth_eq_extractLsb' (by decide)]

/-! ## The phases of the stream (R857) -/

theorem bootStep_width {a v : Word} {t : State} (h : dataRead a s = .ok v t) :
    ∃ w, bootStep (.width a) s = .ok () { t.wrI (.r 1) w with
      boot := some (.gmicr (if v.getLsbD 5 then .memory 32 (a + 1) else if v.getLsbD 4 then .memory 16 (a + 2)
        else .memory 8 (a + 4))) } := by
  rw [bootStep, h, Res.bind_ok]
  cases v.getLsbD 5
  · cases v.getLsbD 4
    · exact ⟨_, rfl⟩
    · exact ⟨_, rfl⟩
  · exact ⟨_, rfl⟩

section

variable {src next : BootSource} {v : Word} {t u : State} (h : bootWord src s = .ok (v, next) t)

include h

theorem bootStep_gmicr (hw : dataWrite 0x100000 v t = .ok () u) :
    bootStep (.gmicr src) s = .ok () { u with boot := some (.lmicr next) } := by
  rw [bootStep, h, Res.bind_ok, show dataWrite 0x100000#32 v t = _ from hw]
  rfl

theorem bootStep_lmicr (hw : dataWrite 0x100004 v t = .ok () u) :
    bootStep (.lmicr src) s = .ok () { u with boot := some (.size next none 0) } := by
  rw [bootStep, h, Res.bind_ok, show dataWrite 0x100004#32 v t = _ from hw]
  rfl

theorem bootStep_size (hzero : v ≠ 0) (hlv : v ≠ 0x80000000) (entry : Option Word) (last : Word) :
    bootStep (.size src entry last) s = .ok () { t with boot := some (.dest next entry v) } := by
  rw [bootStep, h, Res.bind_ok, if_neg hzero, if_neg (show v ≠ 0x80000000#32 from hlv)]
  rfl

theorem bootStep_last (hzero : v = 0) (e last : Word) :
    bootStep (.size src (some e) last) s = .ok () { t with boot := some (.ivtp next e last) } := by
  rw [bootStep, h, Res.bind_ok, if_pos hzero]
  rfl

theorem bootStep_dest (entry : Option Word) (size : Word) :
    bootStep (.dest src entry size) s = .ok () { t with boot := some (.block next (entry.getD v) size v) } := by
  rw [bootStep, h]
  rfl

theorem bootStep_block {a : Word} (hw : dataWrite a v t = .ok () u) (e left : Word) :
    bootStep (.block src e left a) s = .ok () { u with
      boot := some (if left = 1 then .size next (some e) (a + 1) else .block next e (left - 1) (a + 1)) } := by
  rw [bootStep, h, Res.bind_ok, hw, Res.bind_ok]
  split <;> rfl

theorem bootStep_ivtp (e last : Word) : bootStep (.ivtp src e last) s =
    .ok () { t with ivtp := v &&& 0xFFFFFE00, boot := some (.tvtp next e last) } := by
  rw [bootStep, h]
  rfl

theorem bootStep_tvtp (e last : Word) : bootStep (.tvtp src e last) s =
    .ok () { t with tvtp := v &&& 0xFFFFFE00, boot := some (.iack next e last) } := by
  rw [bootStep, h]
  rfl

end

end

/-! ## The end of the loader (R857, R858) -/

/-- The registers that the end of the loader writes after its source pointers. -/
def State.bootRegisters (s : State) (last a entry w : Word) : State :=
  ((((s.wrI (.ar 0) last).wrI (.ar 2) a).wrI (.r 0) 1).wrI (.r 9) entry).wrI (.r 10) w

theorem rdI_wrI_other (s : State) {d e : Reg} (v : Word) (hst : e ≠ .st) (hiif : e ≠ .iif) (hne : e ≠ d) :
    (s.wrI d v).rdI e = s.rdI e :=
  (s.keeps_wrI d v 0 [] []).reg e hst hiif (by simpa using hne)

theorem bootRegisters_reads (s : State) (last a entry w : Word) : let u := s.bootRegisters last a entry w
    u.rdI (.r 9) = entry ∧ u.rdI (.r 0) = 1 ∧ u.rdI (.ar 0) = last ∧ u.rdI (.ar 2) = a := by
  simp only [State.bootRegisters]
  refine ⟨?_, ?_, ?_, ?_⟩
  all_goals
    repeat rw [rdI_wrI_other _ _ (by decide) (by decide) (by decide)]
    exact State.rdI_wrI _ _ (by decide)

/-- The end of the loader: the registers, the four flags and the word on its stack. -/
theorem bootEnd_eq (src : BootSource) (a entry last : Word) (s : State) :
    ∃ u : State, u.pins = s.pins ∧ u.mem = s.mem ∧ ∃ w x y z f, bootEnd src a entry last s =
      (((({ u.bootRegisters last a entry w with
          rc := 0xFFFFFFFF, rs := x, re := y, sp := 0x2FFFF0, mem := Memory.setWord s.mem 0x2FFFF1 z, free := f,
          boot := none }.setSt 1 false).setSt 2 false).setSt 3 false).setSt 4 false).jump entry := by
  cases src with
  | memory width next => exact ⟨s.wrI (.ar 1) next, rfl, rfl, _, _, _, _, _, rfl⟩
  | port x => exact ⟨(s.wrI (.ar 1) (5 - BitVec.ofNat 32 x.val)).wrI (.ar 3)
      (0x100040#32 + BitVec.ofNat 32 (16 * x.val)),
      rfl, rfl, _, _, _, _, _, rfl⟩

theorem bootEnd_fields (src : BootSource) (a entry last : Word) (s : State) : let x := bootEnd src a entry last s
    x.pc = entry ∧ x.boot = none ∧ x.rdI (.r 9) = entry ∧ x.rdI (.r 0) = 1 ∧
      x.rdI (.ar 0) = last ∧ x.rdI (.ar 2) = a ∧
      x.sp = 0x2FFFF0 ∧ x.rc = 0xFFFFFFFF ∧ x.stBit 1 = false ∧ x.stBit 2 = false ∧ x.stBit 3 = false ∧
      x.stBit 4 = false ∧ x.pins = s.pins ∧
      ∀ b, b ≠ 0x2FFFF1 → Memory.word x.mem b = Memory.word s.mem b := by
  obtain ⟨u, hpins, hmem, w, x, y, z, f, hend⟩ := bootEnd_eq src a entry last s
  obtain ⟨hr9, hr0, har0, har2⟩ := bootRegisters_reads u last a entry w
  simp only [hend]
  refine ⟨rfl, rfl, hr9, hr0, har0, har2, rfl, rfl, ?_, ?_, ?_, ?_, hpins,
    fun b hb => Memory.word_setWord_other _ _ _ _ hb⟩
  all_goals
    rw [State.stBit, State.jump_st]
    simp only [setSt_getLsbD _ _ _ _ (show 1 < 16 by decide), setSt_getLsbD _ _ _ _ (show 2 < 16 by decide),
      setSt_getLsbD _ _ _ _ (show 3 < 16 by decide), setSt_getLsbD _ _ _ _ (show 4 < 16 by decide)]
    rfl

theorem bootStep_iack {s t u : State} {src next : BootSource} {v w : Word}
    (h : bootWord src (bootTest src s) = .ok (v, next) t) (hread : dataRead v (t.driveIack v false) = .ok w u)
    (e last : Word) : bootStep (.iack src e last) s = .ok () (bootEnd next v e last (u.driveIack v true)) := by
  rw [bootStep, h, Res.bind_ok, iackRead_ok hread, Res.bind_ok]

/-- Settles O7: the reset event field by field, then the loader phase by phase. -/
theorem resetWrites : Obligations.ResetWrites := by
  refine ⟨fun s t h => ?_, fun s t p l hscript hboot hstep => ?_, fun s => ?_⟩
  · obtain ⟨u, x, y, f, hread, ht⟩ := resetEvent_ok h
    clear h
    generalize t.pc = pc at hread ht ⊢
    subst ht
    refine ⟨rfl, rfl, rfl, rfl, rfl, rfl, rfl, rfl, rfl, rfl, rfl, fun i => ?_, fun x => ?_, fun c => ?_,
      resetState_present s, rfl, rfl, rfl, rfl, rfl, rfl, ?_, u, ?_⟩
    · have htimer := resetState_timers s i
      exact ⟨congrArg Timer.ctl htimer, congrArg Timer.counter htimer, congrArg Timer.period htimer⟩
    · have hport := resetState_ports s x
      exact ⟨congrArg Port.inq hport, congrArg Port.outq hport, congrArg Port.ich hport, congrArg Port.och hport,
        congrArg Port.token hport⟩
    · have hdma := resetState_dma s c
      exact ⟨congrArg Dma.ctl hdma, congrArg Dma.cnt hdma, congrArg Dma.acnt hdma⟩
    · simp only [Bool.and_eq_true, beq_iff_eq]
    · rw [← resetVector_eq]
      exact hread
  · have hopened : s.opened = { s with script := l, pins := { s.pins with stat := 15, lstat := 15 } } := by
      rw [State.opened, hscript]
      rfl
    exact step_boot hscript hboot (by rw [hopened]; exact hstep)
  · intro go
    refine ⟨fun h0 => ⟨bootStep_start h0, fun p hp h3 h2 h1 => bootStep_memory (bootSelect_memory h0 p hp h3 h2 h1),
        fun h3 h2 h1 => ?_⟩, fun a v t => bootStep_width, fun a v t h => ⟨bootWord_word h, fun x u hx =>
        ⟨bootWord_half h hx, fun y z m n => bootWord_byte h hx⟩⟩, fun x v q => bootWord_port,
      fun x => bootWord_port_empty, fun src next entry e v last size left a t u h => ?_,
      fun src next e v last w t u h hread => ⟨_, bootStep_iack h hread e last, ?_⟩⟩
    · have hselect := bootSelect_ports h0 h3 h2 h1
      exact ⟨fun x hx hy => bootStep_port hselect (bootPort_eq_some_iff.2 ⟨hx, hy⟩),
        fun hempty => bootStep_waits hselect (bootPort_eq_none_iff.2 hempty)⟩
    · exact ⟨bootStep_gmicr h, bootStep_lmicr h, fun hzero hlv => bootStep_size h hzero hlv entry last,
        fun hzero => bootStep_last h hzero e last, bootStep_dest h none size, bootStep_dest h (some e) size,
        fun hw => bootStep_block h hw e left, bootStep_ivtp h e last, bootStep_tvtp h e last⟩
    · have hmem : (u.driveIack v true).mem = u.mem := State.driveIack_mem u v true
      rw [← hmem]
      exact bootEnd_fields next v e last (u.driveIack v true)

end Sys2Proof.Machine

/-! The DMA coprocessor (61_peripherals.md R793 to R807): what lets a step of a channel start, the read and the write of
each half, the end of a block, and the seven steps of an autoinitialization. -/

namespace Sys2Proof.Machine

/-! ## A channel of the state, a bit of a field -/

section

variable (s : State) (c : Fin 6) (d : Dma)

@[simp] theorem dma_setDma_self : (s.setDma c d).dma[c] = d := Vector.getElem_set_self _

@[simp] theorem setDma_setDma (d' : Dma) : (s.setDma c d).setDma c d' = s.setDma c d' := by
  simp only [State.setDma, Vector.set_set]

end

theorem getLsbD_of_field_zero {w : Word} {lo len : Nat} (h : w.extractLsb' lo len = 0) (i : Nat) (hi : i < len) :
    w.getLsbD (lo + i) = false := by
  have hbit := congrArg (BitVec.getLsbD · i) h
  simpa [BitVec.getLsbD_extractLsb', hi] using hbit

/-! ## The fields of a channel's control register -/

section

variable {d : Dma}

theorem active_of_start (h : d.ctl.extractLsb' 22 2 = 3) : d.active = true := by
  rw [Dma.active, Dma.start, h]
  rfl

theorem auxActive_of_start (hsplit : d.ctl.getLsbD 14 = true) (h : d.ctl.extractLsb' 24 2 = 3) :
    d.auxActive = true := by
  rw [Dma.auxActive, Dma.split, hsplit, Dma.auxStart, h]
  rfl

/-- A half with words to transfer does not autoinitialize (R804, D33). -/
theorem autoPending_counting {cnt : Word} (hcnt : cnt ≠ 0) (len : Nat) (mode : BitVec 2) (between : Bool) :
    autoPending len mode cnt between none = false := by
  have hzero : (cnt == 0) = false := beq_eq_false_iff_ne.2 hcnt
  exact (congrArg (_ && ·) hzero).trans (Bool.and_false _)

theorem inAuto_of_counting (hauto : d.auto = none) (hcnt : d.cnt ≠ 0) : d.inAuto = false := by
  rw [Dma.inAuto, hauto, autoPending_counting hcnt]

theorem inAuxAuto_of_counting (hauto : d.aauto = none) (hcnt : d.acnt ≠ 0) : d.inAuxAuto = false := by
  rw [Dma.inAuxAuto, hauto, autoPending_counting hcnt]

/-- Without synchronisation of the transfers an autoinitialization is not synchronised (R808). -/
theorem autoSync_unsynced (hread : d.ctl.getLsbD 6 = false) (hwrite : d.ctl.getLsbD 7 = false) :
    d.autoSyncRead = false ∧ d.autoSyncWrite = false := by
  rw [Dma.autoSyncRead, Dma.autoSyncWrite, Dma.syncRead, Dma.syncWrite, hread, hwrite]
  exact ⟨rfl, rfl⟩

theorem comPort_eq {p : Fin 6} (h : (d.ctl.extractLsb' 15 3).toNat = p.val) : d.comPort = p :=
  Fin.ext (by rw [Dma.comPort, h]; exact Nat.mod_eq_of_lt p.isLt)

/-! ## The signals that a channel waits for (R801) -/

theorem waitsRead_eq : d.waitsRead = (d.active && d.ctl.getLsbD 6 && d.tmp.isNone && !d.rl) := by
  rw [Dma.waitsRead, Dma.syncRead]
  cases d.rl <;> simp

theorem waitsWrite_eq (hsplit : d.ctl.getLsbD 14 = false) (hauto : d.auto = none) (hcnt : d.cnt ≠ 0) :
    d.waitsWrite = (d.active && !d.wl && (d.ctl.getLsbD 7 && (d.ctl.getLsbD 6 || d.tmp.isSome))) := by
  have hsplit : d.split = false := hsplit
  rw [Dma.waitsWrite, hsplit, if_neg Bool.false_ne_true, inAuto_of_counting hauto hcnt, Bool.false_and, Bool.or_false,
    Bool.and_assoc, Dma.syncWrite, Dma.syncRead]

end

section

variable {s : State} {c : Fin 6}

/-! ## The step of a channel by its phase (R802) -/

theorem dmaStep_inactive (h : s.dma[c].active = false) : dmaStep c s = .ok () s :=
  if_pos (by rw [h]; rfl)

section

variable (hact : s.dma[c].active = true)

include hact

theorem dmaStep_primaryWrite {w : Word} (htmp : s.dma[c].tmp = some w) (hsplit : s.dma[c].ctl.getLsbD 14 = true) :
    dmaStep c s = primaryWriteStep c w s := by
  have hsplit : s.dma[c].split = true := hsplit
  unfold dmaStep
  simp only [hact, htmp, hsplit, Bool.not_true, Bool.false_eq_true, if_false, if_true]

theorem dmaStep_write {w : Word} (htmp : s.dma[c].tmp = some w) (hsplit : s.dma[c].ctl.getLsbD 14 = false) :
    dmaStep c s = if (!s.dma[c].ctl.getLsbD 7 || s.dma[c].wl) && !writeHeld (s.dma[c].ctl.getLsbD 7) c s.dma[c].dst s
      then dmaWriteStep c w s else .ok () s := by
  have hsplit : s.dma[c].split = false := hsplit
  unfold dmaStep
  simp only [hact, htmp, hsplit, Bool.not_true, Bool.false_eq_true, if_false]
  rfl

theorem dmaStep_read (htmp : s.dma[c].tmp = none) (hauto : s.dma[c].auto = none) (hcnt : s.dma[c].cnt ≠ 0) :
    dmaStep c s = if (!s.dma[c].ctl.getLsbD 6 || s.dma[c].rl) && !readHeld (s.dma[c].ctl.getLsbD 6) c s.dma[c].src s
      then dmaReadStep c s else .ok () s := by
  have hinit := inAuto_of_counting hauto hcnt
  unfold dmaStep
  simp only [hact, htmp, hinit, Bool.not_true, Bool.false_eq_true, if_false]
  rfl

/-- Without synchronisation a channel in autoinitialization makes its step. -/
theorem dmaStep_auto (htmp : s.dma[c].tmp = none) (hinit : s.dma[c].inAuto = true)
    (hread : s.dma[c].ctl.getLsbD 6 = false) (hwrite : s.dma[c].ctl.getLsbD 7 = false) :
    dmaStep c s = autoinitStep c s := by
  obtain ⟨hsyncRead, hsyncWrite⟩ := autoSync_unsynced hread hwrite
  have hready : s.dma[c].autoReady = true := by
    rw [Dma.autoReady, hsyncRead, hsyncWrite, Bool.not_false, Bool.true_or, Bool.or_true, Bool.true_or, Bool.and_true]
  unfold dmaStep
  simp only [hact, htmp, hinit, hready, hsyncRead, readHeld_unsynced, Bool.not_true, Bool.not_false, Bool.and_true,
    Bool.false_eq_true, if_false, if_true]

end

section

variable (hact : s.dma[c].auxActive = true)

include hact

theorem dmaAuxStep_write {w : Word} (htmp : s.dma[c].atmp = some w) : dmaAuxStep c s = auxWriteStep c w s := by
  unfold dmaAuxStep
  simp only [hact, htmp, Bool.not_true, Bool.false_eq_true, if_false]

theorem dmaAuxStep_read (htmp : s.dma[c].atmp = none) (hauto : s.dma[c].aauto = none) (hcnt : s.dma[c].acnt ≠ 0) :
    dmaAuxStep c s = if !s.dma[c].ctl.getLsbD 7 || s.dma[c].wl then auxReadStep c s else .ok () s := by
  have hinit := inAuxAuto_of_counting hauto hcnt
  unfold dmaAuxStep
  simp only [hact, htmp, hinit, Bool.not_true, Bool.false_eq_true, if_false]
  rfl

end

/-! ## The accesses of a channel (R786, R793, R805) -/

/-- Where the latch has no word of the agent, its write is a write of the bus. -/
theorem dmaStore_eq {ag : BusAgent} (h : ∀ l, some l = s.latch.waiting ∨ l ∈ s.latch.sent → l.agent ≠ ag)
    (a v : Word) : dmaStore ag a v s = memWrite .dma ag a v s := by
  have hsent : (s.latch.sent.any fun l => l.agent == ag) = false := by
    rw [List.any_eq_false]
    intro l hl
    simp [h l (.inr hl)]
  have hwaiting : (s.latch.waiting.any fun l => l.agent == ag) = false := by
    cases hl : s.latch.waiting with
    | none => rfl
    | some l => simp [h l (.inl hl.symm)]
  rw [dmaStore, hsent, if_neg Bool.false_ne_true, hwaiting, if_neg Bool.false_ne_true]

theorem dmaStore_empty (hlatch : s.latch = { waiting := none, sent := [] }) (ag : BusAgent) (a v : Word) :
    dmaStore ag a v s = memWrite .dma ag a v s := by
  refine dmaStore_eq (fun l hl => ?_) a v
  rw [hlatch] at hl
  rcases hl with h | h
  · cases h
  · cases h

/-- A write of an output port register through a free latch. -/
theorem memWrite_portOut (hlatch : s.latch = { waiting := none, sent := [] }) (k : Access) (ag : BusAgent) (x : Fin 6)
    (v : Word) : memWrite k ag (portOutAddr x) v s = portWrite ag x v s := by
  have haddr : (portOutAddr x).toNat = 0x100000 + 16 * (4 + x.val) + 2 := by
    revert x
    decide
  obtain ⟨hregion, hblock, hoff⟩ := periph_fields (s := s) (by omega) (by decide) haddr
  rw [memWrite, hregion]
  simp only [periphWrite, busHeld, hlatch, hblock, hoff]
  fin_cases x <;> rfl

/-! ## The reads (R793, R805) -/

theorem dmaReadStep_ok {v : Word} {u : State} (hread : memRead .dma s.dma[c].src s = .ok v u)
    (hd : u.dma[c] = s.dma[c]) (hrev : s.dma[c].ctl.getLsbD 12 = false) (hauto : s.dma[c].auto = none) :
    dmaReadStep c s = .ok () (u.setDma c { s.dma[c] with
      tmp := some v, src := s.dma[c].src + s.dma[c].sidx
      rl := if s.dma[c].ctl.getLsbD 6 then false else s.dma[c].rl }) := by
  rw [dmaReadStep, hread, Res.bind_ok]
  simp only [hd, hrev, hauto, Dma.syncRead]
  rfl

theorem auxReadStep_ok {v : Word} {u : State} (hread : memRead .dma (portInAddr s.dma[c].comPort) s = .ok v u)
    (hd : u.dma[c] = s.dma[c]) (hauto : s.dma[c].aauto = none) :
    auxReadStep c s = .ok () (u.setDma c { s.dma[c] with
      atmp := some v, wl := if s.dma[c].ctl.getLsbD 7 then false else s.dma[c].wl }) := by
  rw [auxReadStep, hread, Res.bind_ok]
  simp only [hd, hauto, Dma.syncWrite]

/-! ## The writes and the end of a block (R793, R803 to R805) -/

theorem countDown_more {d : Dma} (h : d.cnt ≠ 1) : countDown c (s.setDma c d) =
    s.setDma c { d with cnt := d.cnt - 1 } := by
  unfold countDown
  simp only [dma_setDma_self, setDma_setDma, if_neg h]

theorem countDown_last {d : Dma} (h : d.cnt = 1) :
    countDown c (s.setDma c d) = blockEnd c (s.setDma c { d with cnt := d.cnt - 1 }) := by
  unfold countDown
  simp only [dma_setDma_self, setDma_setDma, if_pos h]

theorem dmaWriteStep_ok {w : Word} {u : State} (hwrite : dmaStore (.primary c) s.dma[c].dst w s = .ok () u)
    (hd : u.dma[c] = s.dma[c]) (hrev : s.dma[c].ctl.getLsbD 13 = false) :
    dmaWriteStep c w s = .ok () (countDown c (u.setDma c { s.dma[c] with
      tmp := none, dst := s.dma[c].dst + s.dma[c].didx
      wl := if s.dma[c].ctl.getLsbD 7 then false else s.dma[c].wl })) := by
  rw [dmaWriteStep, hwrite, Res.bind_ok]
  simp only [hd, hrev, Dma.syncWrite]
  rfl

theorem auxWriteStep_ok {w : Word} {u : State} (hwrite : dmaStore (.auxiliary c) s.dma[c].dst w s = .ok () u)
    (hd : u.dma[c] = s.dma[c]) (hrev : s.dma[c].ctl.getLsbD 13 = false) (hcnt : s.dma[c].acnt ≠ 1) :
    auxWriteStep c w s = .ok () (u.setDma c { s.dma[c] with
      atmp := none, dst := s.dma[c].dst + s.dma[c].didx, acnt := s.dma[c].acnt - 1 }) := by
  rw [auxWriteStep, hwrite, Res.bind_ok]
  simp only [hd, hrev, if_neg hcnt]
  rfl

/-- The control register at the end of a block: the flag, and START = 10 where the transfer mode stops (R803, R804). -/
def endedCtl (w : Word) : Word :=
  if w.getLsbD 2 then setBit (setBit (setBit w 20 true) 23 true) 22 false else setBit w 20 true

theorem blockEnd_setDma (d : Dma) : blockEnd c (s.setDma c d) = { s.setDma c { d with ctl := endedCtl d.ctl } with
    iif := if d.ctl.getLsbD 18 then setBit s.iif (25 + c.val) true else s.iif } := by
  unfold blockEnd endedCtl dmaInt
  simp only [dma_setDma_self, setDma_setDma]
  cases d.ctl.getLsbD 2 <;> cases d.ctl.getLsbD 18 <;> rfl

theorem endedCtl_getLsbD (w : Word) (i : Nat) : (endedCtl w).getLsbD i = if i = 22 ∧ w.getLsbD 2 = true then false
    else if i = 23 ∧ w.getLsbD 2 = true ∨ i = 20 then true else w.getLsbD i := by
  unfold endedCtl
  cases w.getLsbD 2 with
  | true =>
    rw [if_pos rfl, setBit_getLsbD _ _ _ _ (by decide), setBit_getLsbD _ _ _ _ (by decide),
      setBit_getLsbD _ _ _ _ (by decide)]
    simp only [and_true, ite_or]
  | false =>
    rw [if_neg Bool.false_ne_true, setBit_getLsbD _ _ _ _ (by decide)]
    simp only [Bool.false_eq_true, and_false, if_false, false_or]

theorem endedCtl_fields {w : Word} (h : w.extractLsb' 22 2 = 3) : (endedCtl w).getLsbD 20 = true ∧
    (endedCtl w).extractLsb' 22 2 = if w.getLsbD 2 then 2 else 3 := by
  refine ⟨?_, BitVec.eq_of_getLsbD_eq fun i hi => ?_⟩
  · rw [endedCtl_getLsbD, if_neg (by omega), if_pos (.inr rfl)]
  · have hstart : w.getLsbD (22 + i) = (3 : BitVec 2).getLsbD i := by
      rw [← h, BitVec.getLsbD_extractLsb', decide_eq_true hi, Bool.true_and]
    rw [BitVec.getLsbD_extractLsb', decide_eq_true hi, Bool.true_and, endedCtl_getLsbD, hstart]
    cases w.getLsbD 2 <;> interval_cases i <;> rfl

end

/-! ## Transfers in the on-chip RAM (R793, R800, R801) -/

section

variable {s : State} {c : Fin 6} {d : Dma} (hd : s.dma[c] = d)

include hd

theorem dmaStep_readRam (hact : d.active = true) (htmp : d.tmp = none) (hauto : d.auto = none) (hcnt : d.cnt ≠ 0)
    (hready : (!d.ctl.getLsbD 6 || d.rl) = true) (hrev : d.ctl.getLsbD 12 = false) (hram : s.inRam d.src) :
    dmaStep c s = .ok () (s.setDma c { d with
      tmp := some (Memory.word s.mem d.src), src := d.src + d.sidx,
      rl := if d.ctl.getLsbD 6 then false else d.rl }) := by
  subst hd
  rw [dmaStep_read hact htmp hauto hcnt, hready, readHeld_ram _ _ hram]
  exact dmaReadStep_ok (memRead_ram hram) rfl hrev hauto

theorem dmaStep_writeRam {w : Word} (hact : d.active = true) (htmp : d.tmp = some w) (hsplit : d.ctl.getLsbD 14 = false)
    (hready : (!d.ctl.getLsbD 7 || d.wl) = true) (hrev : d.ctl.getLsbD 13 = false) (hram : s.inRam d.dst)
    (hlatch : ∀ l, some l = s.latch.waiting ∨ l ∈ s.latch.sent → l.agent ≠ .primary c) :
    dmaStep c s = .ok () (countDown c (State.setDma { s with mem := Memory.setWord s.mem d.dst w } c { d with
      tmp := none, dst := d.dst + d.didx, wl := if d.ctl.getLsbD 7 then false else d.wl })) := by
  subst hd
  rw [dmaStep_write hact htmp hsplit, hready, writeHeld_ram _ _ hram]
  exact dmaWriteStep_ok ((dmaStore_eq hlatch _ _).trans (memWrite_ram hram)) rfl hrev

/-- The two steps of an unsynchronised transfer. -/
theorem transfer_ram (hstart : d.ctl.extractLsb' 22 2 = 3) (hmode : d.ctl.extractLsb' 12 3 = 0)
    (hsync : d.ctl.extractLsb' 6 2 = 0) (htmp : d.tmp = none) (hauto : d.auto = none) (hcnt : d.cnt ≠ 0)
    (hsrc : s.inRam d.src) (hdst : s.inRam d.dst)
    (hlatch : ∀ l, some l = s.latch.waiting ∨ l ∈ s.latch.sent → l.agent ≠ .primary c) :
    let u := s.setDma c { d with tmp := some (Memory.word s.mem d.src), src := d.src + d.sidx }
    dmaStep c s = .ok () u ∧ dmaStep c u = .ok () (countDown c (State.setDma
      { s with mem := Memory.setWord s.mem d.dst (Memory.word s.mem d.src) } c
      { d with src := d.src + d.sidx, dst := d.dst + d.didx })) := by
  have hbit12 : d.ctl.getLsbD 12 = false := getLsbD_of_field_zero hmode 0 (by decide)
  have hbit13 : d.ctl.getLsbD 13 = false := getLsbD_of_field_zero hmode 1 (by decide)
  have hbit14 : d.ctl.getLsbD 14 = false := getLsbD_of_field_zero hmode 2 (by decide)
  have hbit6 : d.ctl.getLsbD 6 = false := getLsbD_of_field_zero hsync 0 (by decide)
  have hbit7 : d.ctl.getLsbD 7 = false := getLsbD_of_field_zero hsync 1 (by decide)
  intro u
  constructor
  · rw [dmaStep_readRam hd (active_of_start hstart) htmp hauto hcnt (by rw [hbit6]; rfl) hbit12 hsrc, hbit6]
    rfl
  · rw [dmaStep_writeRam (s := u) (dma_setDma_self s c _) (active_of_start hstart) rfl hbit14 (by rw [hbit7]; rfl)
      hbit13 hdst hlatch]
    simp only [u, hbit7, htmp, State.setDma, Vector.set_set]
    rfl

end

/-! ## The FIFOs of the ports (R786, R801, R805) -/

section

variable {s : State} {c x : Fin 6} (hlatch : s.latch = { waiting := none, sent := [] })

theorem readSignal_held (h : readSignal s.die c = .icrdy x) : readHeld true c (portInAddr x) s = !s.ports[x].icrdy := by
  rw [readHeld_port, h]
  rfl

theorem ocrdy_eq_true_iff (p : Port) : p.ocrdy = true ↔ p.outq.length < 8 := by
  rw [Port.ocrdy, decide_eq_true_iff]
  omega

include hlatch

theorem writeSignal_held (h : writeSignal s.die c = .ocrdy x) :
    writeHeld true c (portOutAddr x) s = !s.ports[x].ocrdy := by
  have hhas : s.latch.has (.primary c) = false := by rw [hlatch]; rfl
  rw [writeHeld_port, h, hhas]
  rfl

theorem dmaStore_portOut (ag : BusAgent) (v : Word) : dmaStore ag (portOutAddr x) v s = portWrite ag x v s :=
  (dmaStore_empty hlatch _ _ _).trans (memWrite_portOut hlatch _ _ _ _)

/-- A read of an input FIFO that ICRDY synchronises (R801). -/
theorem dmaStep_readFifo (hstart : s.dma[c].ctl.extractLsb' 22 2 = 3) (hsync : s.dma[c].ctl.getLsbD 6 = true)
    (hrl : s.dma[c].rl = true) (hsignal : readSignal s.die c = .icrdy x) (hrev : s.dma[c].ctl.getLsbD 12 = false)
    (hsrc : s.dma[c].src = portInAddr x) (htmp : s.dma[c].tmp = none) (hauto : s.dma[c].auto = none)
    (hcnt : s.dma[c].cnt ≠ 0) :
    (s.ports[x].inq = [] → dmaStep c s = .ok () s) ∧
    (∀ w q, s.ports[x].inq = w :: q → dmaStep c s = .ok () ((s.setPort x { s.ports[x] with inq := q }).setDma c
      { s.dma[c] with tmp := some w, src := s.dma[c].src + s.dma[c].sidx, rl := false })) := by
  have hstep : dmaStep c s = if s.ports[x].icrdy then dmaReadStep c s else .ok () s := by
    rw [dmaStep_read (active_of_start hstart) htmp hauto hcnt, hsync, hrl, hsrc, readSignal_held hsignal,
      Bool.not_not, Bool.or_true, Bool.true_and]
  refine ⟨fun hempty => ?_, fun w q hq => ?_⟩
  · exact hstep.trans (if_neg (by rw [icrdy_iff, hempty]; exact fun h => h rfl))
  · have hread : memRead .dma s.dma[c].src s = .ok w (s.setPort x { s.ports[x] with inq := q }) := by
      rw [hsrc, memRead_portIn _ _ (by rw [hlatch]), portRead_oldest hq]
    rw [hstep, if_pos ((icrdy_iff _).2 (by rw [hq]; exact List.cons_ne_nil _ _)), dmaReadStep_ok hread rfl hrev hauto,
      hsync, if_pos rfl]

/-- A write of an output FIFO that OCRDY synchronises (R801). -/
theorem dmaStep_writeFifo {w : Word} (hstart : s.dma[c].ctl.extractLsb' 22 2 = 3)
    (hsplit : s.dma[c].ctl.getLsbD 14 = false) (hsync : s.dma[c].ctl.getLsbD 7 = true) (hwl : s.dma[c].wl = true)
    (hsignal : writeSignal s.die c = .ocrdy x) (hrev : s.dma[c].ctl.getLsbD 13 = false)
    (hdst : s.dma[c].dst = portOutAddr x) (htmp : s.dma[c].tmp = some w) (hcnt : s.dma[c].cnt ≠ 1) :
    (8 ≤ s.ports[x].outq.length → dmaStep c s = .ok () s) ∧
    (s.ports[x].outq.length < 8 → dmaStep c s = .ok ()
      ((s.setPort x { s.ports[x] with outq := s.ports[x].outq ++ [w] }).setDma c { s.dma[c] with
        tmp := none, dst := s.dma[c].dst + s.dma[c].didx, cnt := s.dma[c].cnt - 1, wl := false })) := by
  have hstep : dmaStep c s = if s.ports[x].ocrdy then dmaWriteStep c w s else .ok () s := by
    rw [dmaStep_write (active_of_start hstart) htmp hsplit, hsync, hwl, hdst, writeSignal_held hlatch hsignal,
      Bool.not_not, Bool.or_true, Bool.true_and]
  refine ⟨fun hfull => ?_, fun hroom => ?_⟩
  · exact hstep.trans (if_neg (by rw [ocrdy_eq_true_iff]; omega))
  · have hwrite := (dmaStore_portOut hlatch (.primary c) w).trans (portWrite_room hroom)
    rw [← hdst] at hwrite
    rw [hstep, if_pos ((ocrdy_eq_true_iff _).2 hroom), dmaWriteStep_ok hwrite rfl hrev, hsync]
    exact congrArg (Res.ok ()) (countDown_more hcnt)

/-! ## Split mode (R805, D34) -/

/-- The auxiliary half writes to its destination. -/
theorem dmaAuxStep_writeRam {w : Word} (hsplit : s.dma[c].ctl.getLsbD 14 = true)
    (hstart : s.dma[c].ctl.extractLsb' 24 2 = 3) (htmp : s.dma[c].atmp = some w)
    (hrev : s.dma[c].ctl.getLsbD 13 = false) (hcnt : s.dma[c].acnt ≠ 1) (hram : s.inRam s.dma[c].dst) :
    dmaAuxStep c s = .ok () (State.setDma { s with mem := Memory.setWord s.mem s.dma[c].dst w } c { s.dma[c] with
      atmp := none, dst := s.dma[c].dst + s.dma[c].didx, acnt := s.dma[c].acnt - 1 }) := by
  rw [dmaAuxStep_write (auxActive_of_start hsplit hstart) htmp]
  exact auxWriteStep_ok ((dmaStore_empty hlatch _ _ _).trans (memWrite_ram hram)) rfl hrev hcnt

section

variable (hsplit : s.dma[c].ctl.getLsbD 14 = true) (hport : (s.dma[c].ctl.extractLsb' 15 3).toNat = x.val)

include hsplit hport

/-- The primary half writes to the output FIFO of its port. -/
theorem dmaStep_primary {w : Word} (hstart : s.dma[c].ctl.extractLsb' 22 2 = 3) (htmp : s.dma[c].tmp = some w) :
    (s.ports[x].outq.length < 8 → s.dma[c].cnt ≠ 1 → dmaStep c s = .ok ()
      ((s.setPort x { s.ports[x] with outq := s.ports[x].outq ++ [w] }).setDma c { s.dma[c] with
        tmp := none, cnt := s.dma[c].cnt - 1 })) ∧
    (8 ≤ s.ports[x].outq.length → dmaStep c s = .stall (some { port := x, word := w, agent := .primary c })) := by
  have hstep : dmaStep c s = (portWrite (.primary c) x w s).bind fun _ u =>
      .ok () (countDown c (u.setDma c { u.dma[c] with tmp := none })) := by
    rw [dmaStep_primaryWrite (active_of_start hstart) htmp hsplit, primaryWriteStep, comPort_eq hport,
      dmaStore_portOut hlatch]
  refine ⟨fun hroom hcnt => ?_, fun hfull => ?_⟩
  · rw [hstep, portWrite_room hroom, Res.bind_ok]
    exact congrArg (Res.ok ()) (countDown_more hcnt)
  · rw [hstep, portWrite_full hfull, Res.bind_stall]

/-- The auxiliary half reads the input FIFO of its port, under the latch of its signal. -/
theorem dmaAuxStep_fifo (hstart : s.dma[c].ctl.extractLsb' 24 2 = 3) (htmp : s.dma[c].atmp = none)
    (hauto : s.dma[c].aauto = none) (hcnt : s.dma[c].acnt ≠ 0) :
    (s.dma[c].ctl.getLsbD 7 = true → s.dma[c].wl = false → dmaAuxStep c s = .ok () s) ∧
    ((s.dma[c].ctl.getLsbD 7 = true → s.dma[c].wl = true) → s.ports[x].inq = [] →
      dmaAuxStep c s = .stall none) ∧
    ((s.dma[c].ctl.getLsbD 7 = true → s.dma[c].wl = true) → ∀ w q, s.ports[x].inq = w :: q →
      dmaAuxStep c s = .ok ()
      ((s.setPort x { s.ports[x] with inq := q }).setDma c { s.dma[c] with
        atmp := some w, wl := if s.dma[c].ctl.getLsbD 7 then false else s.dma[c].wl })) := by
  have hstep := dmaAuxStep_read (auxActive_of_start hsplit hstart) htmp hauto hcnt
  have hin : memRead .dma (portInAddr s.dma[c].comPort) s = portRead x s := by
    rw [comPort_eq hport, memRead_portIn _ _ (by rw [hlatch])]
  have hready (h : s.dma[c].ctl.getLsbD 7 = true → s.dma[c].wl = true) : dmaAuxStep c s = auxReadStep c s := by
    refine hstep.trans (if_pos ?_)
    cases hsync : s.dma[c].ctl.getLsbD 7 with
    | false => rfl
    | true => exact h hsync
  refine ⟨fun hsync hwl => ?_, fun h hempty => ?_, fun h w q hq => ?_⟩
  · rw [hstep, hsync, hwl]
    rfl
  · rw [hready h, auxReadStep, hin, portRead_empty hempty, Res.bind_stall]
  · rw [hready h, auxReadStep_ok (hin.trans (portRead_oldest hq)) rfl hauto]

end

end

end Sys2Proof.Machine

/-! The autoinitialization of a unified channel (61_peripherals.md R804, R806, R807), and the DMA coprocessor as a
whole. -/

namespace Sys2Proof.Machine

/-! ## The control word of a row (R807, U17, U18) -/

section

variable {c : Fin 6} {d : Dma}

/-- In unified mode all bits of a loaded control word count. -/
theorem autoCtl_unified (v ctl : Word) : autoCtl (autoBits false false) v ctl = v := by
  have hlow : v &&& 0xFFFFFFFF#32 = v := BitVec.and_allOnes
  have hhigh : ctl &&& ~~~0xFFFFFFFF#32 = 0#32 := BitVec.and_zero
  exact (congrArg₂ (· ||| ·) hlow hhigh).trans BitVec.or_zero

/-- The words of a row that count without a check: all but the control word. -/
theorem autoRefusal_other {r : DmaReg} (h : r ≠ .ctl) (v : Word) : autoRefusal c false d r v = none := by
  cases r with
  | ctl => exact absurd rfl h
  | _ => rfl

section

variable (hsplit : d.ctl.getLsbD 14 = false) {v : Word}

include hsplit

theorem autoRefusal_ctl : autoRefusal c false d .ctl v = if v.extractLsb' 8 4 ≠ d.ctl.extractLsb' 8 4
    then some .autoinitControl else if ctlReserved c v then some .dmaControlCode else none := by
  have hsplit : d.split = false := hsplit
  simp only [autoRefusal, hsplit, autoCtl_unified]

end

/-- The control word after the row keeps its START fields from the word loaded (R802, R807). -/
theorem applyCtl_running {v : Word} (hstart : v.extractLsb' 22 2 ≠ 0) (haux : v.extractLsb' 24 2 ≠ 0) :
    d.applyCtl (autoMask false false) v = { d with ctl := (v &&& 0x43CFFFFF) ||| (d.ctl &&& 0xBC300000) } := by
  let e : Dma := { d with ctl := (v &&& 0x43CFFFFF) ||| (d.ctl &&& 0xBC300000) }
  have hestart : e.start = v.extractLsb' 22 2 :=
    (extract_or_cleared (extract_mask_cleared (by decide) d.ctl)).trans (extract_mask_kept (by decide) v)
  have heaux : e.auxStart = v.extractLsb' 24 2 :=
    (extract_or_cleared (extract_mask_cleared (by decide) d.ctl)).trans (extract_mask_kept (by decide) v)
  obtain ⟨hrunning, -⟩ := applyStart_cases e
  exact hrunning (by rwa [hestart]) (by rwa [heaux])

end

/-! ## One word of a row (R806) -/

/-- What a loaded word leaves of the channel beside its register. -/
theorem load_kept (d : Dma) (r : DmaReg) (v : Word) : (d.load r v).ctl = d.ctl ∧ (d.load r v).tmp = d.tmp := by
  cases r <;> exact ⟨rfl, rfl⟩

theorem load_withAuto (d : Dma) (a : Option Autoinit) (r : DmaReg) (v : Word) :
    Dma.load { d with auto := a } r v = { d.load r v with auto := a } := by
  cases r <;> rfl

/-- The progress of the row: the one under way, or the one that begins. -/
def Dma.progress (d : Dma) : Autoinit := d.auto.getD { count := 0, ptr := d.lnk, ctl := d.ctl }

/-- A unified channel that neither synchronises its autoinitialization nor holds its link pointer. -/
structure Dma.Plain (d : Dma) : Prop where
  split : d.ctl.getLsbD 14 = false
  syncRead : d.ctl.getLsbD 6 = false
  syncWrite : d.ctl.getLsbD 7 = false
  moving : d.ctl.getLsbD 8 = false

section

variable {s : State} {c : Fin 6} {d : Dma} (hd : s.dma[c] = d) (hplain : d.Plain) (hfree : s.latch.waiting = none)
  {a : Autoinit} (ha : d.progress = a) (hram : s.inRam a.ptr) {r : DmaReg} (hr : (autoRow false).getD a.count .ctl = r)

include hd hplain hfree ha hram hr

theorem autoinitStep_refused {x : Refusal} (hx : autoRefusal c false d r (Memory.word s.mem a.ptr) = some x) :
    autoinitStep c s = .stop x := by
  have hheld : busHeld s = false := by rw [busHeld, hfree]; rfl
  have hsplit : d.split = false := hplain.split
  subst hd ha hr
  unfold Dma.progress at *
  unfold autoinitStep
  simp only [hheld, hsplit, Bool.false_eq_true, if_false, memRead_ram hram, Res.bind_ok, hx]
  rfl

/-- A word before the last one. -/
theorem autoinitStep_more (hx : autoRefusal c false d r (Memory.word s.mem a.ptr) = none) (hcount : a.count + 1 < 7) :
    autoinitStep c s = .ok () (s.setDma c { d.load r (Memory.word s.mem a.ptr) with
      auto := some { count := a.count + 1, ptr := a.ptr + 1
                     ctl := if r = .ctl then Memory.word s.mem a.ptr else a.ctl } }) := by
  have hheld : busHeld s = false := by rw [busHeld, hfree]; rfl
  have hsplit : d.split = false := hplain.split
  obtain ⟨hsyncRead, hsyncWrite⟩ := autoSync_unsynced hplain.syncRead hplain.syncWrite
  have hmoving := hplain.moving
  have hrow : (autoRow false).length = 7 := rfl
  subst hd ha hr
  unfold Dma.progress at *
  unfold autoinitStep
  simp only [hheld, hsplit, hsyncRead, hsyncWrite, hmoving, Bool.false_eq_true, if_false, memRead_ram hram, Res.bind_ok,
    hx, Autoinit.advance, autoCtl_unified, hrow, hcount, if_true, Bool.false_and]

end

/-- The last word of a row whose control word goes on and whose counter counts. -/
theorem autoinitStep_last {s : State} {c : Fin 6} {d : Dma} (hd : s.dma[c] = d) (hplain : d.Plain)
    (hfree : s.latch.waiting = none) {p w : Word} (ha : d.auto = some { count := 6, ptr := p, ctl := w })
    (hram : s.inRam p) (hstart : w.extractLsb' 22 2 ≠ 0) (haux : w.extractLsb' 24 2 ≠ 0) (hcnt : d.cnt ≠ 0) :
    autoinitStep c s = .ok () (s.setDma c { d with
      lnk := Memory.word s.mem p, ctl := (w &&& 0x43CFFFFF) ||| (d.ctl &&& 0xBC300000), auto := none }) := by
  have hheld : busHeld s = false := by rw [busHeld, hfree]; rfl
  have hsplit : d.split = false := hplain.split
  obtain ⟨hsyncRead, hsyncWrite⟩ := autoSync_unsynced hplain.syncRead hplain.syncWrite
  have hreg : (autoRow false).getD 6 .ctl = .lnk := rfl
  have hrow : ¬ 6 + 1 < (autoRow false).length := by decide
  have hctl : ¬ DmaReg.lnk = .ctl := by decide
  subst hd
  unfold autoinitStep
  simp only [hheld, hsplit, hsyncRead, hsyncWrite, ha, Option.getD_some, hreg, autoRefusal_other hctl,
    Bool.false_eq_true, if_false, memRead_ram hram, Res.bind_ok, Autoinit.advance, hrow, Bool.false_and, if_neg hctl,
    applyCtl_running hstart haux, Dma.load, hcnt, false_and]

/-! ## The seven steps of a row (R806) -/

/-- The channel with the first `k` words of its row loaded. -/
def Dma.row (d : Dma) (word : Nat → Word) : Nat → Dma
  | 0 => d
  | k + 1 => (d.row word k).load ((autoRow false).getD k .ctl) (word k)

/-- The channel after `k` steps of its row, before the last one. -/
def Dma.inRow (d : Dma) (word : Nat → Word) (k : Nat) : Dma :=
  { d.row word k with auto := some { count := k, ptr := d.lnk + BitVec.ofNat 32 k, ctl := word 0 } }

theorem row_kept (d : Dma) (word : Nat → Word) (k : Nat) :
    (d.row word k).ctl = d.ctl ∧ (d.row word k).tmp = d.tmp := by
  induction k with
  | zero => exact ⟨rfl, rfl⟩
  | succ k ih =>
    obtain ⟨hctl, htmp⟩ := load_kept (d.row word k) ((autoRow false).getD k .ctl) (word k)
    exact ⟨hctl.trans ih.1, htmp.trans ih.2⟩

/-- Steps of a channel, one after another. -/
def dmaSteps (c : Fin 6) (s : State) : Nat → Res Unit
  | 0 => .ok () s
  | k + 1 => (dmaSteps c s k).bind fun _ t => dmaStep c t

theorem two_le_iff_bit : ∀ x : BitVec 2, x.getLsbD 1 = true → 2 ≤ x.toNat := by decide

/-- An unsynchronised unified channel between transfers, in a mode that autoinitializes, with a counter of 0, and a row
in the on-chip RAM. -/
structure RowReady (s : State) (c : Fin 6) (d : Dma) : Prop where
  channel : s.dma[c] = d
  start : d.ctl.extractLsb' 22 2 = 3
  mode : d.ctl.getLsbD 3 = true
  plain : d.Plain
  cnt : d.cnt = 0
  tmp : d.tmp = none
  auto : d.auto = none
  ram : ∀ k < 7, s.inRam (d.lnk + BitVec.ofNat 32 k)
  free : s.latch.waiting = none

section

variable {s : State} {c : Fin 6} {d : Dma} (h : RowReady s c d)

/-- Word `k` of the row. -/
def rowWord (s : State) (d : Dma) (k : Nat) : Word := Memory.word s.mem (d.lnk + BitVec.ofNat 32 k)

include h

theorem RowReady.inAuto : d.inAuto = true := by
  have hmode : 2 ≤ d.mode.toNat := two_le_iff_bit _ (by
    rw [Dma.mode, BitVec.getLsbD_extractLsb', h.mode]
    rfl)
  rw [Dma.inAuto, h.auto, h.tmp, h.cnt]
  exact (Bool.and_true _).trans (decide_eq_true hmode)

/-- The first step is the control word's. -/
theorem RowReady.dmaStep_first : dmaStep c s = autoinitStep c s := by
  obtain ⟨rfl, hstart, -, hplain, -, htmp, -, -, -⟩ := id h
  exact dmaStep_auto (active_of_start hstart) htmp h.inAuto hplain.syncRead hplain.syncWrite

theorem RowReady.progress : d.progress = { count := 0, ptr := d.lnk + BitVec.ofNat 32 0, ctl := d.ctl } := by
  rw [Dma.progress, h.auto, BitVec.add_zero]
  rfl

theorem RowReady.refused {x : Refusal} (hx : autoRefusal c false d .ctl (rowWord s d 0) = some x) :
    dmaStep c s = .stop x := by
  rw [h.dmaStep_first]
  exact autoinitStep_refused h.channel h.plain h.free h.progress (h.ram 0 (by decide)) rfl hx

omit h in
theorem nextPtr (p : Word) (k : Nat) : p + BitVec.ofNat 32 k + 1 = p + BitVec.ofNat 32 (k + 1) := by
  rw [BitVec.ofNat_add, ← BitVec.add_assoc]
  rfl

theorem RowReady.begins (hx : autoRefusal c false d .ctl (rowWord s d 0) = none) :
    dmaStep c s = .ok () (s.setDma c (d.inRow (rowWord s d) 1)) := by
  rw [h.dmaStep_first]
  refine (autoinitStep_more h.channel h.plain h.free h.progress (h.ram 0 (by decide)) rfl hx
    (by decide : 0 + 1 < 7)).trans ?_
  exact congrArg (fun p => Res.ok ()
    (s.setDma c { d with auto := some { count := 1, ptr := p, ctl := rowWord s d 0 } }))
    (nextPtr d.lnk 0)

/-- A channel in its row is one that has the same control register, and steps on. -/
theorem RowReady.inRow_step {k : Nat} (hk : k < 7) :
    (d.inRow (rowWord s d) k).Plain ∧ dmaStep c (s.setDma c (d.inRow (rowWord s d) k)) =
      autoinitStep c (s.setDma c (d.inRow (rowWord s d) k)) := by
  obtain ⟨hctl, htmp⟩ := row_kept d (rowWord s d) k
  have hctl : (d.inRow (rowWord s d) k).ctl = d.ctl := hctl
  have htmp : (d.inRow (rowWord s d) k).tmp = none := htmp.trans h.tmp
  have hsplit : (d.inRow (rowWord s d) k).split = false := by rw [Dma.split, hctl]; exact h.plain.split
  have hplain : (d.inRow (rowWord s d) k).Plain := by
    obtain ⟨hsplit, hread, hwrite, hmoving⟩ := h.plain
    exact ⟨by rwa [hctl], by rwa [hctl], by rwa [hctl], by rwa [hctl]⟩
  have hinit : (d.inRow (rowWord s d) k).inAuto = true := by
    rw [Dma.inAuto, Dma.rowLength, hsplit]
    exact decide_eq_true hk
  have hself := dma_setDma_self s c (d.inRow (rowWord s d) k)
  refine ⟨hplain, dmaStep_auto ?_ ?_ ?_ ?_ ?_⟩
  · rw [hself]
    exact active_of_start (by rw [hctl, h.start])
  · rwa [hself]
  · rwa [hself]
  · rw [hself]
    exact hplain.syncRead
  · rw [hself]
    exact hplain.syncWrite

theorem RowReady.goesOn {k : Nat} (hpos : 1 ≤ k) (hk : k < 6) :
    dmaStep c (s.setDma c (d.inRow (rowWord s d) k)) = .ok () (s.setDma c (d.inRow (rowWord s d) (k + 1))) := by
  obtain ⟨hplain, hstep⟩ := h.inRow_step (k := k) (by omega)
  have hother : ∀ k, 1 ≤ k → k < 6 → (autoRow false).getD k .ctl ≠ .ctl := by decide
  have hprogress : (d.inRow (rowWord s d) k).progress =
      { count := k, ptr := d.lnk + BitVec.ofNat 32 k, ctl := rowWord s d 0 } := rfl
  refine hstep.trans ((autoinitStep_more (dma_setDma_self s c _) hplain h.free hprogress (h.ram k (by omega)) rfl
    (autoRefusal_other (hother k hpos hk) _) (by omega : k + 1 < 7)).trans ?_)
  rw [setDma_setDma, if_neg (hother k hpos hk)]
  simp only [Dma.inRow, load_withAuto, ← nextPtr]
  rfl

/-- The whole row: the control word takes effect with the last word. -/
theorem RowReady.row (hx : autoRefusal c false d .ctl (rowWord s d 0) = none) (hcnt : rowWord s d 3 ≠ 0)
    (hstart : (rowWord s d 0).extractLsb' 22 2 ≠ 0) (haux : (rowWord s d 0).extractLsb' 24 2 ≠ 0) :
    dmaSteps c s 7 = .ok () (s.setDma c { d with
      ctl := (rowWord s d 0 &&& 0x43CFFFFF) ||| (d.ctl &&& 0xBC300000), src := rowWord s d 1, sidx := rowWord s d 2
      cnt := rowWord s d 3, dst := rowWord s d 4, didx := rowWord s d 5, lnk := rowWord s d 6 }) := by
  have hsteps : ∀ k, k < 6 → dmaSteps c s (k + 1) = .ok () (s.setDma c (d.inRow (rowWord s d) (k + 1))) := by
    intro k hk
    induction k with
    | zero => exact h.begins hx
    | succ k ih => rw [dmaSteps, ih (by omega), Res.bind_ok, h.goesOn (by omega) hk]
  obtain ⟨hplain, hstep⟩ := h.inRow_step (k := 6) (by decide)
  rw [dmaSteps, hsteps 5 (by decide), Res.bind_ok, hstep, autoinitStep_last (dma_setDma_self s c _) hplain h.free rfl
    (h.ram 6 (by decide)) hstart haux hcnt, setDma_setDma, ← h.auto]
  rfl

end

/-- The reserved codes of a control word as the statement names them (R791, R792, U17). -/
theorem ctlReserved_iff (c : Fin 6) (v : Word) : ctlReserved c v = true ↔ v.extractLsb' 0 2 = 2 ∨
    6 ≤ (v.extractLsb' 15 3).toNat ∨ v.getLsbD 31 = true ∨ v.getLsbD 30 = true ∧ c ≠ 0 := by
  rw [← not_iff_not, Bool.not_eq_true, ctlReserved_eq_false_iff]
  simp only [not_or, not_and, not_not, not_le, Bool.not_eq_true, ne_eq]

/-! ## The clauses of the statement -/

section

variable {s : State} {c : Fin 6} {d : Dma}

/-- The flag of a channel's interrupt after the end of a block (R803). -/
theorem blockFlag (w : Word) (c : Fin 6) (tcc : Bool) :
    (if tcc then setBit w (25 + c.val) true else w).getLsbD (25 + c.val) = (w.getLsbD (25 + c.val) || tcc) := by
  cases tcc with
  | false => exact (Bool.or_false _).symm
  | true => rw [if_pos rfl, setBit_getLsbD _ _ _ _ (by omega), if_pos rfl, Bool.or_true]

/-- The end of the last transfer of a block. -/
theorem lastTransfer (hcnt : d.cnt = 1) (hstart : d.ctl.extractLsb' 22 2 = 3) : let v := countDown c (s.setDma c d)
    v.mem = s.mem ∧ v.dma[c].cnt = 0 ∧ v.dma[c].ctl.getLsbD 20 = true ∧
      v.dma[c].ctl.extractLsb' 22 2 = (if d.ctl.getLsbD 2 then 2 else 3) ∧
      v.iif.getLsbD (25 + c.val) = (s.iif.getLsbD (25 + c.val) || d.ctl.getLsbD 18) := by
  let e : Dma := { d with cnt := d.cnt - 1, ctl := endedCtl d.ctl }
  have hend : countDown c (s.setDma c d) = { s.setDma c e with
      iif := if d.ctl.getLsbD 18 then setBit s.iif (25 + c.val) true else s.iif } :=
    (countDown_last hcnt).trans (blockEnd_setDma _)
  have hchannel : (countDown c (s.setDma c d)).dma[c] = e := by
    rw [hend]
    exact dma_setDma_self s c e
  obtain ⟨hflag, hhalt⟩ := endedCtl_fields hstart
  intro v
  rw [show v.dma[c] = e from hchannel, show v = _ from hend]
  exact ⟨rfl, by rw [show e.cnt = d.cnt - 1 from rfl, hcnt]; rfl, hflag, hhalt, blockFlag _ _ _⟩

end

/-- Settles O57: the transfer in RAM, the synchronised one, the FIFOs, the halves of a split channel, and the row of an
autoinitialization. -/
theorem dmaUnit : Obligations.DmaUnit := by
  refine ⟨fun s c => ?_, fun s c => ?_, fun s c x w => ?_, fun s c p w => ?_, fun s c => ?_⟩
  · intro d ram done hstart hmode hsync htmp hauto hcnt hsrc hdst hlatch
    obtain ⟨hread, hwrite⟩ := transfer_ram (d := d) rfl hstart hmode hsync htmp hauto hcnt hsrc hdst hlatch
    refine ⟨_, _, hread, rfl, ?_, hwrite, ?_⟩
    · rw [dma_setDma_self]
    · by_cases hone : d.cnt = 1
      · obtain ⟨hmem, hlast⟩ := lastTransfer
            (s := { s with mem := Memory.setWord s.mem d.dst (Memory.word s.mem d.src) })
          (c := c) (d := { d with src := d.src + d.sidx, dst := d.dst + d.didx }) hone hstart
        exact ⟨hmem, fun h => absurd hone h, fun _ => hlast⟩
      · rw [countDown_more (by exact hone)]
        exact ⟨rfl, fun _ => rfl, fun h => absurd h hone⟩
  · intro d run next ram
    refine ⟨dmaStep_inactive, waitsRead_eq, waitsWrite_eq, fun hrun hauto hcnt htmp hsync => ⟨fun hrl => ?_,
      fun hrl hrev hram => ?_⟩, fun hrun hsplit hsync w htmp =>
        ⟨fun hwl => ?_, fun hwl hrev hram hcnt hlatch => ?_⟩⟩
    · rw [dmaStep_read hrun htmp hauto hcnt, hsync, hrl]
      rfl
    · rw [dmaStep_readRam (d := d) rfl hrun htmp hauto hcnt (by rw [hrl, Bool.or_true]) hrev hram, hsync]
      rfl
    · rw [dmaStep_write hrun htmp hsplit, hsync, hwl]
      rfl
    · rw [dmaStep_writeRam (d := d) rfl hrun htmp hsplit (by rw [hwl, Bool.or_true]) hrev hram
        (by rw [hlatch]; simp), countDown_more (by exact hcnt), hsync]
      rfl
  · intro d next hstart hsplit hlatch
    refine ⟨fun hsync hrl hsignal hrev hsrc htmp hauto hcnt => ?_,
      fun hsync hwl hsignal hrev hdst htmp hcnt => ?_⟩
    · obtain ⟨hempty, hword⟩ := dmaStep_readFifo hlatch hstart hsync hrl hsignal hrev hsrc htmp hauto hcnt
      exact ⟨hempty, hword w⟩
    · exact dmaStep_writeFifo hlatch hstart hsplit hsync hwl hsignal hrev hdst htmp hcnt
  · intro d next hsplit hport hlatch
    refine ⟨dmaStep_primary hlatch hsplit hport, fun hstart htmp hauto hcnt => ?_,
      fun hstart htmp hrev hcnt hram => dmaAuxStep_writeRam hlatch hsplit hstart htmp hrev hcnt hram⟩
    obtain ⟨hguarded, hempty, hword⟩ := dmaAuxStep_fifo hlatch hsplit hport hstart htmp hauto hcnt
    exact ⟨hguarded, hempty, fun h => hword h w⟩
  · intro d word steps hstart hmode hsyncRead hsyncWrite hmoving hsplit hcnt htmp hauto hram hfree bad same
    have hready : RowReady s c d :=
      ⟨rfl, hstart, hmode, ⟨hsplit, hsyncRead, hsyncWrite, hmoving⟩, hcnt, htmp, hauto, hram, hfree⟩
    have hbad : ctlReserved c (word 0) = true ↔ bad := ctlReserved_iff c (word 0)
    have hcheck := autoRefusal_ctl (c := c) (d := d) hsplit (v := word 0)
    refine ⟨fun hsame => hready.refused (hcheck.trans (if_pos hsame)), fun hsame hb => hready.refused ?_,
      fun hsame hb hcount hgo haux => ?_⟩
    · exact hcheck.trans ((if_neg (not_not.2 hsame)).trans (if_pos (hbad.2 hb)))
    · refine hready.row ?_ hcount ?_ haux
      · exact hcheck.trans ((if_neg (not_not.2 hsame)).trans (if_neg (mt hbad.1 hb)))
      · exact ne_of_eq_of_ne hgo (by decide)

end Sys2Proof.Machine
